-- ==== Sys2Proof/Word.lean ====
section
/-!
DEFINITION. The words of the QD-440: bytes, 16-bit memory words, 18-bit word addresses (spec 0.6), and the numbers that name
slots, links, terminals, parameters and floor lines.
-/

namespace Sys2Proof

/-- A byte: half of a memory word, or one character of a link. -/
abbrev Byte := BitVec 8

/-- A memory word of 16 bits (spec 0.6). -/
abbrev Word := BitVec 16

/-- A word address of 18 bits, 00000H to 3FFFFH (spec 0.6). -/
abbrev Addr := BitVec 18

/-- A run of characters, first character first. -/
abbrev Text := List Byte

/-- A slot number, 0 to 255 (R1). -/
abbrev Slot := Fin 256

/-- A board link, 0 to 3 (R84). -/
abbrev LinkId := Fin 4

/-- A post terminal's address, 0 to 15 (R147). -/
abbrev TermId := Fin 16

/-- A floor line, FL0 to FL3 (R141). -/
abbrev LineId := Fin 4

end Sys2Proof
end

