-- ==== Sys2Proof/Syntax.lean ====
section
/-!
DEFINITION. The commands the block takes: one constructor for each row of spec/opcode_table.json, with the row's operands.
-/

namespace Sys2Proof

/-- The byte lanes of a host write: a full write takes both (spec 0.5). -/
inductive Lanes where
  | both
  | high
  | low
  deriving DecidableEq, Repr

/-- The one lane of a partial write (spec 0.5). -/
inductive Half where
  | high
  | low
  deriving DecidableEq, Repr

/-- The lanes of a partial write. -/
def Half.lanes : Half → Lanes
  | .high => .high
  | .low => .low

/-- One read or write by the host, with its address, data, direction and byte lanes (spec 0.5, R49). -/
inductive HostAccess where
  | read (a : Addr)
  | write (a : Addr) (d : Word) (lanes : Lanes)
  deriving DecidableEq, Repr

/-- The part's own accesses to memory, in the order in which they are ranked behind the host's (R51). -/
inductive SideAccess where
  | landing
  | textRead
  | loadRead
  deriving DecidableEq, Repr

/-- The commands of the QD-440, in the order of spec/opcode_table.json. -/
inductive Instr where
  /-- RESET_ASSERT (R61). `landing`: a landing that has the port had begun its memory cycle (log entry 27). -/
  | resetAssert (landing : Bool)
  /-- RESET_RELEASE (R62) with the strap number (R50) and the pin levels of FL3 to FL0 (R141). -/
  | resetRelease (straps : BitVec 4) (levels : BitVec 4)
  /-- CAPTURE (R33): a full host write of `v` to address `a`, the LAST field of a record. -/
  | capture (a : Addr) (v : Word)
  /-- SIZE_WRITE (R34): a full host write to a SIZE field. -/
  | sizeWrite (a : Addr) (v : Word)
  /-- CLOSE_WRITE (R35): a full host write to a CLOSE field. -/
  | closeWrite (a : Addr) (v : Word)
  /-- PARTIAL_WRITE (R36): a one-byte host write to a LAST, SIZE or CLOSE field. -/
  | partialWrite (a : Addr) (d : Word) (half : Half)
  /-- TEXT_WRITE (R73): a host write in a TEXT window. -/
  | textWrite (a : Addr) (d : Word) (lanes : Lanes)
  /-- BULLETIN_WRITE (R113): a host write in the BULLETIN window. -/
  | bulletinWrite (a : Addr) (d : Word) (lanes : Lanes)
  /-- HOST_WRITE (R58): a host write with no row of its own. -/
  | hostWrite (a : Addr) (d : Word) (lanes : Lanes)
  /-- HOST_ACCESS_HOLD (R55): a host access presented while the Side Write Queue is full. -/
  | hostAccessHold (acc : HostAccess)
  /-- HELD_READ (R56): a host read of a word owed a landing. -/
  | heldRead (a : Addr)
  /-- LANDING (R54). -/
  | landing
  /-- TEXT_LINE_READ_ANSWER (R71). -/
  | textLineReadAnswer
  /-- LOAD_READ_ANSWER (R193). -/
  | loadReadAnswer
  /-- LOAD_COMPLETE (R196). -/
  | loadComplete
  /-- LOAD_REFUSED (R197). -/
  | loadRefused
  /-- PARAMETER_WRITE (R190): a host write to P0 to P3. -/
  | parameterWrite (p : Fin 4) (d : Word) (lanes : Lanes)
  /-- COMMAND_WORD_PARTIAL (R189): a partial write of the command word. -/
  | commandWordPartial (d : Word) (half : Half)
  /-- UNKNOWN_OPCODE (R189): a full write of the command word `w` with an opcode outside 01H to 0EH. -/
  | unknownOpcode (w : Word)
  /-- LOAD (R192), opcode 01H. -/
  | load (operand : Byte)
  /-- ROLL (R137), opcode 02H. -/
  | roll (operand : Byte)
  /-- OPEN (R135), opcode 03H. -/
  | openMarket (operand : Byte)
  /-- CLOSE (R136), opcode 04H. -/
  | closeMarket (operand : Byte)
  /-- DARK (R139), opcode 05H. -/
  | dark (operand : Byte)
  /-- SET CLOSE (R12), opcode 06H. -/
  | setClose (operand : Byte)
  /-- HALT (R13), opcode 07H. -/
  | halt (operand : Byte)
  /-- RESUME (R14), opcode 08H. -/
  | resume (operand : Byte)
  /-- SET CLOCK (R133), opcode 09H. -/
  | setClock (operand : Byte)
  /-- WATCH (R175), opcode 0AH. -/
  | watch (operand : Byte)
  /-- UNWATCH (R176), opcode 0BH. -/
  | unwatch (operand : Byte)
  /-- STATUS TEXT (R168), opcode 0CH. -/
  | statusText (operand : Byte)
  /-- REPAINT (R103), opcode 0DH. -/
  | repaint (operand : Byte)
  /-- TAPE CLEAR (R125), opcode 0EH. -/
  | tapeClear (operand : Byte)
  /-- ATTENTION_ACKNOWLEDGE (R199): a full host write of +5. -/
  | attentionAcknowledge (d : Word)
  /-- MAILBOX_SLOT_READ (R201): a host read of +14. -/
  | mailboxSlotRead
  /-- MAILBOX_MOVE_IN (R200). -/
  | mailboxMoveIn
  /-- ROLL_SLOT (R5): the next slot of the ROLL walk. -/
  | rollSlot
  /-- SESSION_DARK (R140). -/
  | sessionDark
  /-- BASE_STEP (R129). -/
  | baseStep
  /-- WHOLE_SECOND (R131). -/
  | wholeSecond
  /-- WHOLE_MINUTE (R131). -/
  | wholeMinute
  /-- BLINK_EXPIRY (R80). -/
  | blinkExpiry
  /-- SWEEP_EXPIRY (R101). -/
  | sweepExpiry
  /-- FEED_STALE (R145). -/
  | feedGoesStale
  /-- FLOOR_LINE_CHANGE (R141): the debounced level of a line becomes `level`. -/
  | floorLineChange (line : LineId) (level : Bool)
  /-- TAKE_WORK (R85). -/
  | takeWork (l : LinkId)
  /-- FRAME_SENT (R95): the last byte of the link's frame goes out. -/
  | frameSent (l : LinkId)
  /-- BOARD_ACK (R95): an answer arrives on the link, `bytes` being all the bytes of it that come in the answer wait (log entry 38). -/
  | boardAck (l : LinkId) (bytes : Text)
  /-- ANSWER_WAIT_EXPIRY (R97). -/
  | answerWaitExpiry (l : LinkId)
  /-- PROBE_INTERVAL_EXPIRY (R99). -/
  | probeIntervalExpiry (l : LinkId)
  /-- TAPE_PACE_EXPIRY (R116). -/
  | tapePaceExpiry
  /-- TURN_START (R159). -/
  | turnStart
  /-- TERMINAL_FRAME_SENT (R149). -/
  | terminalFrameSent
  /-- TERMINAL_ANSWER (R151): an answer arrives on the loop, `bytes` being all the bytes of it that come in the answer wait (log entry
  38). -/
  | terminalAnswer (bytes : Text)
  /-- TURN_MISS (R150). -/
  | turnMiss
  /-- ENTRY_KEY (R162) of terminal `t` with the key's code. -/
  | entryKey (t : TermId) (code : Byte)
  /-- QUOTE_KEY (R163). -/
  | quoteKey (t : TermId)
  /-- RECALL_KEY (R164). -/
  | recallKey (t : TermId)
  /-- CLEAR_KEY (R165). -/
  | clearKey (t : TermId)
  /-- SEND_KEY (R166). -/
  | sendKey (t : TermId)
  /-- WATCH_KEY (R173). -/
  | watchKey (t : TermId)
  /-- DROP_KEY (R174). -/
  | dropKey (t : TermId)
  /-- ACK_KEY (R186). -/
  | ackKey (t : TermId)
  /-- ARBITRATION_WAIT (R51): a host access presented in the memory cycle of the side access that has the port (log entry 6). -/
  | arbitrationWait (acc : HostAccess)
  deriving DecidableEq, Repr

end Sys2Proof
end

