-- ==== Sys2Proof/WellFormed.lean ====
section
/-!
DEFINITION. Which commands are spelled as their rows say, whatever the state: an entry key carries an entry key's code, and a
command word of the row UNKNOWN_OPCODE has an opcode outside 01H to 0EH. Every operand of every other row is admitted.
-/

namespace Sys2Proof

/-- The codes of the entry keys (Table 11-13): space, ".", "/", digits and letters. -/
def isEntryKeyCode (c : Byte) : Bool :=
  c == 0x20 || c == 0x2E || c == 0x2F || (0x30 ≤ c && c ≤ 0x39) || (0x41 ≤ c && c ≤ 0x5A)

/-- The opcodes of Table 11-8, 01H to 0EH. -/
def isKnownOpcode (op : Byte) : Bool := 0x01 ≤ op && op ≤ 0x0E

/-- The command is spelled as its row says. -/
def Instr.wellFormed : Instr → Bool
  | .entryKey _ code => isEntryKeyCode code
  | .unknownOpcode w => !isKnownOpcode (w.extractLsb' 8 8)
  | .resetAssert .. | .resetRelease .. | .capture .. | .sizeWrite .. | .closeWrite .. | .partialWrite ..
  | .textWrite .. | .bulletinWrite .. | .hostWrite .. | .hostAccessHold .. | .heldRead .. | .landing ..
  | .textLineReadAnswer .. | .loadReadAnswer .. | .loadComplete .. | .loadRefused .. | .parameterWrite ..
  | .commandWordPartial .. | .load .. | .roll .. | .openMarket .. | .closeMarket .. | .dark .. | .setClose ..
  | .halt .. | .resume .. | .setClock .. | .watch .. | .unwatch .. | .statusText .. | .repaint ..
  | .tapeClear .. | .attentionAcknowledge .. | .mailboxSlotRead .. | .mailboxMoveIn .. | .rollSlot ..
  | .sessionDark .. | .baseStep .. | .wholeSecond .. | .wholeMinute .. | .blinkExpiry .. | .sweepExpiry ..
  | .feedGoesStale .. | .floorLineChange .. | .takeWork .. | .frameSent .. | .boardAck ..
  | .answerWaitExpiry .. | .probeIntervalExpiry .. | .tapePaceExpiry .. | .turnStart ..
  | .terminalFrameSent .. | .terminalAnswer .. | .turnMiss .. | .quoteKey .. | .recallKey .. | .clearKey ..
  | .sendKey .. | .watchKey .. | .dropKey .. | .ackKey .. | .arbitrationWait .. => true

end Sys2Proof
end

