-- ==== Sys2Proof/Decode.lean ====
section
/-!
DEFINITION. The words that spell commands. spec/opcode_table.json gives no bits for any row (every row's "fields" is empty and no
row has "fixed"), so no word spells a command by the table's bits.
-/

namespace Sys2Proof

/-- The command a word spells by the table's bits: none, for every word. -/
def decodeTableWord (_nbits _w : Nat) : Option Instr := none

end Sys2Proof
end

