-- ==== Sys2Proof/Config.lean ====
section
/-!
DEFINITION. What the spec leaves open and the model leaves free, and the one value it fixes for memory that nothing has written.
-/

namespace Sys2Proof

/-- FREE VALUE (DESIGN CHOICE, log entry 13). The terminal and length bits (14 to 8) that MAILBOX TAG shows while the mailbox is
EMPTY after it has held a record. R201 states only that the word shows EMPTY with the sequence number kept. The argument is the
number of free values drawn before. -/
opaque Config.releasedTagBits : Nat → BitVec 7

/-- DESIGN CHOICE, unsafe (log entry 7). What a byte of memory that nothing has written reads as. The spec gives no contents. -/
def Config.unwrittenByte : Byte := 0

end Sys2Proof
end

