-- ==== Sys2Proof/Machine/State.lean ====
section
/-!
DEFINITION. The state of the QD-440: memory, the seven blocks of Table 0-1 and the queue of commands, all plain data, with the
value each piece takes after reset. A reset value the spec does not give is marked DESIGN CHOICE and named in notes/assumptions.
-/

namespace Sys2Proof.Machine

/-! ### Quote Engine: symbol records (chapters 1 and 2) -/

/-- The state of a slot (R1). -/
inductive SlotState where
  | unused
  | listed
  | halted
  deriving DecidableEq, Repr

/-- The base D of a slot (Table 1-2): `none` is the 0 of an UNUSED slot. -/
inductive PriceBase where
  | none
  | eighths
  | sixteenths
  | thirtySeconds
  deriving DecidableEq, Repr

/-- The tick direction of the latest trade (Table 1-2). -/
inductive Direction where
  | none
  | up
  | down
  | zeroUp
  | zeroDown
  deriving DecidableEq, Repr

/-- A slot record (R2, Table 1-2). A price of 0 means "none"; the name is empty when absent. -/
structure SlotRec where
  state : SlotState
  name : Text
  base : PriceBase
  close : Word
  last : Word
  prior : Word
  direction : Direction
  high : Word
  low : Word
  volume : BitVec 32
  stamp : Option Nat
  newHigh : Bool
  newLow : Bool
  lastSize : Option Word
  deriving DecidableEq, Repr

/-- The record every slot has after reset (R3). -/
def SlotRec.reset : SlotRec where
  state := .unused
  name := []
  base := .none
  close := 0
  last := 0
  prior := 0
  direction := .none
  high := 0
  low := 0
  volume := 0
  stamp := .none
  newHigh := false
  newLow := false
  lastSize := .none

/-- The write-back field words of a slot (R42), in the order of R53. -/
inductive WbField where
  | chg
  | high
  | low
  | flags
  | volHigh
  | volLow
  deriving DecidableEq, Repr

/-- A write-back due mark: the word of `field` for `slot` needs writing (R42). -/
structure DueMark where
  slot : Slot
  field : WbField
  deriving DecidableEq, Repr

/-- The notify countdown of a QUOTE window (R39), 0 to 255 each. -/
structure Countdown where
  reload : Nat
  counter : Nat
  deriving DecidableEq, Repr

/-- The Quote Engine (Table 0-1). `due` is a set in the order of R53. -/
structure QuoteEngine where
  slots : Vector SlotRec 256
  pendingSize : Vector (Option Word) 256
  due : List DueMark
  countdowns : Vector Countdown 8
  anomalies : Word
  deriving DecidableEq, Repr

/-- QE after reset (R3, R38, R39, R43). -/
def QuoteEngine.reset : QuoteEngine where
  slots := Vector.replicate 256 SlotRec.reset
  pendingSize := Vector.replicate 256 none
  due := []
  countdowns := Vector.replicate 8 ⟨0, 0⟩
  anomalies := 0

/-! ### Bus Path: windows, Side Write Queue, holds (chapters 2 and 3) -/

/-- The kind of a watch window (Table 2-1). -/
inductive WindowKind where
  | quote
  | text
  | bulletin
  deriving DecidableEq, Repr

/-- The offsets of the watched fields of a quote record, each when present (Table 2-1). -/
structure FieldOffsets where
  last : Option Nat
  size : Option Nat
  close : Option Nat
  chg : Option Nat
  high : Option Nat
  low : Option Nat
  flags : Option Nat
  vol : Option Nat
  deriving DecidableEq, Repr

/-- The matcher's copy of one enabled window descriptor (R27, Table 2-1). -/
structure Window where
  index : Fin 8
  kind : WindowKind
  base : Nat
  length : Nat
  stride : Nat
  firstSlot : Nat
  offsets : FieldOffsets
  notify : Nat
  deriving DecidableEq, Repr

/-- What an entry of the Side Write Queue names: a report word by its offset, +6 to +23, or a write-back word (R52). -/
inductive SideWord where
  | report (offset : Nat)
  | writeBack (mark : DueMark)
  deriving DecidableEq, Repr

/-- Why a host access is held (R55, R56, R51). -/
inductive HoldCause where
  | fullQueue
  | readWord
  | arbitration
  deriving DecidableEq, Repr

/-- The held host access. -/
structure Held where
  access : HostAccess
  cause : HoldCause
  deriving DecidableEq, Repr

/-- The Bus Path (Table 0-1). `port` is the side access to which the memory port is granted, from the moment the port is free for it to
the end of its memory cycle; `none` when no side access waits (R51, log entry 6). -/
structure BusPath where
  anchor : Addr
  windows : List Window
  queue : List SideWord
  held : Option Held
  port : Option SideAccess
  hostData : Word
  deriving DecidableEq, Repr

/-! ### Board Controller (chapters 4 and 5) -/

/-- The field kinds of a placement (R67). -/
inductive FieldKind where
  | name
  | last
  | change
  | high
  | low
  | volume
  | tick
  deriving DecidableEq, Repr

/-- A placement (R67). Its index is its place in the table. -/
structure Placement where
  slot : Slot
  link : LinkId
  kind : FieldKind
  row : Nat
  column : Nat
  width : Nat
  deriving DecidableEq, Repr

/-- A row map entry (R65). -/
inductive RowKind where
  | symbol
  | text (window : Fin 8) (line : Nat)
  deriving DecidableEq, Repr

/-- The states of a board link (R84). -/
inductive LinkState where
  | unused
  | offline
  | online
  | dark
  deriving DecidableEq, Repr

/-- An entry of a refresh queue: a CELL names a placement index, a ROW a row (R86). -/
inductive RefreshEntry where
  | cell (p : Nat)
  | row (r : Nat)
  deriving DecidableEq, Repr

/-- A cell of a blink list with its remaining tenths (R77). -/
structure BlinkCell where
  placement : Nat
  remaining : Nat
  deriving DecidableEq, Repr

/-- A line read (R71): the next word's address, the words still to read and the characters read. -/
structure LineRead where
  address : Nat
  remaining : Nat
  chars : Text
  deriving DecidableEq, Repr

/-- A piece of work (R85). A SYMBOL row carries the placement indexes whose frames have not begun. -/
inductive Piece where
  | cell (p : Nat)
  | symbolRow (r : Nat) (rest : List Nat)
  | textRow (r : Nat)
  | probe
  | blankAll
  deriving DecidableEq, Repr

/-- How far the frame in hand has come: its line is being read (R71), its bytes are going out, or its answer is awaited (R95). -/
inductive WorkPhase where
  | reading (line : LineRead)
  | sending
  | waiting
  deriving DecidableEq, Repr

/-- The piece of work in hand (R85). `fromPass`: taken at the sweep pointer (R102). `discard`: its answer is to be discarded
(R99, R105, R106). -/
structure Work where
  piece : Piece
  phase : WorkPhase
  fromPass : Bool
  discard : Bool
  deriving DecidableEq, Repr

/-- A board link (R64, R65, R77, R84 to R102). -/
structure Link where
  state : LinkState
  rows : Nat
  cols : Nat
  rowMap : List RowKind
  queue : List RefreshEntry
  stale : List Nat
  blink : List BlinkCell
  work : Option Work
  failures : Nat
  pass : Option Nat
  probeDue : Bool
  probeTimer : Bool
  frameOut : Text
  deriving DecidableEq, Repr

/-- A link after reset (R64, R83, R106). The empty `frameOut` is a DESIGN CHOICE (log entry 10). -/
def Link.reset : Link where
  state := .unused
  rows := 0
  cols := 0
  rowMap := []
  queue := []
  stale := []
  blink := []
  work := none
  failures := 0
  pass := none
  probeDue := false
  probeTimer := false
  frameOut := []

/-- The Board Controller (Table 0-1). -/
structure BoardController where
  blinkTenths : Nat
  sweepSeconds : Nat
  sweepCount : Nat
  links : Vector Link 4
  placements : List Placement
  textRequest : Option LinkId
  textLast : LinkId
  deriving DecidableEq, Repr

/-- BC after reset (R72, R83, R101, R106). -/
def BoardController.reset : BoardController where
  blinkTenths := 0
  sweepSeconds := 0
  sweepCount := 0
  links := Vector.replicate 4 Link.reset
  placements := []
  textRequest := none
  textLast := 3

/-! ### Tape Controller (chapter 6) -/

/-- A print (R107, Table 6-1). `omitMark` is the OMIT mark. -/
inductive Print where
  | trade (slot : Slot) (price : Word) (size : Option Word) (stamp : Nat) (omitMark : Bool)
  | bulletin (text : Text) (omitMark : Bool)
  deriving DecidableEq, Repr

/-- The tape mode (R119). -/
inductive TapeMode where
  | full
  | compact
  | short
  deriving DecidableEq, Repr

/-- The Tape Controller (Table 0-1). `current` holds the characters of the current print still to send. -/
structure TapeController where
  queue : List Print
  reserved : Option Text
  current : Text
  omitPending : Bool
  omitted : Word
  mode : TapeMode
  lateness : Nat
  memos : Vector (Option Nat) 256
  shadow : Vector Word 8
  timerRunning : Bool
  pace : Nat
  threshold : Nat
  late1 : Nat
  late2 : Nat
  back : Nat
  charOut : Option Byte
  deriving DecidableEq, Repr

/-- TC after reset (R112, R120, R121, R124, R128). The zeros of pace, threshold and mode bounds and the empty `charOut` are a
DESIGN CHOICE (log entry 10). -/
def TapeController.reset : TapeController where
  queue := []
  reserved := none
  current := []
  omitPending := false
  omitted := 0
  mode := .full
  lateness := 0
  memos := Vector.replicate 256 none
  shadow := Vector.replicate 8 0x2020
  timerRunning := false
  pace := 0
  threshold := 0
  late1 := 0
  late2 := 0
  back := 0
  charOut := none

/-! ### Clock and Session Unit (chapter 7) -/

/-- The trading session (R134). -/
inductive Session where
  | closed
  | preOpen
  | opened
  | dimming
  | dark
  deriving DecidableEq, Repr

/-- The function of a floor line (R141). -/
inductive LineFunction where
  | none
  | openBell
  | closeBell
  | tapeHold
  deriving DecidableEq, Repr

/-- The Clock and Session Unit (Table 0-1). `secondTaken` is the model's own: the whole second of the latest clock advance has
been taken in that advance's event (log entry 1). -/
structure ClockSession where
  clock : Nat
  trimNegative : Bool
  trimMagnitude : Nat
  trimAccumulator : Nat
  notSet : Bool
  secondTaken : Bool
  session : Session
  rollNext : Option Slot
  lineLevels : Vector Bool 4
  lineFunctions : Vector LineFunction 4
  feedStale : Bool
  feedTimeout : Nat
  feedCount : Nat
  deriving DecidableEq, Repr

/-- CS after reset (R129, R130, R132, R134, R141, R144), with the floor-line levels taken as low: the pins decide them at the
release of RESET, DESIGN CHOICE (log entry 9). -/
def ClockSession.reset : ClockSession where
  clock := 0
  trimNegative := false
  trimMagnitude := 0
  trimAccumulator := 0
  notSet := true
  secondTaken := false
  session := .closed
  rollNext := none
  lineLevels := Vector.replicate 4 false
  lineFunctions := Vector.replicate 4 .none
  feedStale := false
  feedTimeout := 0
  feedCount := 0

/-! ### Post Terminal Controller (chapters 8 and 9) -/

/-- The origin of a watch entry (R170). -/
inductive Origin where
  | dealer
  | host
  deriving DecidableEq, Repr

/-- The side of a crossing condition (R170). -/
inductive Side where
  | unknown
  | isFalse
  | isTrue
  deriving DecidableEq, Repr

/-- A watch entry (R170, Table 9-1). -/
structure WatchEntry where
  slot : Slot
  origin : Origin
  code : Fin 8
  negate : Bool
  limit : Word
  hysteresis : Byte
  reference : Word
  side : Side
  alerted : Bool
  deriving DecidableEq, Repr

/-- The messages of the response line (R158). -/
inductive Message where
  | noSymbol
  | onList
  | listFull
  | notOnList
  | pinned
  | wait
  | noEntry
  | noRecall
  | sent
  | watching (slot : Slot)
  deriving DecidableEq, Repr

/-- The response state of a terminal (R147). -/
inductive Response where
  | empty
  | entry
  | quote (slot : Slot)
  | message (m : Message)
  deriving DecidableEq, Repr

/-- A terminal record (R147). -/
structure Terminal where
  online : Bool
  misses : Nat
  clearPending : Bool
  dirty : List Nat
  response : Response
  entry : Text
  recallStack : List Slot
  statusText : Text
  watch : Vector (Option WatchEntry) 12
  alerts : List Nat
  deriving DecidableEq, Repr

/-- A terminal record after reset (R147, R171, R185). -/
def Terminal.reset : Terminal where
  online := false
  misses := 0
  clearPending := false
  dirty := []
  response := .empty
  entry := []
  recallStack := []
  statusText := List.replicate 8 0x20
  watch := Vector.replicate 12 none
  alerts := []

/-- The turn in hand (R149, R160): its terminal, the line it sent (`none`: a bare poll), whether the frame carried the
clear-screen bit, whether the answer is awaited, and whether it is to be discarded, key and all (R152). -/
structure Turn where
  terminal : TermId
  line : Option Nat
  clear : Bool
  waiting : Bool
  discard : Bool
  deriving DecidableEq, Repr

/-- A key record (R166). Its length is that of its text. -/
structure KeyRecord where
  terminal : TermId
  text : Text
  slot : Option Slot
  deriving DecidableEq, Repr

/-- The Post Terminal Controller (Table 0-1). -/
structure TerminalController where
  terminals : Vector Terminal 16
  poll : List Nat
  pointer : Nat
  turn : Option Turn
  subscribers : Vector (List Nat) 256
  keyQueue : List KeyRecord
  frameOut : Text
  deriving DecidableEq, Repr

/-- PT after reset (R147, R148, R167, R172). The empty `frameOut` and the poll pointer's 0 are a DESIGN CHOICE (log entry 10): R148
gives the pointer a value only at a successful LOAD. -/
def TerminalController.reset : TerminalController where
  terminals := Vector.replicate 16 Terminal.reset
  poll := []
  pointer := 0
  turn := none
  subscribers := Vector.replicate 256 []
  keyQueue := []
  frameOut := []

/-! ### Command and Report Unit (chapter 10) -/

/-- The configuration values LOAD takes and holds until it completes (R193, R194, Table 11-1), clamped. -/
structure Setup where
  mask : Word
  feedTimeout : Nat
  functions : Vector LineFunction 4
  directory : Nat
  placementList : Nat
  placementCount : Nat
  rowMap : Nat
  pace : Nat
  threshold : Nat
  late1 : Nat
  late2 : Nat
  back : Nat
  rows : Vector Nat 4
  cols : Vector Nat 4
  blinkTenths : Nat
  sweepSeconds : Nat
  poll : List Nat
  windows : List Window
  deriving DecidableEq, Repr

/-- The phases of LOAD (R193). -/
inductive LoadPhase where
  | configuration
  | directory
  | rowMap
  | placements
  deriving DecidableEq, Repr

/-- A LOAD under way (R193): its phase, the words of the phase's current entry taken so far, the index of that entry, the setup
held (once the CONFIGURATION phase has ended), the row kinds and placements taken, and the check that has failed, if one has. -/
structure LoadRun where
  phase : LoadPhase
  words : List Word
  entry : Nat
  setup : Option Setup
  rowKinds : List RowKind
  placements : List Placement
  failed : Option (Nat × Nat)
  deriving DecidableEq, Repr

/-- A LOAD at its acceptance (R192). -/
def LoadRun.start : LoadRun where
  phase := .configuration
  words := []
  entry := 0
  setup := none
  rowKinds := []
  placements := []
  failed := none

/-- The part state (R188). -/
inductive PartState where
  | unconfigured
  | loading (run : LoadRun)
  | ready
  deriving DecidableEq, Repr

/-- The commands that run (R189). -/
inductive RunningCommand where
  | load
  | roll
  | dark
  deriving DecidableEq, Repr

/-- The outcome of a command (R191). -/
inductive CmdOutcome where
  | done
  | running
  | refused
  deriving DecidableEq, Repr

/-- The reason of a refused command (R191). -/
inductive Reason where
  | none
  | busy
  | state
  | notLoaded
  | unknown
  | range
  | absent
  | full
  | setup
  deriving DecidableEq, Repr

/-- What COMMAND STATUS reports (R191). -/
structure CmdStatus where
  opcode : Byte
  outcome : CmdOutcome
  reason : Reason
  deriving DecidableEq, Repr

/-- The Command and Report Unit (Table 0-1). `dirty` is the set of dirty marks, by ascending offset. `tagIdle` holds the terminal
and length bits +9 shows while the mailbox is EMPTY (log entry 13). -/
structure CommandReport where
  part : PartState
  running : Option RunningCommand
  status : CmdStatus
  shadows : Vector Word 4
  flags : Word
  mask : Word
  dirty : List Nat
  mailbox : Option KeyRecord
  sequence : Byte
  tagIdle : BitVec 7
  mailText : Vector Word 4
  mailSlot : Word
  diagReason : Nat
  diagIndex : Nat
  deriving DecidableEq, Repr

/-- CR after reset (R188, R190, R191, R195, R198 to R200, Table 10-6), with no dirty mark set. -/
def CommandReport.reset : CommandReport where
  part := .unconfigured
  running := none
  status := ⟨0, .done, .none⟩
  shadows := Vector.replicate 4 0
  flags := 0
  mask := 0
  dirty := []
  mailbox := none
  sequence := 0
  tagIdle := 0
  mailText := Vector.replicate 4 0x2020
  mailSlot := 0xFFFF
  diagReason := 0
  diagIndex := 0

/-! ### The whole state -/

/-- Memory: the bytes that differ from what an unwritten byte reads as, by strictly rising key. The cell of key 2a is the high byte
(bits 15 to 8) of word a, that of key 2a + 1 its low byte (log entry 8). -/
abbrev Memory := List Host.Cell

/-- The state of the QD-440 with the memory on its memory side and the commands waiting, first in, first out. `freeDraws` counts
the free values drawn (log entry 14). -/
structure State where
  resetPin : Bool
  mem : Memory
  bp : BusPath
  qe : QuoteEngine
  bc : BoardController
  tc : TapeController
  cs : ClockSession
  pt : TerminalController
  cr : CommandReport
  freeDraws : Nat
  pending : List Instr
  deriving DecidableEq, Repr

/-- The part never faults: a write it cannot act on is counted as an anomaly (R38) and a command it cannot take is refused in
COMMAND STATUS (R191). No command of the model raises a fault, so the type has no constructor. -/
inductive Fault where
  deriving DecidableEq, Repr

/-- Why a command has no meaning. -/
inductive Refusal where
  /-- Raised by `exec` for a row whose meaning is not written. Safe: the model stops. No row is left in this state. -/
  | notModelled (mnemonic : String)
  deriving DecidableEq, Repr

/-- BP right after reset: no window, the first eight report words entered, and the port granted to the landing of the first (R51, R61,
R62). The anchor's straps are taken as 0 and the
host's data lines as 0: DESIGN CHOICE (log entries 9 and 10). -/
def BusPath.reset : BusPath where
  anchor := 0
  windows := []
  queue := [.report 6, .report 7, .report 8, .report 9, .report 10, .report 11, .report 12, .report 13]
  held := none
  port := some .landing
  hostData := 0

/-- The machine right after the release of RESET (R62): every block at its reset values, every report word marked dirty, and the
first eight of them in the Side Write Queue. -/
def State.reset : State where
  resetPin := false
  mem := []
  bp := BusPath.reset
  qe := QuoteEngine.reset
  bc := BoardController.reset
  tc := TapeController.reset
  cs := ClockSession.reset
  pt := TerminalController.reset
  cr := { CommandReport.reset with
    dirty := [6, 7, 8, 9, 10, 11, 12, 13, 14, 15, 16, 17, 18, 19, 20, 21, 22, 23] }
  freeDraws := 0
  pending := []

end Sys2Proof.Machine
end

