-- ==== Sys2Proof/Machine/Ops.lean ====
section
/-!
DEFINITION. The named operations the blocks share: byte order, bit fields, tables of fixed size, ordered sets, memory, and the
updates of the state's parts.
-/

namespace Sys2Proof.Machine

/-! ### Bytes and bit fields of words (spec 0.6, R203) -/

/-- Bits 15 to 8 of a word: its first character (spec 0.6). -/
def hiByte (w : Word) : Byte := w.extractLsb' 8 8

/-- Bits 7 to 0 of a word: its second character (spec 0.6). -/
def loByte (w : Word) : Byte := w.extractLsb' 0 8

/-- The word of two characters, the first in the high byte (spec 0.6). -/
def wordOf (h l : Byte) : Word := h ++ l

/-- The number held in bits `top` to `low` of a word (chapter 11: "bits 9–8" is a number whose low bit is bit 8). -/
def field (w : Word) (top low : Nat) : Nat := w.toNat / 2 ^ low % 2 ^ (top + 1 - low)

/-- Bit `i` of a word. -/
def bit (w : Word) (i : Nat) : Bool := w.getLsbD i

/-- One more, saturating at 65535 (R38, R111). -/
def countUp (w : Word) : Word := if w = 0xFFFF then w else w + 1

/-- A host write's bytes merged into a word: the lanes written replace, the others stay (R190, R112). -/
def mergeLanes (old d : Word) : Lanes → Word
  | .both => d
  | .high => wordOf (hiByte d) (loByte old)
  | .low => wordOf (hiByte old) (loByte d)

/-! ### Tables of fixed size -/

/-- The entry at `i`. -/
def vget {α : Type} {n : Nat} (v : Vector α n) (i : Fin n) : α := v[i.val]

/-- The table with entry `i` replaced. -/
def vset {α : Type} {n : Nat} (v : Vector α n) (i : Fin n) (x : α) : Vector α n := v.set i.val x i.isLt

/-- The table with `f` applied to every entry. -/
def vmap {α β : Type} {n : Nat} (f : α → β) (v : Vector α n) : Vector β n :=
  ⟨⟨v.toArray.toList.map f⟩, by simp⟩

/-! ### Ordered sets: each member once, by rising key (spec 0.6) -/

/-- The set with `x` joined. A member already there leaves it unchanged. -/
def insertBy {α : Type} (key : α → Nat) (x : α) : List α → List α
  | [] => [x]
  | y :: ys =>
    if key x < key y then x :: y :: ys
    else if key x = key y then y :: ys
    else y :: insertBy key x ys

/-- `x` put into a list by ascending key, behind the entries of the same key. -/
def insertAfter {α : Type} (key : α → Nat) (x : α) : List α → List α
  | [] => [x]
  | y :: ys => if key x < key y then x :: y :: ys else y :: insertAfter key x ys

/-- A set of numbers with `n` joined. -/
def join (n : Nat) (l : List Nat) : List Nat := insertBy id n l

/-- A set with `x` taken out. -/
def leave {α : Type} [DecidableEq α] (x : α) (l : List α) : List α := l.filter (fun y => y ≠ x)

/-! ### Memory (R49) -/

/-- The byte of key `k`; an unlisted key reads as `Config.unwrittenByte`. -/
def Memory.readByte : Memory → Nat → Byte
  | [], _ => Config.unwrittenByte
  | c :: m, k => if c.1 = k then c.2 else Memory.readByte m k

/-- Memory with the byte of key `k` written, in canonical form: keys rise and no cell lists what an unlisted key reads as. -/
def Memory.writeByte : Memory → Nat → Byte → Memory
  | [], k, b => if b = Config.unwrittenByte then [] else [(k, b)]
  | c :: m, k, b =>
    if k < c.1 then (if b = Config.unwrittenByte then c :: m else (k, b) :: c :: m)
    else if k = c.1 then (if b = Config.unwrittenByte then m else (k, b) :: m)
    else c :: Memory.writeByte m k b

/-- The canonical form of memory. -/
def Memory.wf : Memory → Bool
  | [] => true
  | c :: m => decide (c.2 ≠ Config.unwrittenByte) && m.all (fun d => decide (c.1 < d.1)) && Memory.wf m

/-- The word at word address `a`. -/
def Memory.readWord (m : Memory) (a : Nat) : Word := wordOf (m.readByte (2 * a)) (m.readByte (2 * a + 1))

/-- Memory with the byte lanes `lanes` of the word at `a` written (R49). -/
def Memory.writeWord (m : Memory) (a : Nat) (d : Word) : Lanes → Memory
  | .both => (m.writeByte (2 * a) (hiByte d)).writeByte (2 * a + 1) (loByte d)
  | .high => m.writeByte (2 * a) (hiByte d)
  | .low => m.writeByte (2 * a + 1) (loByte d)

/-! ### Updates of the state's parts -/

/-- The state with RESET asserted or released. -/
def State.setResetPin (s : State) (b : Bool) : State := { s with resetPin := b }
/-- The state with memory replaced. -/
def State.setMem (s : State) (m : Memory) : State := { s with mem := m }
/-- The state with the Bus Path replaced. -/
def State.setBp (s : State) (b : BusPath) : State := { s with bp := b }
/-- The state with the Quote Engine replaced. -/
def State.setQe (s : State) (q : QuoteEngine) : State := { s with qe := q }
/-- The state with the Board Controller replaced. -/
def State.setBc (s : State) (b : BoardController) : State := { s with bc := b }
/-- The state with the Tape Controller replaced. -/
def State.setTc (s : State) (t : TapeController) : State := { s with tc := t }
/-- The state with the Clock and Session Unit replaced. -/
def State.setCs (s : State) (c : ClockSession) : State := { s with cs := c }
/-- The state with the Post Terminal Controller replaced. -/
def State.setPt (s : State) (p : TerminalController) : State := { s with pt := p }
/-- The state with the Command and Report Unit replaced. -/
def State.setCr (s : State) (c : CommandReport) : State := { s with cr := c }
/-- The state with the count of free values replaced. -/
def State.setFreeDraws (s : State) (n : Nat) : State := { s with freeDraws := n }
/-- The state with the queue of commands replaced. -/
def State.setPending (s : State) (q : List Instr) : State := { s with pending := q }

/-- The part is READY (R188). -/
def State.isReady (s : State) : Bool := decide (s.cr.part = .ready)

/-- The record of slot `n` (R1). -/
def State.slot (s : State) (n : Slot) : SlotRec := vget s.qe.slots n

/-- The state with the record of slot `n` replaced. -/
def State.setSlot (s : State) (n : Slot) (r : SlotRec) : State :=
  s.setQe { s.qe with slots := vset s.qe.slots n r }

/-- The state with the pending size of slot `n` replaced (R6). -/
def State.setPendingSize (s : State) (n : Slot) (v : Option Word) : State :=
  s.setQe { s.qe with pendingSize := vset s.qe.pendingSize n v }

/-- Board link `l` (R84). -/
def State.link (s : State) (l : LinkId) : Link := vget s.bc.links l

/-- The state with board link `l` replaced. -/
def State.setLink (s : State) (l : LinkId) (k : Link) : State :=
  s.setBc { s.bc with links := vset s.bc.links l k }

/-- The record of terminal `t` (R147). -/
def State.term (s : State) (t : TermId) : Terminal := vget s.pt.terminals t

/-- The state with the record of terminal `t` replaced. -/
def State.setTerm (s : State) (t : TermId) (r : Terminal) : State :=
  s.setPt { s.pt with terminals := vset s.pt.terminals t r }

/-- The slots in ascending order. -/
def allSlots : List Slot := List.finRange 256

/-- The links in ascending order. -/
def allLinks : List LinkId := [0, 1, 2, 3]

/-- The terminals in ascending order. -/
def allTerms : List TermId := List.finRange 16

end Sys2Proof.Machine
end

