-- ==== Sys2Proof/Machine/Operands.lean ====
section
/-!
DEFINITION. What an address names: the setup block (R50), the windows (R28, R30 to R32), report words and write-back words (R52).
-/

namespace Sys2Proof.Machine

/-! ### The setup block (R50) -/

/-- The anchor's address from the strap number: the number times 4000H (R50). -/
def anchorOf (straps : BitVec 4) : Addr := BitVec.ofNat 18 (straps.toNat * 0x4000)

/-- The address of setup word `offset` (R50). -/
def setupAddr (s : State) (offset : Nat) : Addr := BitVec.ofNat 18 (s.bp.anchor.toNat + offset)

/-- The offset of an address in the setup block, A to A+123 (R50). -/
def setupOffset (s : State) (a : Addr) : Option Nat :=
  if s.bp.anchor.toNat ≤ a.toNat ∧ a.toNat ≤ s.bp.anchor.toNat + 123 then some (a.toNat - s.bp.anchor.toNat) else none

/-- The offsets of the report words (R52). -/
def reportOffsets : List Nat := [6, 7, 8, 9, 10, 11, 12, 13, 14, 15, 16, 17, 18, 19, 20, 21, 22, 23]

/-! ### Write-back words (R30, R42) -/

/-- The place of a write-back field in the order of R53. -/
def WbField.index : WbField → Nat
  | .chg => 0
  | .high => 1
  | .low => 2
  | .flags => 3
  | .volHigh => 4
  | .volLow => 5

/-- The write-back fields in the order of R53. -/
def allWbFields : List WbField := [.chg, .high, .low, .flags, .volHigh, .volLow]

/-- The key of a due mark: ascending slot, then the field order of R53. -/
def DueMark.key (m : DueMark) : Nat := 6 * m.slot.val + m.field.index

/-- The offset of a write-back field word in a quote record, when the field is present (R30). -/
def FieldOffsets.writeBack (o : FieldOffsets) : WbField → Option Nat
  | .chg => o.chg
  | .high => o.high
  | .low => o.low
  | .flags => o.flags
  | .volHigh => o.vol
  | .volLow => o.vol.map (· + 1)

/-- The window covers the slot: first slot to first slot + length / stride − 1 (R29). -/
def Window.covers (w : Window) (n : Slot) : Bool :=
  decide (w.kind = .quote) && decide (w.firstSlot ≤ n.val) && decide (n.val < w.firstSlot + w.length / w.stride)

/-- The QUOTE window that covers a slot (R29: at most one). -/
def coveringWindow (s : State) (n : Slot) : Option Window := s.bp.windows.find? (·.covers n)

/-- The address of a write-back word: b + (n − f) × s + the offset of the field (R30). -/
def writeBackAddr (s : State) (m : DueMark) : Option Nat :=
  match coveringWindow s m.slot with
  | some w => (w.offsets.writeBack m.field).map (fun o => w.base + (m.slot.val - w.firstSlot) * w.stride + o)
  | none => none

/-- The address of the word an entry of the Side Write Queue names (R52). -/
def sideWordAddr (s : State) : SideWord → Option Nat
  | .report offset => some (s.bp.anchor.toNat + offset)
  | .writeBack m => writeBackAddr s m

/-! ### The memory port (R51) -/

/-- The LOAD has passed its last check (R196). -/
def LoadRun.finished (run : LoadRun) : Option Setup :=
  match run.phase, run.failed, run.setup with
  | .placements, none, some u => if u.placementCount ≤ run.entry then some u else none
  | _, _, _ => none

/-- A LOAD is reading its setup and no check has failed (R193). -/
def State.isLoading (s : State) : Bool :=
  match s.cr.part with
  | .loading run => run.failed.isNone && run.finished.isNone
  | .unconfigured => false
  | .ready => false

/-- A side access waits for the port, or has it: an entry is queued, a text-line read is presented, or a LOAD is reading (R51, R59). -/
def State.sideWaits (s : State) : SideAccess → Bool
  | .landing => decide (s.bp.queue ≠ [])
  | .textRead => s.bc.textRequest.isSome
  | .loadRead => s.isLoading

/-- The side access R51 ranks first of those waiting. -/
def State.nextSide (s : State) : Option SideAccess := [SideAccess.landing, .textRead, .loadRead].find? s.sideWaits

/-- The side access that has the port once nothing but the arbiter acts: the one whose cycle is in progress, else the first of those
waiting (R51). -/
def State.portChoice (s : State) : Option SideAccess :=
  match s.bp.port with
  | some x => if s.sideWaits x then some x else s.nextSide
  | none => s.nextSide

/-- The arbiter grants a free port to a side access that waits, no host access being presented (R51). -/
def State.arbitrate (s : State) : State := s.setBp { s.bp with port := s.portChoice }

/-- The memory cycle of a side access has ended, or the port goes to a host access before one is begun (R51; log entry 6). -/
def State.freePort (s : State) : State := s.setBp { s.bp with port := none }

/-! ### Decoding a host access (R28, R30 to R32, Table 3-1) -/

/-- What an offset of a quote record names (R30). -/
inductive QuoteField where
  | last
  | size
  | close
  | writeBack (f : WbField)
  | unwatched
  deriving DecidableEq, Repr

/-- The field an offset of a quote record names: looked up among the window's present offsets (R30). -/
def FieldOffsets.lookup (o : FieldOffsets) (i : Nat) : QuoteField :=
  if o.last = some i then .last
  else if o.size = some i then .size
  else if o.close = some i then .close
  else match allWbFields.find? (fun f => decide (o.writeBack f = some i)) with
    | some f => .writeBack f
    | none => .unwatched

/-- What the address of a host access names. -/
inductive Target where
  | command
  | parameter (p : Fin 4)
  | acknowledge
  | report (offset : Nat)
  | quote (window : Fin 8) (slot : Slot) (field : QuoteField)
  | text (window : Fin 8) (line : Nat)
  | bulletin (word : Fin 8)
  | plain
  deriving DecidableEq, Repr

/-- The address lies in the window's range (R28). -/
def Window.contains (w : Window) (a : Addr) : Bool := decide (w.base ≤ a.toNat) && decide (a.toNat < w.base + w.length)

/-- What an address in a window names (R30, R31, R32). -/
def Window.decode (w : Window) (a : Addr) : Target :=
  let d := a.toNat - w.base
  match w.kind with
  | .quote => .quote w.index (Fin.ofNat 256 (w.firstSlot + d / w.stride)) (w.offsets.lookup (d % w.stride))
  | .text => .text w.index (d / 24)
  | .bulletin => .bulletin (Fin.ofNat 8 d)

/-- What a word of the setup block is (Table 3-1, R52). -/
def setupTarget (offset : Nat) : Target :=
  if offset = 0 then .command
  else if offset ≤ 4 then .parameter (Fin.ofNat 4 (offset - 1))
  else if offset = 5 then .acknowledge
  else if offset ≤ 23 then .report offset
  else .plain

/-- What the address of a host access names: a setup word in every part state, a window word while READY (R28, R50). -/
def target (s : State) (a : Addr) : Target :=
  match setupOffset s a with
  | some o => setupTarget o
  | none =>
    if s.isReady then
      match s.bp.windows.find? (·.contains a) with
      | some w => w.decode a
      | none => .plain
    else .plain

/-- The word with a mark that an address names: a report word, or a write-back word of an active window (R52, R58). -/
def sideWordAt (s : State) (a : Addr) : Option SideWord :=
  match target s a with
  | .report o => some (.report o)
  | .quote _ n (.writeBack f) => some (.writeBack ⟨n, f⟩)
  | _ => none

end Sys2Proof.Machine
end

