-- ==== Sys2Proof/Machine/Flags.lean ====
section
/-!
DEFINITION. Attention flags, anomalies, command status, the report words' values and their dirty marks, the write-back values and
their due marks, the entering of marks into the Side Write Queue, and the frame of one event (chapters 2, 3 and 10).
-/

namespace Sys2Proof.Machine

/-! ### Attention (R198, R199, Table 11-7) -/

/-- Position of KEY. -/
def flagKey : Nat := 0
/-- Position of CMD. -/
def flagCmd : Nat := 1
/-- Position of BOARD. -/
def flagBoard : Nat := 2
/-- Position of TERM. -/
def flagTerm : Nat := 3
/-- Position of TAPE. -/
def flagTape : Nat := 4
/-- Position of FEED. -/
def flagFeed : Nat := 5
/-- Position of BELL. -/
def flagBell : Nat := 6
/-- Position of ANOM. -/
def flagAnom : Nat := 7
/-- Position of WINn. -/
def flagWin (n : Fin 8) : Nat := 8 + n.val

/-- A set request of an attention flag (R198). -/
def State.raise (s : State) (i : Nat) : State := s.setCr { s.cr with flags := s.cr.flags ||| (1#16 <<< i) }

/-- The ATTN line is asserted exactly when a set flag is enabled by the mask (R199), and not while RESET is asserted. -/
def State.attn (s : State) : Bool := !s.resetPin && decide (s.cr.flags &&& s.cr.mask ≠ 0)

/-- HOLD is asserted while a host access is held (R57), and not while RESET is asserted (R61). -/
def State.hold (s : State) : Bool := !s.resetPin && s.bp.held.isSome

/-- An anomaly: the count rises, saturating, and ANOM is set (R38). -/
def State.anomaly (s : State) : State :=
  (s.setQe { s.qe with anomalies := countUp s.qe.anomalies }).raise flagAnom

/-! ### Dirty marks of report words (3.3, R202) -/

/-- A report word is marked dirty. -/
def State.markDirty (s : State) (offset : Nat) : State := s.setCr { s.cr with dirty := join offset s.cr.dirty }

/-- Report words are marked dirty. -/
def State.markAllDirty (s : State) (offsets : List Nat) : State := offsets.foldl State.markDirty s

/-- COMMAND STATUS is set: the word is marked dirty, and a final outcome sets CMD (R191). -/
def State.setStatus (s : State) (opcode : Byte) (outcome : CmdOutcome) (reason : Reason) : State :=
  let s1 := (s.setCr { s.cr with status := ⟨opcode, outcome, reason⟩ }).markDirty 8
  if outcome = .running then s1 else s1.raise flagCmd

/-- A command is DONE (R191). -/
def State.cmdDone (s : State) (opcode : Byte) : State := s.setStatus opcode .done .none

/-- A command is refused (R191). -/
def State.cmdRefused (s : State) (opcode : Byte) (reason : Reason) : State := s.setStatus opcode .refused reason

/-! ### Floor-line signals (R141, R143) -/

/-- The signal of a function: the OR of the levels of the lines assigned it (R141). -/
def ClockSession.signal (c : ClockSession) (f : LineFunction) : Bool :=
  [(0 : LineId), 1, 2, 3].any (fun i => decide (vget c.lineFunctions i = f) && vget c.lineLevels i)

/-- TAPE-HOLD is in force: the part is READY and the signal is high (R143). -/
def State.tapeHold (s : State) : Bool := s.isReady && s.cs.signal .tapeHold

/-! ### Values of the report words (Table 11-6, R132) -/

/-- Code of the part state. -/
def PartState.code : PartState → Nat
  | .unconfigured => 0
  | .loading _ => 1
  | .ready => 2

/-- Code of the LOAD phase, 0 outside LOADING. -/
def PartState.phaseCode : PartState → Nat
  | .loading r =>
    match r.phase with
    | .configuration => 0
    | .directory => 1
    | .rowMap => 2
    | .placements => 3
  | .unconfigured => 0
  | .ready => 0

/-- Code of the session. -/
def Session.code : Session → Nat
  | .closed => 0
  | .preOpen => 1
  | .opened => 2
  | .dimming => 3
  | .dark => 4

/-- Code of the tape mode. -/
def TapeMode.code : TapeMode → Nat
  | .full => 0
  | .compact => 1
  | .short => 2

/-- Code of the outcome. -/
def CmdOutcome.code : CmdOutcome → Nat
  | .done => 0
  | .running => 1
  | .refused => 2

/-- Code of the reason. -/
def Reason.code : Reason → Nat
  | .none => 0
  | .busy => 1
  | .state => 2
  | .notLoaded => 3
  | .unknown => 4
  | .range => 5
  | .absent => 6
  | .full => 7
  | .setup => 8

/-- Code of a link state. -/
def LinkState.code : LinkState → Nat
  | .unused => 0
  | .offline => 1
  | .online => 2
  | .dark => 3

/-- 1 for a set flag. -/
def flagBit (b : Bool) : Nat := if b then 1 else 0

/-- +6 PART STATUS. -/
def partStatusWord (s : State) : Word :=
  BitVec.ofNat 16 (s.cr.part.code + 4 * s.cr.part.phaseCode + 16 * s.cs.session.code + 128 * flagBit s.cs.feedStale
    + 256 * s.tc.mode.code + 1024 * flagBit s.tapeHold)

/-- +8 COMMAND STATUS. -/
def commandStatusWord (st : CmdStatus) : Word :=
  BitVec.ofNat 16 (256 * st.opcode.toNat + 64 * st.outcome.code + st.reason.code)

/-- +9 MAILBOX TAG: FULL, terminal, length (8 shows 0), sequence number; while EMPTY the bits of `tagIdle` (log entry 13). -/
def mailboxTagWord (c : CommandReport) : Word :=
  match c.mailbox with
  | some r =>
    BitVec.ofNat 16 (0x8000 + 2048 * r.terminal.val + 256 * (r.text.length % 8) + c.sequence.toNat)
  | none => BitVec.ofNat 16 (256 * c.tagIdle.toNat + c.sequence.toNat)

/-- +15: NOT SET in bit 15, clock seconds divided by 65536 in bit 0 (R132). -/
def clockHighWord (c : ClockSession) : Word :=
  BitVec.ofNat 16 (0x8000 * flagBit c.notSet + c.clock / 10 / 65536)

/-- +16: clock seconds modulo 65536 (R132). -/
def clockLowWord (c : ClockSession) : Word := BitVec.ofNat 16 (c.clock / 10 % 65536)

/-- +20 LINK STATES: two bits a link, link 0 lowest. -/
def linkStatesWord (b : BoardController) : Word :=
  BitVec.ofNat 16 ((vget b.links 0).state.code + 4 * (vget b.links 1).state.code + 16 * (vget b.links 2).state.code
    + 64 * (vget b.links 3).state.code)

/-- +21 TERMINALS ONLINE: bit n is terminal n. -/
def terminalsWord (p : TerminalController) : Word :=
  BitVec.ofNat 16 (p.terminals.toList.foldr (fun t acc => flagBit t.online + 2 * acc) 0)

/-- The value CR keeps of report word `offset` (R202, Table 11-6). -/
def reportValue (s : State) (offset : Nat) : Word :=
  match offset with
  | 6 => partStatusWord s
  | 7 => s.cr.flags
  | 8 => commandStatusWord s.cr.status
  | 9 => mailboxTagWord s.cr
  | 10 => vget s.cr.mailText 0
  | 11 => vget s.cr.mailText 1
  | 12 => vget s.cr.mailText 2
  | 13 => vget s.cr.mailText 3
  | 14 => s.cr.mailSlot
  | 15 => clockHighWord s.cs
  | 16 => clockLowWord s.cs
  | 17 => BitVec.ofNat 16 s.tc.lateness
  | 18 => s.tc.omitted
  | 19 => s.qe.anomalies
  | 20 => linkStatesWord s.bc
  | 21 => terminalsWord s.pt
  | 22 => BitVec.ofNat 16 (256 * s.pt.keyQueue.length + s.tc.queue.length)
  | 23 => BitVec.ofNat 16 (4096 * s.cr.diagReason + s.cr.diagIndex)
  | _ => 0

/-! ### Write-back values (R18, R19, R41, Table 2-5) -/

/-- The change from the close: last − close when both are nonzero (R18). -/
def SlotRec.change (r : SlotRec) : Option Int :=
  if r.last ≠ 0 ∧ r.close ≠ 0 then some ((r.last.toNat : Int) - r.close.toNat) else none

/-- The CHG write-back word: 8000H when the change is absent, else the change held to −32767 to +32767 (R19). -/
def changeWord : Option Int → Word
  | none => 0x8000
  | some c => BitVec.ofInt 16 (max (-32767) (min 32767 c))

/-- Code of a direction (Table 1-2). -/
def Direction.code : Direction → Nat
  | .none => 0
  | .up => 1
  | .down => 2
  | .zeroUp => 3
  | .zeroDown => 4

/-- The write-back value of a field of a record (Table 2-5). -/
def SlotRec.writeBack (r : SlotRec) : WbField → Word
  | .chg => changeWord r.change
  | .high => r.high
  | .low => r.low
  | .flags =>
    BitVec.ofNat 16 (r.direction.code + 8 * flagBit (decide (r.state = .halted)) + 16 * flagBit r.lastSize.isSome)
  | .volHigh => r.volume.extractLsb' 16 16
  | .volLow => r.volume.extractLsb' 0 16

/-- The value of an entry's source as it stands (R52, R54). -/
def sideWordValue (s : State) : SideWord → Word
  | .report offset => reportValue s offset
  | .writeBack m => (s.slot m.slot).writeBack m.field

/-- The due marks of a slot's write-back words that the slot's covering window holds and whose value differs (R42). -/
def dueFor (s : State) (n : Slot) (before after : SlotRec) : List DueMark :=
  (allWbFields.map (fun f => DueMark.mk n f)).filter
    (fun m => decide (before.writeBack m.field ≠ after.writeBack m.field) && (writeBackAddr s m).isSome)

/-- Due marks are set; one already set stays set (R42). -/
def State.setDue (s : State) (ms : List DueMark) : State :=
  s.setQe { s.qe with due := ms.foldl (fun d m => insertBy DueMark.key m d) s.qe.due }

/-- The mark of a word is set (R58). -/
def State.isMarked (s : State) : SideWord → Bool
  | .report offset => decide (offset ∈ s.cr.dirty)
  | .writeBack m => decide (m ∈ s.qe.due)

/-- The mark of a word is cleared (R54, R58). -/
def State.clearMark (s : State) : SideWord → State
  | .report offset => s.setCr { s.cr with dirty := leave offset s.cr.dirty }
  | .writeBack m => s.setQe { s.qe with due := leave m s.qe.due }

/-! ### Entering marks into the Side Write Queue (R53) -/

/-- The report word whose read is held and which is dirty: it is entered ahead of every other mark (R53, R56). -/
def heldReportWord (s : State) : List SideWord :=
  match s.bp.held with
  | some ⟨.read a, _⟩ =>
    match setupOffset s a with
    | some o => if o ∈ s.cr.dirty then [.report o] else []
    | none => []
  | _ => []

/-- The marks that may be entered, in the order in which R53 chooses them. -/
def markOrder (s : State) : List SideWord :=
  heldReportWord s ++ s.cr.dirty.map SideWord.report ++ s.qe.due.map SideWord.writeBack

/-- One mark is entered at the tail when a place is free and its word has no entry (R53). -/
def enterMark (q : List SideWord) (w : SideWord) : List SideWord :=
  if q.length < 8 ∧ w ∉ q then q ++ [w] else q

/-- Marks are entered until the queue is full or no mark without an entry remains (R53). -/
def State.fill (s : State) : State :=
  s.setBp { s.bp with queue := (markOrder s).foldl enterMark s.bp.queue }

/-! ### One event -/

/-- The offsets of the report words whose value differs between two states. -/
def changedWords (s t : State) : List Nat := reportOffsets.filter (fun o => decide (reportValue s o ≠ reportValue t o))

/-- Each report word whose value an event has changed is marked dirty (R202). -/
def State.markChanged (s t : State) : State := t.markAllDirty (changedWords s t)

/-- The end of an event that took `s` to `t`: changed report words are marked, marks enter the queue, and a port that is free is granted
(R51, R53, R202). -/
def State.finish (s t : State) : State := (s.markChanged t).fill.arbitrate

/-- The event whose effect is `f`, taken whole (R53, R202). -/
def State.event (f : State → State) (s : State) : State := s.finish (f s)

/-- An event with the use of the port that ends in it: that of a side access whose cycle ends, or of a host access (R51). -/
def State.portEvent (f : State → State) (s : State) : State := s.event (fun x => (f x).freePort)

/-- An event of the part: none comes while RESET is asserted, when every block stands at its reset values (R61, R106, R128, R129,
R152; log entry 11). -/
def partEvent (f : State → State) (s : State) : Host.Outcome State Fault Refusal :=
  .next (if s.resetPin then s else s.event f)

end Sys2Proof.Machine
end

