-- ==== Sys2Proof/Machine/Compose.lean ====
section
/-!
DEFINITION. Texts: prices, changes, volumes, ticks and names, their fitting into fields and their colours (chapter 1), the
character sets (11.5), and the frames of the links with their check bytes (11.4).
-/

namespace Sys2Proof.Machine

/-! ### Codes (Tables 11-11 and 11-12) -/

/-- The codes of ASCII characters (Table 11-11). -/
def ascii (cs : List Char) : Text := cs.map (fun c => BitVec.ofNat 8 c.toNat)

/-- Space. -/
def chSpace : Byte := 0x20
/-- The eighths glyph Ek, code 80H + k. -/
def glEighth (k : Nat) : Byte := BitVec.ofNat 8 (0x80 + k)
/-- "/16". -/
def glSl16 : Byte := 0x88
/-- "/32". -/
def glSl32 : Byte := 0x89
/-- TRUNC. -/
def glTrunc : Byte := 0x8A
/-- The big up arrow. -/
def glBigUp : Byte := 0x8B
/-- The small up arrow. -/
def glSmallUp : Byte := 0x8C
/-- The big down arrow. -/
def glBigDown : Byte := 0x8D
/-- The small down arrow. -/
def glSmallDown : Byte := 0x8E
/-- OMIT. -/
def glOmit : Byte := 0x8F
/-- LOTS. -/
def glLots : Byte := 0x90

/-- A code of the board and terminal sets: 20H to 5FH and 81H to 8EH (11.5). -/
def isBoardChar (c : Byte) : Bool := (0x20 ≤ c && c ≤ 0x5F) || (0x81 ≤ c && c ≤ 0x8E)

/-- A code of the tape set, which holds OMIT and LOTS too (11.5). -/
def isTapeChar (c : Byte) : Bool := isBoardChar c || c == 0x8F || c == 0x90

/-- A board or terminal character; a code that names none is a space (R71, R168). -/
def boardChar (c : Byte) : Byte := if isBoardChar c then c else chSpace

/-- A tape character; a code that names none is a space (R113). -/
def tapeChar (c : Byte) : Byte := if isTapeChar c then c else chSpace

/-- Spaces. -/
def spaces (n : Nat) : Text := List.replicate n chSpace

/-- A text left-aligned in a field of width `w`. -/
def padRight (w : Nat) (t : Text) : Text := t ++ spaces (w - t.length)

/-- A text right-aligned in a field of width `w`. -/
def padLeft (w : Nat) (t : Text) : Text := spaces (w - t.length) ++ t

/-- A text with its trailing spaces left out (R113, R163). -/
def trimRight (t : Text) : Text := (t.reverse.dropWhile (· == chSpace)).reverse

/-- The code of a decimal digit. -/
def digitChar (n : Nat) : Byte := BitVec.ofNat 8 (0x30 + n % 10)

/-- Decimal digits, at most `fuel` of them, put before `acc`. -/
def decimalGo : Nat → Nat → Text → Text
  | 0, _, acc => acc
  | fuel + 1, n, acc =>
    if n / 10 = 0 then digitChar n :: acc else decimalGo fuel (n / 10) (digitChar n :: acc)

/-- The decimal digits of a number with no leading zeros; 20 places hold every number of the spec. -/
def decimal (n : Nat) : Text := decimalGo 20 n []

/-- Two decimal digits. -/
def twoDigits (n : Nat) : Text := [digitChar (n / 10), digitChar n]

/-! ### Texts of chapter 1 -/

/-- The number of ticks per dollar; 0 for the base of an UNUSED slot (Table 1-2). -/
def PriceBase.ticks : PriceBase → Nat
  | .none => 0
  | .eighths => 8
  | .sixteenths => 16
  | .thirtySeconds => 32

/-- The fraction of a price text: none when the remainder is 0; the glyph Ek for halves, quarters and eighths; else the numerator
and the denominator glyph, after a space when `spaced` (R20 steps 2 to 5). -/
def fractionText (d n : Nat) (spaced : Bool) : Text :=
  if n = 0 then []
  else
    let g := Nat.gcd n d
    let n' := n / g
    let d' := d / g
    if d' = 16 then (if spaced then [chSpace] else []) ++ decimal n' ++ [glSl16]
    else if d' = 32 then (if spaced then [chSpace] else []) ++ decimal n' ++ [glSl32]
    else [glEighth (n' * (8 / d'))]

/-- The whole digits of a price text: left out when the whole part is 0 and there is a fraction (R20 steps 2 and 3). -/
def wholeText (d t : Nat) : Text := if t / d = 0 ∧ t % d ≠ 0 then [] else decimal (t / d)

/-- The price text of `t` ticks at `d` ticks per dollar (R20). -/
def priceText (d t : Nat) : Text := wholeText d t ++ fractionText d (t % d) (decide (t / d ≠ 0))

/-- A text before fitting: the text, and the shorter form with TRUNC in place of its fraction, when it has one (R25). -/
structure FieldText where
  full : Text
  cut : Option Text
  deriving DecidableEq, Repr

/-- A text that has no shorter form. -/
def FieldText.plain (t : Text) : FieldText := ⟨t, none⟩

/-- A price in a field (R20, R25 step 1). -/
def priceField (d t : Nat) : FieldText :=
  ⟨priceText d t, if t % d = 0 then none else some (wholeText d t ++ [glTrunc])⟩

/-- A price that may be "none": empty when 0 (R22). -/
def optPriceField (d : Nat) (p : Word) : FieldText := if p = 0 then .plain [] else priceField d p.toNat

/-- A change in a field: arrow and price text, UNC, or empty (R21, R25 step 2). -/
def changeField (d : Nat) : Option Int → FieldText
  | none => .plain []
  | some c =>
    if c = 0 then .plain (ascii ['U', 'N', 'C'])
    else
      let arrow := if 0 < c then glBigUp else glBigDown
      let p := priceField d c.natAbs
      ⟨arrow :: p.full, p.cut.map (arrow :: ·)⟩

/-- The last field: HALT, the price of last, of close, or empty (R22). -/
def lastField (r : SlotRec) : FieldText :=
  if r.state = .halted then .plain (ascii ['H', 'A', 'L', 'T'])
  else if r.last ≠ 0 then priceField r.base.ticks r.last.toNat
  else optPriceField r.base.ticks r.close

/-- The tick glyph of a direction (R24). -/
def tickText : Direction → Text
  | .none => []
  | .up => [glBigUp]
  | .zeroUp => [glSmallUp]
  | .down => [glBigDown]
  | .zeroDown => [glSmallDown]

/-- A text fitted right-aligned into `w` characters (R25). -/
def fit (w : Nat) (t : FieldText) : Text :=
  if t.full.length ≤ w then padLeft w t.full
  else match t.cut with
    | some c => if c.length ≤ w then padLeft w c else List.replicate w 0x23
    | none => List.replicate w 0x23

/-- A name fitted left-aligned into `w` characters (R25, step 3). -/
def fitName (w : Nat) (name : Text) : Text := padRight w (name.take w)

/-- The volume text for a field of width `w`, right-aligned (R23). -/
def fitVolume (w : Nat) (v : Nat) : Text :=
  if v = 0 then spaces w
  else
    let plain := decimal v
    let kilo := decimal (v / 1000) ++ ascii ['K']
    let mega := decimal (v / 1000000) ++ ascii ['M']
    if plain.length ≤ w then padLeft w plain
    else if 1000 ≤ v ∧ kilo.length ≤ w then padLeft w kilo
    else if 1000000 ≤ v ∧ mega.length ≤ w then padLeft w mega
    else List.replicate w 0x23

/-- The characters of a cell of width `w` (R69, Table 4-3). -/
def cellText (r : SlotRec) (k : FieldKind) (w : Nat) : Text :=
  match k with
  | .name => fitName w r.name
  | .last => fit w (lastField r)
  | .change => fit w (changeField r.base.ticks r.change)
  | .high => fit w (optPriceField r.base.ticks r.high)
  | .low => fit w (optPriceField r.base.ticks r.low)
  | .volume => fitVolume w r.volume.toNat
  | .tick => fit w (.plain (tickText r.direction))

/-- A colour of a board cell (R26). -/
inductive Colour where
  | white
  | green
  | red
  deriving DecidableEq, Repr

/-- The code of a colour (Table 11-9). -/
def Colour.code : Colour → Nat
  | .white => 0
  | .green => 1
  | .red => 2

/-- Green for UP and ZERO-UP, red for DOWN and ZERO-DOWN, white for NONE (R26). -/
def Direction.colour : Direction → Colour
  | .none => .white
  | .up => .green
  | .zeroUp => .green
  | .down => .red
  | .zeroDown => .red

/-- The colour of a change (R26). -/
def changeColour : Option Int → Colour
  | none => .white
  | some c => if 0 < c then .green else if c < 0 then .red else .white

/-- The colour of a cell (R26). -/
def cellColour (r : SlotRec) (k : FieldKind) : Colour :=
  match k with
  | .last => if r.state = .halted ∨ r.last = 0 then .white else r.direction.colour
  | .tick => if r.state = .halted then .white else r.direction.colour
  | .change => if r.state = .halted then .white else changeColour r.change
  | .name => .white
  | .high => .white
  | .low => .white
  | .volume => .white

/-! ### Frames (11.4) -/

/-- The sum of bytes modulo 256. -/
def byteSum (bs : Text) : Byte := bs.foldl (· + ·) 0

/-- The byte that brings the sum, itself and 5AH included, to a multiple of 256 (R204). -/
def checkByte (bs : Text) : Byte := -(byteSum bs + 0x5A)

/-- A frame ended by its check byte (R204). -/
def sealed (bs : Text) : Text := bs ++ [checkByte bs]

/-- The erase order of a board frame (Table 11-9). -/
inductive Erase where
  | none
  | row
  | all
  deriving DecidableEq, Repr

/-- The code of an erase order (Table 11-9). -/
def Erase.code : Erase → Nat
  | .none => 0
  | .row => 1
  | .all => 2

/-- A board frame (Table 11-9). -/
def boardFrame (e : Erase) (row column : Nat) (blink : Bool) (c : Colour) (chars : Text) : Text :=
  sealed ([BitVec.ofNat 8 (32 * e.code + row), BitVec.ofNat 8 column, BitVec.ofNat 8 (4 * flagBit blink + c.code),
    BitVec.ofNat 8 chars.length] ++ chars)

/-- An erase-row frame (Table 5-2). -/
def eraseRowFrame (row : Nat) : Text := boardFrame .row row 0 false .white []

/-- A text-row frame (Table 5-2). -/
def textRowFrame (row : Nat) (chars : Text) : Text := boardFrame .none row 0 false .white chars

/-- A probe (Table 5-2). -/
def probeFrame : Text := boardFrame .none 0 0 false .white []

/-- A blank-all frame (Table 5-2). -/
def blankAllFrame : Text := boardFrame .all 0 0 false .white []

/-- The answer is the ACK code with a good check, in two bytes, and no other byte came in the answer wait (R95, R204). An answer is one list
of bytes, so that a third byte spoils two good ones: DESIGN CHOICE, log entry 38. -/
def isGoodAck (bytes : Text) : Bool :=
  match bytes with
  | [code, check] => code == 0xC3 && byteSum [code, check] + 0x5A == 0
  | _ => false

/-- A terminal frame carrying a line (Table 11-10). -/
def terminalFrame (t : TermId) (line : Nat) (chars : Text) (reversed bell clear : Bool) : Text :=
  sealed ([BitVec.ofNat 8 t.val, BitVec.ofNat 8 line,
    BitVec.ofNat 8 (flagBit reversed + 2 * flagBit bell + 4 * flagBit clear)] ++ chars)

/-- A bare poll (Table 11-10). -/
def pollFrame (t : TermId) : Text := sealed [BitVec.ofNat 8 t.val, 0xFF, 0]

/-- The key code of a good answer: two bytes with a good check, and no other byte in the answer wait (R149, R204; DESIGN CHOICE, log entry
38, as for `isGoodAck`). -/
def goodAnswer (bytes : Text) : Option Byte :=
  match bytes with
  | [code, check] => if byteSum [code, check] + 0x5A = 0 then some code else none
  | _ => none

/-! ### The line form of a byte (R204) -/

/-- A symbol of a board link, the tape link or the terminal loop (R204). -/
inductive LineSymbol where
  | start
  | data (b : Bool)
  | stop
  deriving DecidableEq, Repr

/-- A byte on its line: one start bit, eight data bits from bit 0 upward and one stop bit (R204). -/
def byteOnLine (b : Byte) : List LineSymbol :=
  .start :: [0, 1, 2, 3, 4, 5, 6, 7].map (fun i => .data (b.getLsbD i)) ++ [.stop]

/-- Bytes on their line, one after another without a gap (R204). -/
def onLine (bytes : Text) : List LineSymbol := bytes.flatMap byteOnLine

/-- What a board link's line carries for the latest frame (R204). -/
def Link.lineOut (k : Link) : List LineSymbol := onLine k.frameOut

/-- What the terminal loop carries for the latest frame (R204). -/
def TerminalController.lineOut (p : TerminalController) : List LineSymbol := onLine p.frameOut

/-- What the tape link carries for the latest character; nothing when the expiry sent none (R116, R204). -/
def TapeController.lineOut (t : TapeController) : List LineSymbol := onLine t.charOut.toList

end Sys2Proof.Machine
end

