-- ==== Sys2Proof/Machine/Quote.lean ====
section
/-!
DEFINITION. The Quote Engine's records: what a capture, a close, a halt, a resume and a roll do to a record, and the update
notice each issues (chapter 1).
-/

namespace Sys2Proof.Machine

/-- The changed set of an update notice (R15). -/
structure ChangedSet where
  last : Bool
  tick : Bool
  change : Bool
  high : Bool
  low : Bool
  volume : Bool
  state : Bool
  deriving DecidableEq, Repr

/-- The cause of an update notice (R15). -/
inductive Cause where
  | trade
  | close
  | halt
  | resume
  | roll
  deriving DecidableEq, Repr

/-- The trade details of a TRADE notice (R15). -/
structure TradeDetails where
  price : Word
  size : Option Word
  stamp : Nat
  prior : Word
  newHigh : Bool
  newLow : Bool
  deriving DecidableEq, Repr

/-- An update notice (R15). -/
structure Notice where
  slot : Slot
  cause : Cause
  changed : ChangedSet
  trade : Option TradeDetails
  deriving DecidableEq, Repr

/-- The direction after a capture of `v` (R8, Table 1-3). -/
def directionAfter (prior close v : Word) (before : Direction) : Direction :=
  if prior = 0 then
    if close ≠ 0 ∧ close < v then .up
    else if close ≠ 0 ∧ v < close then .down
    else .none
  else if prior < v then .up
  else if v < prior then .down
  else match before with
    | .up => .zeroUp
    | .zeroUp => .zeroUp
    | .down => .zeroDown
    | .zeroDown => .zeroDown
    | .none => .none

/-- The volume after a trade: it rises by the size, saturating at 4,294,967,295 (R10). -/
def volumeAfter (volume : BitVec 32) : Option Word → BitVec 32
  | none => volume
  | some size => BitVec.ofNat 32 (min 4294967295 (volume.toNat + size.toNat))

/-- The record after a capture of `v` with the given size at the given clock (R7 to R10). -/
def captureRec (r : SlotRec) (v : Word) (size : Option Word) (clock : Nat) : SlotRec where
  state := r.state
  name := r.name
  base := r.base
  close := r.close
  last := v
  prior := r.last
  direction := directionAfter r.last r.close v r.direction
  high := if r.high = 0 then v else if r.high < v then v else r.high
  low := if r.high = 0 then v else if v < r.low then v else r.low
  volume := volumeAfter r.volume size
  stamp := some clock
  newHigh := decide (r.high ≠ 0 ∧ r.high < v)
  newLow := decide (r.low ≠ 0 ∧ v < r.low)
  lastSize := size

/-- The record with its close set (R12). -/
def closeRec (r : SlotRec) (v : Word) : SlotRec := { r with close := v }

/-- The record halted (R13). -/
def haltRec (r : SlotRec) : SlotRec := { r with state := .halted }

/-- The record resumed (R14). -/
def resumeRec (r : SlotRec) : SlotRec := { r with state := .listed }

/-- The record rolled to a new trading day (R5). -/
def rollRec (r : SlotRec) : SlotRec :=
  { r with
    close := if r.last ≠ 0 then r.last else r.close
    last := 0
    prior := 0
    high := 0
    low := 0
    volume := 0
    direction := .none
    newHigh := false
    newLow := false
    stamp := none
    lastSize := none }

/-- The notice of a capture that took record `before` to `after` (R15, R16). -/
def tradeNotice (n : Slot) (before after : SlotRec) (size : Option Word) (clock : Nat) : Notice where
  slot := n
  cause := .trade
  changed :=
    { last := true
      tick := true
      change := decide (after.close ≠ 0)
      high := decide (before.high ≠ after.high)
      low := decide (before.low ≠ after.low)
      volume := size.isSome
      state := false }
  trade := some
    { price := after.last
      size := size
      stamp := clock
      prior := after.prior
      newHigh := after.newHigh
      newLow := after.newLow }

/-- The changed set of HALT and RESUME (Table 1-6). -/
def stateChanged : ChangedSet :=
  { last := true, tick := false, change := true, high := false, low := false, volume := false, state := true }

/-- The notice of a close set on a record (R12, R16). -/
def closeNotice (n : Slot) (after : SlotRec) : Notice where
  slot := n
  cause := .close
  changed :=
    { last := decide (after.last = 0), tick := false, change := true, high := false, low := false, volume := false,
      state := false }
  trade := none

/-- The notice of a halt (R13). -/
def haltNotice (n : Slot) : Notice := ⟨n, .halt, stateChanged, none⟩

/-- The notice of a resume (R14). -/
def resumeNotice (n : Slot) : Notice := ⟨n, .resume, stateChanged, none⟩

/-- The notice of a roll (R5, Table 1-6). -/
def rollNotice (n : Slot) : Notice :=
  ⟨n, .roll, ⟨true, true, true, true, true, true, true⟩, none⟩

/-- The notify countdown of window `w` takes a capture: on reaching 0 it sets WINn and reloads (R39). -/
def State.countDown (s : State) (w : Fin 8) : State :=
  let c := vget s.qe.countdowns w
  if c.reload = 0 then s
  else if c.counter - 1 = 0 then
    (s.setQe { s.qe with countdowns := vset s.qe.countdowns w { c with counter := c.reload } }).raise (flagWin w)
  else s.setQe { s.qe with countdowns := vset s.qe.countdowns w { c with counter := c.counter - 1 } }

/-- A text names the slot that is LISTED or HALTED and has that name, trailing spaces left out (R163). -/
def findSymbol (s : State) (t : Text) : Option Slot :=
  allSlots.find? (fun n => decide ((s.slot n).state ≠ .unused ∧ (s.slot n).name = trimRight t))

end Sys2Proof.Machine
end

