-- ==== Sys2Proof/Machine/Board.lean ====
section
/-!
DEFINITION. The Board Controller and the board links: requests, blink lists, work in hand, answers, probing, sweep and darkness
(chapters 4 and 5).
-/

namespace Sys2Proof.Machine

/-! ### Requests (R87 to R89) -/

/-- The row of a placement. -/
def BoardController.rowOf (b : BoardController) (p : Nat) : Option Nat := b.placements[p]?.map (·.row)

/-- A row is owed a sending: it is stale or has a ROW entry (R86). -/
def Link.owed (k : Link) (r : Nat) : Bool := decide (r ∈ k.stale) || decide (RefreshEntry.row r ∈ k.queue)

/-- A CELL request for placement `p` on row `r` (R87, R89). -/
def Link.cellRequest (k : Link) (p r : Nat) : Link :=
  if k.state ≠ .online then k
  else if RefreshEntry.cell p ∈ k.queue ∨ k.owed r then k
  else if k.queue.length < 32 then { k with queue := k.queue ++ [.cell p] }
  else { k with stale := join r k.stale }

/-- A ROW entry in the place of the earliest entry that `isCell` accepts, the other such entries removed (R88). -/
def placeRow (isCell : RefreshEntry → Bool) (r : Nat) : List RefreshEntry → List RefreshEntry
  | [] => []
  | e :: q => if isCell e then .row r :: q.filter (fun x => !isCell x) else e :: placeRow isCell r q

/-- The entry is a CELL of row `r`. -/
def BoardController.isCellOf (b : BoardController) (r : Nat) : RefreshEntry → Bool
  | .cell p => decide (b.rowOf p = some r)
  | .row _ => false

/-- A ROW request for row `r` (R88, R89). -/
def BoardController.rowRequestOn (b : BoardController) (k : Link) (r : Nat) : Link :=
  if k.state ≠ .online then k
  else if k.owed r then k
  else if k.queue.any (b.isCellOf r) then { k with queue := placeRow (b.isCellOf r) r k.queue }
  else if k.queue.length < 32 then { k with queue := k.queue ++ [.row r] }
  else { k with stale := join r k.stale }

/-- A CELL request for placement `p`, made to the placement's link (R75). -/
def BoardController.request (b : BoardController) (p : Nat) : BoardController :=
  match b.placements[p]? with
  | some q => { b with links := vset b.links q.link ((vget b.links q.link).cellRequest p q.row) }
  | none => b

/-! ### Update notices and blinking (R75 to R79) -/

/-- A member of the changed set refreshes the field kind (Table 4-4). -/
def ChangedSet.refreshes (c : ChangedSet) : FieldKind → Bool
  | .name => false
  | .last => c.last
  | .change => c.change
  | .high => c.high
  | .low => c.low
  | .volume => c.volume
  | .tick => c.tick

/-- The placements of the notice's slot that it refreshes, by ascending index (R75). -/
def BoardController.refreshed (b : BoardController) (n : Notice) : List Nat :=
  (b.placements.zipIdx.filter (fun q => decide (q.1.slot = n.slot) && n.changed.refreshes q.1.kind)).map (·.2)

/-- Placement `p` is in the blink list. -/
def Link.blinks (k : Link) (p : Nat) : Bool := k.blink.any (fun c => c.placement == p)

/-- A cell joins a link's blink list, pushing out the oldest with a CELL request when the list is full (R77, R79). -/
def BoardController.blinkJoin (b : BoardController) (l : LinkId) (p : Nat) : BoardController :=
  let k := vget b.links l
  let fresh : BlinkCell := ⟨p, b.blinkTenths⟩
  if k.blinks p then
    { b with links := vset b.links l { k with blink := k.blink.filter (fun c => c.placement != p) ++ [fresh] } }
  else if k.blink.length < 16 then
    { b with links := vset b.links l { k with blink := k.blink ++ [fresh] } }
  else
    match k.blink with
    | [] => b
    | oldest :: rest =>
      let b1 : BoardController := { b with links := vset b.links l { k with blink := rest } }
      let b2 := b1.request oldest.placement
      let k2 := vget b2.links l
      { b2 with links := vset b2.links l { k2 with blink := k2.blink ++ [fresh] } }

/-- A refreshed placement joins its link's blink list when B is not 0 and the link is ONLINE (R78). -/
def BoardController.blinkStart (b : BoardController) (p : Nat) : BoardController :=
  match b.placements[p]? with
  | some q =>
    if b.blinkTenths ≠ 0 ∧ (vget b.links q.link).state = .online then b.blinkJoin q.link p else b
  | none => b

/-- BC takes an update notice (R75, R78). -/
def BoardController.notice (b : BoardController) (n : Notice) : BoardController :=
  let ps := b.refreshed n
  let b1 := ps.foldl BoardController.request b
  if n.cause = .trade then ps.foldl BoardController.blinkStart b1 else b1

/-- A cell's remaining time lowered by `k`, not below 0 (R80). -/
def BlinkCell.lower (k : Nat) (c : BlinkCell) : BlinkCell := { c with remaining := c.remaining - k }

/-- The remaining times of a link's blink list lowered by `k` (R80). -/
def Link.lowerBlinks (k : Nat) (x : Link) : Link := { x with blink := x.blink.map (BlinkCell.lower k) }

/-- Every cell's remaining time is lowered by `k` (R80). -/
def BoardController.lowerBlinks (b : BoardController) (k : Nat) : BoardController :=
  { b with links := vmap (Link.lowerBlinks k) b.links }

/-- On one link the cells whose remaining time is 0 leave, and a CELL request is made for each in list order (R80). -/
def BoardController.expireBlinks (b : BoardController) (l : LinkId) : BoardController :=
  let k := vget b.links l
  let gone := k.blink.filter (fun c => c.remaining == 0)
  let b1 : BoardController :=
    { b with links := vset b.links l { k with blink := k.blink.filter (fun c => c.remaining != 0) } }
  gone.foldl (fun x c => x.request c.placement) b1

/-- Cells whose remaining blink time is 0 leave every list (R80). -/
def State.blinkExpiry (s : State) : State := s.setBc (allLinks.foldl BoardController.expireBlinks s.bc)

/-! ### Text lines (R71 to R74) -/

/-- The row shows line `n` of window `w` (R65). -/
def showsLine (w : Fin 8) (n : Nat) (kind : RowKind) : Bool := decide (kind = .text w n)

/-- ROW requests on one link for every row that shows the line, rows ascending (R73). -/
def BoardController.textWriteOn (w : Fin 8) (n : Nat) (b : BoardController) (l : LinkId) : BoardController :=
  let k := vget b.links l
  let rows := (k.rowMap.zipIdx.filter (fun e => showsLine w n e.1)).map (·.2)
  { b with links := vset b.links l (rows.foldl b.rowRequestOn k) }

/-- A host write to line `n` of TEXT window `w` makes its ROW requests, links ascending (R73). -/
def BoardController.textWrite (b : BoardController) (w : Fin 8) (n : Nat) : BoardController :=
  allLinks.foldl (BoardController.textWriteOn w n) b

/-- A line read of the link is waiting for a word (R71). -/
def Link.isReading (k : Link) : Bool :=
  match k.work with
  | some w =>
    match w.phase with
    | .reading _ => true
    | .sending => false
    | .waiting => false
  | none => false

/-- The links in the order of the rotation of R72: after the link last answered, wrapping from 3 to 0. -/
def rotation (last : LinkId) : List LinkId := [last + 1, last + 2, last + 3, last]

/-- BC presents one text-line side read at a time (R72): when none is presented, that of the next reading link in rotation. -/
def BoardController.presentRead (b : BoardController) : BoardController :=
  match b.textRequest with
  | some _ => b
  | none => { b with textRequest := (rotation b.textLast).find? (fun l => (vget b.links l).isReading) }

/-- The first word of line `n` of window `w` (R31). -/
def lineAddress (s : State) (w : Fin 8) (n : Nat) : Nat :=
  match s.bp.windows.find? (fun x => decide (x.index = w)) with
  | some x => x.base + 24 * n
  | none => 0

/-! ### Work in hand (R85, R92 to R94) -/

/-- The frame of one cell, composed from the record and the blink list as they stand (R69, R70, R92). -/
def cellFrame (s : State) (l : LinkId) (p : Nat) : Text :=
  match s.bc.placements[p]? with
  | some q =>
    let r := s.slot q.slot
    boardFrame .none q.row q.column ((s.link l).blinks p) (cellColour r q.kind) (cellText r q.kind q.width)
  | none => []

/-- The placements of a SYMBOL row in ascending column order (R67). -/
def BoardController.rowPlacements (b : BoardController) (l : LinkId) (r : Nat) : List Nat :=
  let qs := b.placements.zipIdx.filter (fun q => decide (q.1.link = l) && decide (q.1.row = r))
  (qs.foldl (fun acc q => insertAfter (fun x : Placement × Nat => x.1.column) q acc) []).map (·.2)

/-- A piece whose first frame begins. -/
def Link.begin (k : Link) (p : Piece) (fromPass discard : Bool) (frame : Text) : Link :=
  { k with work := some ⟨p, .sending, fromPass, discard⟩, frameOut := frame }

/-- Row `r` is taken as work in hand: it leaves the stale-row set, and its erase-row frame or its line read begins (R90, R93,
R94). -/
def startRow (s : State) (l : LinkId) (k : Link) (r : Nat) (fromPass : Bool) : Link :=
  let k1 : Link := { k with stale := leave r k.stale }
  match k.rowMap[r]? with
  | some (.text w n) =>
    { k1 with work := some ⟨.textRow r, .reading ⟨lineAddress s w n, (k.cols + 1) / 2, []⟩, fromPass, false⟩ }
  | some .symbol => k1.begin (.symbolRow r (s.bc.rowPlacements l r)) fromPass false (eraseRowFrame r)
  | none => k1.begin (.symbolRow r (s.bc.rowPlacements l r)) fromPass false (eraseRowFrame r)

/-- What a link with no work in hand takes, by its state (R85, R99). -/
def nextWork (s : State) (l : LinkId) (k : Link) : Link :=
  match k.state with
  | .online =>
    match k.queue with
    | .cell p :: q => ({ k with queue := q } : Link).begin (.cell p) false false (cellFrame s l p)
    | .row r :: q => startRow s l { k with queue := q } r false
    | [] =>
      match k.stale with
      | r :: _ => startRow s l k r false
      | [] =>
        match k.pass with
        | some r => startRow s l k r true
        | none => k
  | .offline => if k.probeDue then ({ k with probeDue := false } : Link).begin .probe false false probeFrame else k
  | .unused => k
  | .dark => k

/-- A link with no work in hand takes its next piece, and a line read that begins asks for its first word (R85, R72). -/
def State.takeWork (s : State) (l : LinkId) : State :=
  let k := s.link l
  match k.work with
  | some _ => s
  | none =>
    let s1 := s.setLink l (nextWork s l k)
    s1.setBc s1.bc.presentRead

/-- The last byte of the frame in hand goes out and the answer wait begins (R95). -/
def Link.frameSent (k : Link) : Link :=
  match k.work with
  | some w => if w.phase = .sending then { k with work := some { w with phase := .waiting } } else k
  | none => k

/-- The piece in hand ends; one taken at the sweep pointer moves the pointer, and the last row ends the pass (R102). -/
def Link.endPiece (k : Link) (w : Work) : Link :=
  { k with
    work := none
    pass :=
      if w.fromPass then
        match k.pass with
        | some r => if r + 1 < k.rows then some (r + 1) else none
        | none => none
      else k.pass }

/-- Every row of a link (R90). -/
def Link.allRows (k : Link) : List Nat := List.range k.rows

/-- The link enters OFFLINE with every row stale and takes a PROBE as soon as it can (R98, R99, R105). -/
def Link.goOffline (k : Link) : Link :=
  { k with
    state := .offline
    queue := []
    blink := []
    stale := k.allRows
    pass := none
    failures := 0
    probeDue := true
    probeTimer := false }

/-- A good ACK answers the frame in hand; one to be discarded ends its piece and nothing more (R92 to R96, R99, R100, R105, R106). -/
def State.boardAcked (s : State) (l : LinkId) : State :=
  let k := s.link l
  match k.work with
  | none => s
  | some w =>
    if w.phase ≠ .waiting then s
    else if w.discard then s.setLink l (k.endPiece w)
    else match w.piece with
      | .cell _ => s.setLink l { k.endPiece w with failures := 0 }
      | .textRow _ => s.setLink l { k.endPiece w with failures := 0 }
      | .symbolRow _ [] => s.setLink l { k.endPiece w with failures := 0 }
      | .symbolRow r (p :: rest) =>
        s.setLink l (({ k with failures := 0 } : Link).begin (.symbolRow r rest) w.fromPass false (cellFrame s l p))
      | .blankAll => s.setLink l (k.endPiece w)
      | .probe =>
        if k.state ≠ .offline then s.setLink l (k.endPiece w)
        else (s.setLink l { k.endPiece w with state := .online, failures := 0 }).raise flagBoard

/-- An unanswered frame of row `r` sent while ONLINE: the row becomes stale, the piece is abandoned, and the third consecutive
miss takes the link OFFLINE (R96, R97, R98). -/
def State.boardMissed (s : State) (l : LinkId) (k : Link) (w : Work) (r : Option Nat) : State :=
  let k1 := k.endPiece w
  if k.state ≠ .online then s.setLink l k1
  else
    let k2 : Link := match r with
      | some r => { k1 with stale := join r k1.stale }
      | none => k1
    if k.failures + 1 < 3 then s.setLink l { k2 with failures := k.failures + 1 }
    else (s.setLink l k2.goOffline).raise flagBoard

/-- The answer wait of the frame in hand ends without an answer (R97, R99, R105, R106). -/
def State.answerWaitEnds (s : State) (l : LinkId) : State :=
  let k := s.link l
  match k.work with
  | none => s
  | some w =>
    if w.phase ≠ .waiting then s
    else if w.discard then s.setLink l (k.endPiece w)
    else match w.piece with
      | .cell p => s.boardMissed l k w (s.bc.rowOf p)
      | .symbolRow r _ => s.boardMissed l k w (some r)
      | .textRow r => s.boardMissed l k w (some r)
      | .blankAll => s.setLink l (k.endPiece w)
      | .probe =>
        if k.state ≠ .offline then s.setLink l (k.endPiece w)
        else s.setLink l { k.endPiece w with probeTimer := true }

/-- The probe interval of an OFFLINE link expires and the link takes its next PROBE (R99). -/
def State.probeIntervalEnds (s : State) (l : LinkId) : State :=
  let k := s.link l
  if k.state = .offline ∧ k.probeTimer then
    (s.setLink l { k with probeTimer := false, probeDue := true }).takeWork l
  else s

/-- One word of a line read is answered: its characters are kept, and the next word is asked for or the text-row frame begins
(R71). -/
def Link.takeTextWord (k : Link) (r : Nat) (w : Work) (ln : LineRead) (word : Word) : Link :=
  let chars := ln.chars ++ [hiByte word, loByte word]
  if ln.remaining ≤ 1 then
    { k with work := some { w with phase := .sending }, frameOut := textRowFrame r ((chars.take k.cols).map boardChar) }
  else { k with work := some { w with phase := .reading ⟨ln.address + 1, ln.remaining - 1, chars⟩ } }

/-- The side read of a text-line word is answered (R59, R71, R72). -/
def State.textReadAnswered (s : State) : State :=
  match s.bc.textRequest with
  | none => s
  | some l =>
    let k := s.link l
    let s1 := match k.work with
      | some w =>
        match w.piece, w.phase with
        | .textRow r, .reading ln => s.setLink l (k.takeTextWord r w ln (s.mem.readWord ln.address))
        | _, _ => s
      | none => s
    let b : BoardController := { s1.bc with textRequest := none, textLast := l }
    s1.setBc b.presentRead

/-! ### Sweep, REPAINT, drained, DARK and ROLL (R101 to R105) -/

/-- A sweep expiry: the count returns to 0, and every ONLINE link without a pass begins one, except in DIMMING (R101). -/
def State.sweepExpiry (s : State) : State :=
  if s.isReady ∧ s.bc.sweepSeconds ≠ 0 then
    let begins (k : Link) : Link :=
      if k.state = .online ∧ k.pass = none ∧ s.cs.session ≠ .dimming then { k with pass := some 0 } else k
    s.setBc { s.bc with sweepCount := 0, links := vmap begins s.bc.links }
  else s

/-- Every row of the link becomes stale when it is ONLINE (R103, R105). -/
def Link.allStale (k : Link) : Link := if k.state = .online then { k with stale := k.allRows } else k

/-- REPAINT with the link mask in bits 3 to 0 (R103). -/
def BoardController.repaint (b : BoardController) (mask : Byte) : BoardController :=
  { b with links := allLinks.foldl (fun v l => if mask.getLsbD l.val then vset v l (vget v l).allStale else v) b.links }

/-- A used link is drained (R104); an UNUSED link is not counted and a DARK one counts as drained. -/
def Link.drained (k : Link) : Bool :=
  match k.state with
  | .online => k.queue.isEmpty && k.stale.isEmpty && k.work.isNone
  | .offline => true
  | .dark => true
  | .unused => true

/-- Every used link is drained (R104). -/
def BoardController.drained (b : BoardController) : Bool := b.links.toList.all Link.drained

/-- A link's sweep pass ends as the session enters DIMMING (R102). -/
def Link.endPass (k : Link) : Link := { k with pass := none }

/-- The session reaches DARK: an ONLINE link takes its BLANK-ALL, an OFFLINE one goes dark without a frame and discards the answer
of a PROBE in hand (R105, R99). -/
def Link.goDark (k : Link) : Link :=
  let cleared : Link :=
    { k with
      state := .dark
      queue := []
      stale := []
      blink := []
      pass := none
      failures := 0
      probeDue := false
      probeTimer := false }
  match k.state with
  | .online => cleared.begin .blankAll false true blankAllFrame
  | .offline => { cleared with work := k.work.map (fun w => { w with discard := true }) }
  | .dark => k
  | .unused => k

/-- A piece with nothing left to send after the frame in hand, whose answer is to be discarded (R106). -/
def Work.closed (w : Work) : Work :=
  { w with
    piece := match w.piece with
      | .symbolRow r _ => .symbolRow r []
      | p => p
    fromPass := false
    discard := true }

/-- The piece in hand when a LOAD is accepted: its frame is completed, its answer is discarded, and no frame of it follows; a line read
is abandoned (R72, R99, R102, R106; log entry 29). -/
def Work.loadAccepted (w : Work) : Option Work :=
  match w.phase with
  | .reading _ => none
  | .sending => some w.closed
  | .waiting => some w.closed

/-- LOAD is accepted: the link enters UNUSED with nothing queued, and the frame going out is completed (R84, R106). -/
def Link.loadAccepted (k : Link) : Link :=
  { Link.reset with work := k.work.bind Work.loadAccepted, frameOut := k.frameOut }

/-- LOAD is accepted: BC and its links take their reset values but for the frames going out (R83, R106). A LOAD that fails leaves them
so. -/
def BoardController.loadAccepted (b : BoardController) : BoardController :=
  { BoardController.reset with links := vmap Link.loadAccepted b.links }

/-- ROLL is accepted: a DARK link enters OFFLINE, and an ONLINE link has every row stale (R105). -/
def Link.rollAccepted (k : Link) : Link :=
  match k.state with
  | .dark => k.goOffline
  | .online => k.allStale
  | .offline => k
  | .unused => k

end Sys2Proof.Machine
end

