-- ==== Sys2Proof/Machine/Watch.lean ====
section
/-!
DEFINITION. Watch entries, places, subscriber sets, the evaluation of trades and the alerts (chapter 9), and the marking of
terminal lines (R153, R155, R157).
-/

namespace Sys2Proof.Machine

/-! ### Dirty lines (R153) -/

/-- A line joins a terminal's dirty line set (R153). -/
def Terminal.mark (r : Terminal) (line : Nat) : Terminal := { r with dirty := join line r.dirty }

/-- Line 0 of every terminal is marked dirty (R155). -/
def TerminalController.markStatusLines (p : TerminalController) : TerminalController :=
  { p with terminals := vmap (fun r : Terminal => r.mark 0) p.terminals }

/-- Line 0 of every terminal is marked dirty (R155). -/
def State.markStatusLines (s : State) : State := s.setPt s.pt.markStatusLines

/-- A terminal's record replaced. -/
def TerminalController.put (p : TerminalController) (t : TermId) (r : Terminal) : TerminalController :=
  { p with terminals := vset p.terminals t r }

/-! ### Watch places and subscriber sets (R171, R172) -/

/-- The places of a watch list in ascending order. -/
def allPlaces : List (Fin 12) := [0, 1, 2, 3, 4, 5, 6, 7, 8, 9, 10, 11]

/-- The place of the entry for slot `n` on a watch list. -/
def Terminal.placeOf (r : Terminal) (n : Slot) : Option (Fin 12) :=
  allPlaces.find? (fun i => decide ((vget r.watch i).map (·.slot) = some n))

/-- The lowest-numbered empty place (R171). -/
def Terminal.emptyPlace (r : Terminal) : Option (Fin 12) := allPlaces.find? (fun i => (vget r.watch i).isNone)

/-- The watch line of a place (R171). -/
def lineOfPlace (i : Fin 12) : Nat := i.val + 1

/-- An entry put at a place, its line marked dirty (R171). -/
def Terminal.putEntry (r : Terminal) (i : Fin 12) (e : Option WatchEntry) : Terminal :=
  ({ r with watch := vset r.watch i e } : Terminal).mark (lineOfPlace i)

/-- Every occurrence of the place's line number leaves the alert queue (R185). -/
def Terminal.dropAlerts (r : Terminal) (i : Fin 12) : Terminal :=
  { r with alerts := r.alerts.filter (fun a => a != lineOfPlace i) }

/-- A new entry is made at place `i`, and the terminal joins the slot's subscriber set (R172, R173, R175). -/
def TerminalController.addEntry (p : TerminalController) (t : TermId) (i : Fin 12) (e : WatchEntry) : TerminalController :=
  { p.put t ((vget p.terminals t).putEntry i (some e)) with
    subscribers := vset p.subscribers e.slot (join t.val (vget p.subscribers e.slot)) }

/-- The entry of slot `n` at place `i` is removed with its alerts, and the terminal leaves the subscriber set (R185). -/
def TerminalController.removeEntry (p : TerminalController) (t : TermId) (i : Fin 12) (n : Slot) : TerminalController :=
  { p.put t (((vget p.terminals t).dropAlerts i).putEntry i none) with
    subscribers := vset p.subscribers n (leave t.val (vget p.subscribers n)) }

/-- The entry at place `i` is rewritten, and its alerts leave the queue (R175, R185). -/
def TerminalController.rewriteEntry (p : TerminalController) (t : TermId) (i : Fin 12) (e : WatchEntry) : TerminalController :=
  p.put t (((vget p.terminals t).dropAlerts i).putEntry i (some e))

/-- The entry a dealer's WATCH key makes (R170, R173). -/
def dealerEntry (n : Slot) (last : Word) : WatchEntry where
  slot := n
  origin := .dealer
  code := 0
  negate := true
  limit := 0
  hysteresis := 0
  reference := last
  side := .unknown
  alerted := false

/-- The entry the WATCH command makes or rewrites from P1, P2 and P3 (R175). -/
def hostEntry (n : Slot) (last p1 p2 p3 : Word) : WatchEntry where
  slot := n
  origin := .host
  code := Fin.ofNat 8 (field p1 2 0)
  negate := bit p1 3
  limit := p2
  hysteresis := BitVec.ofNat 8 (min 255 p3.toNat)
  reference := last
  side := .unknown
  alerted := false

/-! ### Evaluating trades (R178 to R182) -/

/-- The trade's direction as the evaluation reckons it, against `close` when the prior price is 0 (R178). -/
def tradeDirection (d : TradeDetails) (close : Word) : Direction :=
  if d.prior ≠ 0 then (if d.prior < d.price then .up else if d.price < d.prior then .down else .none)
  else if close ≠ 0 ∧ close < d.price then .up
  else if close ≠ 0 ∧ d.price < close then .down
  else .none

/-- The test of a condition code before negation (Table 9-3). -/
def WatchEntry.test (e : WatchEntry) (d : TradeDetails) (close : Word) : Bool :=
  match e.code with
  | 0 => true
  | 1 => decide (tradeDirection d close = .up)
  | 2 => decide (tradeDirection d close = .down)
  | 3 => d.newHigh
  | 4 => d.newLow
  | 5 => decide (e.limit ≤ d.price)
  | 6 => decide (d.price ≤ e.limit)
  | 7 => decide (e.reference ≠ 0 ∧ e.limit.toNat ≤ ((d.price.toNat : Int) - e.reference.toNat).natAbs)

/-- The re-arm condition of a crossing entry, in signed arithmetic with no wrap (R182, Table 9-4). -/
def WatchEntry.rearms (e : WatchEntry) (v : Word) : Bool :=
  let p : Int := v.toNat
  let limit : Int := e.limit.toNat
  let h : Int := e.hysteresis.toNat
  if e.code = 5 then (if e.negate then decide (limit + h ≤ p) else decide (p < limit - h))
  else (if e.negate then decide (p ≤ limit - h) else decide (limit + h < p))

/-- The entry is of a crossing kind (Table 9-3). -/
def WatchEntry.isCrossing (e : WatchEntry) : Bool := decide (e.code = 5) || decide (e.code = 6)

/-- A crossing entry after a trade, and whether it alerts (R181). -/
def WatchEntry.evalCrossing (e : WatchEntry) (d : TradeDetails) (holds : Bool) : WatchEntry × Bool :=
  match e.side with
  | .unknown => ({ e with side := if holds then .isTrue else .isFalse }, false)
  | .isFalse => if holds then ({ e with side := .isTrue }, true) else (e, false)
  | .isTrue => if e.rearms d.price then ({ e with side := .isFalse }, false) else (e, false)

/-- A MOVE entry after a trade, and whether it alerts (R180). -/
def WatchEntry.evalMove (e : WatchEntry) (d : TradeDetails) (holds : Bool) : WatchEntry × Bool :=
  if e.reference = 0 then ({ e with reference := d.price }, false)
  else if e.negate then (e, holds)
  else if holds then ({ e with reference := d.price }, true)
  else (e, false)

/-- The evaluation of one trade against an entry (R179 to R182). `holds` is the test after negation. -/
def WatchEntry.evaluate (e : WatchEntry) (d : TradeDetails) (close : Word) : WatchEntry × Bool :=
  let holds := xor (e.test d close) e.negate
  if e.isCrossing then e.evalCrossing d holds
  else if e.code = 7 then e.evalMove d holds
  else (e, holds)

/-! ### Alerts (R184) -/

/-- A line number appended to an alert queue, the oldest removed when it holds 4 (R184). -/
def pushAlert (q : List Nat) (line : Nat) : List Nat := (if q.length < 4 then q else q.tail) ++ [line]

/-- A terminal evaluates its entry for the notice's slot (R178, R184). -/
def Terminal.evaluate (r : Terminal) (n : Slot) (d : TradeDetails) (close : Word) : Terminal :=
  match r.placeOf n with
  | none => r
  | some i =>
    match vget r.watch i with
    | none => r
    | some e =>
      let out := e.evaluate d close
      if out.2 then
        let r1 := r.putEntry i (some { out.1 with alerted := true })
        { r1 with alerts := pushAlert r1.alerts (lineOfPlace i) }
      else { r with watch := vset r.watch i (some out.1) }

/-- The marks an update notice of slot `n` makes on one terminal (R157). `subscribed`: the terminal is in the slot's set. -/
def Terminal.noticeMarks (r : Terminal) (n : Slot) (subscribed : Bool) : Terminal :=
  let r1 :=
    if subscribed then
      match r.placeOf n with
      | some i => r.mark (lineOfPlace i)
      | none => r
    else r
  if r1.response = .quote n then r1.mark 13 else r1

/-- One terminal takes an update notice: its marks, then, on a TRADE, the evaluation of its entry (R157, R178). -/
def TerminalController.noticeAt (n : Notice) (close : Word) (p : TerminalController) (t : TermId) : TerminalController :=
  let subscribed := decide (t.val ∈ vget p.subscribers n.slot)
  let r1 := (vget p.terminals t).noticeMarks n.slot subscribed
  let r2 :=
    match n.trade with
    | some d => if subscribed then r1.evaluate n.slot d close else r1
    | none => r1
  p.put t r2

/-- PT takes an update notice; `close` is the slot's close as it stands (R157, R172, R178). -/
def TerminalController.notice (p : TerminalController) (n : Notice) (close : Word) : TerminalController :=
  allTerms.foldl (TerminalController.noticeAt n close) p

/-! ### ACK and ROLL (R183, R186) -/

/-- An ACK key: every set alerted flag is cleared and its line marked, and the alert queue is emptied (R186). -/
def Terminal.acknowledge (r : Terminal) : Terminal :=
  let ackPlace (x : Terminal) (i : Fin 12) : Terminal :=
    match vget x.watch i with
    | some e => if e.alerted then x.putEntry i (some { e with alerted := false }) else x
    | none => x
  { allPlaces.foldl ackPlace r with alerts := [] }

/-- The side becomes UNKNOWN and the reference 0 (R183). -/
def WatchEntry.rolled (e : WatchEntry) : WatchEntry := { e with side := .unknown, reference := 0 }

/-- Every entry of a terminal set anew (R183). -/
def Terminal.rollEntries (r : Terminal) : Terminal := { r with watch := vmap (Option.map WatchEntry.rolled) r.watch }

/-- ROLL is accepted: every entry of every terminal is set anew (R183). -/
def TerminalController.rollEntries (p : TerminalController) : TerminalController :=
  { p with terminals := vmap Terminal.rollEntries p.terminals }

end Sys2Proof.Machine
end

