-- ==== Sys2Proof/Machine/Tape.lean ====
section
/-!
DEFINITION. The Tape Controller: prints, merging and dropping, bulletins, lateness and tape modes, print texts, and the pace timer
(chapter 6).
-/

namespace Sys2Proof.Machine

/-! ### The tape queue (R109 to R113) -/

/-- The sum of two sizes, held to 65535; the one present when only one is (R110). -/
def mergeSizes : Option Word → Option Word → Option Word
  | some a, some b => some (BitVec.ofNat 16 (min 65535 (a.toNat + b.toNat)))
  | some a, none => some a
  | none, b => b

/-- A trade merged into the youngest print of its slot among the first `n` of a list that runs youngest first (R110). -/
def mergeYoungest (slot : Slot) (price : Word) (size : Option Word) : Nat → List Print → Option (List Print)
  | 0, _ => none
  | _ + 1, [] => none
  | n + 1, .trade sl pr sz st om :: ps =>
    if sl = slot then some (.trade sl price (mergeSizes sz size) st om :: ps)
    else (mergeYoungest slot price size n ps).map (.trade sl pr sz st om :: ·)
  | n + 1, .bulletin t om :: ps => (mergeYoungest slot price size n ps).map (.bulletin t om :: ·)

/-- A print is dropped: the omitted count rises and the omit pending flag is set (R111). -/
def TapeController.drop (t : TapeController) : TapeController :=
  { t with omitted := countUp t.omitted, omitPending := true }

/-- A trade joins the tape: appended, merged or dropped (R109, R110, R111). -/
def TapeController.addTrade (t : TapeController) (slot : Slot) (d : TradeDetails) : TapeController :=
  if t.queue.length < 96 then
    { t with queue := t.queue ++ [.trade slot d.price d.size d.stamp t.omitPending], omitPending := false }
  else match mergeYoungest slot d.price d.size 8 t.queue.reverse with
    | some q => { t with queue := q.reverse }
    | none => t.drop

/-- TC takes an update notice: a TRADE notice makes a print (R109, R17). -/
def TapeController.notice (t : TapeController) (n : Notice) : TapeController :=
  match n.trade with
  | some d => t.addTrade n.slot d
  | none => t

/-- The eight words of the bulletin shadow in order. -/
def TapeController.shadowText (t : TapeController) : Text :=
  t.shadow.toList.flatMap (fun w => [hiByte w, loByte w])

/-- A host bulletin joins the tape, or is dropped when the queue is full; an empty one is not enqueued (R113). -/
def TapeController.addBulletin (t : TapeController) : TapeController :=
  let text := trimRight (t.shadowText.map tapeChar)
  if text = [] then t
  else if t.queue.length < 96 then
    { t with queue := t.queue ++ [.bulletin text t.omitPending], omitPending := false }
  else t.drop

/-- A host write in the BULLETIN window: the shadow takes the lanes written, and a full write to word 7 enqueues the text (R112,
R113). -/
def TapeController.bulletinWrite (t : TapeController) (i : Fin 8) (d : Word) (lanes : Lanes) : TapeController :=
  let t1 : TapeController := { t with shadow := vset t.shadow i (mergeLanes (vget t.shadow i) d lanes) }
  if i = 7 ∧ lanes = .both then t1.addBulletin else t1

/-! ### Lateness and mode (R118, R119) -/

/-- The lateness in seconds of a print stamped `stamp` started at `now` (R118). -/
def latenessOf (now stamp : Nat) : Nat :=
  let d := (now + 864000 - stamp % 864000) % 864000
  if 432000 < d then 0 else d / 10

/-- The tape mode found at the start of a TRADE print of lateness `l` (R119, Table 6-4). -/
def TapeController.modeFor (t : TapeController) (l : Nat) : TapeMode :=
  match t.mode with
  | .full => if t.late2 ≤ l then .short else if t.late1 ≤ l then .compact else .full
  | .compact => if t.late2 ≤ l then .short else if l ≤ t.back then .full else .compact
  | .short => if l ≤ t.back then .compact else .short

/-- The internal bulletin a mode change makes, if any (R114, R120). -/
def modeBulletin (old new : TapeMode) (l : Nat) : Option Text :=
  if old.code < new.code then
    some (ascii ['D', 'E', 'L', 'A', 'Y', 'E', 'D', ' '] ++ decimal (min 99 (l / 60)) ++ ascii [' ', 'M', 'I', 'N'])
  else match old, new with
    | .compact, .full => some (ascii ['C', 'U', 'R', 'R', 'E', 'N', 'T'])
    | _, _ => none

/-- NO REPORTS (R114). -/
def noReportsText : Text := ascii ['N', 'O', ' ', 'R', 'E', 'P', 'O', 'R', 'T', 'S']

/-! ### Print text (R122, R123) -/

/-- The size part in a mode: shown at 2 lots or more, and in COMPACT and SHORT at the block threshold or more (R122, R123). -/
def sizePart (mode : TapeMode) (threshold : Nat) : Option Word → Text
  | none => []
  | some z =>
    if 2 ≤ z.toNat ∧ (mode = .full ∨ threshold ≤ z.toNat) then decimal z.toNat ++ [glLots] else []

/-- The price as a mode prints it: shortened in SHORT when the slot's memo has the same tens (R123, log entry 19). -/
def tapePrice (mode : TapeMode) (memo : Option Nat) (d t : Nat) : Text :=
  match memo with
  | some m =>
    if mode = .short ∧ m / 10 = t / d / 10 then digitChar (t / d) :: fractionText d (t % d) true else priceText d t
  | none => priceText d t

/-- The OMIT glyph of a marked print. -/
def omitPart (omitMark : Bool) : Text := if omitMark then [glOmit] else []

/-- The text of a TRADE print (R122, R123). -/
def tradeText (mode : TapeMode) (threshold : Nat) (memo : Option Nat) (r : SlotRec) (price : Word) (size : Option Word)
    (omitMark : Bool) : Text :=
  omitPart omitMark ++ r.name ++ [chSpace] ++ sizePart mode threshold size ++ tapePrice mode memo r.base.ticks price.toNat
    ++ spaces 3

/-- The text of a BULLETIN print (R123). -/
def bulletinText (text : Text) (omitMark : Bool) : Text := omitPart omitMark ++ text ++ spaces 3

/-! ### The pace timer (R115 to R117, R120, R121, R124) -/

/-- The first character of a started print is sent, the others stay to be sent (R116). -/
def TapeController.sendFirst (t : TapeController) (text : Text) : TapeController :=
  { t with charOut := text.head?, current := text.tail }

/-- The effects of a change of tape mode at a print start (R120). -/
def State.tapeModeChanged (s : State) (new : TapeMode) (l : Nat) : State :=
  if s.tc.mode = new then s
  else
    let reserved := match modeBulletin s.tc.mode new l with
      | some b => some b
      | none => s.tc.reserved
    ((s.setTc { s.tc with mode := new, reserved := reserved }).raise flagTape).markStatusLines

/-- A TRADE print starts: its lateness is measured, the mode evaluated, the text composed in it, the memo set, and the first
character sent (R116, R118 to R124). -/
def State.startTrade (s : State) (slot : Slot) (price : Word) (size : Option Word) (stamp : Nat) (omitMark : Bool) : State :=
  let l := latenessOf s.cs.clock stamp
  let s1 := s.tapeModeChanged (s.tc.modeFor l) l
  let r := s1.slot slot
  let text := tradeText s1.tc.mode s1.tc.threshold (vget s1.tc.memos slot) r price size omitMark
  s1.setTc ({ s1.tc with
    lateness := l
    memos := vset s1.tc.memos slot (some (price.toNat / r.base.ticks)) }.sendFirst text)

/-- An expiry of the pace timer (R116, R117). The timer is stopped outside READY (R115). A print ends in the expiry that sends its last
character, as step 1 of R116 says: DESIGN CHOICE against the later sentence of R116 (log entry 37). -/
def State.tapePace (s : State) : State :=
  if s.tc.timerRunning then
    match s.tc.current with
    | c :: cs => s.setTc { s.tc with charOut := some c, current := cs }
    | [] =>
      if s.tapeHold then s.setTc { s.tc with charOut := none }
      else match s.tc.reserved with
        | some t => s.setTc ({ s.tc with reserved := none }.sendFirst (bulletinText t false))
        | none =>
          match s.tc.queue with
          | .trade n p z st om :: q => (s.setTc { s.tc with queue := q }).startTrade n p z st om
          | .bulletin t om :: q => s.setTc ({ s.tc with queue := q }.sendFirst (bulletinText t om))
          | [] => s.setTc { s.tc with charOut := some chSpace }
  else s

/-- The tape is empty: no print queued, reserved or current (R126). -/
def TapeController.isEmpty (t : TapeController) : Bool := t.queue.isEmpty && t.reserved.isNone && t.current.isEmpty

/-- TAPE CLEAR empties the queue and the reserved place (R125). -/
def TapeController.clear (t : TapeController) : TapeController := { t with queue := [], reserved := none }

/-- LOAD is accepted: TC takes its reset values, and the character going out is completed (R128). A LOAD that fails leaves it so. -/
def TapeController.loadAccepted (t : TapeController) : TapeController := { TapeController.reset with charOut := t.charOut }

/-- ROLL is accepted (R127). -/
def TapeController.rollAccepted (t : TapeController) : TapeController :=
  { t with
    queue := []
    reserved := none
    memos := Vector.replicate 256 none
    omitted := 0
    omitPending := false
    mode := .full
    lateness := 0 }

end Sys2Proof.Machine
end

