-- ==== Sys2Proof/Machine/Session.lean ====
section
/-!
DEFINITION. The delivery of update notices (R17, R44), what watched writes do to the records (2.3), and the Clock and Session Unit:
clock, session, ROLL walk, floor lines and feed monitor (chapter 7).
-/

namespace Sys2Proof.Machine

/-! ### Update notices (R15, R17, R42, R44) -/

/-- The record of the notice's slot becomes `after`, and the notice is delivered to its receivers: write-back marks, BC, TC and PT
(R17, R44). -/
def State.changeRecord (s : State) (n : Notice) (after : SlotRec) : State :=
  let s1 := (s.setSlot n.slot after).setDue (dueFor s n.slot (s.slot n.slot) after)
  let s2 := s1.setBc (s1.bc.notice n)
  let s3 := s2.setTc (s2.tc.notice n)
  s3.setPt (s3.pt.notice n after.close)

/-- A capture restarts the feed monitor and makes a STALE feed LIVE (R40, R146). -/
def State.feedRestart (s : State) : State :=
  let s1 := s.setCs { s.cs with feedCount := 0, feedStale := false }
  if s.cs.feedStale then s1.markStatusLines else s1

/-- A capture of `v` on slot `n` through window `w` (R7 to R10, R33, R44). -/
def State.captureTrade (s : State) (w : Fin 8) (n : Slot) (v : Word) : State :=
  let size := vget s.qe.pendingSize n
  let before := s.slot n
  let after := captureRec before v size s.cs.clock
  let s1 := (s.setPendingSize n none).changeRecord (tradeNotice n before after size s.cs.clock) after
  (s1.countDown w).feedRestart

/-- A full write of `v` to the LAST field of slot `n` (R33). -/
def State.lastWrite (s : State) (w : Fin 8) (n : Slot) (v : Word) : State :=
  if (s.slot n).state = .listed ∧ s.cs.session = .opened ∧ v ≠ 0 then s.captureTrade w n v else s.anomaly

/-- A full write of `v` to the SIZE field of slot `n` (R34). -/
def State.sizeWrite (s : State) (n : Slot) (v : Word) : State :=
  if (s.slot n).state = .unused then s.anomaly else s.setPendingSize n (if v = 0 then none else some v)

/-- The close of slot `n` becomes `v`, with its CLOSE notice (R12). -/
def State.closeTo (s : State) (n : Slot) (v : Word) : State :=
  let after := closeRec (s.slot n) v
  s.changeRecord (closeNotice n after) after

/-- A full write of `v` to the CLOSE field of slot `n` (R35). -/
def State.closeWrite (s : State) (n : Slot) (v : Word) : State :=
  if (s.slot n).state = .unused then s.anomaly else s.closeTo n v

/-! ### The session (R134 to R140) -/

/-- The session changes: every status line is marked dirty (R134). -/
def State.setSession (s : State) (x : Session) : State := (s.setCs { s.cs with session := x }).markStatusLines

/-- The market opens: the feed monitor starts (R135). -/
def State.openMarket (s : State) : State :=
  (s.setCs { s.cs with feedCount := 0, feedStale := false }).setSession .opened

/-- The market closes: the feed monitor stops (R136). -/
def State.closeMarket (s : State) : State :=
  (s.setCs { s.cs with feedCount := 0, feedStale := false }).setSession .closed

/-- The session goes from DIMMING to DARK when every used link is drained and the tape is empty (R140, R105). -/
def State.sessionDark (s : State) : State :=
  if s.isReady ∧ s.cs.session = .dimming ∧ s.bc.drained ∧ s.tc.isEmpty then
    let s1 := s.setBc { s.bc with links := vmap Link.goDark s.bc.links }
    let s2 := s1.setCr { s1.cr with running := none }
    (s2.setSession .dark).cmdDone 0x05
  else s

/-- ROLL is accepted (R137, R105, R127, R183). -/
def State.rollAccepted (s : State) : State :=
  let s1 := s.setBc { s.bc with links := vmap Link.rollAccepted s.bc.links }
  let s2 := s1.setTc s1.tc.rollAccepted
  let s3 := s2.setPt s2.pt.rollEntries
  let s4 := if s.tc.mode = .full then s3 else s3.markStatusLines
  let s5 := s4.setCs { s4.cs with rollNext := some 0 }
  s5.setCr { s5.cr with running := some .roll }

/-- A slot is rolled and issues its ROLL notice; an UNUSED slot is passed over (R5). -/
def State.rollOne (s : State) (n : Slot) : State :=
  if (s.slot n).state = .unused then s
  else (s.setPendingSize n none).changeRecord (rollNotice n) (rollRec (s.slot n))

/-- The ROLL walk completes (R138). -/
def State.rollEnds (s : State) : State :=
  let s1 := s.setCs { s.cs with rollNext := none }
  let s2 := s1.setCr { s1.cr with running := none }
  (s2.setSession .preOpen).cmdDone 0x02

/-- The walk takes its next slot (R137, R138). -/
def State.rollSlot (s : State) : State :=
  match s.cs.rollNext with
  | none => s
  | some n =>
    let s1 := s.rollOne n
    if n = 255 then s1.rollEnds else s1.setCs { s1.cs with rollNext := some (n + 1) }

/-! ### The feed monitor (R144, R145) -/

/-- The feed becomes STALE (R145). It can only while the monitor runs: OPEN, F not 0, LIVE (R144). -/
def State.feedGoesStale (s : State) : State :=
  if s.isReady ∧ s.cs.session = .opened ∧ s.cs.feedTimeout ≠ 0 ∧ s.cs.feedStale = false then
    let s1 := s.setCs { s.cs with feedStale := true, feedCount := s.cs.feedTimeout }
    ((s1.setTc { s1.tc with reserved := some noReportsText }).raise flagFeed).markStatusLines
  else s

/-- The feed count rises at a whole second; on reaching F the feed becomes STALE (R144, R145). -/
def State.feedSecond (s : State) : State :=
  if s.isReady ∧ s.cs.session = .opened ∧ s.cs.feedTimeout ≠ 0 ∧ s.cs.feedStale = false then
    if s.cs.feedTimeout ≤ s.cs.feedCount + 1 then s.feedGoesStale
    else s.setCs { s.cs with feedCount := s.cs.feedCount + 1 }
  else s

/-! ### The clock (R129 to R132) -/

/-- The sweep count rises at a whole second; on reaching S it is a sweep expiry (R101). -/
def State.sweepSecond (s : State) : State :=
  if s.isReady ∧ s.bc.sweepSeconds ≠ 0 then
    if s.bc.sweepSeconds ≤ s.bc.sweepCount + 1 then s.sweepExpiry
    else s.setBc { s.bc with sweepCount := s.bc.sweepCount + 1 }
  else s

/-- The work of a whole second (R131). -/
def State.wholeSecond (s : State) : State := ((s.markAllDirty [15, 16]).sweepSecond).feedSecond

/-- The work of a whole minute (R131). -/
def State.wholeMinute (s : State) : State := if s.isReady then s.markStatusLines else s

/-- The whole-second event commanded on its own: one that the latest advance's event has taken adds nothing (log entry 1). -/
def State.wholeSecondEvent (s : State) : State :=
  if s.cs.secondTaken then s.setCs { s.cs with secondTaken := false } else s.wholeSecond

/-- The tenths a base step advances the clock by, and the accumulator after it (R130). -/
def ClockSession.trimStep (c : ClockSession) : Nat × Nat :=
  let sum := c.trimAccumulator + c.trimMagnitude
  if 1048576 ≤ sum then (if c.trimNegative then 0 else 2, sum - 1048576) else (1, sum)

/-- The clock advanced by `k` tenths, wrapping at midnight (R129). -/
def advanceBy (clock k : Nat) : Nat := if 864000 ≤ clock + k then clock + k - 864000 else clock + k

/-- A base step: the clock advances as the trim gives, and an advance other than 0 is handed to the work that runs by the clock
(R129, R130, R131, R80). -/
def State.baseStep (s : State) : State :=
  let k := s.cs.trimStep.1
  let acc := s.cs.trimStep.2
  let next := advanceBy s.cs.clock k
  let second := decide (s.cs.clock / 10 ≠ next / 10)
  let minute := decide (s.cs.clock / 600 ≠ next / 600)
  let s1 := s.setCs { s.cs with clock := next, trimAccumulator := acc, secondTaken := second }
  if k = 0 then s1
  else
    let s2 := (s1.setBc (s1.bc.lowerBlinks k)).blinkExpiry
    let s3 := if second then s2.wholeSecond else s2
    if minute then s3.wholeMinute else s3

/-! ### Floor lines (R141 to R143) -/

/-- A floor line's debounced level becomes `level`: while READY a rising bell signal is taken (R141, R142). -/
def State.lineChange (s : State) (line : LineId) (level : Bool) : State :=
  let s1 := s.setCs { s.cs with lineLevels := vset s.cs.lineLevels line level }
  let rises (f : LineFunction) : Bool := !s.cs.signal f && s1.cs.signal f
  if s.isReady && rises .openBell && decide (s.cs.session = .preOpen) then s1.openMarket.raise flagBell
  else if s.isReady && rises .closeBell && decide (s.cs.session = .opened) then s1.closeMarket.raise flagBell
  else s1

end Sys2Proof.Machine
end

