-- ==== Sys2Proof/Machine/Terminal.lean ====
section
/-!
DEFINITION. The Post Terminal Controller: the lines of the screen, the loop and its turns, the keys, the key queue and its move
into the mailbox (chapters 8 and 9, R200).
-/

namespace Sys2Proof.Machine

/-! ### Composing the lines (R154, R156, R158) -/

/-- The session's name (R154). -/
def Session.nameText : Session → Text
  | .closed => ascii ['C', 'L', 'O', 'S', 'E', 'D']
  | .preOpen => ascii ['P', 'R', 'E', '-', 'O', 'P', 'E', 'N']
  | .opened => ascii ['O', 'P', 'E', 'N']
  | .dimming => ascii ['D', 'I', 'M', 'M', 'I', 'N', 'G']
  | .dark => ascii ['D', 'A', 'R', 'K']

/-- The clock as hh:mm, or --:-- while NOT SET is set (R154). -/
def clockText (c : ClockSession) : Text :=
  if c.notSet then ascii ['-', '-', ':', '-', '-']
  else twoDigits (c.clock / 600 / 60) ++ ascii [':'] ++ twoDigits (c.clock / 600 % 60)

/-- Columns 15 to 24 of the status line (R154). -/
def lateText (c : ClockSession) (t : TapeController) : Text :=
  if c.feedStale then ascii ['F', 'E', 'E', 'D', ' ', 'S', 'T', 'A', 'L', 'E']
  else if t.mode ≠ .full then ascii ['T', 'A', 'P', 'E', ' ', 'L', 'A', 'T', 'E', ' ']
  else spaces 10

/-- The status line of a terminal (R154, Table 8-3). -/
def statusLine (s : State) (r : Terminal) : Text :=
  padRight 8 s.cs.session.nameText ++ spaces 1 ++ clockText s.cs ++ spaces 1 ++ lateText s.cs s.tc ++ spaces 7
    ++ r.statusText

/-- Columns 0 to 23 of a watch line or QUOTE line (Table 8-4). -/
def quoteLead (r : SlotRec) : Text :=
  fitName 4 r.name ++ spaces 1 ++ fit 9 (lastField r) ++ fit 1 (.plain (tickText r.direction)) ++ spaces 1
    ++ fit 8 (changeField r.base.ticks r.change)

/-- The watch line of an entry for a slot's record (R156, Table 8-4). -/
def watchLine (r : SlotRec) : Text :=
  quoteLead r ++ spaces 1 ++ fit 7 (optPriceField r.base.ticks r.high) ++ spaces 1
    ++ fit 7 (optPriceField r.base.ticks r.low)

/-- The QUOTE response line of a slot's record (R158, Table 8-4). -/
def quoteLine (r : SlotRec) : Text :=
  quoteLead r ++ spaces 1 ++ ascii ['V'] ++ spaces 1 ++ fitVolume 10 r.volume.toNat ++ spaces 3

/-- The text of a message (R158). -/
def messageText (s : State) : Message → Text
  | .noSymbol => ascii ['N', 'O', ' ', 'S', 'Y', 'M', 'B', 'O', 'L']
  | .onList => ascii ['O', 'N', ' ', 'L', 'I', 'S', 'T']
  | .listFull => ascii ['L', 'I', 'S', 'T', ' ', 'F', 'U', 'L', 'L']
  | .notOnList => ascii ['N', 'O', 'T', ' ', 'O', 'N', ' ', 'L', 'I', 'S', 'T']
  | .pinned => ascii ['P', 'I', 'N', 'N', 'E', 'D']
  | .wait => ascii ['W', 'A', 'I', 'T']
  | .noEntry => ascii ['N', 'O', ' ', 'E', 'N', 'T', 'R', 'Y']
  | .noRecall => ascii ['N', 'O', ' ', 'R', 'E', 'C', 'A', 'L', 'L']
  | .sent => ascii ['S', 'E', 'N', 'T']
  | .watching n => ascii ['W', 'A', 'T', 'C', 'H', 'I', 'N', 'G', ' '] ++ (s.slot n).name

/-- The response line of a terminal (R158). -/
def responseLine (s : State) (r : Terminal) : Text :=
  match r.response with
  | .empty => spaces 40
  | .entry => padRight 40 (ascii ['>'] ++ r.entry)
  | .quote n => quoteLine (s.slot n)
  | .message m => padRight 40 (messageText s m)

/-- The watch place a watch line shows. -/
def placeOfLine (line : Nat) : Fin 12 := Fin.ofNat 12 (line - 1)

/-- The 40 characters of a line of a terminal's screen (Table 8-2). -/
def lineText (s : State) (r : Terminal) (line : Nat) : Text :=
  if line = 0 then statusLine s r
  else if line = 13 then responseLine s r
  else match vget r.watch (placeOfLine line) with
    | some e => watchLine (s.slot e.slot)
    | none => spaces 40

/-- The reverse-video bit of a line: a watch line whose entry is ALERTED (R156). -/
def lineReversed (r : Terminal) (line : Nat) : Bool :=
  if line = 0 ∨ line = 13 then false
  else match vget r.watch (placeOfLine line) with
    | some e => e.alerted
    | none => false

/-! ### Turns (R148, R149, R159, R160) -/

/-- The first place from `i` on, wrapping, whose entry names a terminal (R148). -/
def validPlace (poll : List Nat) (i : Nat) : Option Nat :=
  ((List.range poll.length).map (fun k => (i + k) % poll.length)).find? (fun k => decide (poll.getD k 255 ≤ 15))

/-- What a turn sends to a terminal: a line with or without the bell, or a bare poll (R159). -/
def chooseOutput (r : Terminal) : Option (Nat × Bool) :=
  if r.online then
    match r.alerts with
    | line :: _ => some (line, true)
    | [] =>
      if 13 ∈ r.dirty then some (13, false)
      else if 0 ∈ r.dirty then some (0, false)
      else (r.dirty.find? (fun l => decide (1 ≤ l ∧ l ≤ 12))).map (·, false)
  else none

/-- The turn of terminal `t` begins: the chosen line leaves the dirty line set, and an alert its queue (R159, R160). -/
def State.startTurn (s : State) (t : TermId) : State :=
  let r := s.term t
  match chooseOutput r with
  | some (line, bell) =>
    let frame := terminalFrame t line (lineText s r line) (lineReversed r line) bell r.clearPending
    let r1 : Terminal := { r with dirty := leave line r.dirty, alerts := if bell then r.alerts.tail else r.alerts }
    s.setPt { s.pt.put t r1 with turn := some ⟨t, some line, r.clearPending, false, false⟩, frameOut := frame }
  | none => s.setPt { s.pt with turn := some ⟨t, none, false, false, false⟩, frameOut := pollFrame t }

/-- The loop begins a turn to the terminal at the poll pointer, when none is in hand and the part is READY (R148, R159). -/
def State.turnStart (s : State) : State :=
  if s.isReady ∧ s.pt.turn = none then
    match validPlace s.pt.poll s.pt.pointer with
    | some i => (s.setPt { s.pt with pointer := i }).startTurn (Fin.ofNat 16 (s.pt.poll.getD i 0))
    | none => s
  else s

/-- The last byte of the terminal frame goes out and the answer wait begins (R149). -/
def TerminalController.frameSent (p : TerminalController) : TerminalController :=
  match p.turn with
  | some u => { p with turn := some { u with waiting := true } }
  | none => p

/-- The turn ends and the pointer moves to the next place that names a terminal (R148). -/
def TerminalController.endTurn (p : TerminalController) : TerminalController :=
  { p with turn := none, pointer := (validPlace p.poll (p.pointer + 1)).getD 0 }

/-- A miss on the terminal of the turn (R150). -/
def State.turnMissed (s : State) (u : Turn) : State :=
  let s1 := s.setPt s.pt.endTurn
  let r := s1.term u.terminal
  let r1 := match u.line with
    | some line => r.mark line
    | none => r
  if r1.online then
    if r1.misses + 1 < 3 then s1.setTerm u.terminal { r1 with misses := r1.misses + 1 }
    else (s1.setTerm u.terminal { r1 with online := false, misses := 0 }).raise flagTerm
  else s1.setTerm u.terminal { r1 with misses := 0 }

/-- A turn whose answer is to be discarded ends with nothing taken from it; the pointer stays where LOAD put it (R148, R152). -/
def State.turnDiscarded (s : State) : State := s.setPt { s.pt with turn := none }

/-- The answer wait ends without a good answer (R149, R150). -/
def State.turnMiss (s : State) : State :=
  match s.pt.turn with
  | some u => if u.waiting then (if u.discard then s.turnDiscarded else s.turnMissed u) else s
  | none => s

/-- LOAD is accepted: the loop stops and PT takes its reset values; the frame going out is completed and its answer is to be discarded
(R147, R152, R171, R172; log entry 29). A LOAD that fails leaves it so. -/
def TerminalController.loadAccepted (p : TerminalController) : TerminalController :=
  { TerminalController.reset with
    turn := p.turn.map (fun u => { u with discard := true })
    frameOut := p.frameOut }

/-- All 14 lines of the screen. -/
def allLines : List Nat := [0, 1, 2, 3, 4, 5, 6, 7, 8, 9, 10, 11, 12, 13]

/-- A good answer from the terminal of the turn, before its key is taken (R151, R160). -/
def State.turnAnswered (s : State) (u : Turn) : State :=
  let s1 := s.setPt s.pt.endTurn
  let r := s1.term u.terminal
  let r1 : Terminal := { r with misses := 0, clearPending := if u.clear then false else r.clearPending }
  if r.online then s1.setTerm u.terminal r1
  else (s1.setTerm u.terminal { r1 with online := true, dirty := allLines, clearPending := true }).raise flagTerm

/-! ### The mailbox (R166, R167, R200, R201) -/

/-- Two characters of a record's text padded with spaces to 8. -/
def mailWord (text : Text) (i : Nat) : Word :=
  let t := padRight 8 text
  wordOf (t.getD (2 * i) chSpace) (t.getD (2 * i + 1) chSpace)

/-- The head key record moves into an EMPTY mailbox (R167, R200). -/
def State.mailboxMoveIn (s : State) : State :=
  match s.cr.mailbox, s.pt.keyQueue with
  | none, r :: q =>
    let s1 := s.setPt { s.pt with keyQueue := q }
    let s2 := s1.setCr { s1.cr with
      mailbox := some r
      sequence := s1.cr.sequence + 1
      mailText := #v[mailWord r.text 0, mailWord r.text 1, mailWord r.text 2, mailWord r.text 3]
      mailSlot := match r.slot with
        | some n => BitVec.ofNat 16 n.val
        | none => 0xFFFF }
    (s2.markAllDirty [9, 10, 11, 12, 13, 14, 22]).raise flagKey
  | _, _ => s

/-- A read of MAILBOX SLOT releases a FULL mailbox, and the next record moves in (R201). The terminal and length bits shown while
EMPTY are a free value (log entry 13). -/
def State.mailboxRelease (s : State) : State :=
  match s.cr.mailbox with
  | none => s
  | some _ =>
    let s1 := s.setCr { s.cr with mailbox := none, tagIdle := Config.releasedTagBits s.freeDraws }
    ((s1.setFreeDraws (s.freeDraws + 1)).markDirty 9).mailboxMoveIn

/-! ### Keys (8.6, 9.3) -/

/-- The keys of Table 11-13. -/
inductive Key where
  | entry (code : Byte)
  | quote
  | recall
  | clear
  | send
  | watch
  | drop
  | ack
  deriving DecidableEq, Repr

/-- The key a code names (R161, Table 11-13); 00H and every other code name none. -/
def keyOf (code : Byte) : Option Key :=
  if code = 0xA1 then some .quote
  else if code = 0xA2 then some .recall
  else if code = 0xA3 then some .clear
  else if code = 0xA4 then some .send
  else if code = 0xA5 then some .watch
  else if code = 0xA6 then some .drop
  else if code = 0xA7 then some .ack
  else if code = 0x20 ∨ code = 0x2E ∨ code = 0x2F ∨ (0x30 ≤ code ∧ code ≤ 0x39) ∨ (0x41 ≤ code ∧ code ≤ 0x5A) then
    some (.entry code)
  else none

/-- A response set by a key marks line 13 dirty (R158). -/
def Terminal.respond (r : Terminal) (x : Response) : Terminal := ({ r with response := x } : Terminal).mark 13

/-- An entry key (R162). -/
def Terminal.entryKey (r : Terminal) (code : Byte) : Terminal :=
  ({ r with entry := if r.entry.length < 8 then r.entry ++ [code] else r.entry } : Terminal).respond .entry

/-- A push on the recall stack, top first (R164). -/
def pushRecall (st : List Slot) (n : Slot) : List Slot := if st.head? = some n then st else (n :: st).take 4

/-- A QUOTE key (R163). -/
def quoteKeyOn (s : State) (r : Terminal) : Terminal :=
  if r.entry = [] then r.respond (.message .noEntry)
  else match findSymbol s r.entry with
    | none => r.respond (.message .noSymbol)
    | some n => ({ r with recallStack := pushRecall r.recallStack n, entry := [] } : Terminal).respond (.quote n)

/-- A RECALL key (R164). -/
def Terminal.recallKey (r : Terminal) : Terminal :=
  match r.recallStack with
  | [] => r.respond (.message .noRecall)
  | top :: rest =>
    let st := rest ++ [top]
    ({ r with recallStack := st } : Terminal).respond (.quote (st.headD top))

/-- A CLEAR key (R165). -/
def Terminal.clearKey (r : Terminal) : Terminal := ({ r with entry := [] } : Terminal).respond .empty

/-- A SEND key of terminal `t` (R166, R167). -/
def State.sendKey (s : State) (t : TermId) : State :=
  let r := s.term t
  if r.entry = [] then s.setTerm t (r.respond (.message .noEntry))
  else if 8 ≤ s.pt.keyQueue.length then s.setTerm t (r.respond (.message .wait))
  else
    let s1 := s.setTerm t (({ r with entry := [] } : Terminal).respond (.message .sent))
    let s2 := s1.setPt { s1.pt with keyQueue := s1.pt.keyQueue ++ [⟨t, r.entry, r.recallStack.head?⟩] }
    (s2.markDirty 22).mailboxMoveIn

/-- A WATCH key of terminal `t` (R173). -/
def State.watchKey (s : State) (t : TermId) : State :=
  let r := s.term t
  if r.entry = [] then s.setTerm t (r.respond (.message .noEntry))
  else match findSymbol s r.entry with
    | none => s.setTerm t (r.respond (.message .noSymbol))
    | some n =>
      if (r.placeOf n).isSome then s.setTerm t (r.respond (.message .onList))
      else match r.emptyPlace with
        | none => s.setTerm t (r.respond (.message .listFull))
        | some i =>
          let r1 : Terminal := ({ r with entry := [] } : Terminal).respond (.message (.watching n))
          s.setPt ((s.pt.put t r1).addEntry t i (dealerEntry n (s.slot n).last))

/-- A DROP key of terminal `t` (R174). -/
def State.dropKey (s : State) (t : TermId) : State :=
  let r := s.term t
  if r.entry = [] then s.setTerm t (r.respond (.message .noEntry))
  else match findSymbol s r.entry with
    | none => s.setTerm t (r.respond (.message .noSymbol))
    | some n =>
      match r.placeOf n with
      | none => s.setTerm t (r.respond (.message .notOnList))
      | some i =>
        if (vget r.watch i).map (·.origin) = some .host then s.setTerm t (r.respond (.message .pinned))
        else
          let r1 : Terminal := ({ r with entry := [] } : Terminal).respond .empty
          s.setPt ((s.pt.put t r1).removeEntry t i n)

/-- A key of terminal `t` is taken by its kind (R161). -/
def State.takeKey (s : State) (t : TermId) : Key → State
  | .entry c => s.setTerm t ((s.term t).entryKey c)
  | .quote => s.setTerm t (quoteKeyOn s (s.term t))
  | .recall => s.setTerm t (s.term t).recallKey
  | .clear => s.setTerm t (s.term t).clearKey
  | .send => s.sendKey t
  | .watch => s.watchKey t
  | .drop => s.dropKey t
  | .ack => s.setTerm t (s.term t).acknowledge

/-- A key event on its own: keys come only while the loop runs, in READY (R148, log entry 20). -/
def State.keyEvent (s : State) (t : TermId) (k : Key) : State := if s.isReady then s.takeKey t k else s

/-- An answer arrives while the turn waits: a good one ends the turn and its key is taken in the same event; a bad one is a miss
(R149, R151; log entries 15 and 16). The answer of a turn that a LOAD overtook is discarded, key and all (R152). -/
def State.terminalAnswer (s : State) (bytes : Text) : State :=
  match s.pt.turn with
  | none => s
  | some u =>
    if u.waiting then
      if u.discard then s.turnDiscarded
      else match goodAnswer bytes with
        | none => s.turnMissed u
        | some code =>
          let s1 := s.turnAnswered u
          match keyOf code with
          | some k => s1.takeKey u.terminal k
          | none => s1
    else s

/-! ### Host commands on terminals (R168, R175, R176) -/

/-- The 8 characters of P0 to P3, each a terminal character (R168). -/
def statusChars (shadows : Vector Word 4) : Text :=
  (shadows.toList.flatMap (fun w => [hiByte w, loByte w])).map boardChar

/-- A status text set and line 0 marked (R168). -/
def Terminal.setStatus (r : Terminal) (text : Text) : Terminal := ({ r with statusText := text } : Terminal).mark 0

end Sys2Proof.Machine
end

