-- ==== Sys2Proof/Machine/Load.lean ====
section
/-!
DEFINITION. LOAD: its acceptance, its reads and checks phase by phase, its completion and its refusal (10.3, R27, R29, R64 to R68,
R192 to R197, Tables 11-1 to 11-5).
-/

namespace Sys2Proof.Machine

/-! ### Layouts that LOAD reads -/

/-- The configuration word at setup offset `i`, +24 to +123, of the 100 words read (R193). -/
def cfgWord (ws : List Word) (i : Nat) : Word := ws.getD (i - 24) 0

/-- A number held to the range `low` to `high`. -/
def clamp (low high n : Nat) : Nat := max low (min high n)

/-- The function code of a floor line (Table 11-1). -/
def lineFunctionOf (n : Nat) : LineFunction :=
  match n with
  | 1 => .openBell
  | 2 => .closeBell
  | 3 => .tapeHold
  | _ => .none

/-- An 18-bit address held in two words (R203). -/
def addressOf (h l : Word) : Nat := field h 1 0 * 65536 + l.toNat

/-- The kind code of a window descriptor (Table 11-2). -/
def windowKindOf (n : Nat) : Option WindowKind :=
  match n with
  | 1 => some .quote
  | 2 => some .text
  | 3 => some .bulletin
  | _ => none

/-- The stride code of a QUOTE window (Table 11-2); 0 stands for a code that fails. -/
def strideOf (n : Nat) : Nat :=
  match n with
  | 1 => 4
  | 2 => 8
  | 3 => 16
  | _ => 0

/-- A field offset with its presence bit. -/
def presentOffset (present : Bool) (o : Nat) : Option Nat := if present then some o else none

/-- The field offsets of a descriptor (Table 11-2, words 5 to 7). -/
def offsetsOf (w5 w6 w7 : Word) : FieldOffsets where
  last := presentOffset (bit w7 0) (field w5 15 12)
  size := presentOffset (bit w7 1) (field w5 11 8)
  close := presentOffset (bit w7 2) (field w5 7 4)
  chg := presentOffset (bit w7 3) (field w5 3 0)
  high := presentOffset (bit w7 4) (field w6 15 12)
  low := presentOffset (bit w7 5) (field w6 11 8)
  flags := presentOffset (bit w7 6) (field w6 7 4)
  vol := presentOffset (bit w7 7) (field w6 3 0)

/-- No field present: the offsets of a TEXT or BULLETIN window, whose words 4 to 7 are not read. -/
def noOffsets : FieldOffsets := ⟨none, none, none, none, none, none, none, none⟩

/-- Descriptor `n` is enabled (Table 11-2). -/
def descriptorEnabled (ws : List Word) (n : Fin 8) : Bool := bit (cfgWord ws (60 + 8 * n.val)) 15

/-- The window of descriptor `n`; none when its kind code fails (Table 11-2). -/
def windowOf (ws : List Word) (n : Fin 8) : Option Window :=
  let w (i : Nat) : Word := cfgWord ws (60 + 8 * n.val + i)
  (windowKindOf (field (w 0) 9 8)).map fun kind =>
    let quote := decide (kind = .quote)
    { index := n
      kind := kind
      base := addressOf (w 1) (w 2)
      length := (w 3).toNat
      stride := if quote then strideOf (field (w 1) 5 4) else 0
      firstSlot := if quote then field (w 4) 7 0 else 0
      offsets := if quote then offsetsOf (w 5) (w 6) (w 7) else noOffsets
      notify := if quote then field (w 0) 7 0 else 0 }

/-! ### Window checks (R29, Table 2-2) -/

/-- The enabled windows of a kind that LOAD admits (R29, reason 1). -/
def WindowKind.limit : WindowKind → Nat
  | .quote => 2
  | .text => 2
  | .bulletin => 1

/-- Reason 2, window geometry. -/
def Window.badGeometry (w : Window) : Bool :=
  decide (0x40000 < w.base + w.length) ||
    match w.kind with
    | .quote =>
      decide (w.stride = 0) || decide (w.length = 0) || decide (w.length % w.stride ≠ 0) ||
        decide (256 < w.firstSlot + w.length / w.stride)
    | .text => decide (w.length % 24 ≠ 0) || decide (w.length < 24) || decide (24 * 32 < w.length)
    | .bulletin => decide (w.length ≠ 8)

/-- Two ranges of addresses, each from a base over a length, share an address. -/
def rangesMeet (b1 n1 b2 n2 : Nat) : Bool := decide (b1 < b2 + n2) && decide (b2 < b1 + n1)

/-- Two QUOTE windows cover a slot in common. -/
def Window.slotsMeet (w v : Window) : Bool :=
  decide (w.kind = .quote) && decide (v.kind = .quote) &&
    rangesMeet w.firstSlot (w.length / w.stride) v.firstSlot (v.length / v.stride)

/-- Reason 3, window overlap. -/
def Window.overlaps (anchor : Nat) (earlier : List Window) (w : Window) : Bool :=
  rangesMeet w.base w.length anchor 124 ||
    earlier.any (fun v => rangesMeet w.base w.length v.base v.length || w.slotsMeet v)

/-- The offsets of the words a descriptor's present fields name, the second VOL word included. -/
def FieldOffsets.words (o : FieldOffsets) : List Nat :=
  [o.last, o.size, o.close, o.chg, o.high, o.low, o.flags, o.vol, o.vol.map (· + 1)].filterMap id

/-- No number stands twice in a list. -/
def allDistinct : List Nat → Bool
  | [] => true
  | n :: ns => !ns.contains n && allDistinct ns

/-- Reason 4, field offsets. -/
def Window.badOffsets (w : Window) : Bool :=
  decide (w.kind = .quote) &&
    (w.offsets.last.isNone || w.offsets.words.any (fun o => decide (w.stride ≤ o)) || !allDistinct w.offsets.words)

/-- The reason for which descriptor `w` fails after the enabled windows `earlier` (Table 2-2, in the order of its rows). -/
def windowFailure (anchor : Nat) (earlier : List Window) : Option Window → Option Nat
  | none => some 1
  | some w =>
    if w.kind.limit ≤ (earlier.filter (fun v => decide (v.kind = w.kind))).length then some 1
    else if w.badGeometry then some 2
    else if w.overlaps anchor earlier then some 3
    else if w.badOffsets then some 4
    else none

/-- The enabled windows in order, or the reason and index of the first descriptor that fails (R29). -/
def takeWindows (anchor : Nat) (ws : List Word) : List (Fin 8) → List Window → Except (Nat × Nat) (List Window)
  | [], acc => .ok acc
  | n :: ns, acc =>
    if descriptorEnabled ws n then
      match windowFailure anchor acc (windowOf ws n) with
      | some reason => .error (reason, n.val)
      | none =>
        match windowOf ws n with
        | some w => takeWindows anchor ws ns (acc ++ [w])
        | none => .error (1, n.val)
    else takeWindows anchor ws ns acc

/-- The descriptors 0 to 7. -/
def allDescriptors : List (Fin 8) := [0, 1, 2, 3, 4, 5, 6, 7]

/-! ### The CONFIGURATION phase (R193 to R195) -/

/-- BACK as clamped (Table 10-4). -/
def backOf (ws : List Word) : Nat := min 65533 (cfgWord ws 37).toNat

/-- LATE1 as clamped against BACK (Table 10-4). -/
def late1Of (ws : List Word) : Nat := clamp (backOf ws + 1) 65534 (cfgWord ws 35).toNat

/-- LATE2 as clamped against LATE1 (Table 10-4). -/
def late2Of (ws : List Word) : Nat := max (late1Of ws + 1) (cfgWord ws 36).toNat

/-- The row count of a link as clamped (R64). -/
def rowsOf (ws : List Word) (l : LinkId) : Nat := min 32 (field (cfgWord ws (38 + l.val)) 15 8)

/-- The column count of a link as clamped; 0 for an unused link, whose count is not used (R64). -/
def colsOf (ws : List Word) (l : LinkId) : Nat :=
  if rowsOf ws l = 0 then 0 else clamp 8 48 (field (cfgWord ws (38 + l.val)) 7 0)

/-- The placement count as clamped (R67). -/
def placementCountOf (ws : List Word) : Nat := min 1024 (cfgWord ws 30).toNat

/-- The poll order list, two entries to a word, the earlier in the high byte (R148). -/
def pollOf (ws : List Word) : List Nat :=
  (((ws.drop 20).take 16).flatMap (fun w => [(hiByte w).toNat, (loByte w).toNat])).take (min 32 (cfgWord ws 43).toNat)

/-- The setup of the 100 configuration words, clamped, with its windows (R194, Table 11-1). -/
def setupOf (ws : List Word) (windows : List Window) : Setup where
  mask := cfgWord ws 24
  feedTimeout := field (cfgWord ws 25) 7 0
  functions := #v[lineFunctionOf (field (cfgWord ws 25) 9 8), lineFunctionOf (field (cfgWord ws 25) 11 10),
    lineFunctionOf (field (cfgWord ws 25) 13 12), lineFunctionOf (field (cfgWord ws 25) 15 14)]
  directory := addressOf (cfgWord ws 26) (cfgWord ws 27)
  placementList := addressOf (cfgWord ws 28) (cfgWord ws 29)
  placementCount := placementCountOf ws
  rowMap := addressOf (cfgWord ws 31) (cfgWord ws 32)
  pace := clamp 4 30 (cfgWord ws 33).toNat
  threshold := if cfgWord ws 34 = 0 then 100 else (cfgWord ws 34).toNat
  late1 := late1Of ws
  late2 := late2Of ws
  back := backOf ws
  rows := #v[rowsOf ws 0, rowsOf ws 1, rowsOf ws 2, rowsOf ws 3]
  cols := #v[colsOf ws 0, colsOf ws 1, colsOf ws 2, colsOf ws 3]
  blinkTenths := field (cfgWord ws 42) 7 0
  sweepSeconds := field (cfgWord ws 42) 15 8
  poll := pollOf ws
  windows := windows

/-- A pointer of two words is out of range for a table of `n` words (R195, R203). -/
def badPointer (h l : Word) (n : Nat) : Bool := decide (field h 15 2 ≠ 0) || decide (0x40000 < addressOf h l + n)

/-- The index of the first pointer out of range: 0 directory, 1 placement list, 2 row map (R195, reason 13). -/
def pointerFailure (ws : List Word) : Option Nat :=
  if badPointer (cfgWord ws 26) (cfgWord ws 27) 1024 then some 0
  else if badPointer (cfgWord ws 28) (cfgWord ws 29) (2 * placementCountOf ws) then some 1
  else if badPointer (cfgWord ws 31) (cfgWord ws 32) 128 then some 2
  else none

/-- The checks at the end of the CONFIGURATION phase: pointers, then windows (Table 10-3). -/
def configResult (anchor : Nat) (ws : List Word) : Except (Nat × Nat) Setup :=
  match pointerFailure ws with
  | some i => .error (13, i)
  | none =>
    match takeWindows anchor ws allDescriptors [] with
    | .error e => .error e
    | .ok windows => .ok (setupOf ws windows)

/-! ### The DIRECTORY phase (R4, R195, Table 11-3) -/

/-- A letter A to Z. -/
def isLetter (c : Byte) : Bool := 0x41 ≤ c && c ≤ 0x5A

/-- The name of 1 to 4 letters followed by spaces to four characters; none when the form fails (Table 11-3). -/
def nameOf (w0 w1 : Word) : Option Text :=
  let cs := [hiByte w0, loByte w0, hiByte w1, loByte w1]
  let name := cs.takeWhile isLetter
  if name ≠ [] ∧ (cs.dropWhile isLetter).all (· == chSpace) then some name else none

/-- The base of a base code (Table 11-3). -/
def baseOf (code : Nat) : Option PriceBase :=
  if code = 8 then some .eighths
  else if code = 16 then some .sixteenths
  else if code = 32 then some .thirtySeconds
  else none

/-- A name equals that of a lower-numbered listed slot (R195, reason 6). -/
def nameTaken (s : State) (n : Slot) (name : Text) : Bool :=
  allSlots.any (fun m => decide (m < n ∧ (s.slot m).state ≠ .unused ∧ (s.slot m).name = name))

/-- The record a directory entry gives slot `n`, or the reason for which it fails (R4, R195). -/
def directoryEntry (s : State) (n : Slot) (w0 w1 w2 w3 : Word) : Except Nat SlotRec :=
  if bit w3 15 then
    match baseOf (field w3 7 0) with
    | none => .error 5
    | some base =>
      match nameOf w0 w1 with
      | none => .error 7
      | some name =>
        if nameTaken s n name then .error 6
        else .ok { SlotRec.reset with state := if bit w3 14 then .halted else .listed, name := name, base := base, close := w2 }
  else .ok SlotRec.reset

/-! ### The ROW MAP phase (R65, R66, Table 11-5) -/

/-- Row map word `k` is that of a used row. -/
def usedRow (u : Setup) (k : Nat) : Bool := decide (k % 32 < vget u.rows (Fin.ofNat 4 (k / 32)))

/-- The row kind of row map word `k`, or none when a used row's word fails (R66). The word of an unused row is not checked. -/
def rowKindOf (u : Setup) (k : Nat) (w : Word) : Option RowKind :=
  if usedRow u k then
    match field w 15 14 with
    | 1 => some .symbol
    | 2 =>
      let i : Fin 8 := Fin.ofNat 8 (field w 10 8)
      let line := field w 4 0
      match u.windows.find? (fun x => decide (x.index = i ∧ x.kind = .text)) with
      | some x => if line < x.length / 24 then some (.text i line) else none
      | none => none
    | _ => none
  else some .symbol

/-- The kind kept for row `r` of link `l`. -/
def rowKindAt (kinds : List RowKind) (l : LinkId) (r : Nat) : RowKind := kinds.getD (32 * l.val + r) .symbol

/-! ### The PLACEMENTS phase (R67, R68, Table 11-4) -/

/-- The field kind of its code; 0 fails (Table 11-4). -/
def fieldKindOf (n : Nat) : Option FieldKind :=
  match n with
  | 1 => some .name
  | 2 => some .last
  | 3 => some .change
  | 4 => some .high
  | 5 => some .low
  | 6 => some .volume
  | 7 => some .tick
  | _ => none

/-- Two placements of one link and row share a column. -/
def Placement.meets (p q : Placement) : Bool :=
  decide (p.link = q.link) && decide (p.row = q.row) && rangesMeet p.column p.width q.column q.width

/-- The placement of an entry, or the reason for which it fails (R68, Table 4-2). -/
def placementEntry (s : State) (u : Setup) (kinds : List RowKind) (earlier : List Placement) (w0 w1 : Word) :
    Except Nat Placement :=
  let slot : Slot := Fin.ofNat 256 (field w0 15 8)
  let link : LinkId := Fin.ofNat 4 (field w0 7 6)
  let row := field w1 15 11
  let column := field w1 10 5
  let width := field w1 3 0
  if (s.slot slot).state = .unused then .error 8
  else if vget u.rows link ≤ row ∨ rowKindAt kinds link row ≠ .symbol then .error 9
  else match fieldKindOf (field w0 2 0) with
    | none => .error 9
    | some kind =>
      let p : Placement := ⟨slot, link, kind, row, column, width⟩
      if width = 0 ∨ 12 < width ∨ vget u.cols link < column + width then .error 9
      else if earlier.any p.meets then .error 10
      else if 4 ≤ (earlier.filter (fun q => decide (q.slot = slot))).length then .error 11
      else .ok p

/-! ### The course of a LOAD -/

/-- The address of the next word LOAD reads (R193). -/
def loadAddress (s : State) (run : LoadRun) : Nat :=
  match run.phase, run.setup with
  | .configuration, _ => s.bp.anchor.toNat + 24 + run.words.length
  | .directory, some u => u.directory + 4 * run.entry + run.words.length
  | .rowMap, some u => u.rowMap + run.entry
  | .placements, some u => u.placementList + 2 * run.entry + run.words.length
  | _, none => 0

/-- The LOAD goes on as `run`. -/
def State.setRun (s : State) (run : LoadRun) : State := s.setCr { s.cr with part := .loading run }

/-- A check has failed (R195). -/
def LoadRun.fail (run : LoadRun) (reason index : Nat) : LoadRun := { run with failed := some (reason, index) }

/-- The next phase begins. -/
def LoadRun.enter (run : LoadRun) (phase : LoadPhase) : LoadRun := { run with phase := phase, words := [], entry := 0 }

/-- A configuration word is taken; the 100th ends the phase with its checks (R193). -/
def State.takeConfigWord (s : State) (run : LoadRun) (w : Word) : State :=
  let ws := run.words ++ [w]
  if ws.length < 100 then s.setRun { run with words := ws }
  else match configResult s.bp.anchor.toNat ws with
    | .error e => s.setRun (run.fail e.1 e.2)
    | .ok u => s.setRun ({ run with setup := some u }.enter .directory)

/-- A directory word is taken; the fourth of an entry checks it and takes it into the Symbol Table (R193, R4). -/
def State.takeDirectoryWord (s : State) (run : LoadRun) (w : Word) : State :=
  match run.words with
  | [w0, w1, w2] =>
    let n : Slot := Fin.ofNat 256 run.entry
    match directoryEntry s n w0 w1 w2 w with
    | .error reason => s.setRun (run.fail reason run.entry)
    | .ok r =>
      let next := if run.entry + 1 < 256 then { run with words := [], entry := run.entry + 1 } else run.enter .rowMap
      (s.setSlot n r).setRun next
  | ws => s.setRun { run with words := ws ++ [w] }

/-- A row map word is taken and checked (R66, log entry 18). -/
def State.takeRowMapWord (s : State) (run : LoadRun) (u : Setup) (w : Word) : State :=
  match rowKindOf u run.entry w with
  | none => s.setRun (run.fail 12 run.entry)
  | some kind =>
    let run1 : LoadRun := { run with rowKinds := run.rowKinds ++ [kind] }
    s.setRun (if run.entry + 1 < 128 then { run1 with entry := run.entry + 1 } else run1.enter .placements)

/-- A placement word is taken; the second of an entry checks it (R68). -/
def State.takePlacementWord (s : State) (run : LoadRun) (u : Setup) (w : Word) : State :=
  match run.words with
  | [w0] =>
    match placementEntry s u run.rowKinds run.placements w0 w with
    | .error reason => s.setRun (run.fail reason run.entry)
    | .ok p => s.setRun { run with words := [], entry := run.entry + 1, placements := run.placements ++ [p] }
  | ws => s.setRun { run with words := ws ++ [w] }

/-- A word read by LOAD is taken within the current phase (R193). -/
def State.takeLoadWord (s : State) (run : LoadRun) (w : Word) : State :=
  match run.phase, run.setup with
  | .configuration, _ => s.takeConfigWord run w
  | .directory, _ => s.takeDirectoryWord run w
  | .rowMap, some u => s.takeRowMapWord run u w
  | .placements, some u => s.takePlacementWord run u w
  | .rowMap, none => s
  | .placements, none => s

/-- LOAD is accepted (R192). -/
def State.loadAccepted (s : State) : State :=
  let s1 := s.setBp { s.bp with windows := [], queue := s.bp.queue.filter (fun w => match w with
    | .report _ => true
    | .writeBack _ => false) }
  let s2 := (((s1.setQe .reset).setBc s.bc.loadAccepted).setTc s.tc.loadAccepted).setPt s.pt.loadAccepted
  let s3 := s2.setCs { s2.cs with
    lineFunctions := Vector.replicate 4 .none
    feedStale := false
    feedTimeout := 0
    feedCount := 0 }
  let wasFull := s.cr.mailbox.isSome
  let s4 := s3.setCr { s3.cr with
    part := .loading .start
    running := some .load
    flags := 0
    mask := 0
    mailbox := none
    sequence := 0
    tagIdle := if wasFull then Config.releasedTagBits s.freeDraws else s3.cr.tagIdle
    diagReason := 0
    diagIndex := 0 }
  (if wasFull then s4.setFreeDraws (s.freeDraws + 1) else s4).setStatus 0x01 .running .none

/-- A LOAD check has failed: the part is UNCONFIGURED with every block reset, and the diagnostic recorded (R197). -/
def State.loadRefused (s : State) : State :=
  match s.cr.part with
  | .loading run =>
    match run.failed with
    | some (reason, index) =>
      let s1 := s.setBp { s.bp with windows := [] }
      let s2 := (((s1.setQe .reset).setBc s.bc.loadAccepted).setTc s.tc.loadAccepted).setPt s.pt.loadAccepted
      let s3 := s2.setCs { s2.cs with
        session := .closed
        rollNext := none
        lineFunctions := Vector.replicate 4 .none
        feedStale := false
        feedTimeout := 0
        feedCount := 0 }
      let s4 := s3.setCr { CommandReport.reset with
        shadows := s.cr.shadows
        dirty := reportOffsets
        diagReason := reason
        diagIndex := index }
      s4.cmdRefused 0x01 .setup
    | none => s
  | .unconfigured => s
  | .ready => s

/-- A link takes its geometry and row map, and enters OFFLINE when it is used (R64, R65, R84, R106). A piece still in hand from before
the LOAD finishes first (R99, R106). -/
def configuredLink (u : Setup) (kinds : List RowKind) (l : LinkId) (k : Link) : Link :=
  let rows := vget u.rows l
  if rows = 0 then k.loadAccepted
  else
    ({ k.loadAccepted with
      rows := rows
      cols := vget u.cols l
      rowMap := (List.range rows).map (rowKindAt kinds l) } : Link).goOffline

/-- The notify countdown of window index `i` (R39). -/
def configuredCountdown (ws : List Window) (i : Fin 8) : Countdown :=
  match ws.find? (fun w => decide (w.index = i ∧ w.kind = .quote)) with
  | some w => ⟨w.notify, w.notify⟩
  | none => ⟨0, 0⟩

/-- The due marks of every present write-back word of every LISTED or HALTED slot (R43). -/
def allDue (s : State) : List DueMark :=
  (allSlots.filter (fun n => decide ((s.slot n).state ≠ .unused))).flatMap
    (fun n => (allWbFields.map (fun f => DueMark.mk n f)).filter (fun m => (writeBackAddr s m).isSome))

/-- The blocks take the new configuration (R196). -/
def State.configure (s : State) (run : LoadRun) (u : Setup) : State :=
  let s1 := s.setBp { s.bp with windows := u.windows }
  let c (i : Fin 8) : Countdown := configuredCountdown u.windows i
  let s2 := s1.setQe { s1.qe with
    countdowns := #v[c 0, c 1, c 2, c 3, c 4, c 5, c 6, c 7]
    due := allDue s1 }
  let k (l : LinkId) : Link := configuredLink u run.rowKinds l (s2.link l)
  let s3 := s2.setBc { s2.bc with
    blinkTenths := u.blinkTenths
    sweepSeconds := u.sweepSeconds
    sweepCount := 0
    links := #v[k 0, k 1, k 2, k 3]
    placements := run.placements }
  let s4 := s3.setTc { s3.tc with
    pace := u.pace
    threshold := u.threshold
    late1 := u.late1
    late2 := u.late2
    back := u.back
    timerRunning := true }
  let s5 := s4.setPt { s4.pt with poll := u.poll, pointer := 0 }
  s5.setCs { s5.cs with feedTimeout := u.feedTimeout, lineFunctions := u.functions }

/-- LOAD completes: the part becomes READY with its new configuration (R196). -/
def State.loadComplete (s : State) : State :=
  match s.cr.part with
  | .loading run =>
    match run.finished with
    | some u =>
      let s1 := s.configure run u
      (s1.setCr { s1.cr with part := .ready, running := none, mask := u.mask }).cmdDone 0x01
    | none => s
  | .unconfigured => s
  | .ready => s

/-- A LOAD side read is answered: its word is taken, and the LOAD ends in the same event when a check fails or the last one passes
(R59, R193, R196, R197). -/
def State.loadReadAnswered (s : State) : State :=
  match s.cr.part with
  | .loading run =>
    if s.isLoading then ((s.takeLoadWord run (s.mem.readWord (loadAddress s run))).loadRefused).loadComplete else s
  | .unconfigured => s
  | .ready => s

end Sys2Proof.Machine
end

