-- ==== Sys2Proof/Machine/Command.lean ====
section
/-!
DEFINITION. The fourteen commands of Table 11-8 as their owners take them, and the taking of a command word (10.2).
-/

namespace Sys2Proof.Machine

/-! ### Parameters (R190) -/

/-- The shadow of parameter `p` (R190). -/
def State.param (s : State) (p : Fin 4) : Word := vget s.cr.shadows p

/-- The slot P0 names, when it is not greater than 255 (R12, R13, R14, R175, R176). -/
def State.paramSlot (s : State) : Option Slot :=
  if h : (s.param 0).toNat < 256 then some ⟨(s.param 0).toNat, h⟩ else none

/-- The terminal an operand names, when it is not greater than 15 (R168, R175, R176). -/
def operandTerm (operand : Byte) : Option TermId :=
  if h : operand.toNat < 16 then some ⟨operand.toNat, h⟩ else none

/-! ### LOAD, and the commands of CS (R133, R135 to R139, R192) -/

/-- LOAD (R192). -/
def State.cmdLoad (s : State) : State :=
  if s.cr.part = .unconfigured ∨ (s.isReady ∧ s.cs.session = .closed) then s.loadAccepted else s.cmdRefused 0x01 .state

/-- ROLL (R137). -/
def State.cmdRoll (s : State) : State :=
  if s.cs.session = .closed ∨ s.cs.session = .dark then (s.setStatus 0x02 .running .none).rollAccepted
  else s.cmdRefused 0x02 .state

/-- OPEN (R135). -/
def State.cmdOpen (s : State) : State :=
  if s.cs.session = .preOpen then s.openMarket.cmdDone 0x03 else s.cmdRefused 0x03 .state

/-- CLOSE (R136). -/
def State.cmdClose (s : State) : State :=
  if s.cs.session = .opened then s.closeMarket.cmdDone 0x04 else s.cmdRefused 0x04 .state

/-- The session becomes DIMMING: the DARK command runs, and every sweep pass ends (R139, R102). -/
def State.dimmed (s : State) : State :=
  let s1 := s.setStatus 0x05 .running .none
  let s2 := s1.setCr { s1.cr with running := some .dark }
  (s2.setBc { s2.bc with links := vmap Link.endPass s2.bc.links }).setSession .dimming

/-- DARK (R139); the session goes on to DARK in the same event when nothing is left to send (R140). -/
def State.cmdDark (s : State) : State :=
  if s.cs.session = .closed then s.dimmed.sessionDark else s.cmdRefused 0x05 .state

/-- The time SET CLOCK names: bits 3 to 0 of P0 above P1 (R133). -/
def State.paramTime (s : State) : Nat := field (s.param 0) 3 0 * 65536 + (s.param 1).toNat

/-- The clock takes the time of SET CLOCK (R133). -/
def State.takeTime (s : State) : State :=
  ((s.setCs { s.cs with clock := s.paramTime, notSet := false }).markAllDirty [15, 16]).markStatusLines

/-- The trim takes P2 (R133). -/
def State.takeTrim (s : State) : State :=
  s.setCs { s.cs with
    trimNegative := bit (s.param 2) 15
    trimMagnitude := field (s.param 2) 14 0
    trimAccumulator := 0 }

/-- SET CLOCK (R133). -/
def State.cmdSetClock (s : State) (operand : Byte) : State :=
  let time := operand.getLsbD 0
  let trim := operand.getLsbD 1
  if (!time && !trim) || (time && decide (864000 ≤ s.paramTime)) then s.cmdRefused 0x09 .range
  else
    let s1 := if time then s.takeTime else s
    (if trim then s1.takeTrim else s1).cmdDone 0x09

/-! ### The commands of QE (R12 to R14) -/

/-- SET CLOSE (R12). -/
def State.cmdSetClose (s : State) : State :=
  match s.paramSlot with
  | none => s.cmdRefused 0x06 .range
  | some n =>
    if (s.slot n).state = .unused then s.cmdRefused 0x06 .absent else (s.closeTo n (s.param 1)).cmdDone 0x06

/-- HALT (R13). -/
def State.cmdHalt (s : State) : State :=
  match s.paramSlot with
  | none => s.cmdRefused 0x07 .range
  | some n =>
    match (s.slot n).state with
    | .unused => s.cmdRefused 0x07 .absent
    | .halted => s.cmdRefused 0x07 .state
    | .listed => (s.changeRecord (haltNotice n) (haltRec (s.slot n))).cmdDone 0x07

/-- RESUME (R14). -/
def State.cmdResume (s : State) : State :=
  match s.paramSlot with
  | none => s.cmdRefused 0x08 .range
  | some n =>
    match (s.slot n).state with
    | .unused => s.cmdRefused 0x08 .absent
    | .listed => s.cmdRefused 0x08 .state
    | .halted => (s.changeRecord (resumeNotice n) (resumeRec (s.slot n))).cmdDone 0x08

/-! ### The commands of PT (R168, R175, R176) -/

/-- WATCH (R175). -/
def State.cmdWatch (s : State) (operand : Byte) : State :=
  match operandTerm operand, s.paramSlot with
  | some t, some n =>
    let entry := hostEntry n (s.slot n).last (s.param 1) (s.param 2) (s.param 3)
    if (s.slot n).state = .unused then s.cmdRefused 0x0A .absent
    else match (s.term t).placeOf n with
      | some i => (s.setPt (s.pt.rewriteEntry t i entry)).cmdDone 0x0A
      | none =>
        match (s.term t).emptyPlace with
        | none => s.cmdRefused 0x0A .full
        | some i => (s.setPt (s.pt.addEntry t i entry)).cmdDone 0x0A
  | some _, none => s.cmdRefused 0x0A .range
  | none, _ => s.cmdRefused 0x0A .range

/-- UNWATCH (R176). -/
def State.cmdUnwatch (s : State) (operand : Byte) : State :=
  match operandTerm operand, s.paramSlot with
  | some t, some n =>
    match (s.term t).placeOf n with
    | some i => (s.setPt (s.pt.removeEntry t i n)).cmdDone 0x0B
    | none => s.cmdRefused 0x0B .absent
  | some _, none => s.cmdRefused 0x0B .range
  | none, _ => s.cmdRefused 0x0B .range

/-- Every terminal takes the status text (R168). -/
def TerminalController.setAllStatus (p : TerminalController) (text : Text) : TerminalController :=
  { p with terminals := vmap (fun r : Terminal => r.setStatus text) p.terminals }

/-- STATUS TEXT (R168). -/
def State.cmdStatusText (s : State) (operand : Byte) : State :=
  let text := statusChars s.cr.shadows
  match operandTerm operand with
  | some t => (s.setTerm t ((s.term t).setStatus text)).cmdDone 0x0C
  | none => if operand = 0xFF then (s.setPt (s.pt.setAllStatus text)).cmdDone 0x0C else s.cmdRefused 0x0C .range

/-! ### The commands of BC and TC (R103, R125) -/

/-- REPAINT (R103). -/
def State.cmdRepaint (s : State) (operand : Byte) : State := (s.setBc (s.bc.repaint operand)).cmdDone 0x0D

/-- TAPE CLEAR (R125). -/
def State.cmdTapeClear (s : State) : State := (s.setTc s.tc.clear).cmdDone 0x0E

/-! ### Taking the command word (R189) -/

/-- The command of a known opcode taken by its owner; every other opcode is UNKNOWN (R189, Table 11-8). -/
def State.owner (s : State) (opcode operand : Byte) : State :=
  match opcode.toNat with
  | 0x01 => s.cmdLoad
  | 0x02 => s.cmdRoll
  | 0x03 => s.cmdOpen
  | 0x04 => s.cmdClose
  | 0x05 => s.cmdDark
  | 0x06 => s.cmdSetClose
  | 0x07 => s.cmdHalt
  | 0x08 => s.cmdResume
  | 0x09 => s.cmdSetClock operand
  | 0x0A => s.cmdWatch operand
  | 0x0B => s.cmdUnwatch operand
  | 0x0C => s.cmdStatusText operand
  | 0x0D => s.cmdRepaint operand
  | 0x0E => s.cmdTapeClear
  | _ => s.cmdRefused opcode .unknown

/-- CR takes a command: the first case of R189 that holds decides it. -/
def State.commandWrite (s : State) (w : Word) : State :=
  let opcode := hiByte w
  if s.cr.running.isSome then s.cmdRefused opcode .busy
  else if !isKnownOpcode opcode then s.cmdRefused opcode .unknown
  else if s.cr.part = .unconfigured ∧ opcode ≠ 0x01 then s.cmdRefused opcode .notLoaded
  else s.owner opcode (loByte w)

end Sys2Proof.Machine
end

