-- ==== Sys2Proof/Machine/Bus.lean ====
section
/-!
DEFINITION. The Bus Path: host accesses on their way to memory and to their owners, the holds, the landings and side reads, and
reset (chapter 3).
-/

namespace Sys2Proof.Machine

/-! ### A host access that is granted (R49, R50, R58) -/

/-- An access reaches memory: a write changes it, a read returns its word (R49). -/
def State.memoryAccess (s : State) : HostAccess → State
  | .read a => s.setBp { s.bp with hostData := s.mem.readWord a.toNat }
  | .write a d lanes => s.setMem (s.mem.writeWord a.toNat d lanes)

/-- A host write to a word with a mark clears the mark and takes the word's entry from the queue (R58). -/
def State.overrideMark (s : State) (a : Addr) : State :=
  match sideWordAt s a with
  | some w => if s.isMarked w then (s.setBp { s.bp with queue := leave w s.bp.queue }).clearMark w else s
  | none => s

/-- A write to a quote record (R30, R33 to R37). -/
def State.quoteWrite (s : State) (w : Fin 8) (n : Slot) (d : Word) (lanes : Lanes) : QuoteField → State
  | .last => if lanes = .both then s.lastWrite w n d else s.anomaly
  | .size => if lanes = .both then s.sizeWrite n d else s.anomaly
  | .close => if lanes = .both then s.closeWrite n d else s.anomaly
  | .writeBack _ => s
  | .unwatched => s

/-- A host write of a parameter word: the shadow takes the lanes written (R190). -/
def State.parameterTaken (s : State) (p : Fin 4) (d : Word) (lanes : Lanes) : State :=
  s.setCr { s.cr with shadows := vset s.cr.shadows p (mergeLanes (s.param p) d lanes) }

/-- A full write of the acknowledge word clears the flags it names (R199). -/
def State.acknowledge (s : State) (d : Word) (lanes : Lanes) : State :=
  if lanes = .both then s.setCr { s.cr with flags := s.cr.flags &&& ~~~d } else s

/-- A host write handed to the owner of its word (R28, R50, Table 3-1). -/
def State.handWrite (s : State) (a : Addr) (d : Word) (lanes : Lanes) : State :=
  match target s a with
  | .command => if lanes = .both then s.commandWrite d else s.anomaly
  | .parameter p => s.parameterTaken p d lanes
  | .acknowledge => s.acknowledge d lanes
  | .report _ => s
  | .quote w n f => s.quoteWrite w n d lanes f
  | .text w line => s.setBc (s.bc.textWrite w line)
  | .bulletin i => s.setTc (s.tc.bulletinWrite i d lanes)
  | .plain => s

/-- A host read handed to CR when it reads MAILBOX SLOT (R50, R201). -/
def State.handRead (s : State) (a : Addr) : State := if target s a = .report 14 then s.mailboxRelease else s

/-- A granted access: it goes to memory and, in the same event, to the owner of its word (R49, R50, R58). -/
def State.performAccess (acc : HostAccess) (s : State) : State :=
  match acc with
  | .read a => (s.memoryAccess acc).handRead a
  | .write a d lanes => ((s.memoryAccess acc).overrideMark a).handWrite a d lanes

/-! ### Holds (R51, R55 to R57) -/

/-- A read of a word owed a landing: it has an entry, or it is a report word whose mark is set (R56). -/
def State.readOwed (s : State) : HostAccess → Bool
  | .read a =>
    match sideWordAt s a with
    | some (.report o) => decide (SideWord.report o ∈ s.bp.queue) || decide (o ∈ s.cr.dirty)
    | some (.writeBack m) => decide (SideWord.writeBack m ∈ s.bp.queue)
    | none => false
  | .write _ _ _ => false

/-- The access is held (R57). -/
def State.setHeld (h : Option Held) (s : State) : State := s.setBp { s.bp with held := h }

/-- The held access once nothing but R56 can hold it: held for the word it reads, or granted (R51, R55, R56). -/
def State.grantHeld (s : State) : State :=
  match s.bp.held with
  | none => s
  | some h =>
    if s.readOwed h.access then s.portEvent (State.setHeld (some ⟨h.access, .readWord⟩))
    else s.portEvent (fun x => (x.setHeld none).performAccess h.access)

/-! ### Side accesses (R51, R54, R59) -/

/-- The head entry lands: its source's value is written, the entry leaves and its mark is cleared (R54). The source is read in this event,
the end of the memory cycle, and not in the earlier one that granted the port: DESIGN CHOICE, log entry 39. -/
def State.landHead (s : State) : State :=
  match s.bp.queue with
  | [] => s
  | w :: q =>
    let s1 := s.setBp { s.bp with queue := q }
    let s2 := match sideWordAddr s w with
      | some a => s1.setMem (s.mem.writeWord a (sideWordValue s w) .both)
      | none => s1
    s2.clearMark w

/-- A landing, which ends the cycle of the head entry when that has the port, and the grant of the access it releases (R51, R54, R55,
R56). -/
def State.landing (s : State) : State :=
  if s.bp.port = some .landing then (s.portEvent State.landHead).grantHeld else s

/-- The cycle of a side read has ended: the access that waited for it is granted, unless it met a full queue and so waits for a landing
(R51, R55). -/
def State.afterRead (s : State) : State :=
  match s.bp.held with
  | some ⟨_, .fullQueue⟩ => s
  | _ => s.grantHeld

/-- The text-line side read is answered, when it has the port (R51, R59, R71). -/
def State.textRead (s : State) : State :=
  if s.bp.port = some .textRead then (s.portEvent State.textReadAnswered).afterRead else s

/-- The LOAD side read is answered, when it has the port (R51, R59, R193). -/
def State.loadRead (s : State) : State :=
  if s.bp.port = some .loadRead then (s.portEvent State.loadReadAnswered).afterRead else s

/-- The memory cycle of a side access ends. -/
def State.endCycle (s : State) : SideAccess → State
  | .landing => s.landing
  | .textRead => s.textRead
  | .loadRead => s.loadRead

/-- Side accesses go on until the held access is granted, at most `fuel` of them; with no side access to wait for it is granted at
once (R57; log entries 4 and 36). -/
def State.releaseHeld : Nat → State → State
  | 0, s => s
  | fuel + 1, s =>
    if s.bp.held.isNone then s
    else match s.bp.port with
      | some x => (s.endCycle x).releaseHeld fuel
      | none => s.grantHeld

/-- An access held before the host presents its next one has completed (R57; log entry 4). -/
def State.finishHeld (s : State) : State := s.releaseHeld (s.bp.queue.length + 10)

/-! ### Presenting a host access (R49, R51, R55, R56, R61) -/

/-- The access takes the port, no side access having begun its cycle, or is held by R55 or R56. -/
def State.admitAccess (s : State) (acc : HostAccess) : State :=
  if 8 ≤ s.bp.queue.length then s.portEvent (State.setHeld (some ⟨acc, .fullQueue⟩))
  else if s.readOwed acc then s.portEvent (State.setHeld (some ⟨acc, .readWord⟩))
  else s.portEvent (State.performAccess acc)

/-- The host presents an access. While RESET is asserted it reaches memory alone (R61). -/
def State.present (s : State) (acc : HostAccess) : State :=
  if s.resetPin then s.memoryAccess acc else s.finishHeld.admitAccess acc

/-- The access waits for the end of the memory cycle of the side access that has the port; behind a read, a full queue holds it
besides (R51, R55; log entry 6). -/
def State.admitBehind (s : State) (acc : HostAccess) : State :=
  match s.bp.port with
  | some .landing => s.event (State.setHeld (some ⟨acc, .arbitration⟩))
  | some _ => s.event (State.setHeld (some ⟨acc, if 8 ≤ s.bp.queue.length then .fullQueue else .arbitration⟩))
  | none => s.admitAccess acc

/-- The host presents an access while a side access has the port (R51). -/
def State.presentBehind (s : State) (acc : HostAccess) : State :=
  if s.resetPin then s.memoryAccess acc else s.finishHeld.admitBehind acc

/-- A full host write of setup word `offset`. -/
def State.writeSetup (s : State) (offset : Nat) (d : Word) (lanes : Lanes) : State :=
  s.present (.write (setupAddr s offset) d lanes)

/-- A full host write of the command word (R189). -/
def State.giveCommand (s : State) (opcode operand : Byte) : State := s.writeSetup 0 (wordOf opcode operand) .both

/-! ### Reset (R61, R62) -/

/-- The blocks at their reset values with RESET asserted: memory, the strap sample, the host's data lines and the line levels
stay. -/
def State.blocksReset (s : State) : State :=
  { s with
    resetPin := true
    bp := { s.bp with windows := [], queue := [], held := none, port := none }
    qe := .reset
    bc := .reset
    tc := .reset
    cs := { ClockSession.reset with lineLevels := s.cs.lineLevels }
    pt := .reset
    cr := .reset }

/-- A held access is released to memory unchanged, and handed to no block (R61). -/
def State.releaseToMemory (s : State) : State :=
  match s.bp.held with
  | some h => s.memoryAccess h.access
  | none => s

/-- The landing of the head entry has the port and its cycle had begun: the sender says so, or a host access waits for its end (R51,
R61; log entry 27). -/
def State.landingBegun (s : State) (landing : Bool) : Bool :=
  decide (s.bp.port = some .landing) &&
    (landing || match s.bp.held with
      | some h => decide (h.cause = .arbitration)
      | none => false)

/-- RESET is asserted: a landing whose memory cycle had begun completes, a held access goes to memory, and every block is reset
(R61). -/
def State.assertReset (s : State) (landing : Bool) : State :=
  ((if s.landingBegun landing then s.landHead else s).releaseToMemory).blocksReset

/-- RESET is released: the straps and the line levels are taken, every report word is marked and entered, and the port is granted to the
first landing (R51, R62, R141). -/
def State.releaseReset (s : State) (straps levels : BitVec 4) : State :=
  State.arbitrate (State.fill { s with
    resetPin := false
    bp := { s.bp with anchor := anchorOf straps }
    cs := { s.cs with
      lineLevels := #v[levels.getLsbD 0, levels.getLsbD 1, levels.getLsbD 2, levels.getLsbD 3] }
    cr := { s.cr with dirty := reportOffsets } })

end Sys2Proof.Machine
end

