-- ==== Sys2Proof/Machine/HostRows.lean ====
section
/-!
DEFINITION. The rows of the opcode table that are host accesses, one meaning each: watched writes, setup words, the fourteen commands
and the accesses named by their hold. What an access does follows from its address alone (log entry 3).
-/

namespace Sys2Proof.Machine

/-! ### Watched writes (chapter 2) -/

/-- CAPTURE (R33). -/
def execCapture (a : Addr) (v : Word) (s : State) : Host.Outcome State Fault Refusal := .next (s.present (.write a v .both))

/-- SIZE_WRITE (R34). -/
def execSizeWrite (a : Addr) (v : Word) (s : State) : Host.Outcome State Fault Refusal := .next (s.present (.write a v .both))

/-- CLOSE_WRITE (R35). -/
def execCloseWrite (a : Addr) (v : Word) (s : State) : Host.Outcome State Fault Refusal := .next (s.present (.write a v .both))

/-- PARTIAL_WRITE (R36). -/
def execPartialWrite (a : Addr) (d : Word) (half : Half) (s : State) : Host.Outcome State Fault Refusal :=
  .next (s.present (.write a d half.lanes))

/-- TEXT_WRITE (R73). -/
def execTextWrite (a : Addr) (d : Word) (lanes : Lanes) (s : State) : Host.Outcome State Fault Refusal :=
  .next (s.present (.write a d lanes))

/-- BULLETIN_WRITE (R113). -/
def execBulletinWrite (a : Addr) (d : Word) (lanes : Lanes) (s : State) : Host.Outcome State Fault Refusal :=
  .next (s.present (.write a d lanes))

/-- HOST_WRITE (R49, R58). -/
def execHostWrite (a : Addr) (d : Word) (lanes : Lanes) (s : State) : Host.Outcome State Fault Refusal :=
  .next (s.present (.write a d lanes))

/-! ### Accesses named by their hold (chapter 3) -/

/-- HOST_ACCESS_HOLD (R55). -/
def execHostAccessHold (acc : HostAccess) (s : State) : Host.Outcome State Fault Refusal := .next (s.present acc)

/-- HELD_READ (R56). -/
def execHeldRead (a : Addr) (s : State) : Host.Outcome State Fault Refusal := .next (s.present (.read a))

/-- ARBITRATION_WAIT (R51). -/
def execArbitrationWait (acc : HostAccess) (s : State) : Host.Outcome State Fault Refusal := .next (s.presentBehind acc)

/-! ### The setup block (10.2, 10.4, 10.5) -/

/-- PARAMETER_WRITE (R190): a write of P0 to P3, at +1 to +4. -/
def execParameterWrite (p : Fin 4) (d : Word) (lanes : Lanes) (s : State) : Host.Outcome State Fault Refusal :=
  .next (s.writeSetup (p.val + 1) d lanes)

/-- COMMAND_WORD_PARTIAL (R189). -/
def execCommandWordPartial (d : Word) (half : Half) (s : State) : Host.Outcome State Fault Refusal :=
  .next (s.writeSetup 0 d half.lanes)

/-- UNKNOWN_OPCODE (R189). -/
def execUnknownOpcode (w : Word) (s : State) : Host.Outcome State Fault Refusal := .next (s.writeSetup 0 w .both)

/-- ATTENTION_ACKNOWLEDGE (R199): a full write of +5. -/
def execAttentionAcknowledge (d : Word) (s : State) : Host.Outcome State Fault Refusal := .next (s.writeSetup 5 d .both)

/-- MAILBOX_SLOT_READ (R201): a read of +14. -/
def execMailboxSlotRead (s : State) : Host.Outcome State Fault Refusal := .next (s.present (.read (setupAddr s 14)))

/-! ### The commands (Table 11-8) -/

/-- LOAD (R192). -/
def execLoad (operand : Byte) (s : State) : Host.Outcome State Fault Refusal := .next (s.giveCommand 0x01 operand)

/-- ROLL (R137). -/
def execRoll (operand : Byte) (s : State) : Host.Outcome State Fault Refusal := .next (s.giveCommand 0x02 operand)

/-- OPEN (R135). -/
def execOpenMarket (operand : Byte) (s : State) : Host.Outcome State Fault Refusal := .next (s.giveCommand 0x03 operand)

/-- CLOSE (R136). -/
def execCloseMarket (operand : Byte) (s : State) : Host.Outcome State Fault Refusal := .next (s.giveCommand 0x04 operand)

/-- DARK (R139). -/
def execDark (operand : Byte) (s : State) : Host.Outcome State Fault Refusal := .next (s.giveCommand 0x05 operand)

/-- SET CLOSE (R12). -/
def execSetClose (operand : Byte) (s : State) : Host.Outcome State Fault Refusal := .next (s.giveCommand 0x06 operand)

/-- HALT (R13). -/
def execHalt (operand : Byte) (s : State) : Host.Outcome State Fault Refusal := .next (s.giveCommand 0x07 operand)

/-- RESUME (R14). -/
def execResume (operand : Byte) (s : State) : Host.Outcome State Fault Refusal := .next (s.giveCommand 0x08 operand)

/-- SET CLOCK (R133). -/
def execSetClock (operand : Byte) (s : State) : Host.Outcome State Fault Refusal := .next (s.giveCommand 0x09 operand)

/-- WATCH (R175). -/
def execWatch (operand : Byte) (s : State) : Host.Outcome State Fault Refusal := .next (s.giveCommand 0x0A operand)

/-- UNWATCH (R176). -/
def execUnwatch (operand : Byte) (s : State) : Host.Outcome State Fault Refusal := .next (s.giveCommand 0x0B operand)

/-- STATUS TEXT (R168). -/
def execStatusText (operand : Byte) (s : State) : Host.Outcome State Fault Refusal := .next (s.giveCommand 0x0C operand)

/-- REPAINT (R103). -/
def execRepaint (operand : Byte) (s : State) : Host.Outcome State Fault Refusal := .next (s.giveCommand 0x0D operand)

/-- TAPE CLEAR (R125). -/
def execTapeClear (operand : Byte) (s : State) : Host.Outcome State Fault Refusal := .next (s.giveCommand 0x0E operand)

end Sys2Proof.Machine
end

