-- ==== Sys2Proof/Machine/PartRows.lean ====
section
/-!
DEFINITION. The rows of the opcode table that are the part's own events, its pins, its boards and its terminals, one meaning each.
-/

namespace Sys2Proof.Machine

/-- An event that runs over several whole events: none comes while RESET is asserted (R61, log entry 11). -/
def partEvents (f : State → State) (s : State) : Host.Outcome State Fault Refusal := .next (if s.resetPin then s else f s)

/-! ### Reset and the memory port (chapter 3, R193, R196, R197) -/

/-- RESET_ASSERT (R61). -/
def execResetAssert (landing : Bool) (s : State) : Host.Outcome State Fault Refusal := .next (s.assertReset landing)

/-- RESET_RELEASE (R62); without RESET asserted there is nothing to release (log entry 35). -/
def execResetRelease (straps levels : BitVec 4) (s : State) : Host.Outcome State Fault Refusal :=
  .next (if s.resetPin then s.releaseReset straps levels else s)

/-- LANDING (R54). -/
def execLanding (s : State) : Host.Outcome State Fault Refusal := partEvents State.landing s

/-- TEXT_LINE_READ_ANSWER (R71). -/
def execTextLineReadAnswer (s : State) : Host.Outcome State Fault Refusal := partEvents State.textRead s

/-- LOAD_READ_ANSWER (R193). -/
def execLoadReadAnswer (s : State) : Host.Outcome State Fault Refusal := partEvents State.loadRead s

/-- LOAD_COMPLETE (R196). -/
def execLoadComplete (s : State) : Host.Outcome State Fault Refusal := partEvent State.loadComplete s

/-- LOAD_REFUSED (R197). -/
def execLoadRefused (s : State) : Host.Outcome State Fault Refusal := partEvent State.loadRefused s

/-! ### Session, clock and floor lines (chapter 7) -/

/-- ROLL_SLOT (R5, R138). -/
def execRollSlot (s : State) : Host.Outcome State Fault Refusal := partEvent State.rollSlot s

/-- SESSION_DARK (R140). -/
def execSessionDark (s : State) : Host.Outcome State Fault Refusal := partEvent State.sessionDark s

/-- BASE_STEP (R129, R130). -/
def execBaseStep (s : State) : Host.Outcome State Fault Refusal := partEvent State.baseStep s

/-- WHOLE_SECOND (R131). -/
def execWholeSecond (s : State) : Host.Outcome State Fault Refusal := partEvent State.wholeSecondEvent s

/-- WHOLE_MINUTE (R131). -/
def execWholeMinute (s : State) : Host.Outcome State Fault Refusal := partEvent State.wholeMinute s

/-- FEED_STALE (R145). -/
def execFeedStale (s : State) : Host.Outcome State Fault Refusal := partEvent State.feedGoesStale s

/-- FLOOR_LINE_CHANGE (R141 to R143). -/
def execFloorLineChange (line : LineId) (level : Bool) (s : State) : Host.Outcome State Fault Refusal :=
  partEvent (fun x => x.lineChange line level) s

/-! ### Boards (chapters 4 and 5) -/

/-- BLINK_EXPIRY (R80). -/
def execBlinkExpiry (s : State) : Host.Outcome State Fault Refusal := partEvent State.blinkExpiry s

/-- SWEEP_EXPIRY (R101). -/
def execSweepExpiry (s : State) : Host.Outcome State Fault Refusal := partEvent State.sweepExpiry s

/-- TAKE_WORK (R85). -/
def execTakeWork (l : LinkId) (s : State) : Host.Outcome State Fault Refusal := partEvent (fun x => x.takeWork l) s

/-- FRAME_SENT (R95). -/
def execFrameSent (l : LinkId) (s : State) : Host.Outcome State Fault Refusal :=
  partEvent (fun x => x.setLink l (x.link l).frameSent) s

/-- BOARD_ACK (R95): only an ACK with a good check is an answer, `bytes` being all that came of it (log entry 38); a drained floor goes
dark in the same event (R140). -/
def execBoardAck (l : LinkId) (bytes : Text) (s : State) : Host.Outcome State Fault Refusal :=
  partEvent (fun x => if isGoodAck bytes then (x.boardAcked l).sessionDark else x) s

/-- ANSWER_WAIT_EXPIRY (R97); a drained floor goes dark in the same event (R140). -/
def execAnswerWaitExpiry (l : LinkId) (s : State) : Host.Outcome State Fault Refusal :=
  partEvent (fun x => (x.answerWaitEnds l).sessionDark) s

/-- PROBE_INTERVAL_EXPIRY (R99). -/
def execProbeIntervalExpiry (l : LinkId) (s : State) : Host.Outcome State Fault Refusal :=
  partEvent (fun x => x.probeIntervalEnds l) s

/-! ### The tape (chapter 6) -/

/-- TAPE_PACE_EXPIRY (R116); an emptied tape lets the floor go dark in the same event (R126, R140). -/
def execTapePaceExpiry (s : State) : Host.Outcome State Fault Refusal := partEvent (fun x => x.tapePace.sessionDark) s

/-! ### Terminals (chapters 8 and 9) -/

/-- MAILBOX_MOVE_IN (R200). -/
def execMailboxMoveIn (s : State) : Host.Outcome State Fault Refusal := partEvent State.mailboxMoveIn s

/-- TURN_START (R159). -/
def execTurnStart (s : State) : Host.Outcome State Fault Refusal := partEvent State.turnStart s

/-- TERMINAL_FRAME_SENT (R149). -/
def execTerminalFrameSent (s : State) : Host.Outcome State Fault Refusal :=
  partEvent (fun x => x.setPt x.pt.frameSent) s

/-- TERMINAL_ANSWER (R151, R161). -/
def execTerminalAnswer (bytes : Text) (s : State) : Host.Outcome State Fault Refusal :=
  partEvent (fun x => x.terminalAnswer bytes) s

/-- TURN_MISS (R150). -/
def execTurnMiss (s : State) : Host.Outcome State Fault Refusal := partEvent State.turnMiss s

/-- ENTRY_KEY (R162): a code that names no entry key is discarded (R161). -/
def execEntryKey (t : TermId) (code : Byte) (s : State) : Host.Outcome State Fault Refusal :=
  partEvent (fun x => if isEntryKeyCode code then x.keyEvent t (.entry code) else x) s

/-- QUOTE_KEY (R163). -/
def execQuoteKey (t : TermId) (s : State) : Host.Outcome State Fault Refusal := partEvent (fun x => x.keyEvent t .quote) s

/-- RECALL_KEY (R164). -/
def execRecallKey (t : TermId) (s : State) : Host.Outcome State Fault Refusal := partEvent (fun x => x.keyEvent t .recall) s

/-- CLEAR_KEY (R165). -/
def execClearKey (t : TermId) (s : State) : Host.Outcome State Fault Refusal := partEvent (fun x => x.keyEvent t .clear) s

/-- SEND_KEY (R166). -/
def execSendKey (t : TermId) (s : State) : Host.Outcome State Fault Refusal := partEvent (fun x => x.keyEvent t .send) s

/-- WATCH_KEY (R173). -/
def execWatchKey (t : TermId) (s : State) : Host.Outcome State Fault Refusal := partEvent (fun x => x.keyEvent t .watch) s

/-- DROP_KEY (R174). -/
def execDropKey (t : TermId) (s : State) : Host.Outcome State Fault Refusal := partEvent (fun x => x.keyEvent t .drop) s

/-- ACK_KEY (R186). -/
def execAckKey (t : TermId) (s : State) : Host.Outcome State Fault Refusal := partEvent (fun x => x.keyEvent t .ack) s

end Sys2Proof.Machine
end

