-- ==== Sys2Proof/Machine/Dispatch.lean ====
section
/-!
DEFINITION. The dispatch of the commands to their meanings, one arm per row of spec/opcode_table.json.
-/

namespace Sys2Proof.Machine

/-- What a command does to everything but the queue of commands. -/
def exec (i : Instr) (s : State) : Host.Outcome State Fault Refusal :=
  match i with
  | .resetAssert landing => Sys2Proof.Machine.execResetAssert landing s
  | .resetRelease straps levels => Sys2Proof.Machine.execResetRelease straps levels s
  | .capture a v => Sys2Proof.Machine.execCapture a v s
  | .sizeWrite a v => Sys2Proof.Machine.execSizeWrite a v s
  | .closeWrite a v => Sys2Proof.Machine.execCloseWrite a v s
  | .partialWrite a d half => Sys2Proof.Machine.execPartialWrite a d half s
  | .textWrite a d lanes => Sys2Proof.Machine.execTextWrite a d lanes s
  | .bulletinWrite a d lanes => Sys2Proof.Machine.execBulletinWrite a d lanes s
  | .hostWrite a d lanes => Sys2Proof.Machine.execHostWrite a d lanes s
  | .hostAccessHold acc => Sys2Proof.Machine.execHostAccessHold acc s
  | .heldRead a => Sys2Proof.Machine.execHeldRead a s
  | .landing => Sys2Proof.Machine.execLanding s
  | .textLineReadAnswer => Sys2Proof.Machine.execTextLineReadAnswer s
  | .loadReadAnswer => Sys2Proof.Machine.execLoadReadAnswer s
  | .loadComplete => Sys2Proof.Machine.execLoadComplete s
  | .loadRefused => Sys2Proof.Machine.execLoadRefused s
  | .parameterWrite p d lanes => Sys2Proof.Machine.execParameterWrite p d lanes s
  | .commandWordPartial d half => Sys2Proof.Machine.execCommandWordPartial d half s
  | .unknownOpcode w => Sys2Proof.Machine.execUnknownOpcode w s
  | .load operand => Sys2Proof.Machine.execLoad operand s
  | .roll operand => Sys2Proof.Machine.execRoll operand s
  | .openMarket operand => Sys2Proof.Machine.execOpenMarket operand s
  | .closeMarket operand => Sys2Proof.Machine.execCloseMarket operand s
  | .dark operand => Sys2Proof.Machine.execDark operand s
  | .setClose operand => Sys2Proof.Machine.execSetClose operand s
  | .halt operand => Sys2Proof.Machine.execHalt operand s
  | .resume operand => Sys2Proof.Machine.execResume operand s
  | .setClock operand => Sys2Proof.Machine.execSetClock operand s
  | .watch operand => Sys2Proof.Machine.execWatch operand s
  | .unwatch operand => Sys2Proof.Machine.execUnwatch operand s
  | .statusText operand => Sys2Proof.Machine.execStatusText operand s
  | .repaint operand => Sys2Proof.Machine.execRepaint operand s
  | .tapeClear operand => Sys2Proof.Machine.execTapeClear operand s
  | .attentionAcknowledge d => Sys2Proof.Machine.execAttentionAcknowledge d s
  | .mailboxSlotRead => Sys2Proof.Machine.execMailboxSlotRead s
  | .mailboxMoveIn => Sys2Proof.Machine.execMailboxMoveIn s
  | .rollSlot => Sys2Proof.Machine.execRollSlot s
  | .sessionDark => Sys2Proof.Machine.execSessionDark s
  | .baseStep => Sys2Proof.Machine.execBaseStep s
  | .wholeSecond => Sys2Proof.Machine.execWholeSecond s
  | .wholeMinute => Sys2Proof.Machine.execWholeMinute s
  | .blinkExpiry => Sys2Proof.Machine.execBlinkExpiry s
  | .sweepExpiry => Sys2Proof.Machine.execSweepExpiry s
  | .feedGoesStale => Sys2Proof.Machine.execFeedStale s
  | .floorLineChange line level => Sys2Proof.Machine.execFloorLineChange line level s
  | .takeWork l => Sys2Proof.Machine.execTakeWork l s
  | .frameSent l => Sys2Proof.Machine.execFrameSent l s
  | .boardAck l bytes => Sys2Proof.Machine.execBoardAck l bytes s
  | .answerWaitExpiry l => Sys2Proof.Machine.execAnswerWaitExpiry l s
  | .probeIntervalExpiry l => Sys2Proof.Machine.execProbeIntervalExpiry l s
  | .tapePaceExpiry => Sys2Proof.Machine.execTapePaceExpiry s
  | .turnStart => Sys2Proof.Machine.execTurnStart s
  | .terminalFrameSent => Sys2Proof.Machine.execTerminalFrameSent s
  | .terminalAnswer bytes => Sys2Proof.Machine.execTerminalAnswer bytes s
  | .turnMiss => Sys2Proof.Machine.execTurnMiss s
  | .entryKey t code => Sys2Proof.Machine.execEntryKey t code s
  | .quoteKey t => Sys2Proof.Machine.execQuoteKey t s
  | .recallKey t => Sys2Proof.Machine.execRecallKey t s
  | .clearKey t => Sys2Proof.Machine.execClearKey t s
  | .sendKey t => Sys2Proof.Machine.execSendKey t s
  | .watchKey t => Sys2Proof.Machine.execWatchKey t s
  | .dropKey t => Sys2Proof.Machine.execDropKey t s
  | .ackKey t => Sys2Proof.Machine.execAckKey t s
  | .arbitrationWait acc => Sys2Proof.Machine.execArbitrationWait acc s

end Sys2Proof.Machine
end

