-- ==== Sys2Proof/Safety.lean ====
section
/-!
DEFINITION. The terms in which claims about the QD-440 are stated: what a host access stores, when the port is free, when a command
is taken, and the invariants that every step keeps.
-/

namespace Sys2Proof.Machine

/-! ### Comparing states -/

/-- `t` is `u` but for the dirty marks of the report words and the Side Write Queue, which every event may extend, and the grant of the
port, which every event may change (R51, R53, R202). -/
def SameButMarks (u t : State) : Prop :=
  t = { u with cr := { u.cr with dirty := t.cr.dirty }, bp := { u.bp with queue := t.bp.queue, port := t.bp.port } }

/-- Every one of the report words named is dirty. -/
def AllDirty (os : List Nat) (t : State) : Prop := ∀ o ∈ os, o ∈ t.cr.dirty

/-! ### When an access or a command is taken -/

/-- No reset, no held access and a free place in the Side Write Queue: a host write is granted at once (R55, R57, R61). -/
def PortFree (s : State) : Prop := s.resetPin = false ∧ s.bp.held = none ∧ s.bp.queue.length < 8

/-- The part is READY and no command is running, and the port is free: a known command is handed to its owner (R189). -/
def TakesCommands (s : State) : Prop := PortFree s ∧ s.isReady = true ∧ s.cr.running = none

/-- The setup block lies whole in the address space, as every strap number puts it (R50). -/
def AnchorFits (s : State) : Prop := s.bp.anchor.toNat + 123 < 0x40000

/-- The state after the full host write of the command word has reached memory and before the command acts (R49, R189). -/
def withCommandWord (s : State) (opcode operand : Byte) : State :=
  s.setMem (s.mem.writeWord (setupAddr s 0).toNat (wordOf opcode operand) .both)

/-- COMMAND STATUS as it reports a decided command; a final outcome sets CMD, position 1 (R191, Table 11-7). -/
def answered (b : State) (opcode : Byte) (outcome : CmdOutcome) (reason : Reason) : State :=
  { b with cr := { b.cr with
      status := ⟨opcode, outcome, reason⟩
      flags := if outcome = .running then b.cr.flags else b.cr.flags ||| 0x0002 } }

/-- `t` is what a refused command leaves: its word in memory, COMMAND STATUS and CMD, and nothing else (R189, R191). -/
def RefusedWith (s : State) (opcode operand : Byte) (reason : Reason) (t : State) : Prop :=
  SameButMarks (answered (withCommandWord s opcode operand) opcode .refused reason) t ∧ 8 ∈ t.cr.dirty

/-- The due marks after the record of slot `n` went from `before` to `after`: those set before, and those of the words the slot's
covering window holds and whose write-back value differs (R42). -/
def DueMarked (s : State) (n : Slot) (before after : SlotRec) (t : State) : Prop :=
  ∀ m, m ∈ t.qe.due ↔ m ∈ s.qe.due ∨
    (m.slot = n ∧ before.writeBack m.field ≠ after.writeBack m.field ∧ (writeBackAddr s m).isSome = true)

/-- Offset `i` of a quote record holds the field named: a present captured or write-back field, VOL low one word above VOL high, or an
unwatched word (R30). -/
def FieldNamed (o : FieldOffsets) (i : Nat) : QuoteField → Prop
  | .last => o.last = some i
  | .size => o.size = some i
  | .close => o.close = some i
  | .writeBack .chg => o.chg = some i
  | .writeBack .high => o.high = some i
  | .writeBack .low => o.low = some i
  | .writeBack .flags => o.flags = some i
  | .writeBack .volHigh => o.vol = some i
  | .writeBack .volLow => ∃ v, o.vol = some v ∧ i = v + 1
  | .unwatched => i ∉ o.words

/-- The address lies in an active window of kind `k`, and outside the setup block (R28, R50). -/
def LiesIn (s : State) (a : Addr) (w : Window) (k : WindowKind) : Prop :=
  s.isReady = true ∧ w ∈ s.bp.windows ∧ w.kind = k ∧ w.base ≤ a.toNat ∧ a.toNat < w.base + w.length ∧
    (a.toNat < s.bp.anchor.toNat ∨ s.bp.anchor.toNat + 123 < a.toNat)

/-- What an address names: words +0 to +23 of the setup block by their offset; in READY a word of a window, the slot by the stride from
the first slot and the field by the offset within the stride, the line by lines of 24 words, or the word of the bulletin; else nothing
that a block takes (R28, R30, R31, R32, R50, Table 3-1). The 256 and the 8 are the numbers of slots and of bulletin words, beyond which
the checks of Table 2-2 let no window reach. -/
def AddressNames (s : State) (a : Addr) : Target → Prop
  | .command => a.toNat = s.bp.anchor.toNat
  | .parameter p => a.toNat = s.bp.anchor.toNat + 1 + p.val
  | .acknowledge => a.toNat = s.bp.anchor.toNat + 5
  | .report o => 6 ≤ o ∧ o ≤ 23 ∧ a.toNat = s.bp.anchor.toNat + o
  | .quote i n f => ∃ w, LiesIn s a w .quote ∧ i = w.index ∧
      n.val = (w.firstSlot + (a.toNat - w.base) / w.stride) % 256 ∧ FieldNamed w.offsets ((a.toNat - w.base) % w.stride) f
  | .text i line => ∃ w, LiesIn s a w .text ∧ i = w.index ∧ line = (a.toNat - w.base) / 24
  | .bulletin j => ∃ w, LiesIn s a w .bulletin ∧ j.val = (a.toNat - w.base) % 8
  | .plain => (a.toNat < s.bp.anchor.toNat ∨ s.bp.anchor.toNat + 23 < a.toNat) ∧ ∀ w k, ¬ LiesIn s a w k

/-- A QUOTE window covers the slot: first slot to first slot + length / stride − 1 (R29). -/
def Covers (s : State) (w : Window) (n : Slot) : Prop :=
  w ∈ s.bp.windows ∧ w.kind = .quote ∧ w.firstSlot ≤ n.val ∧ n.val < w.firstSlot + w.length / w.stride

/-- Where the word of an entry lies: a report word at its offset in the setup block; a write-back word in a window that covers its slot,
at the base, a stride for each slot from the first, and the offset of its field. A word that no window holds lies nowhere (R30, R50,
R52). -/
def EntryLies (s : State) : SideWord → Option Nat → Prop
  | .report o, at' => at' = some (s.bp.anchor.toNat + o)
  | .writeBack m, some x => ∃ w i, Covers s w m.slot ∧ FieldNamed w.offsets i (.writeBack m.field) ∧
      x = w.base + (m.slot.val - w.firstSlot) * w.stride + i
  | .writeBack m, none => (∀ w, ¬ Covers s w m.slot) ∨
      ∃ w, Covers s w m.slot ∧ ∀ i, ¬ FieldNamed w.offsets i (.writeBack m.field)

/-- The write-back value of a field of a record (R18, R19, R41, Table 2-5). -/
def WriteBackIs (r : SlotRec) (v : Word) : WbField → Prop
  | .chg => (r.last = 0 ∨ r.close = 0 → v = 0x8000) ∧
    (r.last ≠ 0 → r.close ≠ 0 → v.toInt = max (-32767) (min 32767 ((r.last.toNat : Int) - r.close.toNat)))
  | .high => v = r.high
  | .low => v = r.low
  | .flags => (r.direction, v.toNat % 8) ∈ [(Direction.none, 0), (.up, 1), (.down, 2), (.zeroUp, 3), (.zeroDown, 4)] ∧
    (v.getLsbD 3 = true ↔ r.state = .halted) ∧ (v.getLsbD 4 = true ↔ r.lastSize ≠ none) ∧ v.toNat < 32
  | .volHigh => v.toNat = r.volume.toNat / 65536
  | .volLow => v.toNat = r.volume.toNat % 65536

/-- The layout of the report word at `offset` (Table 11-6, R132). The bounds that let a count or an index fill its field are premises. -/
def ReportIs (s : State) (v : Word) (offset : Nat) : Prop :=
  (offset = 6 →
    (s.cr.part = .unconfigured → v.toNat % 16 = 0) ∧ (s.cr.part = .ready → v.toNat % 16 = 2) ∧
    (∀ run, s.cr.part = .loading run → v.toNat % 4 = 1 ∧
      (run.phase, v.toNat / 4 % 4) ∈ [(LoadPhase.configuration, 0), (.directory, 1), (.rowMap, 2), (.placements, 3)]) ∧
    (s.cs.session, v.toNat / 16 % 8) ∈ [(Session.closed, 0), (.preOpen, 1), (.opened, 2), (.dimming, 3), (.dark, 4)] ∧
    v.getLsbD 7 = s.cs.feedStale ∧ (s.tc.mode, v.toNat / 256 % 4) ∈ [(TapeMode.full, 0), (.compact, 1), (.short, 2)] ∧
    (v.getLsbD 10 = true ↔ s.isReady = true ∧ ∃ l : LineId, vget s.cs.lineFunctions l = .tapeHold ∧ vget s.cs.lineLevels l = true) ∧
    v.toNat < 2048) ∧
  (offset = 7 → v = s.cr.flags) ∧
  (offset = 8 →
    v.toNat / 256 = s.cr.status.opcode.toNat ∧
    (s.cr.status.outcome, v.toNat / 64 % 4) ∈ [(CmdOutcome.done, 0), (.running, 1), (.refused, 2)] ∧
    (s.cr.status.reason, v.toNat % 64) ∈ [(Reason.none, 0), (.busy, 1), (.state, 2), (.notLoaded, 3), (.unknown, 4), (.range, 5),
      (.absent, 6), (.full, 7), (.setup, 8)]) ∧
  (offset = 9 →
    v.toNat % 256 = s.cr.sequence.toNat ∧ (s.cr.mailbox = none → v.getLsbD 15 = false) ∧
    (∀ r, s.cr.mailbox = some r → v.getLsbD 15 = true ∧ v.toNat / 2048 % 16 = r.terminal.val ∧
      v.toNat / 256 % 8 = r.text.length % 8)) ∧
  (∀ i : Fin 4, offset = 10 + i.val → v = vget s.cr.mailText i) ∧
  (offset = 14 → v = s.cr.mailSlot) ∧
  (offset = 15 → s.cs.clock < 864000 → v.getLsbD 15 = s.cs.notSet ∧ v.toNat % 32768 = s.cs.clock / 10 / 65536) ∧
  (offset = 16 → v.toNat = s.cs.clock / 10 % 65536) ∧
  (offset = 17 → s.tc.lateness < 65536 → v.toNat = s.tc.lateness) ∧
  (offset = 18 → v = s.tc.omitted) ∧ (offset = 19 → v = s.qe.anomalies) ∧
  (offset = 20 → v.toNat < 256 ∧ ∀ l : LinkId, ((s.link l).state, v.toNat / 4 ^ l.val % 4) ∈
    [(LinkState.unused, 0), (.offline, 1), (.online, 2), (.dark, 3)]) ∧
  (offset = 21 → ∀ u : TermId, v.getLsbD u.val = (s.term u).online) ∧
  (offset = 22 → s.pt.keyQueue.length ≤ 8 → s.tc.queue.length ≤ 96 →
    v.toNat / 256 = s.pt.keyQueue.length ∧ v.toNat % 256 = s.tc.queue.length) ∧
  (offset = 23 → s.cr.diagReason < 16 → s.cr.diagIndex < 1024 →
    v.toNat / 4096 = s.cr.diagReason ∧ v.toNat % 4096 = s.cr.diagIndex)

/-- The refresh queues and stale rows of `t` are those of `s` with what the blinking cells that `ends` picks ask for: every entry and
stale row of before stays, the entries in their places, and every new one is the cell of one of those, or its row (R80, R87). -/
def RefreshedFor (s t : State) (ends : BlinkCell → Prop) : Prop :=
  ∀ l,
    (let asks (c : BlinkCell) (q : Placement) : Prop :=
       (∃ m, c ∈ (s.link m).blink) ∧ ends c ∧ s.bc.placements[c.placement]? = some q ∧ q.link = l
     (∃ new, (t.link l).queue = (s.link l).queue ++ new ∧ new.Nodup ∧
       ∀ e ∈ new, e ∉ (s.link l).queue ∧ ∃ c q, asks c q ∧ e = .cell c.placement) ∧
     (∀ r ∈ (s.link l).stale, r ∈ (t.link l).stale) ∧
     (∀ r ∈ (t.link l).stale, r ∈ (s.link l).stale ∨ ∃ c q, asks c q ∧ r = q.row) ∧
     ((s.link l).state ≠ .online → (t.link l).queue = (s.link l).queue ∧ (t.link l).stale = (s.link l).stale))

/-- Something other than link `l` keeps the session from passing into DARK: it is not DIMMING, the tape is not empty, or another link is
not drained (R104, R126, R140). -/
def KeptLit (s : State) (l : LinkId) : Prop :=
  s.cs.session ≠ .dimming ∨ s.isReady = false ∨ s.tc.isEmpty = false ∨ ∃ m, m ≠ l ∧ (s.link m).drained = false

/-- `t` is a floor gone dark: the session is DARK, the DARK command is DONE and every link that was in use is DARK (R105, R140). -/
def GoneDark (s t : State) : Prop :=
  t.cs.session = .dark ∧ t.cr.running = none ∧ t.cr.status = ⟨0x05, .done, .none⟩ ∧ AllDirty [6, 8] t ∧
  (∀ u, 0 ∈ (t.term u).dirty) ∧ ∀ m, (s.link m).state ≠ .unused → (t.link m).state = .dark

/-- The link has a line read in progress (R71). -/
def Link.Reads (k : Link) : Prop := ∃ w line, k.work = some w ∧ w.phase = .reading line

/-- The text-line read presented after link `last` was answered: that of the first reading link in the rotation of R72, when one
reads. -/
def RotationPicks (last : LinkId) (links : Vector Link 4) (pick : Option LinkId) : Prop :=
  (pick = none ∧ ∀ m, ¬ (vget links m).Reads) ∨
  ∃ d : Fin 4, pick = some (last + 1 + d) ∧ (vget links (last + 1 + d)).Reads ∧
    ∀ e, e < d → ¬ (vget links (last + 1 + e)).Reads

/-- The boards of `t` are those of `s` with the links `links`, the line read to present chosen anew by R72 when none stood presented. -/
def LinksBecome (s : State) (links : Vector Link 4) (t : State) : Prop :=
  SameButMarks { s with bc := { s.bc with links := links, textRequest := t.bc.textRequest } } t ∧
  (∀ m, s.bc.textRequest = some m → t.bc.textRequest = some m) ∧
  (s.bc.textRequest = none → RotationPicks s.bc.textLast links t.bc.textRequest)

/-- Place `i` of the poll order list is the first from `start` on, wrapping, whose entry names a terminal (R148). -/
def NextPlace (poll : List Nat) (start i : Nat) : Prop :=
  ∃ d, d < poll.length ∧ i = (start + d) % poll.length ∧ poll.getD i 255 ≤ 15 ∧
    ∀ e, e < d → 15 < poll.getD ((start + e) % poll.length) 255

/-- A LOAD read is answered: the LOAD goes on, no check has failed, and its read has the port (R51, R193). -/
def LoadReads (s : State) (run : LoadRun) : Prop :=
  s.resetPin = false ∧ s.bp.held = none ∧ s.bp.port = some .loadRead ∧ s.cr.part = .loading run ∧ run.failed = none

/-- The LOAD goes on as `run`, and nothing else changes. -/
def LoadGoesOn (s : State) (run : LoadRun) (t : State) : Prop :=
  SameButMarks { s with cr := { s.cr with part := .loading run } } t

/-- The LOAD has ended refused with a diagnostic (R195, R197). -/
def LoadEndsRefused (reason index : Nat) (t : State) : Prop :=
  t.cr.part = .unconfigured ∧ t.cr.running = none ∧ t.cr.diagReason = reason ∧ t.cr.diagIndex = index ∧
  t.cr.status = ⟨0x01, .refused, .setup⟩ ∧ t.cr.flags = 0x0002 ∧ AllDirty reportOffsets t

/-- The pointer held in configuration words `i` and `i + 1` is out of range for a table of `n` words (R195, R203). -/
def PointerBad (ws : List Word) (i n : Nat) : Prop :=
  4 ≤ (cfgWord ws i).toNat ∨ 0x40000 < (cfgWord ws i).toNat * 65536 + (cfgWord ws (i + 1)).toNat + n

/-- No pointer is out of range (R195). -/
def PointersGood (ws : List Word) : Prop :=
  ¬ PointerBad ws 26 1024 ∧ ¬ PointerBad ws 28 (2 * min 1024 (cfgWord ws 30).toNat) ∧ ¬ PointerBad ws 31 128

/-- The window that descriptor `n` describes, when its kind code is good (Table 11-2). -/
def DescriptorIs (ws : List Word) (n : Fin 8) (w : Window) : Prop :=
  let d (i : Nat) : Nat := (cfgWord ws (60 + 8 * n.val + i)).toNat
  let offset (bit v : Nat) : Option Nat := if d 7 / 2 ^ bit % 2 = 1 then some v else none
  w.index = n ∧ (d 0 / 256 % 4, w.kind) ∈ [(1, WindowKind.quote), (2, .text), (3, .bulletin)] ∧
  w.base = d 1 % 4 * 65536 + d 2 ∧ w.length = d 3 ∧
  (w.kind = .quote →
    w.notify = d 0 % 256 ∧ (d 1 / 16 % 4, w.stride) ∈ [(0, 0), (1, 4), (2, 8), (3, 16)] ∧ w.firstSlot = d 4 % 256 ∧
    w.offsets = {
      last := offset 0 (d 5 / 4096), size := offset 1 (d 5 / 256 % 16), close := offset 2 (d 5 / 16 % 16)
      chg := offset 3 (d 5 % 16), high := offset 4 (d 6 / 4096), low := offset 5 (d 6 / 256 % 16)
      flags := offset 6 (d 6 / 16 % 16), vol := offset 7 (d 6 % 16) }) ∧
  (w.kind ≠ .quote → w.notify = 0 ∧ w.stride = 0 ∧ w.firstSlot = 0 ∧
    w.offsets = ⟨none, none, none, none, none, none, none, none⟩)

/-- The windows of the enabled descriptors among `ns`, in order (R27). -/
def enabledWindows (ws : List Word) (ns : List (Fin 8)) : List Window :=
  ns.filterMap (fun n => if (cfgWord ws (60 + 8 * n.val)).getLsbD 15 then windowOf ws n else none)

/-- Reason 2 of Table 2-2: the window's geometry. -/
def Window.GeometryBad (w : Window) : Prop :=
  0x40000 < w.base + w.length ∨
  (w.kind = .quote ∧ (w.stride = 0 ∨ w.length = 0 ∨ w.length % w.stride ≠ 0 ∨ 256 < w.firstSlot + w.length / w.stride)) ∨
  (w.kind = .text ∧ ∀ lines, 1 ≤ lines → lines ≤ 32 → w.length ≠ 24 * lines) ∨
  (w.kind = .bulletin ∧ w.length ≠ 8)

/-- Reason 3 of Table 2-2: the window meets the setup block, an earlier window, or the slots of an earlier QUOTE window. -/
def Window.OverlapBad (anchor : Nat) (earlier : List Window) (w : Window) : Prop :=
  (w.base < anchor + 124 ∧ anchor < w.base + w.length) ∨
  ∃ v ∈ earlier, (w.base < v.base + v.length ∧ v.base < w.base + w.length) ∨
    (w.kind = .quote ∧ v.kind = .quote ∧ w.firstSlot < v.firstSlot + v.length / v.stride ∧
      v.firstSlot < w.firstSlot + w.length / w.stride)

/-- Reason 4 of Table 2-2: the field offsets. -/
def Window.OffsetsBad (w : Window) : Prop :=
  w.kind = .quote ∧ (w.offsets.last = none ∨ (∃ o ∈ w.offsets.words, w.stride ≤ o) ∨ ¬ w.offsets.words.Nodup)

/-- Reason 1 of Table 2-2, for a kind that is a kind: as many earlier windows of it as there may be, 2 of QUOTE, 2 of TEXT and 1 of
BULLETIN. -/
def Window.LimitBad (earlier : List Window) (w : Window) : Prop :=
  (if w.kind = .bulletin then 1 else 2) ≤ (earlier.filter (fun v => v.kind = w.kind)).length

/-- Descriptor `n`, when enabled, meets none of the reasons of Table 2-2 behind the enabled ones below it. -/
def DescriptorPasses (anchor : Nat) (ws : List Word) (n : Fin 8) : Prop :=
  (cfgWord ws (60 + 8 * n.val)).getLsbD 15 = true →
    ∃ w, windowOf ws n = some w ∧
      (let earlier := enabledWindows ws (allDescriptors.take n.val)
       ¬ w.LimitBad earlier ∧ ¬ w.GeometryBad ∧ ¬ w.OverlapBad anchor earlier ∧ ¬ w.OffsetsBad)

/-- A directory entry names a symbol: 1 to 4 letters, then spaces to four characters (Table 11-3). -/
def NameIs (w0 w1 : Word) (name : Text) : Prop :=
  1 ≤ name.length ∧ name.length ≤ 4 ∧ (∀ c ∈ name, 0x41 ≤ c ∧ c ≤ 0x5A) ∧
  [hiByte w0, loByte w0, hiByte w1, loByte w1] = name ++ List.replicate (4 - name.length) 0x20

/-- The row map word `word` gives a used row its kind (R65, R66, Table 11-5). -/
def RowKindIs (u : Setup) (word : Word) : RowKind → Prop
  | .symbol => word.toNat / 16384 = 1
  | .text i line => word.toNat / 16384 = 2 ∧ i.val = word.toNat / 256 % 8 ∧ line = word.toNat % 32 ∧
      ∃ x ∈ u.windows, x.index = i ∧ x.kind = .text ∧ line < x.length / 24

/-- The placement that two words hold, their field kind being `kind` (Table 11-4). -/
def placementOf (w0 w1 : Word) (kind : FieldKind) : Placement where
  slot := Fin.ofNat 256 (w0.toNat / 256)
  link := Fin.ofNat 4 (w0.toNat / 64)
  kind := kind
  row := w1.toNat / 2048
  column := w1.toNat / 32 % 64
  width := w1.toNat % 16

/-- Reason 9 of Table 4-2, the field kind code apart: the placement's row is no SYMBOL row of its link, or its cell does not fit. -/
def Placement.PlaceBad (u : Setup) (kinds : List RowKind) (p : Placement) : Prop :=
  vget u.rows p.link ≤ p.row ∨ kinds.getD (32 * p.link.val + p.row) .symbol ≠ .symbol ∨ p.width = 0 ∨ 12 < p.width ∨
  vget u.cols p.link < p.column + p.width

/-- Reason 10 of Table 4-2: an earlier placement of the same link and row shares a column. -/
def Placement.CellBad (earlier : List Placement) (p : Placement) : Prop :=
  ∃ q ∈ earlier, p.link = q.link ∧ p.row = q.row ∧ p.column < q.column + q.width ∧ q.column < p.column + p.width

/-- Reason 11 of Table 4-2: four earlier placements show the slot. -/
def Placement.CountBad (earlier : List Placement) (p : Placement) : Prop :=
  4 ≤ (earlier.filter (fun q => q.slot = p.slot)).length

/-- The LOAD has ended DONE, with the windows of its setup and the placements taken (R196). -/
def LoadEndsDone (s : State) (u : Setup) (ps : List Placement) (t : State) : Prop :=
  t.cr.part = .ready ∧ t.cr.running = none ∧ t.cr.status = ⟨0x01, .done, .none⟩ ∧ t.cr.flags = s.cr.flags ||| 0x0002 ∧
  t.bp.windows = u.windows ∧ t.bc.placements = ps ∧ AllDirty [6, 8] t

/-- The sweep expires at the next whole second (R101). -/
def SweepDue (s : State) : Prop :=
  s.isReady = true ∧ s.bc.sweepSeconds ≠ 0 ∧ s.bc.sweepSeconds ≤ s.bc.sweepCount + 1

/-- The feed monitor runs (R144). -/
def FeedRuns (s : State) : Prop :=
  s.isReady = true ∧ s.cs.session = .opened ∧ s.cs.feedTimeout ≠ 0 ∧ s.cs.feedStale = false

/-- The feed becomes STALE at the next whole second (R144). -/
def FeedDue (s : State) : Prop := FeedRuns s ∧ s.cs.feedTimeout ≤ s.cs.feedCount + 1

/-- What a whole second does: the clock words are marked, the sweep count rises or expires, and the feed count rises or makes the feed
STALE (R101, R131, R144, R145). -/
def SecondTaken (s t : State) : Prop :=
  AllDirty [15, 16] t ∧
  (SweepDue s → t.bc.sweepCount = 0 ∧ ∀ l, (t.link l).pass =
    if (s.link l).state = .online ∧ (s.link l).pass = none ∧ s.cs.session ≠ .dimming then some 0 else (s.link l).pass) ∧
  (¬ SweepDue s → (∀ l, (t.link l).pass = (s.link l).pass) ∧
    t.bc.sweepCount = if s.isReady = true ∧ s.bc.sweepSeconds ≠ 0 then s.bc.sweepCount + 1 else s.bc.sweepCount) ∧
  (FeedDue s → t.cs.feedStale = true ∧ t.cs.feedCount = s.cs.feedTimeout ∧ t.cr.flags = s.cr.flags ||| 0x0020 ∧
    t.tc.reserved = some [0x4E, 0x4F, 0x20, 0x52, 0x45, 0x50, 0x4F, 0x52, 0x54, 0x53] ∧ 6 ∈ t.cr.dirty) ∧
  (¬ FeedDue s → t.cs.feedStale = s.cs.feedStale ∧ t.cr.flags = s.cr.flags ∧ t.tc.reserved = s.tc.reserved ∧
    (FeedRuns s → t.cs.feedCount = s.cs.feedCount + 1) ∧ (¬ FeedRuns s → t.cs.feedCount = s.cs.feedCount))

/-- No whole second was taken: the counts, the sweep passes, the feed and the reserved place stand. -/
def NoSecond (s t : State) : Prop :=
  t.bc.sweepCount = s.bc.sweepCount ∧ (∀ l, (t.link l).pass = (s.link l).pass) ∧ t.cs.feedCount = s.cs.feedCount ∧
  t.cs.feedStale = s.cs.feedStale ∧ t.cr.flags = s.cr.flags ∧ t.tc.reserved = s.tc.reserved

/-- A placement that an update notice refreshes: one of its slot whose field kind a member of the changed set matches (R75,
Table 4-4). -/
def RefreshedBy (n : Notice) (q : Placement) : Prop :=
  q.slot = n.slot ∧
    ((q.kind = .last ∧ n.changed.last = true) ∨ (q.kind = .tick ∧ n.changed.tick = true) ∨
     (q.kind = .change ∧ n.changed.change = true) ∨ (q.kind = .high ∧ n.changed.high = true) ∨
     (q.kind = .low ∧ n.changed.low = true) ∨ (q.kind = .volume ∧ n.changed.volume = true))

/-- The trade's direction is UP as the evaluation reckons it (R178). -/
def TicksUp (d : TradeDetails) (close : Word) : Prop :=
  (d.prior ≠ 0 ∧ d.prior < d.price) ∨ (d.prior = 0 ∧ close ≠ 0 ∧ close < d.price)

/-- The trade's direction is DOWN as the evaluation reckons it (R178). -/
def TicksDown (d : TradeDetails) (close : Word) : Prop :=
  (d.prior ≠ 0 ∧ d.price < d.prior) ∨ (d.prior = 0 ∧ close ≠ 0 ∧ d.price < close)

/-- The test of a condition code (Table 9-3). -/
def WatchEntry.Meets (e : WatchEntry) (d : TradeDetails) (close : Word) : Prop :=
  match e.code with
  | 0 => True
  | 1 => TicksUp d close
  | 2 => TicksDown d close
  | 3 => d.newHigh = true
  | 4 => d.newLow = true
  | 5 => e.limit ≤ d.price
  | 6 => d.price ≤ e.limit
  | 7 => e.reference ≠ 0 ∧ (e.reference.toNat + e.limit.toNat ≤ d.price.toNat ∨ d.price.toNat + e.limit.toNat ≤ e.reference.toNat)

/-- The test after negate holds (R179). -/
def WatchEntry.Holds (e : WatchEntry) (d : TradeDetails) (close : Word) : Prop := e.Meets d close ↔ e.negate = false

/-- A trade at price `v` meets the re-arm condition of a crossing entry (Table 9-4). -/
def WatchEntry.Rearmed (e : WatchEntry) (v : Word) : Prop :=
  (e.code = 5 → e.negate = false → v.toNat + e.hysteresis.toNat < e.limit.toNat) ∧
  (e.code = 6 → e.negate = false → e.limit.toNat + e.hysteresis.toNat < v.toNat) ∧
  (e.code = 5 → e.negate = true → e.limit.toNat + e.hysteresis.toNat ≤ v.toNat) ∧
  (e.code = 6 → e.negate = true → v.toNat + e.hysteresis.toNat ≤ e.limit.toNat)

/-- The sweep pointer after a piece ends: one that the pass sent moves it to the next row, and the last row ends the pass (R102). -/
def passAfter (k : Link) (fromPass : Bool) : Option Nat :=
  if fromPass then k.pass.bind (fun r => if r + 1 < k.rows then some (r + 1) else none) else k.pass

/-! ### What a command stores -/

/-- The host access a row presents (R49). -/
def accessOf (s : State) : Instr → Option HostAccess
  | .capture a v => some (.write a v .both)
  | .sizeWrite a v => some (.write a v .both)
  | .closeWrite a v => some (.write a v .both)
  | .partialWrite a d half => some (.write a d half.lanes)
  | .textWrite a d lanes => some (.write a d lanes)
  | .bulletinWrite a d lanes => some (.write a d lanes)
  | .hostWrite a d lanes => some (.write a d lanes)
  | .hostAccessHold acc => some acc
  | .heldRead a => some (.read a)
  | .arbitrationWait acc => some acc
  | .parameterWrite p d lanes => some (.write (setupAddr s (p.val + 1)) d lanes)
  | .commandWordPartial d half => some (.write (setupAddr s 0) d half.lanes)
  | .unknownOpcode w => some (.write (setupAddr s 0) w .both)
  | .load x => some (.write (setupAddr s 0) (wordOf 0x01 x) .both)
  | .roll x => some (.write (setupAddr s 0) (wordOf 0x02 x) .both)
  | .openMarket x => some (.write (setupAddr s 0) (wordOf 0x03 x) .both)
  | .closeMarket x => some (.write (setupAddr s 0) (wordOf 0x04 x) .both)
  | .dark x => some (.write (setupAddr s 0) (wordOf 0x05 x) .both)
  | .setClose x => some (.write (setupAddr s 0) (wordOf 0x06 x) .both)
  | .halt x => some (.write (setupAddr s 0) (wordOf 0x07 x) .both)
  | .resume x => some (.write (setupAddr s 0) (wordOf 0x08 x) .both)
  | .setClock x => some (.write (setupAddr s 0) (wordOf 0x09 x) .both)
  | .watch x => some (.write (setupAddr s 0) (wordOf 0x0A x) .both)
  | .unwatch x => some (.write (setupAddr s 0) (wordOf 0x0B x) .both)
  | .statusText x => some (.write (setupAddr s 0) (wordOf 0x0C x) .both)
  | .repaint x => some (.write (setupAddr s 0) (wordOf 0x0D x) .both)
  | .tapeClear x => some (.write (setupAddr s 0) (wordOf 0x0E x) .both)
  | .attentionAcknowledge d => some (.write (setupAddr s 5) d .both)
  | .mailboxSlotRead => some (.read (setupAddr s 14))
  | .resetAssert .. | .resetRelease .. | .landing | .textLineReadAnswer | .loadReadAnswer | .loadComplete
  | .loadRefused | .mailboxMoveIn | .rollSlot | .sessionDark | .baseStep | .wholeSecond | .wholeMinute
  | .blinkExpiry | .sweepExpiry | .feedGoesStale | .floorLineChange .. | .takeWork .. | .frameSent ..
  | .boardAck .. | .answerWaitExpiry .. | .probeIntervalExpiry .. | .tapePaceExpiry | .turnStart
  | .terminalFrameSent | .terminalAnswer .. | .turnMiss | .entryKey .. | .quoteKey .. | .recallKey ..
  | .clearKey .. | .sendKey .. | .watchKey .. | .dropKey .. | .ackKey .. => none

/-- The memory keys of the byte lanes of word `a` (log entry 8). -/
def laneKeys (a : Nat) : Lanes → List Nat
  | .both => [2 * a, 2 * a + 1]
  | .high => [2 * a]
  | .low => [2 * a + 1]

/-- The memory keys an access stores to. -/
def accessKeys : HostAccess → List Nat
  | .read _ => []
  | .write a _ lanes => laneKeys a.toNat lanes

/-- The memory keys of the word the head of the Side Write Queue names (R54). -/
def headKeys (s : State) : List Nat :=
  match s.bp.queue with
  | [] => []
  | w :: _ =>
    match sideWordAddr s w with
    | some a => laneKeys a .both
    | none => []

/-- The memory keys a command may store to when no access is held: its own access's bytes, or the head's word for a landing. -/
def storedKeys (s : State) (c : Instr) : List Nat :=
  match accessOf s c with
  | some acc => accessKeys acc
  | none => if c = .landing ∨ c = .resetAssert true then headKeys s else []

/-! ### Invariants -/

/-- Memory has its canonical form. -/
def MemoryCanonical (s : State) : Prop := s.mem.wf = true

/-- The Side Write Queue holds at most 8 entries and no word twice (R52). -/
def SideQueueLegal (s : State) : Prop := s.bp.queue.length ≤ 8 ∧ s.bp.queue.Nodup

/-- Every set mark has an entry, or the queue is full (R53). -/
def MarksEntered (s : State) : Prop := s.bp.queue.length < 8 → ∀ w, s.isMarked w = true → w ∈ s.bp.queue

/-- The port is granted exactly while a side access waits for it, to one that waits; while RESET is asserted it is not granted (R51,
R61). -/
def PortKept (s : State) : Prop :=
  (s.resetPin = true → s.bp.port = none) ∧
  (s.resetPin = false →
    (∀ x, s.bp.port = some x → s.sideWaits x = true) ∧ (s.bp.port = none → ∀ x, s.sideWaits x = false))

/-- The ordered sets hold each member once, in ascending order: dirty marks, due marks in the order of R53, stale rows, dirty lines and
subscribers. The dirty marks are those of report words (R52, R53, R86, R90, R153, R172). -/
def SetsOrdered (s : State) : Prop :=
  s.cr.dirty.Pairwise (· < ·) ∧ (∀ o ∈ s.cr.dirty, o ∈ reportOffsets) ∧
  s.qe.due.Pairwise (fun m n => m.slot < n.slot ∨ (m.slot = n.slot ∧ m.field.index < n.field.index)) ∧
  (∀ l, (s.link l).stale.Pairwise (· < ·)) ∧ (∀ u, (s.term u).dirty.Pairwise (· < ·)) ∧
  ∀ n, (vget s.pt.subscribers n).Pairwise (· < ·)

/-- The report word whose host read is held (R53 case 1). -/
def ReadIsHeld (s : State) (w : SideWord) : Prop :=
  ∃ a cause o, s.bp.held = some ⟨.read a, cause⟩ ∧ setupOffset s a = some o ∧ w = .report o

/-- The mark of `v` enters before that of `w`: a report word whose read is held first, then report words by ascending offset, then
write-back words by ascending slot and the field order CHG, HIGH, LOW, FLAGS, VOL high, VOL low (R53). -/
def EntersBefore (s : State) (v w : SideWord) : Prop :=
  ReadIsHeld s v ∨ (¬ ReadIsHeld s w ∧
    ((∃ o o', v = .report o ∧ w = .report o' ∧ o < o') ∨ (∃ o m, v = .report o ∧ w = .writeBack m) ∨
     ∃ m n, v = .writeBack m ∧ w = .writeBack n ∧
       (m.slot < n.slot ∨ (m.slot = n.slot ∧ m.field.index < n.field.index))))

/-- The part is LOADING. -/
def Loads (s : State) : Prop := ∃ run, s.cr.part = .loading run

/-- A mark of the word, or its entry, may end as command `c` takes `s` to `t`: the head at its landing, the word of a host write, a
write-back word of a LOAD that is accepted or ends (R54, R58, R63). -/
def MarkMayEnd (s : State) (c : Instr) (t : State) (w : SideWord) : Prop :=
  (c = .landing ∧ s.bp.queue.head? = some w) ∨
  (∃ a d lanes, accessOf s c = some (.write a d lanes) ∧ sideWordAt s a = some w) ∨
  (∃ m, w = .writeBack m ∧ (Loads s ∨ Loads t))

/-- The marks and the queue of `t` are those of `s` but for what command `c` ends; what remains of the queue keeps its order, and the
marks that enter stand behind it in the order of R53, before every mark that found no place (R52, R53). -/
def MarksMove (s : State) (c : Instr) (t : State) : Prop :=
  (∀ w, s.isMarked w = true → t.isMarked w = true ∨ MarkMayEnd s c t w) ∧
  (∀ w ∈ s.bp.queue, w ∈ t.bp.queue ∨ MarkMayEnd s c t w) ∧
  ∃ new, t.bp.queue = s.bp.queue.filter (fun w => decide (w ∈ t.bp.queue)) ++ new ∧
    (∀ w ∈ new, t.isMarked w = true ∧ w ∉ s.bp.queue) ∧ new.Pairwise (EntersBefore t) ∧
    ∀ v ∈ new, ∀ w, t.isMarked w = true → w ∉ t.bp.queue → EntersBefore t v w

/-- The port as command `c` takes `s` to `t`: a side access whose cycle goes on keeps it through every event but a host access and the
end of its own cycle, and one that is granted it anew is the first of those waiting, the landing, the text-line read, the LOAD read
(R51). -/
def PortMoves (s : State) (c : Instr) (t : State) : Prop :=
  (∀ x, s.bp.port = some x → t.sideWaits x = true → accessOf s c = none → c ≠ .landing → c ≠ .textLineReadAnswer →
    c ≠ .loadReadAnswer → t.bp.port = some x) ∧
  (t.bp.port = some .textRead → s.bp.port = some .textRead ∨ t.bp.queue = []) ∧
  (t.bp.port = some .loadRead → s.bp.port = some .loadRead ∨ (t.bp.queue = [] ∧ t.bc.textRequest = none))

/-- The clock, the trim and its accumulator keep their ranges (R129, R130). -/
def ClockInRange (s : State) : Prop :=
  s.cs.clock < 864000 ∧ s.cs.trimMagnitude < 32768 ∧ s.cs.trimAccumulator < 1048576

/-- The part state, the session, the running command and the ROLL walk agree (R134, R137, R139, R188, R189). -/
def ModesAgree (s : State) : Prop :=
  (s.cs.session ≠ .closed → s.isReady = true) ∧
  (s.cr.running = some .load ↔ ∃ run, s.cr.part = .loading run) ∧
  (s.cr.running = some .dark ↔ s.cs.session = .dimming) ∧
  (s.cr.running = some .roll ↔ s.cs.rollNext.isSome = true) ∧
  (s.cs.rollNext.isSome = true → s.isReady = true ∧ (s.cs.session = .closed ∨ s.cs.session = .dark))

/-- A link in its reset condition but for the frame that an accepted LOAD found in hand: its answer is to be discarded, and no frame of
its piece follows (R106). -/
def Link.Idle (k : Link) : Prop :=
  k = { Link.reset with work := k.work, frameOut := k.frameOut } ∧
  ∀ w, k.work = some w → w.discard = true ∧ w.fromPass = false ∧ (w.phase = .sending ∨ w.phase = .waiting) ∧
    ∀ r rest, w.piece = .symbolRow r rest → rest = []

/-- Outside READY the window matcher holds no window, and the boards, the tape and the terminals stand in their reset condition but for
the frames and the character that an accepted LOAD found going out (R27, R83, R106, R128, R152, R188). -/
def IdleOutsideReady (s : State) : Prop :=
  s.isReady = false →
    s.bp.windows = [] ∧
    s.bc = { BoardController.reset with links := s.bc.links } ∧ (∀ l, (s.link l).Idle) ∧
    s.tc = { TapeController.reset with charOut := s.tc.charOut } ∧
    s.pt = { TerminalController.reset with turn := s.pt.turn, frameOut := s.pt.frameOut } ∧
    ∀ u, s.pt.turn = some u → u.discard = true

/-- A board link within its bounds: refresh queue 32, blink list 16, failure count below 3 (R77, R86, R96). -/
def Link.Bounded (k : Link) : Prop := k.queue.length ≤ 32 ∧ k.blink.length ≤ 16 ∧ k.failures < 3

/-- A terminal record within its bounds: entry text 8, recall stack 4, alert queue 4, status text 8, miss count below 3 (R147, R150,
R162, R164, R184). -/
def Terminal.Bounded (r : Terminal) : Prop :=
  r.entry.length ≤ 8 ∧ r.recallStack.length ≤ 4 ∧ r.alerts.length ≤ 4 ∧ r.statusText.length = 8 ∧ r.misses < 3

/-- Every collection holds no more than the spec lets it: 96 prints, 8 key records of at most 8 characters, and the bounds of links
and terminals (R108, R166). -/
def CapacitiesKept (s : State) : Prop :=
  s.tc.queue.length ≤ 96 ∧ s.pt.keyQueue.length ≤ 8 ∧ (∀ r ∈ s.pt.keyQueue, r.text.length ≤ 8) ∧
  (∀ l, (s.link l).Bounded) ∧ (∀ t, (s.term t).Bounded)

/-- A terminal's watch list holds an entry for the slot. -/
def Terminal.Watches (r : Terminal) (n : Slot) : Prop := ∃ i e, vget r.watch i = some e ∧ e.slot = n

/-- No watch list holds a slot twice, and a terminal is in a slot's subscriber set exactly while its list holds the slot (R171,
R172). -/
def SubscribersAgree (s : State) : Prop :=
  (∀ t i j e f, vget (s.term t).watch i = some e → vget (s.term t).watch j = some f → e.slot = f.slot → i = j) ∧
  (∀ t n, t.val ∈ vget s.pt.subscribers n ↔ (s.term t).Watches n)

/-- A refresh queue holds no entry twice; a CELL names a placement of the link, and one whose row is not held as ROW (R86, R88). -/
def RefreshQueuesDistinct (s : State) : Prop :=
  ∀ l, (s.link l).queue.Nodup ∧
    ∀ p, RefreshEntry.cell p ∈ (s.link l).queue →
      ∃ q, s.bc.placements[p]? = some q ∧ q.link = l ∧ RefreshEntry.row q.row ∉ (s.link l).queue

/-- A blink list holds placements of its link, each at most once, with no more time left than a join gives; the cells with the least time
left stand at its oldest end, and the list of a link that is not ONLINE is empty (R77, R80, R81). -/
def BlinkListsDistinct (s : State) : Prop :=
  ∀ l, ((s.link l).blink.map BlinkCell.placement).Nodup ∧
    (∀ c ∈ (s.link l).blink, c.remaining ≤ s.bc.blinkTenths ∧ ∃ q, s.bc.placements[c.placement]? = some q ∧ q.link = l) ∧
    (s.link l).blink.Pairwise (fun c d => c.remaining ≤ d.remaining) ∧
    ((s.link l).state ≠ .online → (s.link l).blink = [])

/-- Every entry of the Side Write Queue names a word whose mark is set, and outside READY no write-back mark is set (R52, R53, R54, R58,
R63). -/
def EntriesAreMarked (s : State) : Prop :=
  (∀ w ∈ s.bp.queue, s.isMarked w = true) ∧ (s.isReady = false → s.qe.due = [])

/-- Every slot that a terminal's watch list, recall stack or response names is LISTED or HALTED (R158, R163, R164, R173, R175, R187). -/
def NamedSlotsListed (s : State) : Prop :=
  ∀ u n, ((s.term u).Watches n ∨ n ∈ (s.term u).recallStack ∨ (s.term u).response = .quote n ∨
    (s.term u).response = .message (.watching n)) → (s.slot n).state ≠ .unused

/-- Outside READY the attention mask is 0 (R197, R199). -/
def MaskClearOutsideReady (s : State) : Prop := s.isReady = false → s.cr.mask = 0

/-- The changes of session of Table 7-2 that an event other than reset may make. A DARK command on an idle floor goes through
DIMMING to DARK in one event (R140). -/
def sessionChange : Session → Session → Bool
  | .preOpen, .opened => true
  | .opened, .closed => true
  | .closed, .dimming => true
  | .closed, .dark => true
  | .dimming, .dark => true
  | .closed, .preOpen => true
  | .dark, .preOpen => true
  | _, _ => false

end Sys2Proof.Machine
end

