-- ==== Sys2Proof/TextRules.lean ====
section
/-!
DEFINITION. The rules of the texts as relations, free of the functions that compose them: digits, prices and changes, their fitting into
fields (1.6 to 1.8), prints (6.5), the lines of a terminal's screen (8.4), the layouts of the frames and the line form of a byte (11.4).
Claims about composed texts are stated in these terms.
-/

namespace Sys2Proof.Machine

/-- The codes of a text of ASCII characters (Table 11-11). -/
def codesOf (t : String) : Text := t.toList.map (fun c => BitVec.ofNat 8 c.toNat)

/-- The decimal digits of `n`, with no leading zeros. -/
def DecimalIs (n : Nat) (ds : Text) : Prop :=
  ds ≠ [] ∧ (∀ c ∈ ds, 0x30 ≤ c ∧ c ≤ 0x39) ∧ (1 < ds.length → ds.head? ≠ some 0x30) ∧
  ds.foldl (fun v c => 10 * v + (c.toNat - 0x30)) 0 = n

/-! ### Prices (R20) -/

/-- The whole digits of the price text of `t` ticks at base `d`: left out for a price below one dollar that has a fraction (R20 steps 2
and 3). -/
def WholeIs (d t : Nat) (whole : Text) : Prop :=
  (t / d = 0 ∧ t % d ≠ 0 → whole = []) ∧ (t / d ≠ 0 ∨ t % d = 0 → DecimalIs (t / d) whole)

/-- The fraction of a price text whose remainder is `n`: in lowest terms, one eighths glyph, or a space when whole digits stand before it,
the digits of the numerator and SL16 or SL32 (R20 steps 2 to 5). -/
def FractionIs (d n : Nat) (spaced : Bool) (fraction : Text) : Prop :=
  (n = 0 → fraction = []) ∧
  (n ≠ 0 → ∃ n' d', n' * d = n * d' ∧ Nat.gcd n' d' = 1 ∧
    ((d' = 2 ∨ d' = 4 ∨ d' = 8) ∧ (∃ k, k * d' = n' * 8 ∧ 1 ≤ k ∧ k ≤ 7 ∧ fraction = [BitVec.ofNat 8 (0x80 + k)]) ∨
     (d' = 16 ∨ d' = 32) ∧ ∃ ds, DecimalIs n' ds ∧
       fraction = (if spaced then [0x20] else []) ++ ds ++ [if d' = 16 then 0x88 else 0x89]))

/-- The price text of `t` ticks at base `d` (R20). -/
def PriceTextIs (d t : Nat) (text : Text) : Prop :=
  ∃ whole fraction, WholeIs d t whole ∧ FractionIs d (t % d) (decide (t / d ≠ 0)) fraction ∧ text = whole ++ fraction

/-! ### Fitting (R23, R25) -/

/-- A text shown right-aligned in a field of width `w` that holds it. -/
def RightAligned (w : Nat) (text shown : Text) : Prop := shown = List.replicate (w - text.length) 0x20 ++ text

/-- A text other than a name fitted into width `w`: whole when it fits; else its shorter form, when it has one and that fits; else `w`
characters "#" (R25). -/
def FittedInto (w : Nat) (text : Text) (shorter : Option Text) (shown : Text) : Prop :=
  (text.length ≤ w → RightAligned w text shown) ∧
  (w < text.length → ∀ c, shorter = some c → c.length ≤ w → RightAligned w c shown) ∧
  (w < text.length → (∀ c, shorter = some c → w < c.length) → shown = List.replicate w 0x23)

/-- A price text behind the characters `lead` (none, or the arrow of a change) fitted into width `w`: its shorter form has TRUNC in the
place of the fraction (R20, R21, R25 steps 1, 2 and 4). -/
def PriceFitted (lead : Text) (d t w : Nat) (shown : Text) : Prop :=
  ∃ whole fraction, WholeIs d t whole ∧ FractionIs d (t % d) (decide (t / d ≠ 0)) fraction ∧
    FittedInto w (lead ++ whole ++ fraction) (if t % d = 0 then none else some (lead ++ whole ++ [0x8A])) shown

/-- The volume text of `v` lots for a field of width `w`: the first of the digits, the K form and the M form that fits, else "#" (R23). -/
def VolumeFitted (v w : Nat) (shown : Text) : Prop :=
  (v = 0 → shown = List.replicate w 0x20) ∧
  (v ≠ 0 → ∃ ones kilo mega, DecimalIs v ones ∧ DecimalIs (v / 1000) kilo ∧ DecimalIs (v / 1000000) mega ∧
    (let kiloFits := 1000 ≤ v ∧ kilo.length + 1 ≤ w
     let megaFits := 1000000 ≤ v ∧ mega.length + 1 ≤ w
     (ones.length ≤ w → RightAligned w ones shown) ∧
     (w < ones.length → kiloFits → RightAligned w (kilo ++ [0x4B]) shown) ∧
     (w < ones.length → ¬ kiloFits → megaFits → RightAligned w (mega ++ [0x4D]) shown) ∧
     (w < ones.length → ¬ kiloFits → ¬ megaFits → shown = List.replicate w 0x23)))

/-! ### The fields of a record (R21 to R26) -/

/-- What a field of kind `k` and width `w` shows of a record (R20 to R25, Table 4-3). -/
def FieldShows (r : SlotRec) (w : Nat) (shown : Text) : FieldKind → Prop
  | .name => shown = r.name.take w ++ List.replicate (w - min w r.name.length) 0x20
  | .last =>
    (r.state = .halted → FittedInto w (codesOf "HALT") none shown) ∧
    (r.state ≠ .halted → r.last ≠ 0 → PriceFitted [] r.base.ticks r.last.toNat w shown) ∧
    (r.state ≠ .halted → r.last = 0 → r.close ≠ 0 → PriceFitted [] r.base.ticks r.close.toNat w shown) ∧
    (r.state ≠ .halted → r.last = 0 → r.close = 0 → shown = List.replicate w 0x20)
  | .change =>
    (r.last = 0 ∨ r.close = 0 → shown = List.replicate w 0x20) ∧
    (r.last ≠ 0 → r.close ≠ 0 →
      (r.last = r.close → FittedInto w (codesOf "UNC") none shown) ∧
      (r.close < r.last → PriceFitted [0x8B] r.base.ticks (r.last.toNat - r.close.toNat) w shown) ∧
      (r.last < r.close → PriceFitted [0x8D] r.base.ticks (r.close.toNat - r.last.toNat) w shown))
  | .high =>
    (r.high = 0 → shown = List.replicate w 0x20) ∧ (r.high ≠ 0 → PriceFitted [] r.base.ticks r.high.toNat w shown)
  | .low =>
    (r.low = 0 → shown = List.replicate w 0x20) ∧ (r.low ≠ 0 → PriceFitted [] r.base.ticks r.low.toNat w shown)
  | .volume => VolumeFitted r.volume.toNat w shown
  | .tick =>
    (r.direction = .none → shown = List.replicate w 0x20) ∧
    ∀ glyph, (r.direction, glyph) ∈ [(Direction.up, (0x8B : Byte)), (.zeroUp, 0x8C), (.down, 0x8D), (.zeroDown, 0x8E)] →
      FittedInto w [glyph] none shown

/-- The colour that a direction gives: green for UP and ZERO-UP, red for DOWN and ZERO-DOWN, white for NONE (R26). -/
def ColourOfDirection (d : Direction) (c : Colour) : Prop :=
  (d = .up ∨ d = .zeroUp → c = .green) ∧ (d = .down ∨ d = .zeroDown → c = .red) ∧ (d = .none → c = .white)

/-- The colour of a cell (R26). -/
def FieldColoured (r : SlotRec) (c : Colour) : FieldKind → Prop
  | .last =>
    (r.state = .halted ∨ r.last = 0 → c = .white) ∧ (r.state ≠ .halted → r.last ≠ 0 → ColourOfDirection r.direction c)
  | .tick => (r.state = .halted → c = .white) ∧ (r.state ≠ .halted → ColourOfDirection r.direction c)
  | .change =>
    (r.state = .halted ∨ r.last = 0 ∨ r.close = 0 ∨ r.last = r.close → c = .white) ∧
    (r.state ≠ .halted → r.close ≠ 0 → r.close < r.last → c = .green) ∧
    (r.state ≠ .halted → r.last ≠ 0 → r.last < r.close → c = .red)
  | .name | .high | .low | .volume => c = .white

/-- A record whose base is a base, or that holds no price (Table 1-2, R3). -/
def Priced (r : SlotRec) : Prop := r.base = .none → r.last = 0 ∧ r.close = 0 ∧ r.high = 0 ∧ r.low = 0

/-! ### Prints (R122, R123) -/

/-- The text of a TRADE print in a mode: OMIT, the name, a space, the size part, the price and three spaces. In SHORT a price whose tens
the memo gives is the last digit of its whole part and its fraction (R122, R123; that the fraction then has its space with a whole part
of 0 too is log entry 19). -/
def TradeTextIs (mode : TapeMode) (threshold : Nat) (memo : Option Nat) (r : SlotRec) (price : Word) (size : Option Word)
    (omitMark : Bool) (text : Text) : Prop :=
  ∃ sizeText price', text = (if omitMark then [0x8F] else []) ++ r.name ++ [0x20] ++ sizeText ++ price' ++ [0x20, 0x20, 0x20] ∧
    (let d := r.base.ticks
     let whole := price.toNat / d
     let shows (z : Word) := 2 ≤ z.toNat ∧ (mode = .full ∨ threshold ≤ z.toNat)
     let shortened := mode = .short ∧ ∃ m, memo = some m ∧ m / 10 = whole / 10
     (∀ z, size = some z → shows z → ∃ ds, DecimalIs z.toNat ds ∧ sizeText = ds ++ [0x90]) ∧
     ((∀ z, size = some z → ¬ shows z) → sizeText = []) ∧
     (shortened → ∃ fraction, FractionIs d (price.toNat % d) true fraction ∧
       price' = BitVec.ofNat 8 (0x30 + whole % 10) :: fraction) ∧
     (¬ shortened → PriceTextIs d price.toNat price'))

/-! ### The lines of a terminal's screen (R154, R156, R158) -/

/-- The `w` columns of a line from column `from'` on. -/
def columns (line : Text) (from' w : Nat) : Text := (line.drop from').take w

/-- The status line (R154, Table 8-3). -/
def StatusLineIs (s : State) (r : Terminal) (text : Text) : Prop :=
  text.length = 40 ∧
  (s.cs.session, columns text 0 8) ∈ [(Session.closed, codesOf "CLOSED  "), (.preOpen, codesOf "PRE-OPEN"),
    (.opened, codesOf "OPEN    "), (.dimming, codesOf "DIMMING "), (.dark, codesOf "DARK    ")] ∧
  columns text 8 1 = [0x20] ∧
  (s.cs.notSet = true → columns text 9 5 = codesOf "--:--") ∧
  (s.cs.notSet = false →
    (let hours := s.cs.clock / 600 / 60
     let minutes := s.cs.clock / 600 % 60
     columns text 9 5 = [BitVec.ofNat 8 (0x30 + hours / 10), BitVec.ofNat 8 (0x30 + hours % 10), 0x3A,
       BitVec.ofNat 8 (0x30 + minutes / 10), BitVec.ofNat 8 (0x30 + minutes % 10)])) ∧
  columns text 14 1 = [0x20] ∧
  (s.cs.feedStale = true → columns text 15 10 = codesOf "FEED STALE") ∧
  (s.cs.feedStale = false → s.tc.mode ≠ .full → columns text 15 10 = codesOf "TAPE LATE ") ∧
  (s.cs.feedStale = false → s.tc.mode = .full → columns text 15 10 = List.replicate 10 0x20) ∧
  columns text 25 7 = List.replicate 7 0x20 ∧ columns text 32 8 = r.statusText

/-- The columns 0 to 24 that a watch line and a QUOTE line have in common (Table 8-4). -/
def RecordLineBegins (r : SlotRec) (text : Text) : Prop :=
  text.length = 40 ∧ FieldShows r 4 (columns text 0 4) .name ∧ columns text 4 1 = [0x20] ∧
  FieldShows r 9 (columns text 5 9) .last ∧ FieldShows r 1 (columns text 14 1) .tick ∧ columns text 15 1 = [0x20] ∧
  FieldShows r 8 (columns text 16 8) .change ∧ columns text 24 1 = [0x20]

/-- A watch line of a record (R156, Table 8-4). -/
def WatchLineIs (r : SlotRec) (text : Text) : Prop :=
  RecordLineBegins r text ∧ FieldShows r 7 (columns text 25 7) .high ∧ columns text 32 1 = [0x20] ∧
  FieldShows r 7 (columns text 33 7) .low

/-- The QUOTE response line of a record (R158, Table 8-4). -/
def QuoteLineIs (r : SlotRec) (text : Text) : Prop :=
  RecordLineBegins r text ∧ columns text 25 2 = [0x56, 0x20] ∧ FieldShows r 10 (columns text 27 10) .volume ∧
  columns text 37 3 = List.replicate 3 0x20

/-- The texts of the messages (R158). -/
def MessageIs (s : State) (m : Message) (text : Text) : Prop :=
  (m, text) ∈ [(Message.noSymbol, codesOf "NO SYMBOL"), (.onList, codesOf "ON LIST"), (.listFull, codesOf "LIST FULL"),
    (.notOnList, codesOf "NOT ON LIST"), (.pinned, codesOf "PINNED"), (.wait, codesOf "WAIT"), (.noEntry, codesOf "NO ENTRY"),
    (.noRecall, codesOf "NO RECALL"), (.sent, codesOf "SENT")] ∨
  ∃ n, m = .watching n ∧ text = codesOf "WATCHING " ++ (s.slot n).name

/-- The response line (R158). -/
def ResponseLineIs (s : State) (r : Terminal) (text : Text) : Prop :=
  (r.response = .empty → text = List.replicate 40 0x20) ∧
  (r.response = .entry → text = 0x3E :: r.entry ++ List.replicate (39 - r.entry.length) 0x20) ∧
  (∀ n, r.response = .quote n → QuoteLineIs (s.slot n) text) ∧
  (∀ m, r.response = .message m → ∃ words, MessageIs s m words ∧ text = words ++ List.replicate (40 - words.length) 0x20)

/-- The slot whose record a line shows, when it shows one. -/
def ShownSlot (r : Terminal) (line : Nat) (n : Slot) : Prop :=
  (∃ (i : Fin 12) (e : WatchEntry), line = i.val + 1 ∧ vget r.watch i = some e ∧ e.slot = n) ∨
  (line = 13 ∧ (r.response = .quote n ∨ r.response = .message (.watching n)))

/-- The 40 characters of a line (Table 8-2). -/
def LineIs (s : State) (r : Terminal) (line : Nat) (text : Text) : Prop :=
  (line = 0 → StatusLineIs s r text) ∧
  (∀ i : Fin 12, line = i.val + 1 → vget r.watch i = none → text = List.replicate 40 0x20) ∧
  (∀ (i : Fin 12) e, line = i.val + 1 → vget r.watch i = some e → WatchLineIs (s.slot e.slot) text) ∧
  (line = 13 → ResponseLineIs s r text)

/-! ### Frames (11.4) -/

/-- The check byte brings the sum of a frame's bytes, itself included, and 5AH to a multiple of 256 (R204). -/
def CheckGood (bytes : Text) : Prop := ((bytes.map BitVec.toNat).sum + 0x5A) % 256 = 0

/-- A board frame: row and erase, column, attributes and length, the characters, and the check byte (Table 11-9). -/
def BoardFrameIs (e : Erase) (row column : Nat) (blink : Bool) (c : Colour) (chars bytes : Text) : Prop :=
  (∃ b0 b1 b2 b3 check, bytes = b0 :: b1 :: b2 :: b3 :: chars ++ [check] ∧
    b0.toNat % 32 = row ∧ (e, b0.toNat / 32) ∈ [(Erase.none, 0), (.row, 1), (.all, 2)] ∧ b1.toNat = column ∧
    (c, b2.toNat % 4) ∈ [(Colour.white, 0), (.green, 1), (.red, 2)] ∧ b2.toNat / 4 = flagBit blink ∧ b3.toNat = chars.length) ∧
  CheckGood bytes

/-- A terminal frame that carries a line (Table 11-10). -/
def TerminalFrameIs (u : TermId) (line : Nat) (chars : Text) (reversed bell clear : Bool) (bytes : Text) : Prop :=
  (∃ b0 b1 b2 check, bytes = b0 :: b1 :: b2 :: chars ++ [check] ∧ b0.toNat = u.val ∧ b1.toNat = line ∧
    b2.toNat = flagBit reversed + 2 * flagBit bell + 4 * flagBit clear) ∧
  CheckGood bytes

/-- The line form of bytes: each a start bit, its eight data bits from bit 0 upward and a stop bit, without a gap (R204). -/
def OnLineIs (bytes : Text) (symbols : List LineSymbol) : Prop :=
  symbols.length = 10 * bytes.length ∧
  ∀ i b, bytes[i]? = some b →
    symbols[10 * i]? = some .start ∧ symbols[10 * i + 9]? = some .stop ∧
    ∀ j, j < 8 → symbols[10 * i + 1 + j]? = some (.data (b.getLsbD j))

end Sys2Proof.Machine
end

