-- ==== Sys2Proof/Certificates/Slice0/Obligations.lean ====
section
/-!
DEFINITION. The statements for the provers.
-/

section

open Sys2Proof Sys2Proof.Machine

/-! ### The machine -/

/-- A step takes the command at the front of the queue; with an empty queue the part idles, which is the model's choice (log entry
12). -/
def Obligations.StepTakesFront : Prop :=
  (∀ c rest (s : State), step (s.setPending (c :: rest)) = exec c (s.setPending rest)) ∧
  (∀ s : State, s.pending = [] → step s = .next s)

/-- The values right after the release of RESET: the report words of Table 10-6, all of them dirty with the first eight in the Side
Write Queue (R62) and the port granted to the landing of the first (R51), and the condition of every slot (R3). RESET_RELEASE takes the
anchor from the straps and the line levels from the pins, marks every report word, enters the first eight and grants the port; nothing
else changes (R50, R51, R62, R141). -/
def Obligations.ResetValues : Prop :=
  (reportOffsets.map (reportValue State.reset) =
    [0, 0, 0, 0, 0x2020, 0x2020, 0x2020, 0x2020, 0xFFFF, 0x8000, 0, 0, 0, 0, 0, 0, 0, 0] ∧
  State.reset.cr.dirty = reportOffsets ∧
  State.reset.bp.queue = [6, 7, 8, 9, 10, 11, 12, 13].map SideWord.report ∧
  State.reset.bp.port = some .landing ∧
  ∀ n, vget State.reset.qe.pendingSize n = none ∧
    State.reset.slot n =
      { state := .unused, name := [], base := .none, close := 0, last := 0, prior := 0, direction := .none, high := 0,
        low := 0, volume := 0, stamp := none, newHigh := false, newLow := false, lastSize := none }) ∧
  ∀ s straps levels, s.resetPin = true → s.bp.queue = [] → s.bp.held = none → s.bp.port = none → s.qe.due = [] →
    exec (.resetRelease straps levels) s = .next { s with
      resetPin := false
      bp := { s.bp with
        anchor := BitVec.ofNat 18 (straps.toNat * 0x4000)
        queue := [6, 7, 8, 9, 10, 11, 12, 13].map SideWord.report
        port := some .landing }
      cs := { s.cs with
        lineLevels := #v[levels.getLsbD 0, levels.getLsbD 1, levels.getLsbD 2, levels.getLsbD 3] }
      cr := { s.cr with dirty := reportOffsets } }

/-- Every invariant of the model holds right after reset. -/
def Obligations.ResetMeetsInvariants : Prop :=
  MemoryCanonical State.reset ∧ SideQueueLegal State.reset ∧ MarksEntered State.reset ∧ ClockInRange State.reset ∧
  ModesAgree State.reset ∧ IdleOutsideReady State.reset ∧ CapacitiesKept State.reset ∧ SubscribersAgree State.reset ∧
  AnchorFits State.reset ∧ SetsOrdered State.reset ∧ PortKept State.reset ∧ RefreshQueuesDistinct State.reset ∧
  BlinkListsDistinct State.reset ∧ EntriesAreMarked State.reset ∧ NamedSlotsListed State.reset ∧
  MaskClearOutsideReady State.reset

/-- Every step keeps memory in its canonical form. -/
def Obligations.MemoryStaysCanonical : Prop := ∀ s t, MemoryCanonical s → step s = .next t → MemoryCanonical t

/-- Every step keeps the Side Write Queue at 8 entries or fewer, no two naming the same word (R52), and leaves no set mark without an
entry while a place is free (R53); and it leaves the port granted exactly while a side access waits (R51). Every command but
RESET_ASSERT, and but a host access or the end of a side cycle that finds an access held, leaves each mark set and each entry queued but for the head at its landing, the word of a host write, and the
write-back words of a LOAD that is accepted or ends (R54, R58, R63); what remains of the queue keeps its order, and new entries stand
behind it in the order of R53. A side access whose cycle goes on keeps the port whatever marks enter, and the port that falls free goes to
the landing, the text-line read or the LOAD read, in this order (R51). That a cycle begins with the grant, and that the row of a host
access says that the port was free for it, is the model's choice (DESIGN CHOICE, log entry 6). -/
def Obligations.SideQueueStaysLegal : Prop :=
  (∀ s t, SideQueueLegal s → MarksEntered s → step s = .next t → SideQueueLegal t ∧ MarksEntered t) ∧
  (∀ s t, PortKept s → step s = .next t → PortKept t) ∧
  (∀ c s t, s.resetPin = false →
    s.bp.held = none ∨ (accessOf s c = none ∧ c ≠ .landing ∧ c ≠ .textLineReadAnswer ∧ c ≠ .loadReadAnswer) →
    SideQueueLegal s → SetsOrdered s → (∀ b, c ≠ .resetAssert b) → exec c s = .next t → MarksMove s c t ∧ PortMoves s c t)

/-- Every step keeps the clock below 864,000 tenths, the trim within 15 bits and its accumulator within 20 bits (R129, R130), and
the setup block inside the address space (R50). -/
def Obligations.ClockAndAnchorStayInRange : Prop :=
  ∀ s t, ClockInRange s → AnchorFits s → step s = .next t → ClockInRange t ∧ AnchorFits t

/-- Every step keeps the part state, the session, the running command and the ROLL walk in agreement: a session other than CLOSED
only in READY, LOAD running exactly in LOADING, DARK exactly in DIMMING, ROLL exactly while the walk runs (R134, R137, R139, R188). Every
step keeps the attention mask 0 outside READY, so that ATTN is deasserted there (R197, R199). -/
def Obligations.ModesStayAgreed : Prop :=
  (∀ s t, ModesAgree s → step s = .next t → ModesAgree t) ∧
  (∀ s t, MaskClearOutsideReady s → step s = .next t → MaskClearOutsideReady t) ∧
  ∀ s, MaskClearOutsideReady s → s.isReady = false → s.attn = false

/-- Outside READY no window is active, and the boards, the tape and the terminals stand in their reset condition, no link used, the pace
timer stopped and the loop begun by nothing, but for what was going out when a LOAD was accepted; every step keeps it so (R27, R83, R106,
R128, R152, R188). Every entry of the Side Write Queue goes on naming a word whose mark is set, and outside READY no write-back mark is
set, so that no entry names a write-back word (R52, R53, R54, R58, R63). -/
def Obligations.StaysIdleOutsideReady : Prop :=
  (∀ s t, ModesAgree s → IdleOutsideReady s → step s = .next t → IdleOutsideReady t) ∧
  ∀ s t, ModesAgree s → IdleOutsideReady s → SideQueueLegal s → SetsOrdered s → EntriesAreMarked s → step s = .next t →
    EntriesAreMarked t ∧ (t.isReady = false → ∀ m, SideWord.writeBack m ∉ t.bp.queue)

/-- Every step keeps each collection within its bound: 96 prints, 8 key records of at most 8 characters, 32 refresh entries, 16
blinking cells, 4 alerts, 4 recall slots, 8 entry characters, fewer than 3 failures and misses (R77, R86, R96, R108, R150, R162,
R164, R166, R184); and it keeps each ordered set in ascending order with no member twice: dirty marks, due marks, stale rows, dirty lines
and subscriber sets, so that the head of one is its lowest member (R52, R53, R86, R90, R153, R172). A refresh queue goes on holding
placements of its link, no cell twice and none whose row it holds as ROW (R86), and a blink list holding placements of its link, each once,
those with the least time left at the oldest end, and none while the link is not ONLINE (R77, R80, R81). -/
def Obligations.CapacitiesStayKept : Prop :=
  (∀ s t, CapacitiesKept s → step s = .next t → CapacitiesKept t) ∧
  (∀ s t, SetsOrdered s → step s = .next t → SetsOrdered t) ∧
  (∀ s t, RefreshQueuesDistinct s → step s = .next t → RefreshQueuesDistinct t) ∧
  ∀ s t, BlinkListsDistinct s → step s = .next t → BlinkListsDistinct t

/-- Every step keeps the subscriber set of each slot equal to the terminals whose watch lists hold the slot, and no list holds a slot
twice (R171, R172). Every slot that a watch list, a recall stack or a response names stays LISTED or HALTED (R158, R164, R187). -/
def Obligations.SubscribersStayAgreed : Prop :=
  (∀ s t, SubscribersAgree s → step s = .next t → SubscribersAgree t) ∧
  ∀ s t, ModesAgree s → IdleOutsideReady s → NamedSlotsListed s → step s = .next t → NamedSlotsListed t

/-- The session changes only as Table 7-2 gives, or to CLOSED at reset. -/
def Obligations.SessionFollowsTable : Prop :=
  ∀ c s t, ModesAgree s → s.bp.held = none → exec c s = .next t → t.cs.session ≠ s.cs.session →
    sessionChange s.cs.session t.cs.session = true ∨ ((∃ b, c = .resetAssert b) ∧ t.cs.session = .closed)

/-- A report word has the layout of Table 11-6, its value that of the part as it stands (R132, R202, R203), and one whose value a command
changes is dirty afterwards, unless the command is RESET_ASSERT (R202). What the terminal and length bits of MAILBOX TAG show while the
mailbox is EMPTY is a free value (log entry 13), and of a count too wide for its word nothing is said. -/
def Obligations.ChangedReportWordsAreDirty : Prop :=
  (∀ s o, o ∈ reportOffsets → ReportIs s (reportValue s o) o) ∧
  ∀ c s t o, s.resetPin = false → s.bp.held = none → (∀ b, c ≠ .resetAssert b) → exec c s = .next t → o ∈ reportOffsets →
    reportValue t o ≠ reportValue s o → o ∈ t.cr.dirty

/-- While RESET is asserted a host access reaches memory and no block (R61, R49). That every other command but the two of the RESET pin
leaves the part as it is is the model's reading of R61 (DEDUCED, log entry 11). -/
def Obligations.ResetHoldsThePart : Prop :=
  ∀ c s, s.resetPin = true → (∀ b, c ≠ .resetAssert b) → (∀ x y, c ≠ .resetRelease x y) →
    exec c s = .next (match accessOf s c with
      | some (.write a d lanes) => s.setMem (s.mem.writeWord a.toNat d lanes)
      | some (.read a) => s.setBp { s.bp with hostData := s.mem.readWord a.toNat }
      | none => s)

/-- With no access held, a command leaves every byte of memory as it was but those of its own host write, or those of the word a
landing writes (R49, R54). -/
def Obligations.MemoryFrame : Prop :=
  ∀ c s t k, s.bp.held = none → exec c s = .next t → k ∉ storedKeys s c → t.mem.readByte k = s.mem.readByte k

/-- A host access granted at once reaches memory: a write stores exactly the byte lanes it carries, a read returns memory's word and
stores nothing (R49). -/
def Obligations.HostAccessReachesMemory : Prop :=
  (∀ c s a d lanes, accessOf s c = some (.write a d lanes) → (∀ wait, c ≠ .arbitrationWait wait) → PortFree s →
    MemoryCanonical s →
    ∃ t, exec c s = .next t ∧ t.mem = s.mem.writeWord a.toNat d lanes ∧
      (lanes ≠ .low → t.mem.readByte (2 * a.toNat) = hiByte d) ∧
      (lanes ≠ .high → t.mem.readByte (2 * a.toNat + 1) = loByte d) ∧
      ∀ k, k ∉ laneKeys a.toNat lanes → t.mem.readByte k = s.mem.readByte k) ∧
  (∀ c s a, accessOf s c = some (.read a) → (∀ wait, c ≠ .arbitrationWait wait) → PortFree s →
    s.readOwed (.read a) = false →
    ∃ t, exec c s = .next t ∧ t.mem = s.mem ∧ t.bp.hostData = s.mem.readWord a.toNat)

/-! ### Reset and the memory port -/

/-- RESET_ASSERT takes every block to its reset values, stops all side traffic and deasserts HOLD and ATTN; a landing whose cycle had
begun completes, and a held access goes to memory (R61). A landing had begun when it has the port and a host access waits for the end of
its cycle, or the command's operand says so; with the port another's, or free, none had. That the operand tells it where no access waits
is the model's choice (DESIGN CHOICE, log entry 27), and so is that the completed landing writes its source's value as it stands at RESET_ASSERT
(DESIGN CHOICE, log entry 39). -/
def Obligations.ResetAssertClearsThePart : Prop :=
  ∀ s landing, ∃ t, exec (.resetAssert landing) s = .next t ∧
    t = { s with
      resetPin := true
      mem := t.mem
      bp := { s.bp with windows := [], queue := [], held := none, port := none, hostData := t.bp.hostData }
      qe := .reset
      bc := .reset
      tc := .reset
      cs := { ClockSession.reset with lineLevels := s.cs.lineLevels }
      pt := .reset
      cr := .reset } ∧
    t.hold = false ∧ t.attn = false ∧
    (let begun := s.bp.port = some .landing ∧ (landing = true ∨ ∃ acc, s.bp.held = some ⟨acc, .arbitration⟩)
     ∀ m, (¬ begun → m = s.mem) →
       (begun → ∃ w q a, s.bp.queue = w :: q ∧ sideWordAddr s w = some a ∧ m = s.mem.writeWord a (sideWordValue s w) .both) →
       (s.bp.held = none → t.mem = m ∧ t.bp.hostData = s.bp.hostData) ∧
       (∀ a d lanes cause, s.bp.held = some ⟨.write a d lanes, cause⟩ →
         t.mem = m.writeWord a.toNat d lanes ∧ t.bp.hostData = s.bp.hostData) ∧
       (∀ a cause, s.bp.held = some ⟨.read a, cause⟩ → t.mem = m ∧ t.bp.hostData = m.readWord a.toNat))

/-- HOST_ACCESS_HOLD: an access presented to a full Side Write Queue is held, with HOLD asserted, the port the landing's and nothing else
changed; the next landing releases it: a write reaches memory after the word that lands, and a read of a word that is owed no landing
returns memory as the landing leaves it, while a read of a word that is still owed one goes on being held for that word (R55, R56, R57).
That a landing writes its source's value as it stands at the LANDING command is the model's choice (DESIGN CHOICE, log entry 39). -/
def Obligations.FullQueueHoldsAccess : Prop :=
  (∀ s acc, s.resetPin = false → s.bp.held = none → 8 ≤ s.bp.queue.length →
    ∃ t, exec (.hostAccessHold acc) s = .next t ∧
      t = { s with bp := { s.bp with held := some ⟨acc, .fullQueue⟩, port := some .landing } } ∧ t.hold = true) ∧
  (∀ s a d lanes cause w q b, s.resetPin = false → s.bp.port = some .landing →
    s.bp.held = some ⟨.write a d lanes, cause⟩ → s.bp.queue = w :: q → sideWordAddr s w = some b →
    ∃ t, exec .landing s = .next t ∧ t.bp.held = none ∧ t.hold = false ∧
      t.mem = (s.mem.writeWord b (sideWordValue s w) .both).writeWord a.toNat d lanes) ∧
  (∀ s a cause w q b, s.resetPin = false → s.bp.port = some .landing →
    s.bp.held = some ⟨.read a, cause⟩ → s.bp.queue = w :: q → sideWordAddr s w = some b →
    (∀ v, sideWordAt s a = some v → v ∉ s.bp.queue ∧ s.isMarked v = false) →
    ∃ t, exec .landing s = .next t ∧ t.bp.held = none ∧ t.hold = false ∧
      t.mem = s.mem.writeWord b (sideWordValue s w) .both ∧ t.bp.hostData = t.mem.readWord a.toNat) ∧
  (∀ s a cause w q b v, s.resetPin = false → s.bp.port = some .landing →
    s.bp.held = some ⟨.read a, cause⟩ → s.bp.queue = w :: q → sideWordAddr s w = some b → sideWordAt s a = some v → v ≠ w →
    v ∈ q ∨ (∃ o, v = .report o ∧ o ∈ s.cr.dirty) →
    ∃ t, exec .landing s = .next t ∧ t.hold = true ∧ t.bp.held = some ⟨.read a, .readWord⟩ ∧ t.bp.port = some .landing ∧
      t.mem = s.mem.writeWord b (sideWordValue s w) .both ∧ t.bp.hostData = s.bp.hostData)

/-- HELD_READ: a read of a word owed a landing is held and returns nothing yet; a dirty report word without an entry takes the next
free place (R56, R57). The landing that writes the word of a held read grants the read, which returns the value that landed (R54, R56);
when the word is MAILBOX SLOT, CR acts on the read only then: a FULL mailbox is released with its sequence number kept and the next key
record moves in, and an EMPTY one is left as it is (R56, R201). So it is of a read whose hold was first that of R51 or R55. That the value
that lands is the source's as it stands at the LANDING command is the model's choice (DESIGN CHOICE, log entry 39). -/
def Obligations.OwedReadIsHeld : Prop :=
  (∀ s a, PortFree s → s.readOwed (.read a) = true →
    ∃ t, exec (.heldRead a) s = .next t ∧ t.hold = true ∧ t.bp.port = some .landing ∧
      SameButMarks { s with bp := { s.bp with held := some ⟨.read a, .readWord⟩ } } t ∧ t.cr.dirty = s.cr.dirty ∧
      s.bp.queue <+: t.bp.queue ∧
      ∀ o, sideWordAt s a = some (.report o) → SideWord.report o ∉ s.bp.queue →
        s.bp.queue ++ [.report o] <+: t.bp.queue) ∧
  (∀ s a cause w q, s.resetPin = false → MemoryCanonical s → s.bp.port = some .landing →
    s.bp.held = some ⟨.read a, cause⟩ → s.bp.queue = w :: q → w ∉ q → sideWordAt s a = some w →
    sideWordAddr s w = some a.toNat → target s a ≠ .report 14 →
    ∃ t, exec .landing s = .next t ∧ t.bp.held = none ∧ t.hold = false ∧ t.bp.hostData = sideWordValue s w ∧
      t.mem = s.mem.writeWord a.toNat (sideWordValue s w) .both ∧ w ∉ t.bp.queue ∧ t.isMarked w = false) ∧
  (∀ s a cause q, s.resetPin = false → MemoryCanonical s → s.bp.port = some .landing →
    s.bp.held = some ⟨.read a, cause⟩ → s.bp.queue = .report 14 :: q → SideWord.report 14 ∉ q → target s a = .report 14 →
    ∃ t, exec .landing s = .next t ∧ t.bp.held = none ∧ t.hold = false ∧ t.bp.hostData = s.cr.mailSlot ∧
      t.mem = s.mem.writeWord a.toNat s.cr.mailSlot .both ∧
      (s.cr.mailbox = none → t.cr = { s.cr with dirty := t.cr.dirty } ∧ t.pt = s.pt) ∧
      (∀ r, s.cr.mailbox = some r → s.pt.keyQueue = [] →
        t.cr.mailbox = none ∧ t.cr.sequence = s.cr.sequence ∧ t.cr.mailSlot = s.cr.mailSlot ∧ t.cr.flags = s.cr.flags ∧
        9 ∈ t.cr.dirty ∧ t.pt = s.pt) ∧
      ∀ r r' rest, s.cr.mailbox = some r → s.pt.keyQueue = r' :: rest →
        t.cr.mailbox = some r' ∧ t.cr.sequence = s.cr.sequence + 1 ∧ t.cr.flags = s.cr.flags ||| 0x0001 ∧
        AllDirty [9, 10, 11, 12, 13, 14, 22] t ∧ t.pt = { s.pt with keyQueue := rest })

/-- ARBITRATION_WAIT: an access presented while a side access has the port is held for the rest of that one memory cycle. While it waits
no other side access takes the port, and the end of the cycle grants it (R51, R57); an access that finds the queue full besides, in a
read's cycle, waits on for the landing that then has the port (R55), and a read of a word that is owed a landing goes on being held for
that word (R56). With no side access having the port, the command is taken as any other
access is. That the cycle of the side access which has the port is the one waited for is the model's choice (DESIGN CHOICE, log entry
6). That LANDING, TEXT_LINE_READ_ANSWER or LOAD_READ_ANSWER, commanded while another has the port or none has it, changes nothing, an access
held or not, is the model's reading (DEDUCED, log entry 5). -/
def Obligations.ArbitrationHoldsAccess : Prop :=
  (∀ s acc side, PortFree s → s.bp.port = some side → s.sideWaits side = true →
    ∃ t, exec (.arbitrationWait acc) s = .next t ∧ t.hold = true ∧ t.cr.dirty = s.cr.dirty ∧ t.bp.port = some side ∧
      SameButMarks { s with bp := { s.bp with held := some ⟨acc, .arbitration⟩ } } t) ∧
  (∀ s acc side, s.resetPin = false → s.bp.held = none → 8 ≤ s.bp.queue.length → s.bp.port = some side →
    s.sideWaits side = true →
    exec (.arbitrationWait acc) s = .next { s with
      bp := { s.bp with held := some ⟨acc, if side = .landing then .arbitration else .fullQueue⟩ } }) ∧
  (∀ s acc, PortFree s → s.bp.port = none → exec (.arbitrationWait acc) s = exec (.hostAccessHold acc) s) ∧
  (∀ s, s.resetPin = false →
    (s.bp.port ≠ some .landing → exec .landing s = .next s) ∧
    (s.bp.port ≠ some .textRead → exec .textLineReadAnswer s = .next s) ∧
    (s.bp.port ≠ some .loadRead → exec .loadReadAnswer s = .next s)) ∧
  (∀ s a d lanes l, s.resetPin = false → s.bp.port = some .textRead → s.bp.held = some ⟨.write a d lanes, .arbitration⟩ →
    s.bc.textRequest = some l →
    ∃ t, exec .textLineReadAnswer s = .next t ∧ t.bp.held = none ∧ t.hold = false ∧
      t.mem = s.mem.writeWord a.toNat d lanes ∧ (target s a = .plain → t.bc.textLast = l)) ∧
  (∀ s a d lanes run, s.resetPin = false → s.bp.port = some .loadRead → s.bp.held = some ⟨.write a d lanes, .arbitration⟩ →
    s.cr.part = .loading run → run.failed = none → run.phase = .configuration → run.words.length < 99 →
    ∃ t, exec .loadReadAnswer s = .next t ∧ t.bp.held = none ∧ t.hold = false ∧ t.mem = s.mem.writeWord a.toNat d lanes ∧
      (target s a = .plain → t.cr.part = .loading { run with
        words := run.words ++ [s.mem.readWord (s.bp.anchor.toNat + 24 + run.words.length)] })) ∧
  (∀ s a l, s.resetPin = false → s.bp.port = some .textRead → s.bp.held = some ⟨.read a, .arbitration⟩ →
    s.bc.textRequest = some l →
    ((∀ v, sideWordAt s a = some v → v ∉ s.bp.queue ∧ s.isMarked v = false) →
      ∃ t, exec .textLineReadAnswer s = .next t ∧ t.bp.held = none ∧ t.hold = false ∧ t.mem = s.mem ∧
        t.bp.hostData = s.mem.readWord a.toNat ∧ t.bc.textLast = l) ∧
    (∀ v, sideWordAt s a = some v → v ∈ s.bp.queue ∨ (∃ o, v = .report o ∧ o ∈ s.cr.dirty) →
      ∃ t, exec .textLineReadAnswer s = .next t ∧ t.hold = true ∧ t.bp.held = some ⟨.read a, .readWord⟩ ∧
        t.bp.port = some .landing ∧ t.mem = s.mem ∧ t.bp.hostData = s.bp.hostData ∧ t.bc.textLast = l)) ∧
  (∀ s a run, s.resetPin = false → s.bp.port = some .loadRead → s.bp.held = some ⟨.read a, .arbitration⟩ →
    s.cr.part = .loading run → run.failed = none → run.phase = .configuration → run.words.length < 99 →
    (let words := run.words ++ [s.mem.readWord (s.bp.anchor.toNat + 24 + run.words.length)]
     ((∀ v, sideWordAt s a = some v → v ∉ s.bp.queue ∧ s.isMarked v = false) →
       ∃ t, exec .loadReadAnswer s = .next t ∧ t.bp.held = none ∧ t.hold = false ∧ t.mem = s.mem ∧
         t.bp.hostData = s.mem.readWord a.toNat ∧ t.cr.part = .loading { run with words := words }) ∧
     (∀ v, sideWordAt s a = some v → v ∈ s.bp.queue ∨ (∃ o, v = .report o ∧ o ∈ s.cr.dirty) →
       ∃ t, exec .loadReadAnswer s = .next t ∧ t.hold = true ∧ t.bp.held = some ⟨.read a, .readWord⟩ ∧
         t.bp.port = some .landing ∧ t.mem = s.mem ∧ t.bp.hostData = s.bp.hostData ∧
         t.cr.part = .loading { run with words := words }))) ∧
  (∀ s acc l, s.resetPin = false → s.bp.port = some .textRead → s.bp.held = some ⟨acc, .fullQueue⟩ →
    8 ≤ s.bp.queue.length → s.bc.textRequest = some l →
    ∃ t, exec .textLineReadAnswer s = .next t ∧ t.hold = true ∧ t.bp.held = some ⟨acc, .fullQueue⟩ ∧
      t.bp.port = some .landing ∧ t.mem = s.mem)

/-- LANDING: the head entry's source value is written to its word, the entry leaves, its mark alone is cleared, and the freed place
is open to the next mark (R54). The value of a report word is CR's (Table 11-6), that of a write-back word is computed from the slot's
record as it stands: the change, 8000H when absent and else held to −32767 to +32767, the high, the low, the flags and the two volume words
(R18, R19, R41, R52). The word lies at its offset in the setup block or at its place in the window that covers its slot (R30, R50). That
the source is read in the event of the LANDING command, the end of the memory cycle, and not in the earlier one that granted the port, is
the model's choice (DESIGN CHOICE, log entry 39). -/
def Obligations.LandingWritesHead : Prop :=
  (∀ s w, EntryLies s w (sideWordAddr s w)) ∧
  (∀ s o, sideWordValue s (.report o) = reportValue s o) ∧
  (∀ s m, WriteBackIs (s.slot m.slot) (sideWordValue s (.writeBack m)) m.field) ∧
  ∀ s w q a, s.resetPin = false → s.bp.held = none → s.bp.port = some .landing → s.bp.queue = w :: q → w ∉ q →
    sideWordAddr s w = some a →
    ∃ t, exec .landing s = .next t ∧ t.mem = s.mem.writeWord a (sideWordValue s w) .both ∧
      (MemoryCanonical s → t.mem.readWord a = sideWordValue s w) ∧
      q <+: t.bp.queue ∧ w ∉ t.bp.queue ∧ t.isMarked w = false ∧ (∀ v, v ≠ w → t.isMarked v = s.isMarked v) ∧
      MarksEntered t ∧
      SameButMarks { s with mem := t.mem, qe := { s.qe with due := t.qe.due } } t

/-- HOST_WRITE: a write to a report or write-back word whose mark is set clears the mark and takes the word's entry from the queue;
to one whose mark is clear, or to a word that no block watches, it changes memory alone (R37, R58). -/
def Obligations.HostWriteTakesEntry : Prop :=
  ∀ s a d lanes, PortFree s →
    (∀ w, sideWordAt s a = some w → s.isMarked w = true →
      ∃ t, exec (.hostWrite a d lanes) s = .next t ∧ t.isMarked w = false ∧ w ∉ t.bp.queue ∧
        (∀ v, v ≠ w → t.isMarked v = s.isMarked v) ∧ s.bp.queue.filter (fun v => v ≠ w) <+: t.bp.queue ∧
        SameButMarks { s with mem := s.mem.writeWord a.toNat d lanes, qe := { s.qe with due := t.qe.due } } t) ∧
    ((∀ w, sideWordAt s a = some w → s.isMarked w = false) →
      target s a = .plain ∨ (∃ o, target s a = .report o) ∨
        (∃ i n f, target s a = .quote i n f ∧ f ≠ .last ∧ f ≠ .size ∧ f ≠ .close) →
      ∃ t, exec (.hostWrite a d lanes) s = .next t ∧ t.cr.dirty = s.cr.dirty ∧ s.bp.queue <+: t.bp.queue ∧
        SameButMarks { s with mem := s.mem.writeWord a.toNat d lanes } t)

/-! ### Watched writes and slot commands -/

/-- CAPTURE: a full write of a nonzero value to the LAST field of a LISTED slot in OPEN changes the slot's record as R7 to R10 give,
takes the pending size, counts down the window (R39), restarts the feed monitor (R40), sets the due marks of the changed words (R42)
and hands one TRADE notice, its changed set that of Table 1-6, to the boards, the tape and the terminals; nothing else changes (R16,
R33, R44). The word an address names is that of the setup block, or while READY that of the window it lies in, decoded by the window's
base, stride, first slot and offsets (R28, R30, R31, R32, R50); the word with a mark is the report or write-back word so named (R52). -/
def Obligations.CaptureTakesTrade : Prop :=
  (∀ s a, AddressNames s a (target s a)) ∧
  (∀ s a w, sideWordAt s a = some w ↔ (∃ o, w = .report o ∧ target s a = .report o) ∨
    ∃ i n f, w = .writeBack ⟨n, f⟩ ∧ target s a = .quote i n (.writeBack f)) ∧
  ∀ s a v w n, PortFree s → target s a = .quote w n .last → (s.slot n).state = .listed → s.cs.session = .opened → v ≠ 0 →
    ∃ t, exec (.capture a v) s = .next t ∧
      (let r := s.slot n
       let z := vget s.qe.pendingSize n
       let u := t.slot n
       let c := vget s.qe.countdowns w
       u.last = v ∧ u.prior = r.last ∧ u.lastSize = z ∧ u.stamp = some s.cs.clock ∧
       u.state = r.state ∧ u.name = r.name ∧ u.base = r.base ∧ u.close = r.close ∧
       (r.last ≠ 0 → r.last < v → u.direction = .up) ∧
       (r.last ≠ 0 → v < r.last → u.direction = .down) ∧
       (r.last = v → (r.direction = .up ∨ r.direction = .zeroUp) → u.direction = .zeroUp) ∧
       (r.last = v → (r.direction = .down ∨ r.direction = .zeroDown) → u.direction = .zeroDown) ∧
       (r.last = v → r.direction = .none → u.direction = .none) ∧
       (r.last = 0 → r.close ≠ 0 → r.close < v → u.direction = .up) ∧
       (r.last = 0 → r.close ≠ 0 → v < r.close → u.direction = .down) ∧
       (r.last = 0 → (r.close = 0 ∨ r.close = v) → u.direction = .none) ∧
       (u.newHigh = true ↔ r.high ≠ 0 ∧ r.high < v) ∧ (u.newLow = true ↔ r.low ≠ 0 ∧ v < r.low) ∧
       (r.high = 0 → u.high = v ∧ u.low = v) ∧
       (r.high ≠ 0 → u.high.toNat = max r.high.toNat v.toNat ∧ u.low.toNat = min r.low.toNat v.toNat) ∧
       u.volume.toNat = min 4294967295 (r.volume.toNat + (z.map BitVec.toNat).getD 0) ∧
       (∀ m, m ≠ n → t.slot m = s.slot m) ∧
       DueMarked s n r u t ∧
       (c.reload = 0 → vget t.qe.countdowns w = c ∧ t.cr.flags = s.cr.flags) ∧
       (c.reload ≠ 0 → 1 < c.counter →
         vget t.qe.countdowns w = { c with counter := c.counter - 1 } ∧ t.cr.flags = s.cr.flags) ∧
       (c.reload ≠ 0 → c.counter = 1 →
         vget t.qe.countdowns w = { c with counter := c.reload } ∧ t.cr.flags = s.cr.flags ||| (1#16 <<< (8 + w.val))) ∧
       (∀ i, i ≠ w → vget t.qe.countdowns i = vget s.qe.countdowns i) ∧
       (let notice : Notice := ⟨n, .trade,
          ⟨true, true, decide (r.close ≠ 0), decide (r.high ≠ u.high), decide (r.low ≠ u.low), z.isSome, false⟩,
          some ⟨v, z, s.cs.clock, r.last, u.newHigh, u.newLow⟩⟩
        let p := s.pt.notice notice r.close
        SameButMarks { s with
          mem := s.mem.writeWord a.toNat v .both
          qe := { s.qe with
            slots := t.qe.slots, due := t.qe.due, countdowns := t.qe.countdowns
            pendingSize := vset s.qe.pendingSize n none }
          bc := s.bc.notice notice
          tc := s.tc.notice notice
          pt := if s.cs.feedStale then p.markStatusLines else p
          cs := { s.cs with feedCount := 0, feedStale := false }
          cr := { s.cr with flags := t.cr.flags } } t))

/-- An anomalous write (a LAST write that is no capture, a SIZE or CLOSE write on an UNUSED slot, a one-byte write of a LAST, SIZE or
CLOSE field or of the command word) reaches memory, raises the anomaly count once, saturating, and sets ANOM; nothing else changes
(R33 to R36, R38, R189). -/
def Obligations.AnomaliesAreCounted : Prop :=
  (∀ c s a d lanes, accessOf s c = some (.write a d lanes) → (∀ wait, c ≠ .arbitrationWait wait) → PortFree s →
    ((∃ w n, target s a = .quote w n .last ∧
        (lanes ≠ .both ∨ (s.slot n).state ≠ .listed ∨ s.cs.session ≠ .opened ∨ d = 0)) ∨
      (∃ w n, target s a = .quote w n .size ∧ (lanes ≠ .both ∨ (s.slot n).state = .unused)) ∨
      (∃ w n, target s a = .quote w n .close ∧ (lanes ≠ .both ∨ (s.slot n).state = .unused)) ∨
      (target s a = .command ∧ lanes ≠ .both)) →
    ∃ t, exec c s = .next t ∧ t.qe.anomalies.toNat = min 65535 (s.qe.anomalies.toNat + 1) ∧
      (s.qe.anomalies ≠ 0xFFFF → 19 ∈ t.cr.dirty) ∧
      SameButMarks { s with
        mem := s.mem.writeWord a.toNat d lanes
        qe := { s.qe with anomalies := t.qe.anomalies }
        cr := { s.cr with flags := s.cr.flags ||| 0x0080 } } t) ∧
  (∀ s a d half w n f, PortFree s → target s a = .quote w n f → f = .last ∨ f = .size ∨ f = .close →
    ∃ t, exec (.partialWrite a d half) s = .next t ∧ t.qe.slots = s.qe.slots ∧ t.qe.pendingSize = s.qe.pendingSize ∧
      t.qe.countdowns = s.qe.countdowns ∧ t.cs = s.cs ∧ t.mem = s.mem.writeWord a.toNat d half.lanes ∧
      t.qe.anomalies = countUp s.qe.anomalies ∧ t.cr.flags = s.cr.flags ||| 0x0080) ∧
  (∀ s d half, PortFree s →
    ∃ t, exec (.commandWordPartial d half) s = .next t ∧ t.cr.status = s.cr.status ∧
      t.mem = s.mem.writeWord s.bp.anchor.toNat d half.lanes ∧
      t.qe = { s.qe with anomalies := countUp s.qe.anomalies } ∧ t.cr.flags = s.cr.flags ||| 0x0080)

/-- SIZE_WRITE: a full write of `v` to the SIZE field of a slot that is not UNUSED makes the pending size `v`, absent when `v` is 0; on
an UNUSED slot it is an anomaly. Nothing else changes (R34). -/
def Obligations.SizeWriteSetsPendingSize : Prop :=
  ∀ s a v w n, PortFree s → target s a = .quote w n .size →
    ((s.slot n).state ≠ .unused →
      ∃ t, exec (.sizeWrite a v) s = .next t ∧
        SameButMarks { s with
          mem := s.mem.writeWord a.toNat v .both
          qe := { s.qe with pendingSize := vset s.qe.pendingSize n (if v = 0 then none else some v) } } t) ∧
    ((s.slot n).state = .unused →
      ∃ t, exec (.sizeWrite a v) s = .next t ∧ t.qe.anomalies.toNat = min 65535 (s.qe.anomalies.toNat + 1) ∧
        SameButMarks { s with
          mem := s.mem.writeWord a.toNat v .both
          qe := { s.qe with anomalies := t.qe.anomalies }
          cr := { s.cr with flags := s.cr.flags ||| 0x0080 } } t)

/-- CLOSE_WRITE and SET CLOSE: the close of a slot that is not UNUSED becomes the value, with a CLOSE notice whose changed set is
CHANGE, and LAST too when last is 0, to the boards and the terminals; SET CLOSE is DONE besides (R12, R35). -/
def Obligations.CloseIsSet : Prop :=
  (∀ s a v w n, PortFree s → target s a = .quote w n .close → (s.slot n).state ≠ .unused →
    ∃ t, exec (.closeWrite a v) s = .next t ∧
      (let after := { s.slot n with close := v }
       let notice : Notice := ⟨n, .close, ⟨decide ((s.slot n).last = 0), false, true, false, false, false, false⟩, none⟩
       DueMarked s n (s.slot n) after t ∧
       SameButMarks { s with
         mem := s.mem.writeWord a.toNat v .both
         qe := { s.qe with slots := vset s.qe.slots n after, due := t.qe.due }
         bc := s.bc.notice notice
         pt := s.pt.notice notice v } t)) ∧
  (∀ s x n, TakesCommands s → (s.param 0).toNat = n.val → (s.slot n).state ≠ .unused →
    ∃ t, exec (.setClose x) s = .next t ∧ 8 ∈ t.cr.dirty ∧
      (let v := s.param 1
       let after := { s.slot n with close := v }
       let notice : Notice := ⟨n, .close, ⟨decide ((s.slot n).last = 0), false, true, false, false, false, false⟩, none⟩
       let b := withCommandWord s 0x06 x
       DueMarked s n (s.slot n) after t ∧
       SameButMarks (answered { b with
         qe := { b.qe with slots := vset b.qe.slots n after, due := t.qe.due }
         bc := b.bc.notice notice
         pt := b.pt.notice notice v } 0x06 .done .none) t))

/-- The boards take an update notice: each placement of its slot whose field kind the changed set matches, by ascending index, makes a
CELL request, and on a TRADE joins its link's blink list when B is not 0 and the link is ONLINE (R75, R78). A request on an ONLINE link
is dropped when the cell is queued or its row owed, appended while the queue holds fewer than 32, and otherwise makes its row stale; any
other link takes none (R87, R89). A cell that joins moves to the tail with its time B; a full list loses its oldest, which asks for a
refresh (R77, R79). So every cell refreshed on an ONLINE link is queued, or its row is owed, and nothing else of the boards changes. -/
def Obligations.BoardsTakeNotices : Prop :=
  (∀ (b : BoardController) n,
    (∃ ps : List Nat, ps.Pairwise (· < ·) ∧ (∀ p, p ∈ ps ↔ ∃ q, b.placements[p]? = some q ∧ RefreshedBy n q) ∧
      (n.cause ≠ .trade → b.notice n = ps.foldl BoardController.request b) ∧
      (n.cause = .trade → b.notice n = ps.foldl BoardController.blinkStart (ps.foldl BoardController.request b))) ∧
    (∀ p q, b.placements[p]? = some q → RefreshedBy n q → (vget b.links q.link).state = .online →
      RefreshEntry.cell p ∈ (vget (b.notice n).links q.link).queue ∨ (vget (b.notice n).links q.link).owed q.row = true) ∧
    b.notice n = { b with links := (b.notice n).links } ∧
    ∀ l, { vget (b.notice n).links l with
      queue := (vget b.links l).queue, stale := (vget b.links l).stale, blink := (vget b.links l).blink } = vget b.links l) ∧
  (∀ (b : BoardController) p q, b.placements[p]? = some q →
    (let k := vget b.links q.link
     let becomes (k' : Link) : BoardController := { b with links := vset b.links q.link k' }
     let fresh : BlinkCell := ⟨p, b.blinkTenths⟩
     (k.state ≠ .online → b.request p = b ∧ b.blinkStart p = b) ∧
     (b.blinkTenths = 0 → b.blinkStart p = b) ∧
     (RefreshEntry.cell p ∈ k.queue ∨ q.row ∈ k.stale ∨ RefreshEntry.row q.row ∈ k.queue → b.request p = b) ∧
     (k.state = .online → RefreshEntry.cell p ∉ k.queue → q.row ∉ k.stale → RefreshEntry.row q.row ∉ k.queue →
       (k.queue.length < 32 → b.request p = becomes { k with queue := k.queue ++ [.cell p] }) ∧
       (32 ≤ k.queue.length → ∃ stale, (∀ r, r ∈ stale ↔ r = q.row ∨ r ∈ k.stale) ∧
         b.request p = becomes { k with stale := stale })) ∧
     (k.state = .online → b.blinkTenths ≠ 0 →
       ((∃ c ∈ k.blink, c.placement = p) →
         b.blinkStart p = becomes { k with blink := k.blink.filter (fun c => c.placement ≠ p) ++ [fresh] }) ∧
       ((∀ c ∈ k.blink, c.placement ≠ p) → k.blink.length < 16 →
         b.blinkStart p = becomes { k with blink := k.blink ++ [fresh] }) ∧
       (∀ oldest rest, (∀ c ∈ k.blink, c.placement ≠ p) → 16 ≤ k.blink.length → k.blink = oldest :: rest →
         b.blinkStart p = (becomes { k with blink := rest ++ [fresh] }).request oldest.placement))))

/-- The terminals take an update notice, each its own (R157, R178). One whose list holds the slot marks the entry's line, and one that
quotes it marks line 13. On a TRADE the entry is tested by its code and negate (R179): an entry of no crossing kind alerts when the test
holds, MOVE only from a reference, which it then renews unless negated (R180); a crossing entry alerts as its side goes from FALSE to
TRUE, takes its first side in silence, and goes back to FALSE when re-armed (R181, R182). An alert sets the alerted flag and puts the
line at the tail of the alert queue, out of which a full queue of 4 loses its oldest (R184). -/
def Obligations.TerminalsTakeNotices : Prop :=
  ∀ (p : TerminalController) n close,
    p.notice n close = { p with terminals := (p.notice n close).terminals } ∧
    ∀ u : TermId,
      (let r := vget p.terminals u
       let r' := vget (p.notice n close).terminals u
       (u.val ∉ vget p.subscribers n.slot ∨ ¬ r.Watches n.slot →
         r' = { r with dirty := r'.dirty } ∧
         ∀ line, line ∈ r'.dirty ↔ line ∈ r.dirty ∨ (line = 13 ∧ r.response = .quote n.slot)) ∧
       (∀ (i : Fin 12) e, u.val ∈ vget p.subscribers n.slot → vget r.watch i = some e → e.slot = n.slot →
         (∀ j, j < i → ∀ f, vget r.watch j = some f → f.slot ≠ n.slot) →
         (∀ line, line ∈ r'.dirty ↔ line ∈ r.dirty ∨ line = i.val + 1 ∨ (line = 13 ∧ r.response = .quote n.slot)) ∧
         (n.trade = none → r' = { r with dirty := r'.dirty }) ∧
         (∀ d, n.trade = some d → ∃ (e' : WatchEntry) (alert : Bool),
           r' = { r with
             dirty := r'.dirty
             watch := vset r.watch i (some { e' with alerted := alert || e.alerted })
             alerts := if alert then (if r.alerts.length < 4 then r.alerts else r.alerts.drop 1) ++ [i.val + 1]
               else r.alerts } ∧
           (e.code.val ≤ 4 → e' = e ∧ (alert = true ↔ e.Holds d close)) ∧
           (e.code = 7 → e.reference = 0 → e' = { e with reference := d.price } ∧ alert = false) ∧
           (e.code = 7 → e.reference ≠ 0 → (alert = true ↔ e.Holds d close) ∧
             e' = if alert = true ∧ e.negate = false then { e with reference := d.price } else e) ∧
           (e.code = 5 ∨ e.code = 6 → e.side = .unknown → alert = false ∧
             (e.Holds d close → e' = { e with side := .isTrue }) ∧ (¬ e.Holds d close → e' = { e with side := .isFalse })) ∧
           (e.code = 5 ∨ e.code = 6 → e.side = .isFalse → (alert = true ↔ e.Holds d close) ∧
             (e.Holds d close → e' = { e with side := .isTrue }) ∧ (¬ e.Holds d close → e' = e)) ∧
           (e.code = 5 ∨ e.code = 6 → e.side = .isTrue → alert = false ∧
             (e.Rearmed d.price → e' = { e with side := .isFalse }) ∧ (¬ e.Rearmed d.price → e' = e)))))

/-- HALT of a LISTED slot and RESUME of a HALTED one change the slot's state alone, issue their notice with STATE, LAST and CHANGE,
and are DONE (R13, R14). -/
def Obligations.HaltAndResumeChangeState : Prop :=
  (∀ s x n, TakesCommands s → (s.param 0).toNat = n.val → (s.slot n).state = .listed →
    ∃ t, exec (.halt x) s = .next t ∧ 8 ∈ t.cr.dirty ∧
      (let after := { s.slot n with state := .halted }
       let notice : Notice := ⟨n, .halt, ⟨true, false, true, false, false, false, true⟩, none⟩
       let b := withCommandWord s 0x07 x
       DueMarked s n (s.slot n) after t ∧
       SameButMarks (answered { b with
         qe := { b.qe with slots := vset b.qe.slots n after, due := t.qe.due }
         bc := b.bc.notice notice
         pt := b.pt.notice notice (s.slot n).close } 0x07 .done .none) t)) ∧
  (∀ s x n, TakesCommands s → (s.param 0).toNat = n.val → (s.slot n).state = .halted →
    ∃ t, exec (.resume x) s = .next t ∧ 8 ∈ t.cr.dirty ∧
      (let after := { s.slot n with state := .listed }
       let notice : Notice := ⟨n, .resume, ⟨true, false, true, false, false, false, true⟩, none⟩
       let b := withCommandWord s 0x08 x
       DueMarked s n (s.slot n) after t ∧
       SameButMarks (answered { b with
         qe := { b.qe with slots := vset b.qe.slots n after, due := t.qe.due }
         bc := b.bc.notice notice
         pt := b.pt.notice notice (s.slot n).close } 0x08 .done .none) t))

/-! ### The setup block and the command word -/

/-- PARAMETER_WRITE gives the shadow the lanes written, and ATTENTION_ACKNOWLEDGE clears exactly the flags whose positions hold 1; a
partial write of the acknowledge word clears none. Each stores its word and changes nothing else (R190, R199). ATTN is asserted exactly
when a set flag is enabled by the mask, and never while RESET is asserted (R199). -/
def Obligations.SetupWritesAreTaken : Prop :=
  (∀ s : State, s.attn = true ↔
    s.resetPin = false ∧ ∃ i, i < 16 ∧ s.cr.flags.getLsbD i = true ∧ s.cr.mask.getLsbD i = true) ∧
  (∀ s p d lanes, PortFree s → AnchorFits s →
    ∃ t, exec (.parameterWrite p d lanes) s = .next t ∧
      (let old := vget s.cr.shadows p
       let new : Word := match lanes with
         | .both => d
         | .high => wordOf (hiByte d) (loByte old)
         | .low => wordOf (hiByte old) (loByte d)
       SameButMarks { s with
         mem := s.mem.writeWord (s.bp.anchor.toNat + 1 + p.val) d lanes
         cr := { s.cr with shadows := vset s.cr.shadows p new } } t)) ∧
  (∀ s d, PortFree s → AnchorFits s →
    ∃ t, exec (.attentionAcknowledge d) s = .next t ∧
      (∀ i, i < 16 → t.cr.flags.getLsbD i = (s.cr.flags.getLsbD i && !d.getLsbD i)) ∧
      (t.cr.flags ≠ s.cr.flags → 7 ∈ t.cr.dirty) ∧
      SameButMarks { s with
        mem := s.mem.writeWord (s.bp.anchor.toNat + 5) d .both
        cr := { s.cr with flags := t.cr.flags } } t) ∧
  (∀ s d lanes, PortFree s → AnchorFits s → lanes ≠ .both →
    ∃ t, exec (.hostWrite (setupAddr s 5) d lanes) s = .next t ∧
      SameButMarks { s with mem := s.mem.writeWord (s.bp.anchor.toNat + 5) d lanes } t)

/-- The refusals of R189 before any owner: BUSY for every command word while a command runs, UNKNOWN for an opcode outside 01H to 0EH,
NOT LOADED for any command but LOAD in UNCONFIGURED. The part changes nothing but COMMAND STATUS and CMD. -/
def Obligations.CommandWordRefusals : Prop :=
  (∀ op, isKnownOpcode op = true ↔ 0x01 ≤ op.toNat ∧ op.toNat ≤ 0x0E) ∧
  (∀ c s a w, accessOf s c = some (.write a w .both) → (∀ wait, c ≠ .arbitrationWait wait) → PortFree s →
    target s a = .command →
    (s.cr.running ≠ none → ∃ t, exec c s = .next t ∧ RefusedWith s (hiByte w) (loByte w) .busy t) ∧
    (s.cr.running = none → isKnownOpcode (hiByte w) = false →
      ∃ t, exec c s = .next t ∧ RefusedWith s (hiByte w) (loByte w) .unknown t) ∧
    (s.cr.running = none → isKnownOpcode (hiByte w) = true → s.cr.part = .unconfigured → hiByte w ≠ 0x01 →
      ∃ t, exec c s = .next t ∧ RefusedWith s (hiByte w) (loByte w) .notLoaded t)) ∧
  (∀ s w, PortFree s → s.cr.running = none → (Instr.unknownOpcode w).wellFormed = true →
    ∃ t, exec (.unknownOpcode w) s = .next t ∧ RefusedWith s (hiByte w) (loByte w) .unknown t)

/-- The refusals of the owners: RANGE, ABSENT, STATE and FULL, each with its case (R12, R13, R14, R133, R135, R136, R137, R139, R168,
R175, R176, R192). A refused command changes nothing but COMMAND STATUS and CMD. -/
def Obligations.OwnersRefuse : Prop :=
  ∀ s x, TakesCommands s →
    (256 ≤ (s.param 0).toNat → ∀ c op, (c, op) ∈ [(Instr.setClose x, (0x06 : Byte)), (.halt x, 0x07), (.resume x, 0x08),
        (.watch x, 0x0A), (.unwatch x, 0x0B)] → ∃ t, exec c s = .next t ∧ RefusedWith s op x .range t) ∧
    (∀ n : Slot, (s.param 0).toNat = n.val → (s.slot n).state = .unused →
      ∀ c op, (c, op) ∈ [(Instr.setClose x, (0x06 : Byte)), (.halt x, 0x07), (.resume x, 0x08)] →
        ∃ t, exec c s = .next t ∧ RefusedWith s op x .absent t) ∧
    (∀ n : Slot, (s.param 0).toNat = n.val → (s.slot n).state = .halted →
      ∃ t, exec (.halt x) s = .next t ∧ RefusedWith s 0x07 x .state t) ∧
    (∀ n : Slot, (s.param 0).toNat = n.val → (s.slot n).state = .listed →
      ∃ t, exec (.resume x) s = .next t ∧ RefusedWith s 0x08 x .state t) ∧
    (s.cs.session ≠ .preOpen → ∃ t, exec (.openMarket x) s = .next t ∧ RefusedWith s 0x03 x .state t) ∧
    (s.cs.session ≠ .opened → ∃ t, exec (.closeMarket x) s = .next t ∧ RefusedWith s 0x04 x .state t) ∧
    (s.cs.session ≠ .closed → ∃ t, exec (.dark x) s = .next t ∧ RefusedWith s 0x05 x .state t) ∧
    (s.cs.session ≠ .closed → ∃ t, exec (.load x) s = .next t ∧ RefusedWith s 0x01 x .state t) ∧
    (s.cs.session ≠ .closed → s.cs.session ≠ .dark → ∃ t, exec (.roll x) s = .next t ∧ RefusedWith s 0x02 x .state t) ∧
    (x.getLsbD 0 = false → x.getLsbD 1 = false → ∃ t, exec (.setClock x) s = .next t ∧ RefusedWith s 0x09 x .range t) ∧
    (x.getLsbD 0 = true → 864000 ≤ (s.param 0).toNat % 16 * 65536 + (s.param 1).toNat →
      ∃ t, exec (.setClock x) s = .next t ∧ RefusedWith s 0x09 x .range t) ∧
    (16 ≤ x.toNat → ∃ t, exec (.watch x) s = .next t ∧ RefusedWith s 0x0A x .range t) ∧
    (16 ≤ x.toNat → ∃ t, exec (.unwatch x) s = .next t ∧ RefusedWith s 0x0B x .range t) ∧
    (16 ≤ x.toNat → x ≠ 0xFF → ∃ t, exec (.statusText x) s = .next t ∧ RefusedWith s 0x0C x .range t) ∧
    (∀ (u : TermId) (n : Slot), x.toNat = u.val → (s.param 0).toNat = n.val →
      ((s.slot n).state = .unused → ∃ t, exec (.watch x) s = .next t ∧ RefusedWith s 0x0A x .absent t) ∧
      ((s.slot n).state ≠ .unused → ¬ (s.term u).Watches n → (∀ i, vget (s.term u).watch i ≠ none) →
        ∃ t, exec (.watch x) s = .next t ∧ RefusedWith s 0x0A x .full t) ∧
      (¬ (s.term u).Watches n → ∃ t, exec (.unwatch x) s = .next t ∧ RefusedWith s 0x0B x .absent t))

/-- MAILBOX_MOVE_IN: the head key record moves into an EMPTY mailbox, the sequence number rises by 1, the mailbox words take the
record, the six words +9 to +14 and the queue depth are marked and KEY is set (R200). MAILBOX_SLOT_READ: a read of +14 that is not owed
a landing releases a FULL mailbox, the sequence number kept, and the next record moves in; with the mailbox EMPTY it is a read and
nothing more (R201). -/
def Obligations.MailboxMovesAndReleases : Prop :=
  (∀ s r q, s.resetPin = false → s.cr.mailbox = none → s.pt.keyQueue = r :: q →
    ∃ t, exec .mailboxMoveIn s = .next t ∧ AllDirty [9, 10, 11, 12, 13, 14, 22] t ∧
      (∀ i : Fin 4, vget t.cr.mailText i = wordOf (r.text.getD (2 * i.val) 0x20) (r.text.getD (2 * i.val + 1) 0x20)) ∧
      SameButMarks { s with
        pt := { s.pt with keyQueue := q }
        cr := { s.cr with
          mailbox := some r
          sequence := s.cr.sequence + 1
          mailText := t.cr.mailText
          mailSlot := match r.slot with
            | some n => BitVec.ofNat 16 n.val
            | none => 0xFFFF
          flags := s.cr.flags ||| 0x0001 } } t) ∧
  (∀ s r, PortFree s → AnchorFits s → s.readOwed (.read (setupAddr s 14)) = false → s.cr.mailbox = some r →
    s.pt.keyQueue = [] →
    ∃ t, exec .mailboxSlotRead s = .next t ∧ 9 ∈ t.cr.dirty ∧ (reportValue t 9).getLsbD 15 = false ∧
      loByte (reportValue t 9) = s.cr.sequence ∧
      SameButMarks { s with
        bp := { s.bp with hostData := s.mem.readWord (s.bp.anchor.toNat + 14) }
        cr := { s.cr with mailbox := none, tagIdle := t.cr.tagIdle }
        freeDraws := s.freeDraws + 1 } t) ∧
  (∀ s r r' q, PortFree s → AnchorFits s → s.readOwed (.read (setupAddr s 14)) = false → s.cr.mailbox = some r →
    s.pt.keyQueue = r' :: q →
    ∃ t, exec .mailboxSlotRead s = .next t ∧ t.cr.mailbox = some r' ∧ t.cr.sequence = s.cr.sequence + 1 ∧
      t.pt = { s.pt with keyQueue := q } ∧ t.cr.flags = s.cr.flags ||| 0x0001 ∧
      t.bp.hostData = s.mem.readWord (s.bp.anchor.toNat + 14) ∧ AllDirty [9, 10, 11, 12, 13, 14, 22] t) ∧
  (∀ s, PortFree s → AnchorFits s → s.readOwed (.read (setupAddr s 14)) = false → s.cr.mailbox = none →
    ∃ t, exec .mailboxSlotRead s = .next t ∧
      SameButMarks { s with bp := { s.bp with hostData := s.mem.readWord (s.bp.anchor.toNat + 14) } } t)

/-! ### Session, clock and floor lines -/

/-- OPEN in PRE-OPEN opens the market and starts the feed monitor; CLOSE in OPEN closes it and makes the feed LIVE. Each is DONE, marks
PART STATUS and every terminal's status line, and changes nothing else; marking the status lines adds line 0 alone to each dirty set (R134,
R135, R136, R146, R155). -/
def Obligations.OpenAndCloseChangeSession : Prop :=
  (∀ p : TerminalController, p.markStatusLines = { p with terminals := p.markStatusLines.terminals } ∧
    ∀ u, (∀ line, line ∈ (vget p.markStatusLines.terminals u).dirty ↔ line ∈ (vget p.terminals u).dirty ∨ line = 0) ∧
      { vget p.markStatusLines.terminals u with dirty := (vget p.terminals u).dirty } = vget p.terminals u) ∧
  (∀ s x, TakesCommands s → s.cs.session = .preOpen →
    ∃ t, exec (.openMarket x) s = .next t ∧ AllDirty [6, 8] t ∧ (∀ u, 0 ∈ (t.term u).dirty) ∧
      (let b := withCommandWord s 0x03 x
       SameButMarks (answered { b with
         cs := { b.cs with session := .opened, feedCount := 0, feedStale := false }
         pt := b.pt.markStatusLines } 0x03 .done .none) t)) ∧
  (∀ s x, TakesCommands s → s.cs.session = .opened →
    ∃ t, exec (.closeMarket x) s = .next t ∧ AllDirty [6, 8] t ∧ (∀ u, 0 ∈ (t.term u).dirty) ∧
      (let b := withCommandWord s 0x04 x
       SameButMarks (answered { b with
         cs := { b.cs with session := .closed, feedCount := 0, feedStale := false }
         pt := b.pt.markStatusLines } 0x04 .done .none) t))

/-- ROLL in CLOSED or DARK is RUNNING: the walk begins at slot 0, every DARK link goes OFFLINE and every row of an ONLINE link is stale,
the tape is emptied and its memos, counts, lateness and mode reset, and every watch entry's side is UNKNOWN and its reference 0 (R105,
R127, R137, R183). The dirty lines are kept, line 0 joining them when the tape mode changes (R155, R169). -/
def Obligations.RollBegins : Prop :=
  ∀ s x, TakesCommands s → s.cs.session = .closed ∨ s.cs.session = .dark →
    ∃ t, exec (.roll x) s = .next t ∧ 8 ∈ t.cr.dirty ∧
      (∀ l, (s.link l).state = .online → t.link l = { s.link l with stale := List.range (s.link l).rows }) ∧
      (∀ l, (s.link l).state = .dark → t.link l = { s.link l with
        state := .offline, queue := [], blink := [], stale := List.range (s.link l).rows, pass := none, failures := 0,
        probeDue := true, probeTimer := false }) ∧
      (∀ l, (s.link l).state = .offline ∨ (s.link l).state = .unused → t.link l = s.link l) ∧
      (∀ u i, vget (t.term u).watch i =
        (vget (s.term u).watch i).map (fun e => { e with side := .unknown, reference := 0 })) ∧
      (∀ u, { t.term u with watch := (s.term u).watch, dirty := (s.term u).dirty } = s.term u) ∧
      (s.tc.mode = .full → ∀ u, (t.term u).dirty = (s.term u).dirty) ∧
      (s.tc.mode ≠ .full → ∀ u line, line ∈ (t.term u).dirty ↔ line ∈ (s.term u).dirty ∨ line = 0) ∧
      (let b := withCommandWord s 0x02 x
       SameButMarks (answered { b with
         bc := { b.bc with links := t.bc.links }
         tc := { b.tc with
           queue := [], reserved := none, memos := Vector.replicate 256 none, omitted := 0, omitPending := false
           mode := .full, lateness := 0 }
         pt := { b.pt with terminals := t.pt.terminals }
         cs := { b.cs with rollNext := some 0 }
         cr := { b.cr with running := some .roll } } 0x02 .running .none) t)

/-- ROLL_SLOT: the walk rolls a LISTED or HALTED slot whole, with its ROLL notice, its pending size made absent, and passes over an UNUSED
one; it goes on to the next slot, and at slot 255, rolled or passed over like any other, the session becomes PRE-OPEN and the ROLL is
DONE (R5, R16, R138). -/
def Obligations.RollSlotRollsOneSlot : Prop :=
  ∀ s n, s.resetPin = false → s.cs.rollNext = some n →
    ∃ t, exec .rollSlot s = .next t ∧
      (let r := s.slot n
       let after := { r with
         close := if r.last ≠ 0 then r.last else r.close
         last := 0, prior := 0, high := 0, low := 0, volume := 0, direction := .none, newHigh := false, newLow := false
         stamp := none, lastSize := none }
       let notice : Notice := ⟨n, .roll, ⟨true, true, true, true, true, true, true⟩, none⟩
       let u : State := if r.state = .unused then s else { s with
         qe := { s.qe with
           slots := vset s.qe.slots n after, pendingSize := vset s.qe.pendingSize n none, due := t.qe.due }
         bc := s.bc.notice notice
         pt := s.pt.notice notice after.close }
       (r.state ≠ .unused → DueMarked s n r after t) ∧
       (n ≠ 255 → SameButMarks { u with cs := { s.cs with rollNext := some (n + 1) } } t) ∧
       (n = 255 → 8 ∈ t.cr.dirty ∧ (s.cs.session ≠ .preOpen → 6 ∈ t.cr.dirty) ∧ (∀ v, 0 ∈ (t.term v).dirty) ∧
         SameButMarks { u with
           cs := { s.cs with rollNext := none, session := .preOpen }
           pt := u.pt.markStatusLines
           cr := { s.cr with
             running := none, status := ⟨0x02, .done, .none⟩, flags := s.cr.flags ||| 0x0002 } } t))

/-- DARK in CLOSED is RUNNING: the session becomes DIMMING and every sweep pass ends (R139); when every used link is drained and the
tape is empty the session is DARK in the same event and the command is DONE (R140). SESSION_DARK: in DIMMING, with every used link
drained and the tape empty, the session becomes DARK and the DARK command is DONE. An ONLINE link takes a blank-all frame and goes
DARK, an OFFLINE one goes DARK without a frame; queues, stale sets and blink lists are emptied. While either condition fails,
nothing changes (R104, R105, R126, R140). The ACK that ends the last piece, the third miss of the last link with work, and the pace
expiry that sends the last character each take the floor to DARK in their own event (R140; that the print ends with its last character
is the model's choice, log entry 37). -/
def Obligations.DarkBeginsAndIsReached : Prop :=
  (∀ s x, TakesCommands s → s.cs.session = .closed → s.bc.drained = false ∨ s.tc.isEmpty = false →
    ∃ t, exec (.dark x) s = .next t ∧ AllDirty [6, 8] t ∧ (∀ u, 0 ∈ (t.term u).dirty) ∧
      (∀ l, t.link l = { s.link l with pass := none }) ∧
      (let b := withCommandWord s 0x05 x
       SameButMarks (answered { b with
         bc := { b.bc with links := t.bc.links }
         cs := { b.cs with session := .dimming }
         pt := b.pt.markStatusLines
         cr := { b.cr with running := some .dark } } 0x05 .running .none) t)) ∧
  (∀ s x, TakesCommands s → s.cs.session = .closed → s.bc.drained = true → s.tc.isEmpty = true →
    ∃ t, exec (.dark x) s = .next t ∧ GoneDark s t ∧ t.cr.flags = s.cr.flags ||| 0x0002) ∧
  (∀ s, s.resetPin = false → s.isReady = true → s.cs.session = .dimming → s.bc.drained = true → s.tc.isEmpty = true →
    ∃ t, exec .sessionDark s = .next t ∧ AllDirty [6, 8] t ∧ (∀ u, 0 ∈ (t.term u).dirty) ∧
      (∀ l, (s.link l).state = .online ∨ (s.link l).state = .offline →
        (t.link l).state = .dark ∧ (t.link l).queue = [] ∧ (t.link l).stale = [] ∧ (t.link l).blink = [] ∧
        (t.link l).failures = 0 ∧ (t.link l).pass = none ∧ (t.link l).probeDue = false ∧ (t.link l).probeTimer = false) ∧
      (∀ l, (s.link l).state = .online →
        (t.link l).frameOut = boardFrame .all 0 0 false .white [] ∧ (t.link l).work = some ⟨.blankAll, .sending, false, true⟩) ∧
      (∀ l, (s.link l).state = .offline → (t.link l).frameOut = (s.link l).frameOut ∧
        (t.link l).work = (s.link l).work.map (fun w => { w with discard := true })) ∧
      (∀ l, (s.link l).state = .unused ∨ (s.link l).state = .dark → t.link l = s.link l) ∧
      SameButMarks (answered { s with
        bc := { s.bc with links := t.bc.links }
        cs := { s.cs with session := .dark }
        pt := s.pt.markStatusLines
        cr := { s.cr with running := none } } 0x05 .done .none) t) ∧
  (∀ s, s.resetPin = false → s.cs.session ≠ .dimming ∨ s.isReady = false ∨ s.bc.drained = false ∨ s.tc.isEmpty = false →
    ∃ t, exec .sessionDark s = .next t ∧ SameButMarks s t) ∧
  (∀ s l w, s.resetPin = false → s.isReady = true → s.cs.session = .dimming → s.tc.isEmpty = true →
    (∀ m, m ≠ l → (s.link m).drained = true) → (s.link l).state = .online → (s.link l).work = some w → w.phase = .waiting →
    w.discard = false →
    ((s.link l).queue = [] → (s.link l).stale = [] →
      (∃ p, w.piece = .cell p) ∨ (∃ r, w.piece = .textRow r) ∨ (∃ r, w.piece = .symbolRow r []) →
      ∃ t, exec (.boardAck l [0xC3, 0xE3]) s = .next t ∧ GoneDark s t ∧ t.cr.flags = s.cr.flags ||| 0x0002 ∧
        (t.link l).frameOut = boardFrame .all 0 0 false .white []) ∧
    ((s.link l).failures = 2 →
      (∃ p, w.piece = .cell p) ∨ (∃ r, w.piece = .textRow r) ∨ (∃ r rest, w.piece = .symbolRow r rest) →
      ∃ t, exec (.answerWaitExpiry l) s = .next t ∧ GoneDark s t ∧ t.cr.flags = s.cr.flags ||| 0x0004 ||| 0x0002 ∧
        (t.link l).work = none ∧ (t.link l).frameOut = (s.link l).frameOut)) ∧
  (∀ s c, s.resetPin = false → s.isReady = true → s.cs.session = .dimming → s.bc.drained = true →
    s.tc.timerRunning = true → s.tc.current = [c] → s.tc.queue = [] → s.tc.reserved = none →
    ∃ t, exec .tapePaceExpiry s = .next t ∧ GoneDark s t ∧ t.cr.flags = s.cr.flags ||| 0x0002 ∧ t.tc.charOut = some c)

/-- SET CLOCK with bit 0 sets the clock to the 20-bit time of P0 and P1, clears NOT SET, and marks the clock words and the status lines;
with bit 1 it sets the trim from P2 and clears the accumulator; it is DONE (R133). -/
def Obligations.SetClockSetsTimeAndTrim : Prop :=
  ∀ s x, TakesCommands s → x.getLsbD 0 = true ∨ x.getLsbD 1 = true →
    (x.getLsbD 0 = true → (s.param 0).toNat % 16 * 65536 + (s.param 1).toNat < 864000) →
    ∃ t, exec (.setClock x) s = .next t ∧ 8 ∈ t.cr.dirty ∧
      (x.getLsbD 0 = true → AllDirty [15, 16] t ∧ ∀ u, 0 ∈ (t.term u).dirty) ∧
      (let b := withCommandWord s 0x09 x
       let c1 := if x.getLsbD 0 then
         { b.cs with clock := (s.param 0).toNat % 16 * 65536 + (s.param 1).toNat, notSet := false } else b.cs
       let c2 := if x.getLsbD 1 then
         { c1 with
           trimNegative := (s.param 2).getLsbD 15
           trimMagnitude := (s.param 2).toNat % 32768
           trimAccumulator := 0 } else c1
       SameButMarks (answered { b with
         cs := c2
         pt := if x.getLsbD 0 then b.pt.markStatusLines else b.pt } 0x09 .done .none) t)

/-- BASE_STEP: the trim makes the advance 1, or on an accumulator overflow 2 or 0; the clock wraps at 864,000; an advance lowers every
blink time, and a cell whose time is up leaves and asks for a refresh, the queues and stale rows of before standing; a step that passes a
whole second takes its work in the same event, the sweep count, the feed count and their expiries, and a whole minute while READY the
status lines; nothing else changes (R80, R87, R101, R129, R130, R131, R144, R145). That the record `secondTaken` says that the second's work
was taken with the step is the model's own (DESIGN CHOICE, log entry 1). -/
def Obligations.BaseStepAdvancesClock : Prop :=
  ∀ s, s.resetPin = false → ClockInRange s →
    ∃ t, exec .baseStep s = .next t ∧
      (let sum := s.cs.trimAccumulator + s.cs.trimMagnitude
       let k := if sum < 1048576 then 1 else if s.cs.trimNegative then 0 else 2
       let second := s.cs.clock / 10 ≠ t.cs.clock / 10
       let minute := s.cs.clock / 600 ≠ t.cs.clock / 600
       t.cs.clock = (s.cs.clock + k) % 864000 ∧
       t.cs.trimAccumulator = (if sum < 1048576 then sum else sum - 1048576) ∧
       (t.cs.secondTaken = true ↔ second) ∧
       (second → SecondTaken s t) ∧ (¬ second → NoSecond s t) ∧
       (minute ∧ s.isReady = true ∨ second ∧ FeedDue s → t.pt = s.pt.markStatusLines) ∧
       (¬ (minute ∧ s.isReady = true) → ¬ (second ∧ FeedDue s) → t.pt = s.pt) ∧
       (k = 0 → SameButMarks { s with cs := t.cs } t) ∧
       (k ≠ 0 →
         (∀ l, (t.link l).blink =
           ((s.link l).blink.map (fun c => { c with remaining := c.remaining - k })).filter (fun c => c.remaining != 0)) ∧
         RefreshedFor s t (fun c => c.remaining ≤ k) ∧
         ∀ l c q, c ∈ (s.link l).blink → c.remaining ≤ k → s.bc.placements[c.placement]? = some q →
           (s.link q.link).state = .online →
           RefreshEntry.cell c.placement ∈ (t.link q.link).queue ∨ (t.link q.link).owed q.row = true) ∧
       (∀ l, { t.link l with
         queue := (s.link l).queue, stale := (s.link l).stale, blink := (s.link l).blink, pass := (s.link l).pass } =
           s.link l) ∧
       SameButMarks { s with
         bc := { s.bc with links := t.bc.links, sweepCount := t.bc.sweepCount }
         tc := { s.tc with reserved := t.tc.reserved }
         cs := { s.cs with
           clock := t.cs.clock, trimAccumulator := t.cs.trimAccumulator, secondTaken := t.cs.secondTaken
           feedStale := t.cs.feedStale, feedCount := t.cs.feedCount }
         pt := t.pt
         cr := { s.cr with flags := t.cr.flags } } t)

/-- WHOLE_SECOND marks the clock words, and while the part is READY raises the sweep count, the one that reaches S being a sweep expiry,
and in OPEN with a LIVE feed and F not 0 the feed count, the one that reaches F making the feed STALE; nothing else changes (R101, R131,
R144, R145). WHOLE_MINUTE marks every status line while READY. The model's own record of a second already taken with its base step makes
the command only clear that record (DESIGN CHOICE, log entry 1). -/
def Obligations.WholeSecondAndMinute : Prop :=
  (∀ s, s.resetPin = false → s.cs.secondTaken = false →
    ∃ t, exec .wholeSecond s = .next t ∧ SecondTaken s t ∧
      (FeedDue s → t.pt = s.pt.markStatusLines) ∧ (¬ FeedDue s → t.pt = s.pt) ∧
      (∀ l, { t.link l with pass := (s.link l).pass } = s.link l) ∧
      SameButMarks { s with
        bc := { s.bc with links := t.bc.links, sweepCount := t.bc.sweepCount }
        tc := { s.tc with reserved := t.tc.reserved }
        cs := { s.cs with feedStale := t.cs.feedStale, feedCount := t.cs.feedCount }
        pt := t.pt
        cr := { s.cr with flags := t.cr.flags } } t) ∧
  (∀ s, s.resetPin = false → s.cs.secondTaken = true →
    ∃ t, exec .wholeSecond s = .next t ∧ SameButMarks { s with cs := { s.cs with secondTaken := false } } t) ∧
  (∀ s, s.resetPin = false → s.isReady = true →
    ∃ t, exec .wholeMinute s = .next t ∧ (∀ u, 0 ∈ (t.term u).dirty) ∧ SameButMarks { s with pt := s.pt.markStatusLines } t) ∧
  (∀ s, s.resetPin = false → s.isReady = false → ∃ t, exec .wholeMinute s = .next t ∧ SameButMarks s t)

/-- FEED_STALE, and the WHOLE_SECOND that brings the count to F: the feed is STALE with the count at F, FEED is set, NO REPORTS takes the
reserved place, and PART STATUS and the status lines are marked (R144, R145). That the FEED_STALE row is taken whatever the count has
come to, while the monitor runs, is the model's choice (DESIGN CHOICE, log entry 1): in the part it comes at the second that reaches F. -/
def Obligations.FeedGoesStale : Prop :=
  ∀ s, s.resetPin = false → s.isReady = true → s.cs.session = .opened → s.cs.feedTimeout ≠ 0 → s.cs.feedStale = false →
    (∃ t, exec .feedGoesStale s = .next t ∧ 6 ∈ t.cr.dirty ∧ (∀ u, 0 ∈ (t.term u).dirty) ∧
      SameButMarks { s with
        cs := { s.cs with feedStale := true, feedCount := s.cs.feedTimeout }
        tc := { s.tc with reserved := some [0x4E, 0x4F, 0x20, 0x52, 0x45, 0x50, 0x4F, 0x52, 0x54, 0x53] }
        pt := s.pt.markStatusLines
        cr := { s.cr with flags := s.cr.flags ||| 0x0020 } } t) ∧
    (s.cs.secondTaken = false → s.cs.feedCount + 1 = s.cs.feedTimeout →
      ∃ t, exec .wholeSecond s = .next t ∧ AllDirty [6, 15, 16] t ∧ (∀ u, 0 ∈ (t.term u).dirty) ∧ t.cs.feedStale = true ∧
        t.cs.feedCount = s.cs.feedTimeout ∧ t.cr.flags = s.cr.flags ||| 0x0020)

/-- FLOOR_LINE_CHANGE: the line's level changes; while READY a rising edge of OPEN-BELL in PRE-OPEN opens the market and one of
CLOSE-BELL in OPEN closes it, each setting BELL; without such an edge, or in another session, nothing else changes (R141, R142). A signal is high exactly when some line
assigned its function is high (R141). -/
def Obligations.FloorLineRingsTheBell : Prop :=
  (∀ (c : ClockSession) f, c.signal f = true ↔ ∃ l : LineId, vget c.lineFunctions l = f ∧ vget c.lineLevels l = true) ∧
  ∀ s line level, s.resetPin = false →
    (let c := { s.cs with lineLevels := vset s.cs.lineLevels line level }
     let opens := s.cs.signal .openBell = false ∧ c.signal .openBell = true
     let closes := s.cs.signal .closeBell = false ∧ c.signal .closeBell = true
     (s.isReady = true → s.cs.session = .preOpen → opens →
       ∃ t, exec (.floorLineChange line level) s = .next t ∧ 6 ∈ t.cr.dirty ∧
         SameButMarks { s with
           cs := { c with session := .opened, feedCount := 0, feedStale := false }
           pt := s.pt.markStatusLines
           cr := { s.cr with flags := s.cr.flags ||| 0x0040 } } t) ∧
     (s.isReady = true → s.cs.session = .opened → closes →
       ∃ t, exec (.floorLineChange line level) s = .next t ∧ 6 ∈ t.cr.dirty ∧
         SameButMarks { s with
           cs := { c with session := .closed, feedCount := 0, feedStale := false }
           pt := s.pt.markStatusLines
           cr := { s.cr with flags := s.cr.flags ||| 0x0040 } } t) ∧
     (s.isReady = false ∨ ((s.cs.session ≠ .preOpen ∨ ¬ opens) ∧ (s.cs.session ≠ .opened ∨ ¬ closes)) →
       ∃ t, exec (.floorLineChange line level) s = .next t ∧ SameButMarks { s with cs := c } t))

/-! ### LOAD -/

/-- LOAD in UNCONFIGURED, or in READY and CLOSED, is RUNNING: the part is LOADING in the CONFIGURATION phase, the windows and the
write-back entries and marks are gone, and every block takes its LOAD-accepted condition; the clock, trim, NOT SET, line levels,
shadows and memory are kept (R192). Only what is going out on a board link, the tape or the loop stays: its frame or character is
completed and its answer discarded, no frame of its piece follows, and a line read is abandoned (R72, R99, R102, R106, R128, R152; that
a frame already waiting for its answer stays too is DEDUCED, log entry 29). -/
def Obligations.LoadBegins : Prop :=
  ∀ s x, PortFree s → s.cr.running = none → s.cr.part = .unconfigured ∨ (s.cr.part = .ready ∧ s.cs.session = .closed) →
    ∃ t, exec (.load x) s = .next t ∧ 8 ∈ t.cr.dirty ∧ (s.cr.mailbox.isSome = true → 9 ∈ t.cr.dirty) ∧ t.attn = false ∧
      s.bp.queue.filter (fun w => match w with
        | .report _ => true
        | .writeBack _ => false) <+: t.bp.queue ∧
      (∀ m, SideWord.writeBack m ∉ t.bp.queue) ∧
      (∀ l, { t.link l with work := none } = { Link.reset with frameOut := (s.link l).frameOut } ∧
        ((s.link l).work = none → (t.link l).work = none) ∧
        ((s.link l).Reads → (t.link l).work = none) ∧
        ∀ w, (s.link l).work = some w → w.phase = .sending ∨ w.phase = .waiting →
          ∃ piece, (t.link l).work = some ⟨piece, w.phase, false, true⟩ ∧
            (∀ r rest, w.piece = .symbolRow r rest → piece = .symbolRow r []) ∧
            ((∀ r rest, w.piece ≠ .symbolRow r rest) → piece = w.piece)) ∧
      (let b := withCommandWord s 0x01 x
       SameButMarks { b with
         bp := { b.bp with windows := [] }
         qe := .reset
         bc := { BoardController.reset with links := t.bc.links }
         tc := { TapeController.reset with charOut := s.tc.charOut }
         pt := { TerminalController.reset with
           turn := s.pt.turn.map (fun u => { u with discard := true }), frameOut := s.pt.frameOut }
         cs := { b.cs with
           lineFunctions := Vector.replicate 4 .none, feedStale := false, feedTimeout := 0, feedCount := 0 }
         cr := { b.cr with
           part := .loading ⟨.configuration, [], 0, none, [], [], none⟩
           running := some .load
           status := ⟨0x01, .running, .none⟩
           flags := 0, mask := 0, mailbox := none, sequence := 0, tagIdle := t.cr.tagIdle
           diagReason := 0, diagIndex := 0 }
         freeDraws := t.freeDraws } t)

/-- LOAD_READ_ANSWER takes memory's word (R59, R193). A configuration word is kept at its place among +24 to +123; the hundredth, when no
pointer and no window fails, ends the phase with the setup, every value clamped and the windows those of Table 11-2 (R27, R29, R194,
R195). A directory entry's last word makes
the slot UNUSED, or LISTED or HALTED with its name, base and close (R4); entry 255 ends the phase. A row map word gives the row its kind
(R65, R66), and a placement's second word its placement (R67, R68). The last check that passes completes the LOAD in the same event
(R196). -/
def Obligations.LoadReadTakesWord : Prop :=
  (∀ ws n w, windowOf ws n = some w ↔ DescriptorIs ws n w) ∧
  ∀ s run, LoadReads s run →
    (run.phase = .configuration → run.words.length < 99 →
      ∃ t, exec .loadReadAnswer s = .next t ∧ LoadGoesOn s { run with
        words := run.words ++ [s.mem.readWord (s.bp.anchor.toNat + 24 + run.words.length)] } t) ∧
    (run.phase = .configuration → run.words.length = 99 →
      (let ws := run.words ++ [s.mem.readWord (s.bp.anchor.toNat + 123)]
       PointersGood ws → (∀ n, DescriptorPasses s.bp.anchor.toNat ws n) →
       ∃ t u, exec .loadReadAnswer s = .next t ∧
         LoadGoesOn s { run with phase := .directory, words := [], entry := 0, setup := some u } t ∧
         u.windows = enabledWindows ws allDescriptors ∧ u.mask = cfgWord ws 24 ∧
         u.feedTimeout = (cfgWord ws 25).toNat % 256 ∧
         (∀ l : LineId, (vget u.functions l, (cfgWord ws 25).toNat / 256 / 4 ^ l.val % 4) ∈
           [(LineFunction.none, 0), (.openBell, 1), (.closeBell, 2), (.tapeHold, 3)]) ∧
         u.directory = (cfgWord ws 26).toNat * 65536 + (cfgWord ws 27).toNat ∧
         u.placementList = (cfgWord ws 28).toNat * 65536 + (cfgWord ws 29).toNat ∧
         u.placementCount = min 1024 (cfgWord ws 30).toNat ∧
         u.rowMap = (cfgWord ws 31).toNat * 65536 + (cfgWord ws 32).toNat ∧
         u.pace = max 4 (min 30 (cfgWord ws 33).toNat) ∧
         u.threshold = (if cfgWord ws 34 = 0 then 100 else (cfgWord ws 34).toNat) ∧
         u.back = min 65533 (cfgWord ws 37).toNat ∧
         u.late1 = max (u.back + 1) (min 65534 (cfgWord ws 35).toNat) ∧
         u.late2 = max (u.late1 + 1) (cfgWord ws 36).toNat ∧
         (∀ l : LinkId, vget u.rows l = min 32 ((cfgWord ws (38 + l.val)).toNat / 256) ∧
           (vget u.rows l ≠ 0 → vget u.cols l = max 8 (min 48 ((cfgWord ws (38 + l.val)).toNat % 256)))) ∧
         u.blinkTenths = (cfgWord ws 42).toNat % 256 ∧ u.sweepSeconds = (cfgWord ws 42).toNat / 256 ∧
         u.poll.length = min 32 (cfgWord ws 43).toNat ∧
         ∀ i, i < u.poll.length → u.poll.getD i 255 =
           if i % 2 = 0 then (cfgWord ws (44 + i / 2)).toNat / 256 else (cfgWord ws (44 + i / 2)).toNat % 256)) ∧
    (∀ u, run.setup = some u → run.phase = .directory → run.words.length < 3 →
      ∃ t, exec .loadReadAnswer s = .next t ∧ LoadGoesOn s { run with
        words := run.words ++ [s.mem.readWord (u.directory + 4 * run.entry + run.words.length)] } t) ∧
    (∀ u w0 w1 w2 (n : Slot) r, run.setup = some u → run.phase = .directory → run.words = [w0, w1, w2] → run.entry = n.val →
      (let w3 := s.mem.readWord (u.directory + 4 * n.val + 3)
       let code := w3.toNat % 256
       (w3.getLsbD 15 = false ∧ r = SlotRec.reset) ∨
       (∃ name base, w3.getLsbD 15 = true ∧ NameIs w0 w1 name ∧
         ((code = 8 ∧ base = .eighths) ∨ (code = 16 ∧ base = .sixteenths) ∨ (code = 32 ∧ base = .thirtySeconds)) ∧
         (∀ m : Slot, m < n → (s.slot m).state ≠ .unused → (s.slot m).name ≠ name) ∧
         r = { SlotRec.reset with
           state := if w3.getLsbD 14 then .halted else .listed, name := name, base := base, close := w2 })) →
      ∃ t, exec .loadReadAnswer s = .next t ∧
        LoadGoesOn { s with qe := { s.qe with slots := vset s.qe.slots n r } }
          (if n = 255 then { run with phase := .rowMap, words := [], entry := 0 }
           else { run with words := [], entry := n.val + 1 }) t) ∧
    (∀ u (l : LinkId) row kind, run.setup = some u → run.phase = .rowMap → row < 32 → run.entry = 32 * l.val + row →
      (row < vget u.rows l → RowKindIs u (s.mem.readWord (u.rowMap + run.entry)) kind) →
      (vget u.rows l ≤ row → kind = .symbol) →
      (∀ v ∈ u.windows, ∀ v' ∈ u.windows, v.index = v'.index → v = v') →
      (let kinds := run.rowKinds ++ [kind]
       (run.entry < 127 →
         ∃ t, exec .loadReadAnswer s = .next t ∧ LoadGoesOn s { run with rowKinds := kinds, entry := run.entry + 1 } t) ∧
       (run.entry = 127 → u.placementCount ≠ 0 →
         ∃ t, exec .loadReadAnswer s = .next t ∧
           LoadGoesOn s { run with phase := .placements, words := [], entry := 0, rowKinds := kinds } t) ∧
       (run.entry = 127 → u.placementCount = 0 →
         ∃ t, exec .loadReadAnswer s = .next t ∧ LoadEndsDone s u run.placements t))) ∧
    (∀ u, run.setup = some u → run.phase = .placements → run.words = [] → run.entry < u.placementCount →
      ∃ t, exec .loadReadAnswer s = .next t ∧
        LoadGoesOn s { run with words := [s.mem.readWord (u.placementList + 2 * run.entry)] } t) ∧
    (∀ u w0 kind, run.setup = some u → run.phase = .placements → run.words = [w0] → run.entry < u.placementCount →
      (let w1 := s.mem.readWord (u.placementList + 2 * run.entry + 1)
       let p := placementOf w0 w1 kind
       (w0.toNat % 8, kind) ∈ [(1, FieldKind.name), (2, .last), (3, .change), (4, .high), (5, .low), (6, .volume), (7, .tick)] →
       (s.slot p.slot).state ≠ .unused → ¬ p.PlaceBad u run.rowKinds → ¬ p.CellBad run.placements →
       ¬ p.CountBad run.placements →
       (run.entry + 1 < u.placementCount →
         ∃ t, exec .loadReadAnswer s = .next t ∧ LoadGoesOn s { run with
           words := [], entry := run.entry + 1, placements := run.placements ++ [p] } t) ∧
       (run.entry + 1 = u.placementCount →
         ∃ t, exec .loadReadAnswer s = .next t ∧ LoadEndsDone s u (run.placements ++ [p]) t)))

/-- LOAD_COMPLETE: when the last check has passed the part is READY with the windows, countdowns, tables, tape values, poll list, feed
timeout, line functions and mask of the setup; every used link is OFFLINE with its row map, every row stale, no failure, no pass, no
interval running, and a probe owed; every write-back word of a listed slot that a window holds is due; LOAD is DONE. The session, clock,
Symbol Table and anomaly count are kept (R39, R43, R64, R65, R106, R196). So is a frame still in hand from before the LOAD, whose answer
is then awaited on a link that enters OFFLINE: the model's reading of R99 and R106 (DEDUCED, log entry 29). -/
def Obligations.LoadCompletes : Prop :=
  ∀ s run u, s.resetPin = false → IdleOutsideReady s → s.cr.part = .loading run → run.phase = .placements →
    run.failed = none → run.setup = some u → u.placementCount ≤ run.entry →
    ∃ t, exec .loadComplete s = .next t ∧ AllDirty [6, 8] t ∧
      (∀ m, m ∈ t.qe.due ↔ (s.slot m.slot).state ≠ .unused ∧ (writeBackAddr t m).isSome = true) ∧
      (∀ w ∈ u.windows, w.kind = .quote → (∀ v ∈ u.windows, v.index = w.index → v = w) →
        vget t.qe.countdowns w.index = ⟨w.notify, w.notify⟩) ∧
      (∀ i, (∀ w ∈ u.windows, w.index = i → w.kind ≠ .quote) → vget t.qe.countdowns i = ⟨0, 0⟩) ∧
      (∀ l, vget u.rows l = 0 → t.link l = s.link l) ∧
      (∀ l, vget u.rows l ≠ 0 → t.link l =
        { state := .offline
          rows := vget u.rows l
          cols := vget u.cols l
          rowMap := (List.range (vget u.rows l)).map (fun r => run.rowKinds.getD (32 * l.val + r) .symbol)
          queue := []
          stale := List.range (vget u.rows l)
          blink := []
          work := (s.link l).work
          failures := 0
          pass := none
          probeDue := true
          probeTimer := false
          frameOut := (s.link l).frameOut }) ∧
      SameButMarks { s with
        bp := { s.bp with windows := u.windows }
        qe := { s.qe with countdowns := t.qe.countdowns, due := t.qe.due }
        bc := { s.bc with
          blinkTenths := u.blinkTenths, sweepSeconds := u.sweepSeconds, sweepCount := 0, links := t.bc.links
          placements := run.placements }
        tc := { s.tc with
          pace := u.pace, threshold := u.threshold, late1 := u.late1, late2 := u.late2, back := u.back
          timerRunning := true }
        pt := { s.pt with poll := u.poll, pointer := 0 }
        cs := { s.cs with feedTimeout := u.feedTimeout, lineFunctions := u.functions }
        cr := { s.cr with
          part := .ready, running := none, mask := u.mask, status := ⟨0x01, .done, .none⟩
          flags := s.cr.flags ||| 0x0002 } } t

/-- LOAD_REFUSED: when a check has failed the part is UNCONFIGURED with every block in its reset state, the diagnostic holds the reason
and index, LOAD is REFUSED SETUP with CMD the one flag set, and every report word is dirty; the clock, trim, NOT SET, line levels,
shadows, anchor, memory and report entries are kept (R197). LOAD_READ_ANSWER ends the LOAD so in the event of the word that fails a check:
a pointer (13) or a window (1 to 4) at the hundredth configuration word, the first that fails; a base code (5), a name's form (7) or a
name twice (6) at a directory entry; a row (12); a placement (8 to 11), in the order of its checks (R29, R66, R68, R195). The model's own
readings, all DEDUCED: what is going out from before the LOAD is kept (log entry 29); within one window descriptor the reasons 1 to 4 are
tried in their order (log entry 17); a row map entry is checked, and refused, in the event of its word (log entry 18). -/
def Obligations.LoadIsRefused : Prop :=
  (∀ s run reason index, s.resetPin = false → IdleOutsideReady s → s.cr.part = .loading run →
    run.failed = some (reason, index) →
    ∃ t, exec .loadRefused s = .next t ∧ AllDirty reportOffsets t ∧ t.attn = false ∧ s.bp.queue <+: t.bp.queue ∧
      SameButMarks { s with
        bp := { s.bp with windows := [] }
        qe := .reset
        cs := { s.cs with
          session := .closed, rollNext := none, lineFunctions := Vector.replicate 4 .none, feedStale := false
          feedTimeout := 0, feedCount := 0 }
        cr := { CommandReport.reset with
          shadows := s.cr.shadows, status := ⟨0x01, .refused, .setup⟩, flags := 0x0002
          diagReason := reason, diagIndex := index } } t) ∧
  ∀ s run, LoadReads s run →
    (let refuses (reason index : Nat) : Prop := ∃ t, exec .loadReadAnswer s = .next t ∧ LoadEndsRefused reason index t
     (run.phase = .configuration → run.words.length = 99 →
       (let anchor := s.bp.anchor.toNat
        let ws := run.words ++ [s.mem.readWord (anchor + 123)]
        let second := 2 * min 1024 (cfgWord ws 30).toNat
        (PointerBad ws 26 1024 → refuses 13 0) ∧
        (¬ PointerBad ws 26 1024 → PointerBad ws 28 second → refuses 13 1) ∧
        (¬ PointerBad ws 26 1024 → ¬ PointerBad ws 28 second → PointerBad ws 31 128 → refuses 13 2) ∧
        (∀ n : Fin 8, PointersGood ws → (∀ m, m < n → DescriptorPasses anchor ws m) →
          (cfgWord ws (60 + 8 * n.val)).getLsbD 15 = true →
          (let earlier := enabledWindows ws (allDescriptors.take n.val)
           ((cfgWord ws (60 + 8 * n.val)).toNat / 256 % 4 = 0 → refuses 1 n.val) ∧
           (∀ w, windowOf ws n = some w →
             (w.LimitBad earlier → refuses 1 n.val) ∧
             (¬ w.LimitBad earlier → w.GeometryBad → refuses 2 n.val) ∧
             (¬ w.LimitBad earlier → ¬ w.GeometryBad → w.OverlapBad anchor earlier → refuses 3 n.val) ∧
             (¬ w.LimitBad earlier → ¬ w.GeometryBad → ¬ w.OverlapBad anchor earlier → w.OffsetsBad →
               refuses 4 n.val)))))) ∧
     (∀ u w0 w1 w2 (n : Slot), run.setup = some u → run.phase = .directory → run.words = [w0, w1, w2] → run.entry = n.val →
       (let w3 := s.mem.readWord (u.directory + 4 * n.val + 3)
        let code := w3.toNat % 256
        w3.getLsbD 15 = true →
        (code ≠ 8 → code ≠ 16 → code ≠ 32 → refuses 5 n.val) ∧
        (code = 8 ∨ code = 16 ∨ code = 32 → (∀ name, ¬ NameIs w0 w1 name) → refuses 7 n.val) ∧
        (∀ name (m : Slot), code = 8 ∨ code = 16 ∨ code = 32 → NameIs w0 w1 name → m < n → (s.slot m).state ≠ .unused →
          (s.slot m).name = name → refuses 6 n.val))) ∧
     (∀ u (l : LinkId) row, run.setup = some u → run.phase = .rowMap → row < vget u.rows l → row < 32 →
       run.entry = 32 * l.val + row → (∀ kind, ¬ RowKindIs u (s.mem.readWord (u.rowMap + run.entry)) kind) →
       refuses 12 run.entry) ∧
     (∀ u w0 kind, run.setup = some u → run.phase = .placements → run.words = [w0] → run.entry < u.placementCount →
       (let w1 := s.mem.readWord (u.placementList + 2 * run.entry + 1)
        let p := placementOf w0 w1 kind
        ((s.slot p.slot).state = .unused → refuses 8 run.entry) ∧
        ((s.slot p.slot).state ≠ .unused → w0.toNat % 8 = 0 ∨ p.PlaceBad u run.rowKinds → refuses 9 run.entry) ∧
        ((s.slot p.slot).state ≠ .unused → w0.toNat % 8 ≠ 0 → ¬ p.PlaceBad u run.rowKinds → p.CellBad run.placements →
          refuses 10 run.entry) ∧
        ((s.slot p.slot).state ≠ .unused → w0.toNat % 8 ≠ 0 → ¬ p.PlaceBad u run.rowKinds → ¬ p.CellBad run.placements →
          p.CountBad run.placements → refuses 11 run.entry))))

/-! ### Boards -/

/-- TEXT_WRITE: a write to a line makes a ROW request for each row that shows it, links and rows ascending: on an ONLINE link the row is
then owed a sending; every other link, every other entry and stale row, every placement and text read stays as it was (R73). A ROW
request is dropped when the row is owed; else it takes the place of the earliest CELL of its row, the row's others leaving; else it is
appended while the queue holds fewer than 32; else its row is stale; and only an ONLINE link takes one (R88, R89). -/
def Obligations.TextWriteOwesRows : Prop :=
  (∀ s a d lanes w line, PortFree s → target s a = .text w line →
    ∃ t, exec (.textWrite a d lanes) s = .next t ∧
      (let shows (l : LinkId) (r : Nat) : Prop := (s.link l).rowMap[r]? = some (RowKind.text w line)
       (∀ l, ∃ rows : List Nat, rows.Pairwise (· < ·) ∧ (∀ r, r ∈ rows ↔ shows l r) ∧
         t.link l = rows.foldl s.bc.rowRequestOn (s.link l)) ∧
       (∀ l r, (s.link l).state = .online → shows l r → (t.link l).owed r = true) ∧
       (∀ l, (s.link l).state ≠ .online ∨ (∀ r, ¬ shows l r) → t.link l = s.link l) ∧
       (∀ l r, r ∈ (s.link l).stale → r ∈ (t.link l).stale) ∧
       (∀ l r, r ∈ (t.link l).stale → r ∈ (s.link l).stale ∨ shows l r) ∧
       (∀ l e, e ∈ (s.link l).queue → (∀ r, shows l r → s.bc.isCellOf r e = false) → e ∈ (t.link l).queue) ∧
       (∀ l e, e ∈ (t.link l).queue → e ∈ (s.link l).queue ∨ ∃ r, e = .row r ∧ shows l r) ∧
       (∀ l, { t.link l with queue := (s.link l).queue, stale := (s.link l).stale } = s.link l) ∧
       SameButMarks { s with
         mem := s.mem.writeWord a.toNat d lanes
         bc := { s.bc with links := t.bc.links } } t)) ∧
  (∀ (b : BoardController) (k : Link) r,
    (k.state ≠ .online ∨ r ∈ k.stale ∨ RefreshEntry.row r ∈ k.queue → b.rowRequestOn k r = k) ∧
    (k.state = .online → r ∉ k.stale → RefreshEntry.row r ∉ k.queue →
      (∀ earlier p q later, k.queue = earlier ++ .cell p :: later → b.placements[p]? = some q → q.row = r →
        (∀ e ∈ earlier, b.isCellOf r e = false) →
        b.rowRequestOn k r =
          { k with queue := earlier ++ .row r :: later.filter (fun e => b.isCellOf r e = false) }) ∧
      ((∀ e ∈ k.queue, b.isCellOf r e = false) → k.queue.length < 32 →
        b.rowRequestOn k r = { k with queue := k.queue ++ [.row r] }) ∧
      ((∀ e ∈ k.queue, b.isCellOf r e = false) → 32 ≤ k.queue.length →
        ∃ stale, (∀ x, x ∈ stale ↔ x = r ∨ x ∈ k.stale) ∧ b.rowRequestOn k r = { k with stale := stale })))

/-- BLINK_EXPIRY: the cells whose time is 0 leave every blink list, and each asks its ONLINE link for a refresh: its cell is then queued or
its row owed, and every other entry and stale row stands as it was (R80, R87). SWEEP_EXPIRY: the count returns to 0 and every ONLINE
link without a pass begins one, except in DIMMING (R101); that the row is taken whatever the sweep count has come to is the model's
choice (DESIGN CHOICE, log entry 1). REPAINT: every row of each ONLINE link named is stale, and the command is DONE (R103). -/
def Obligations.BlinkSweepAndRepaint : Prop :=
  (∀ s, s.resetPin = false →
    ∃ t, exec .blinkExpiry s = .next t ∧
      (∀ l, (t.link l).blink = (s.link l).blink.filter (fun c => c.remaining != 0)) ∧
      (∀ l c q, c ∈ (s.link l).blink → c.remaining = 0 → s.bc.placements[c.placement]? = some q →
        (s.link q.link).state = .online →
        RefreshEntry.cell c.placement ∈ (t.link q.link).queue ∨ (t.link q.link).owed q.row = true) ∧
      RefreshedFor s t (fun c => c.remaining = 0) ∧
      (∀ l, { t.link l with
        queue := (s.link l).queue, stale := (s.link l).stale, blink := (s.link l).blink } = s.link l) ∧
      SameButMarks { s with bc := { s.bc with links := t.bc.links } } t) ∧
  (∀ s, s.resetPin = false → s.isReady = true → s.bc.sweepSeconds ≠ 0 →
    ∃ t, exec .sweepExpiry s = .next t ∧
      (∀ l, t.link l =
        if (s.link l).state = .online ∧ (s.link l).pass = none ∧ s.cs.session ≠ .dimming then
          { s.link l with pass := some 0 } else s.link l) ∧
      SameButMarks { s with bc := { s.bc with sweepCount := 0, links := t.bc.links } } t) ∧
  (∀ s x, TakesCommands s →
    ∃ t, exec (.repaint x) s = .next t ∧ 8 ∈ t.cr.dirty ∧
      (∀ l, t.link l =
        if x.getLsbD l.val = true ∧ (s.link l).state = .online then
          { s.link l with stale := List.range (s.link l).rows } else s.link l) ∧
      (let b := withCommandWord s 0x0D x
       SameButMarks (answered { b with bc := { b.bc with links := t.bc.links } } 0x0D .done .none) t))

/-- TAKE_WORK: a link with no work in hand takes the head of its queue, else the lowest stale row, else the row at its sweep pointer, and
an OFFLINE link that owes one takes a probe; the frame that begins is composed then, and a line read that begins asks for its first word
when no other is presented. A link with work in hand, or with nothing owed, takes nothing (R72, R85, R92, R93, R94, R99, R102). A cell's
text fills its width exactly and shows its field as chapter 1 writes and fits it, in the field's colour (R20 to R26, R69); a frame holds its
bytes as Table 11-9 lays them out, with its check byte, and each byte is on the line as R204 gives. A SYMBOL row begins with its
erase-row frame, and its cells are the placements of that link and row, each once, in ascending column order (R67, R93). A cell blinks
when its placement is in the blink list (R70). -/
def Obligations.TakeWorkChoosesNext : Prop :=
  (∀ r k w, (cellText r k w).length = w ∧ FieldColoured r (cellColour r k) k ∧
    (Priced r → FieldShows r w (cellText r k w) k)) ∧
  (∀ e row column blink c chars, row < 32 → column < 64 → chars.length ≤ 48 →
    BoardFrameIs e row column blink c chars (boardFrame e row column blink c chars)) ∧
  (∀ k : Link, OnLineIs k.frameOut k.lineOut) ∧
  (∀ (k : Link) p, k.blinks p = true ↔ ∃ c ∈ k.blink, c.placement = p) ∧
  (∀ (b : BoardController) l r,
    (∀ p, p ∈ b.rowPlacements l r ↔ ∃ q, b.placements[p]? = some q ∧ q.link = l ∧ q.row = r) ∧
    (b.rowPlacements l r).Nodup ∧
    (b.rowPlacements l r).Pairwise (fun p p' => ∀ q q', b.placements[p]? = some q → b.placements[p']? = some q' →
      q.column ≤ q'.column)) ∧
  (∀ s l p q pl, s.resetPin = false → (s.link l).work = none → (s.link l).state = .online →
    (s.link l).queue = .cell p :: q → s.bc.placements[p]? = some pl →
    ∃ t, exec (.takeWork l) s = .next t ∧
      LinksBecome s (vset s.bc.links l { s.link l with
        queue := q
        work := some ⟨.cell p, .sending, false, false⟩
        frameOut := boardFrame .none pl.row pl.column ((s.link l).blinks p) (cellColour (s.slot pl.slot) pl.kind)
          (cellText (s.slot pl.slot) pl.kind pl.width) }) t) ∧
  (∀ s l r k fromPass, s.resetPin = false → (s.link l).work = none → (s.link l).state = .online →
    (∃ q, (s.link l).queue = .row r :: q ∧ k = { s.link l with queue := q } ∧ fromPass = false) ∨
      (∃ rs, (s.link l).queue = [] ∧ (s.link l).stale = r :: rs ∧ k = s.link l ∧ fromPass = false) ∨
      ((s.link l).queue = [] ∧ (s.link l).stale = [] ∧ (s.link l).pass = some r ∧ k = s.link l ∧ fromPass = true) →
    ((s.link l).rowMap[r]? = some .symbol →
      ∃ t, exec (.takeWork l) s = .next t ∧
        LinksBecome s (vset s.bc.links l { k with
          stale := k.stale.filter (fun x => x ≠ r)
          work := some ⟨.symbolRow r (s.bc.rowPlacements l r), .sending, fromPass, false⟩
          frameOut := boardFrame .row r 0 false .white [] }) t) ∧
    (∀ w n x, (s.link l).rowMap[r]? = some (.text w n) → s.bp.windows.find? (fun v => decide (v.index = w)) = some x →
      ∃ t, exec (.takeWork l) s = .next t ∧
        LinksBecome s (vset s.bc.links l { k with
          stale := k.stale.filter (fun x => x ≠ r)
          work := some ⟨.textRow r, .reading ⟨x.base + 24 * n, (k.cols + 1) / 2, []⟩, fromPass, false⟩ }) t)) ∧
  (∀ s l, s.resetPin = false → (s.link l).work = none → (s.link l).state = .offline → (s.link l).probeDue = true →
    ∃ t, exec (.takeWork l) s = .next t ∧
      LinksBecome s (vset s.bc.links l { s.link l with
        probeDue := false
        work := some ⟨.probe, .sending, false, false⟩
        frameOut := [0x00, 0x00, 0x00, 0x00, 0xA6] }) t) ∧
  (∀ s l, s.resetPin = false → (s.link l).work = none →
    (s.link l).state = .unused ∨ (s.link l).state = .dark ∨ ((s.link l).state = .offline ∧ (s.link l).probeDue = false) ∨
      ((s.link l).state = .online ∧ (s.link l).queue = [] ∧ (s.link l).stale = [] ∧ (s.link l).pass = none) →
    ∃ t, exec (.takeWork l) s = .next t ∧ LinksBecome s s.bc.links t) ∧
  (∀ s l w, s.resetPin = false → (s.link l).work = some w → ∃ t, exec (.takeWork l) s = .next t ∧ SameButMarks s t)

/-- FRAME_SENT starts the answer wait. BOARD_ACK: a good ACK ends a cell, a text row or a SYMBOL row's last frame with the failure
count 0 and the sweep pointer moved past a row the pass sent, begins the next cell of a SYMBOL row, and brings an OFFLINE link whose
probe it answers ONLINE with BOARD set and LINK STATES marked; the answer of a blank-all, or of a frame that a DARK or a LOAD overtook,
ends its piece and nothing more; an answer that is not a good ACK changes nothing (R93, R95, R96, R99, R100, R102, R105, R106, R204). That
this is so too of a good ACK with a further byte behind it in the command's list is the model's choice (DESIGN CHOICE, log entry 38). A
good ACK while no frame of the link is waiting is discarded (R95); that a frame still going out is not yet waiting is DEDUCED (log entry
16). Each holds while something still keeps the session out of DARK; the ACK that leaves nothing is in the statement on DARK. -/
def Obligations.BoardsAnswer : Prop :=
  (∀ s l w, s.resetPin = false → (s.link l).work = some w → w.phase = .sending →
    ∃ t, exec (.frameSent l) s = .next t ∧
      SameButMarks { s with bc := { s.bc with
        links := vset s.bc.links l { s.link l with work := some { w with phase := .waiting } } } } t) ∧
  (∀ s l w r, s.resetPin = false → (s.link l).work = some w → w.phase = .waiting → w.discard = false →
    w.piece = .textRow r ∨ w.piece = .symbolRow r [] ∨ w.piece = .cell r →
    KeptLit s l ∨ ((s.link l).state = .online ∧ ((s.link l).queue ≠ [] ∨ (s.link l).stale ≠ [])) →
    ∃ t, exec (.boardAck l [0xC3, 0xE3]) s = .next t ∧
      SameButMarks { s with bc := { s.bc with
        links := vset s.bc.links l { s.link l with
          work := none, failures := 0, pass := passAfter (s.link l) w.fromPass } } } t) ∧
  (∀ s l w r p rest pl, s.resetPin = false → (s.link l).work = some w → w.phase = .waiting → w.discard = false →
    w.piece = .symbolRow r (p :: rest) → s.bc.placements[p]? = some pl → KeptLit s l ∨ (s.link l).state = .online →
    ∃ t, exec (.boardAck l [0xC3, 0xE3]) s = .next t ∧
      SameButMarks { s with bc := { s.bc with links := vset s.bc.links l { s.link l with
        work := some { w with piece := .symbolRow r rest, phase := .sending }
        failures := 0
        frameOut := boardFrame .none pl.row pl.column ((s.link l).blinks p) (cellColour (s.slot pl.slot) pl.kind)
          (cellText (s.slot pl.slot) pl.kind pl.width) } } } t) ∧
  (∀ s l w, s.resetPin = false → (s.link l).state = .offline → (s.link l).work = some w →
    w = ⟨.probe, .waiting, false, false⟩ → KeptLit s l ∨ (s.link l).queue ≠ [] ∨ (s.link l).stale ≠ [] →
    ∃ t, exec (.boardAck l [0xC3, 0xE3]) s = .next t ∧ 20 ∈ t.cr.dirty ∧
      SameButMarks { s with
        bc := { s.bc with
          links := vset s.bc.links l { s.link l with work := none, state := .online, failures := 0 } }
        cr := { s.cr with flags := s.cr.flags ||| 0x0004 } } t) ∧
  (∀ s l w, s.resetPin = false → (s.link l).work = some w → w.phase = .waiting → w.discard = true → KeptLit s l →
    ∃ t, exec (.boardAck l [0xC3, 0xE3]) s = .next t ∧
      SameButMarks { s with bc := { s.bc with
        links := vset s.bc.links l { s.link l with work := none, pass := passAfter (s.link l) w.fromPass } } } t) ∧
  (∀ s l, s.resetPin = false → (∀ w, (s.link l).work = some w → w.phase ≠ .waiting) →
    s.cs.session ≠ .dimming ∨ s.isReady = false ∨ s.bc.drained = false ∨ s.tc.isEmpty = false →
    ∃ t, exec (.boardAck l [0xC3, 0xE3]) s = .next t ∧ SameButMarks s t) ∧
  (∀ s l bytes, s.resetPin = false → bytes ≠ [0xC3, 0xE3] →
    ∃ t, exec (.boardAck l bytes) s = .next t ∧ SameButMarks s t)

/-- ANSWER_WAIT_EXPIRY: the row of an unanswered frame is stale again and the piece is abandoned; the failure count rises, and the third
takes the link OFFLINE with its queue and blink list empty, every row stale, no pass, and a probe owed; an unanswered probe starts the
interval; an unanswered frame whose answer was to be discarded ends its piece and nothing more. PROBE_INTERVAL_EXPIRY takes the next probe
(R97, R98, R99, R102, R105, R106). A miss after which nothing keeps the session out of DARK is in the statement on DARK. -/
def Obligations.BoardsMissAnswers : Prop :=
  (∀ s l w r, s.resetPin = false → (s.link l).state = .online → (s.link l).work = some w →
    w.phase = .waiting → w.discard = false →
    w.piece = .textRow r ∨ (∃ rest, w.piece = .symbolRow r rest) ∨ (∃ p pl, w.piece = .cell p ∧
      s.bc.placements[p]? = some pl ∧ pl.row = r) →
    ((s.link l).failures < 2 →
      ∃ t, exec (.answerWaitExpiry l) s = .next t ∧
        (∀ x, x ∈ (t.link l).stale ↔ x = r ∨ x ∈ (s.link l).stale) ∧
        SameButMarks { s with bc := { s.bc with links := vset s.bc.links l { s.link l with
          work := none, stale := (t.link l).stale, failures := (s.link l).failures + 1
          pass := passAfter (s.link l) w.fromPass } } } t) ∧
    ((s.link l).failures = 2 → KeptLit s l →
      ∃ t, exec (.answerWaitExpiry l) s = .next t ∧ 20 ∈ t.cr.dirty ∧
        SameButMarks { s with
          bc := { s.bc with links := vset s.bc.links l { s.link l with
            state := .offline, work := none, queue := [], blink := [], stale := List.range (s.link l).rows
            pass := none, failures := 0, probeDue := true, probeTimer := false } }
          cr := { s.cr with flags := s.cr.flags ||| 0x0004 } } t)) ∧
  (∀ s l, s.resetPin = false → KeptLit s l → (s.link l).state = .offline →
    (s.link l).work = some ⟨.probe, .waiting, false, false⟩ →
    ∃ t, exec (.answerWaitExpiry l) s = .next t ∧
      SameButMarks { s with bc := { s.bc with
        links := vset s.bc.links l { s.link l with work := none, probeTimer := true } } } t) ∧
  (∀ s l w, s.resetPin = false → (s.link l).work = some w → w.phase = .waiting → w.discard = true → KeptLit s l →
    ∃ t, exec (.answerWaitExpiry l) s = .next t ∧
      SameButMarks { s with bc := { s.bc with
        links := vset s.bc.links l { s.link l with work := none, pass := passAfter (s.link l) w.fromPass } } } t) ∧
  (∀ s l, s.resetPin = false → (s.link l).state = .offline → (s.link l).probeTimer = true → (s.link l).work = none →
    ∃ t, exec (.probeIntervalExpiry l) s = .next t ∧
      LinksBecome s (vset s.bc.links l { s.link l with
        probeTimer := false
        probeDue := false
        work := some ⟨.probe, .sending, false, false⟩
        frameOut := [0x00, 0x00, 0x00, 0x00, 0xA6] }) t)

/-- TEXT_LINE_READ_ANSWER: with the port its own, the presented line read takes memory's word, two characters, and asks for the next
word, the links that read taking turns from the one after this; at the last word the row goes out as one white, steady frame of exactly
the link's columns, a code that names no character as a space (R51, R59, R71, R72). The board's characters are the codes 20H to 5FH and
81H to 8EH (Tables 11-11 and 11-12). -/
def Obligations.TextLineReadTakesWord : Prop :=
  (∀ c, (0x20 ≤ c.toNat ∧ c.toNat ≤ 0x5F) ∨ (0x81 ≤ c.toNat ∧ c.toNat ≤ 0x8E) → boardChar c = c) ∧
  (∀ c, ¬ ((0x20 ≤ c.toNat ∧ c.toNat ≤ 0x5F) ∨ (0x81 ≤ c.toNat ∧ c.toNat ≤ 0x8E)) → boardChar c = 0x20) ∧
  ∀ s l r ln fromPass discard, s.resetPin = false → s.bp.held = none → s.bp.port = some .textRead →
    s.bc.textRequest = some l →
    (s.link l).work = some ⟨.textRow r, .reading ln, fromPass, discard⟩ →
    (let w := s.mem.readWord ln.address
     let chars := ln.chars ++ [hiByte w, loByte w]
     let answeredWith (k : Link) : Prop :=
       ∃ t, exec .textLineReadAnswer s = .next t ∧ RotationPicks l (vset s.bc.links l k) t.bc.textRequest ∧
         SameButMarks { s with bc := { s.bc with
           links := vset s.bc.links l k, textLast := l, textRequest := t.bc.textRequest } } t
     (1 < ln.remaining → answeredWith { s.link l with
       work := some ⟨.textRow r, .reading ⟨ln.address + 1, ln.remaining - 1, chars⟩, fromPass, discard⟩ }) ∧
     (ln.remaining = 1 → answeredWith { s.link l with
       work := some ⟨.textRow r, .sending, fromPass, discard⟩
       frameOut := boardFrame .none r 0 false .white ((chars.take (s.link l).cols).map boardChar) }))

/-! ### The tape -/

/-- BULLETIN_WRITE: the shadow takes the lanes written; a full write of word 7 appends the bulletin, trailing spaces left out and a code
that names no character as a space, with the OMIT mark when one is pending; a full queue drops it and counts it, and an empty text is
not enqueued (R112, R113, R111). The tape's characters are the codes 20H to 5FH and 81H to 90H, OMIT and LOTS among them (Tables 11-11 and
11-12). -/
def Obligations.BulletinIsShadowedAndQueued : Prop :=
  (∀ c, (0x20 ≤ c.toNat ∧ c.toNat ≤ 0x5F) ∨ (0x81 ≤ c.toNat ∧ c.toNat ≤ 0x90) → tapeChar c = c) ∧
  (∀ c, ¬ ((0x20 ≤ c.toNat ∧ c.toNat ≤ 0x5F) ∨ (0x81 ≤ c.toNat ∧ c.toNat ≤ 0x90)) → tapeChar c = 0x20) ∧
  ∀ s a d lanes i, PortFree s → target s a = .bulletin i →
    (let m := s.mem.writeWord a.toNat d lanes
     let old := vget s.tc.shadow i
     let new : Word := match lanes with
       | .both => d
       | .high => wordOf (hiByte d) (loByte old)
       | .low => wordOf (hiByte old) (loByte d)
     let shadow := vset s.tc.shadow i new
     let text := trimRight ((shadow.toList.flatMap (fun w => [hiByte w, loByte w])).map tapeChar)
     (i ≠ 7 ∨ lanes ≠ .both ∨ text = [] →
       ∃ t, exec (.bulletinWrite a d lanes) s = .next t ∧
         SameButMarks { s with mem := m, tc := { s.tc with shadow := shadow } } t) ∧
     (i = 7 → lanes = .both → text ≠ [] → s.tc.queue.length < 96 →
       ∃ t, exec (.bulletinWrite a d lanes) s = .next t ∧
         SameButMarks { s with
           mem := m
           tc := { s.tc with
             shadow := shadow, queue := s.tc.queue ++ [.bulletin text s.tc.omitPending], omitPending := false } } t) ∧
     (i = 7 → lanes = .both → text ≠ [] → 96 ≤ s.tc.queue.length →
       ∃ t, exec (.bulletinWrite a d lanes) s = .next t ∧ t.tc.omitted.toNat = min 65535 (s.tc.omitted.toNat + 1) ∧
         SameButMarks { s with
           mem := m
           tc := { s.tc with shadow := shadow, omitted := t.tc.omitted, omitPending := true } } t))

/-- A TRADE notice joins the tape as a print at the tail; against a full queue it is merged into the youngest print of its slot among
the youngest eight, its place, stamp and mark kept, its price the new one and its size the sum held to 65535, or dropped and counted with
an OMIT mark pending (R109, R110, R111). A notice of any other cause leaves the tape as it is (R17). -/
def Obligations.TradesJoinTheTape : Prop :=
  ∀ (tc : TapeController) (n : Notice),
    (n.trade = none → tc.notice n = tc) ∧
    ∀ d, n.trade = some d →
      (tc.queue.length < 96 →
        tc.notice n =
          { tc with queue := tc.queue ++ [.trade n.slot d.price d.size d.stamp tc.omitPending], omitPending := false }) ∧
      (∀ older younger p z st om, 96 ≤ tc.queue.length → tc.queue = older ++ [.trade n.slot p z st om] ++ younger →
        younger.length < 8 → (∀ x ∈ younger, ∀ p' z' st' om', x ≠ .trade n.slot p' z' st' om') →
        (let size := match z, d.size with
          | some a, some b => some (BitVec.ofNat 16 (min 65535 (a.toNat + b.toNat)))
          | some a, none => some a
          | none, some b => some b
          | none, none => none
         tc.notice n = { tc with queue := older ++ [.trade n.slot d.price size st om] ++ younger })) ∧
      (96 ≤ tc.queue.length →
        (∀ x ∈ tc.queue.drop (tc.queue.length - 8), ∀ p' z' st' om', x ≠ .trade n.slot p' z' st' om') →
        (tc.notice n).omitted.toNat = min 65535 (tc.omitted.toNat + 1) ∧
        tc.notice n = { tc with omitted := (tc.notice n).omitted, omitPending := true })

/-- TAPE_PACE_EXPIRY: the current print goes on; with none current a hold sends nothing, else the reserved bulletin starts, else the head
of the queue, else FILL goes out. A TRADE print's start measures its lateness, sets the mode by the bounds, and takes the memo of its slot;
a change of mode sets TAPE, marks the status lines, and puts DELAYED n MIN in the reserved place when the mode rises, CURRENT when it goes
from COMPACT to FULL, and nothing from SHORT to COMPACT (R114, R116 to R121, R124). TAPE CLEAR empties the queue and the reserved place
alone (R125). Each holds while the tape, a link or the session keeps the floor out of DARK; the expiry that empties the last of it is in
the statement on DARK. The text of a TRADE print is that of R122 and R123 (of a SHORT price below one dollar the model's reading, DEDUCED,
log entry 19), and a character is on the line as R204 gives. -/
def Obligations.TapeRuns : Prop :=
  (∀ mode threshold memo r price size omitMark, r.base ≠ .none →
    TradeTextIs mode threshold memo r price size omitMark (tradeText mode threshold memo r price size omitMark)) ∧
  (∀ tc : TapeController, OnLineIs tc.charOut.toList tc.lineOut) ∧
  (∀ s c cs, s.resetPin = false → s.tc.timerRunning = true → s.tc.current = c :: cs →
    s.cs.session ≠ .dimming ∨ s.isReady = false ∨ s.bc.drained = false ∨ cs ≠ [] ∨ s.tc.queue ≠ [] ∨ s.tc.reserved ≠ none →
    ∃ t, exec .tapePaceExpiry s = .next t ∧
      SameButMarks { s with tc := { s.tc with charOut := some c, current := cs } } t) ∧
  (∀ s, s.resetPin = false → s.tc.timerRunning = true → s.tc.current = [] →
    (let keptLit := s.cs.session ≠ .dimming ∨ s.isReady = false ∨ s.bc.drained = false
     (s.tapeHold = true → keptLit ∨ s.tc.queue ≠ [] ∨ s.tc.reserved ≠ none →
       ∃ t, exec .tapePaceExpiry s = .next t ∧ SameButMarks { s with tc := { s.tc with charOut := none } } t) ∧
     (∀ text, s.tapeHold = false → s.tc.reserved = some text →
       ∃ t, exec .tapePaceExpiry s = .next t ∧
         SameButMarks { s with tc := { s.tc with
           reserved := none
           charOut := (text ++ [0x20, 0x20, 0x20]).head?
           current := (text ++ [0x20, 0x20, 0x20]).tail } } t) ∧
     (∀ text om q, s.tapeHold = false → s.tc.reserved = none → s.tc.queue = .bulletin text om :: q →
       ∃ t, exec .tapePaceExpiry s = .next t ∧
         (let out := (if om then [0x8F] else []) ++ text ++ [0x20, 0x20, 0x20]
          SameButMarks { s with tc := { s.tc with
            queue := q, charOut := out.head?, current := out.tail } } t)) ∧
     (s.tapeHold = false → s.tc.reserved = none → s.tc.queue = [] → keptLit →
       ∃ t, exec .tapePaceExpiry s = .next t ∧ SameButMarks { s with tc := { s.tc with charOut := some 0x20 } } t) ∧
     (∀ n p z st om q, s.tapeHold = false → s.tc.reserved = none → s.tc.queue = .trade n p z st om :: q →
       s.cs.clock < 864000 → st < 864000 →
       ∃ t, exec .tapePaceExpiry s = .next t ∧
         (let d := (s.cs.clock + 864000 - st) % 864000
          let lateness := if 432000 < d then 0 else d / 10
          let minutes := min 99 (lateness / 60)
          let old := s.tc.mode
          let new := t.tc.mode
          let text := tradeText new s.tc.threshold (vget s.tc.memos n) (s.slot n) p z om
          (old = .full → new =
            if s.tc.late2 ≤ lateness then .short else if s.tc.late1 ≤ lateness then .compact else .full) ∧
          (old = .compact → new =
            if s.tc.late2 ≤ lateness then .short else if lateness ≤ s.tc.back then .full else .compact) ∧
          (old = .short → new = if lateness ≤ s.tc.back then .compact else .short) ∧
          (new = old → t.tc.reserved = none ∧ t.cr.flags = s.cr.flags ∧ t.pt = s.pt) ∧
          (new ≠ old → t.cr.flags = s.cr.flags ||| 0x0010 ∧ t.pt = s.pt.markStatusLines ∧ 6 ∈ t.cr.dirty) ∧
          ((old = .full ∧ new ≠ .full) ∨ (old = .compact ∧ new = .short) → t.tc.reserved = some (
            [0x44, 0x45, 0x4C, 0x41, 0x59, 0x45, 0x44, 0x20] ++
            (if minutes < 10 then [BitVec.ofNat 8 (0x30 + minutes)]
             else [BitVec.ofNat 8 (0x30 + minutes / 10), BitVec.ofNat 8 (0x30 + minutes % 10)]) ++
            [0x20, 0x4D, 0x49, 0x4E])) ∧
          (old = .compact → new = .full → t.tc.reserved = some [0x43, 0x55, 0x52, 0x52, 0x45, 0x4E, 0x54]) ∧
          (old = .short → new = .compact → t.tc.reserved = none) ∧
          SameButMarks { s with
            tc := { s.tc with
              queue := q, mode := new, reserved := t.tc.reserved, lateness := lateness
              memos := vset s.tc.memos n (some (p.toNat / (s.slot n).base.ticks))
              charOut := text.head?, current := text.tail }
            pt := t.pt
            cr := { s.cr with flags := t.cr.flags } } t)))) ∧
  (∀ s x, TakesCommands s →
    ∃ t, exec (.tapeClear x) s = .next t ∧ 8 ∈ t.cr.dirty ∧
      (let b := withCommandWord s 0x0E x
       SameButMarks (answered { b with tc := { b.tc with queue := [], reserved := none } } 0x0E .done .none) t))

/-! ### Terminals -/

/-- WATCH makes a HOST entry at the lowest empty place, or rewrites the slot's entry in its place, its alerts leaving the queue; UNWATCH
removes the entry whatever its origin. Each marks the line, keeps the subscriber set, and is DONE (R172, R175, R176, R185). -/
def Obligations.HostWatchesAndUnwatches : Prop :=
  ∀ s x (u : TermId) (n : Slot), TakesCommands s → x.toNat = u.val → (s.param 0).toNat = n.val →
    (let e : WatchEntry :=
       { slot := n, origin := .host, code := Fin.ofNat 8 ((s.param 1).toNat % 8), negate := (s.param 1).getLsbD 3
         limit := s.param 2, hysteresis := BitVec.ofNat 8 (min 255 (s.param 3).toNat), reference := (s.slot n).last
         side := .unknown, alerted := false }
     let r := s.term u
     (∀ i : Fin 12, (s.slot n).state ≠ .unused → ¬ r.Watches n → vget r.watch i = none →
       (∀ j, j < i → vget r.watch j ≠ none) →
       ∃ t, exec (.watch x) s = .next t ∧ 8 ∈ t.cr.dirty ∧
         (∀ line, line ∈ (t.term u).dirty ↔ line ∈ r.dirty ∨ line = i.val + 1) ∧
         (let b := withCommandWord s 0x0A x
          SameButMarks (answered { b with pt := { b.pt with
            terminals := vset b.pt.terminals u { r with watch := vset r.watch i (some e), dirty := (t.term u).dirty }
            subscribers := vset b.pt.subscribers n (vget t.pt.subscribers n) } } 0x0A .done .none) t) ∧
         (∀ v, v ∈ vget t.pt.subscribers n ↔ v ∈ vget s.pt.subscribers n ∨ v = u.val)) ∧
     (∀ (i : Fin 12) old, (s.slot n).state ≠ .unused → vget r.watch i = some old → old.slot = n →
       (∀ j, j < i → ∀ f, vget r.watch j = some f → f.slot ≠ n) →
       ∃ t, exec (.watch x) s = .next t ∧ 8 ∈ t.cr.dirty ∧
         (∀ line, line ∈ (t.term u).dirty ↔ line ∈ r.dirty ∨ line = i.val + 1) ∧
         (let b := withCommandWord s 0x0A x
          SameButMarks (answered { b with pt := { b.pt with
            terminals := vset b.pt.terminals u { r with
              watch := vset r.watch i (some e)
              dirty := (t.term u).dirty
              alerts := r.alerts.filter (fun a => a != i.val + 1) } } } 0x0A .done .none) t)) ∧
     (∀ (i : Fin 12) old, vget r.watch i = some old → old.slot = n →
       (∀ j, j < i → ∀ f, vget r.watch j = some f → f.slot ≠ n) →
       ∃ t, exec (.unwatch x) s = .next t ∧ 8 ∈ t.cr.dirty ∧
         (∀ line, line ∈ (t.term u).dirty ↔ line ∈ r.dirty ∨ line = i.val + 1) ∧
         (let b := withCommandWord s 0x0B x
          SameButMarks (answered { b with pt := { b.pt with
            terminals := vset b.pt.terminals u { r with
              watch := vset r.watch i none
              dirty := (t.term u).dirty
              alerts := r.alerts.filter (fun a => a != i.val + 1) }
            subscribers := vset b.pt.subscribers n
              ((vget b.pt.subscribers n).filter (fun v => v ≠ u.val)) } } 0x0B .done .none) t)))

/-- STATUS TEXT gives the named terminal, or all sixteen for 0FFH, the 8 characters of P0 to P3, a code that names no character as a
space, marks line 0, and is DONE; any other operand above 15 is refused RANGE (R168). -/
def Obligations.StatusTextIsTaken : Prop :=
  ∀ s x, TakesCommands s →
    (let text := (([s.param 0, s.param 1, s.param 2, s.param 3].flatMap (fun w => [hiByte w, loByte w])).map boardChar)
     let b := withCommandWord s 0x0C x
     (∀ u : TermId, x.toNat = u.val →
       ∃ t, exec (.statusText x) s = .next t ∧ 8 ∈ t.cr.dirty ∧
         (∀ line, line ∈ (t.term u).dirty ↔ line ∈ (s.term u).dirty ∨ line = 0) ∧
         SameButMarks (answered { b with pt := { b.pt with
           terminals := vset b.pt.terminals u { s.term u with statusText := text, dirty := (t.term u).dirty } } }
           0x0C .done .none) t) ∧
     (x = 0xFF →
       ∃ t, exec (.statusText x) s = .next t ∧ 8 ∈ t.cr.dirty ∧
         (∀ u, (∀ line, line ∈ (t.term u).dirty ↔ line ∈ (s.term u).dirty ∨ line = 0) ∧
           t.term u = { s.term u with statusText := text, dirty := (t.term u).dirty }) ∧
         SameButMarks (answered { b with pt := { b.pt with terminals := t.pt.terminals } } 0x0C .done .none) t) ∧
     (16 ≤ x.toNat → x ≠ 0xFF → ∃ t, exec (.statusText x) s = .next t ∧ RefusedWith s 0x0C x .range t))

/-- TURN_START: in READY with no turn in hand, the pointer passes over entries above 15 to the next that names a terminal, wrapping, and
that terminal takes its turn; a list that names none starts none (R148). An ONLINE terminal is sent the line at the head of its alert
queue with the bell, else line 13, else line 0, else the lowest dirty watch line, and the line leaves the dirty set; with nothing owed,
or OFFLINE, it is sent a bare poll (R159, R160). TERMINAL_FRAME_SENT starts the answer wait (R149). Each line's 40 characters are those of
Tables 8-3 and 8-4 and R158, in reverse video when it shows an alerted entry (R154, R156, R158); a frame holds its bytes as Table 11-10
lays them out, with its check byte, and each byte is on the loop as R204 gives. -/
def Obligations.TurnsBegin : Prop :=
  (∀ s r line, line < 14 → ClockInRange s → r.Bounded →
    (∀ n, ShownSlot r line n → Priced (s.slot n) ∧ (s.slot n).name.length ≤ 4) →
    (lineText s r line).length = 40 ∧ LineIs s r line (lineText s r line) ∧
    (lineReversed r line = true ↔
      ∃ (i : Fin 12) (e : WatchEntry), line = i.val + 1 ∧ vget r.watch i = some e ∧ e.alerted = true)) ∧
  (∀ u line chars reversed bell clear, line < 256 →
    TerminalFrameIs u line chars reversed bell clear (terminalFrame u line chars reversed bell clear)) ∧
  (∀ u, TerminalFrameIs u 255 [] false false false (pollFrame u)) ∧
  (∀ p : TerminalController, OnLineIs p.frameOut p.lineOut) ∧
  (∀ s i (v : TermId), s.resetPin = false → s.isReady = true → s.pt.turn = none → NextPlace s.pt.poll s.pt.pointer i →
    s.pt.poll.getD i 255 = v.val →
    (let r := s.term v
     ((r.online = false ∨ (r.alerts = [] ∧ r.dirty = [])) →
       ∃ t, exec .turnStart s = .next t ∧
         SameButMarks { s with pt := { s.pt with
           pointer := i, turn := some ⟨v, none, false, false, false⟩, frameOut := pollFrame v } } t) ∧
     (∀ line rest, r.online = true → r.alerts = line :: rest →
       ∃ t, exec .turnStart s = .next t ∧
         SameButMarks { s with pt := { s.pt with
           terminals := vset s.pt.terminals v { r with
             dirty := r.dirty.filter (fun x => x ≠ line), alerts := rest }
           pointer := i
           turn := some ⟨v, some line, r.clearPending, false, false⟩
           frameOut := terminalFrame v line (lineText s r line) (lineReversed r line) true r.clearPending } } t) ∧
     (∀ line, r.online = true → r.alerts = [] →
       (line = 13 ∧ 13 ∈ r.dirty) ∨ (line = 0 ∧ 13 ∉ r.dirty ∧ 0 ∈ r.dirty) ∨
         (13 ∉ r.dirty ∧ 0 ∉ r.dirty ∧ ∃ rest, r.dirty = line :: rest ∧ line ≤ 12) →
       ∃ t, exec .turnStart s = .next t ∧
         SameButMarks { s with pt := { s.pt with
           terminals := vset s.pt.terminals v { r with dirty := r.dirty.filter (fun x => x ≠ line) }
           pointer := i
           turn := some ⟨v, some line, r.clearPending, false, false⟩
           frameOut := terminalFrame v line (lineText s r line) (lineReversed r line) false r.clearPending } } t))) ∧
  (∀ s, s.resetPin = false → s.isReady = false ∨ s.pt.turn ≠ none ∨ (∀ e ∈ s.pt.poll, 15 < e) →
    ∃ t, exec .turnStart s = .next t ∧ SameButMarks s t) ∧
  (∀ s u, s.resetPin = false → s.pt.turn = some u →
    ∃ t, exec .terminalFrameSent s = .next t ∧
      SameButMarks { s with pt := { s.pt with turn := some { u with waiting := true } } } t)

/-- TURN_MISS: the turn ends, its line is dirty again, and an ONLINE terminal's miss count rises; the third miss takes it OFFLINE
with TERM set (R150). TERMINAL_ANSWER: a good answer ends the turn with the miss count 0 and clears a clear pending that the frame
carried; an OFFLINE terminal is ONLINE with all 14 lines dirty, clear pending and TERM set (R151, R160); the key it carries is then taken
in the same event, and a code that names no key is discarded (R161). The pointer moves to the next place that names a terminal (R148). That
an answer with a bad check (R204) ends the turn as a miss at once is the model's reading of R149 (DEDUCED, log entry 15), and that two good
bytes with a further byte behind them in the command's list are such an answer is the model's choice (DESIGN CHOICE, log entry 38). The
key codes are those of Table 11-13. An answer while no turn's answer is awaited is discarded (R149); that a frame still going out awaits
none is DEDUCED (log entry 16). A turn that a LOAD overtook ends with nothing taken from it (R152). -/
def Obligations.TurnsEnd : Prop :=
  (∀ s u, s.resetPin = false → s.pt.turn = some u → u.waiting = true → u.discard = false →
    (let r := s.term u.terminal
     let frame (t : State) : Prop :=
       t.pt.turn = none ∧ (∀ i, NextPlace s.pt.poll (s.pt.pointer + 1) i → t.pt.pointer = i) ∧
       (∀ v, v ≠ u.terminal → t.term v = s.term v) ∧
       SameButMarks { s with
         pt := { s.pt with terminals := t.pt.terminals, turn := none, pointer := t.pt.pointer }
         cr := { s.cr with flags := t.cr.flags } } t
     (∃ t, exec .turnMiss s = .next t ∧ frame t ∧
       (∀ line, line ∈ (t.term u.terminal).dirty ↔ line ∈ r.dirty ∨ u.line = some line) ∧
       (r.online = true → r.misses < 2 →
         t.term u.terminal = { r with dirty := (t.term u.terminal).dirty, misses := r.misses + 1 } ∧
         t.cr.flags = s.cr.flags) ∧
       (r.online = true → r.misses = 2 →
         t.term u.terminal = { r with dirty := (t.term u.terminal).dirty, online := false, misses := 0 } ∧
         t.cr.flags = s.cr.flags ||| 0x0008 ∧ 21 ∈ t.cr.dirty) ∧
       (r.online = false →
         t.term u.terminal = { r with dirty := (t.term u.terminal).dirty, misses := 0 } ∧ t.cr.flags = s.cr.flags)) ∧
     (∃ t, exec (.terminalAnswer [0x00, 0xA6]) s = .next t ∧ frame t ∧
       (r.online = true → u.clear = false →
         t.term u.terminal = { r with misses := 0 } ∧ t.cr.flags = s.cr.flags) ∧
       (r.online = true → u.clear = true →
         t.term u.terminal = { r with misses := 0, clearPending := false } ∧ t.cr.flags = s.cr.flags) ∧
       (r.online = false →
         t.term u.terminal = { r with
           online := true, misses := 0, dirty := (t.term u.terminal).dirty, clearPending := true } ∧
         (∀ line, line ∈ (t.term u.terminal).dirty ↔ line < 14) ∧ t.cr.flags = s.cr.flags ||| 0x0008 ∧
         21 ∈ t.cr.dirty)) ∧
     (∀ code check key, s.isReady = true → code + check + 0x5A = 0 →
       (code, key) ∈ [((0xA1 : Byte), Instr.quoteKey u.terminal), (0xA2, .recallKey u.terminal), (0xA3, .clearKey u.terminal),
         (0xA4, .sendKey u.terminal), (0xA5, .watchKey u.terminal), (0xA6, .dropKey u.terminal), (0xA7, .ackKey u.terminal)] ∨
       (isEntryKeyCode code = true ∧ key = .entryKey u.terminal code) →
       ∃ plain taken t, exec (.terminalAnswer [0x00, 0xA6]) s = .next plain ∧ exec key plain = .next taken ∧
         exec (.terminalAnswer [code, check]) s = .next t ∧ SameButMarks taken t) ∧
     (∀ code check, code + check + 0x5A = 0 → isEntryKeyCode code = false →
       code ∉ [(0xA1 : Byte), 0xA2, 0xA3, 0xA4, 0xA5, 0xA6, 0xA7] →
       exec (.terminalAnswer [code, check]) s = exec (.terminalAnswer [0x00, 0xA6]) s) ∧
     (∀ bytes, ¬ (bytes.length = 2 ∧ CheckGood bytes) → exec (.terminalAnswer bytes) s = exec .turnMiss s))) ∧
  (∀ s bytes, s.resetPin = false → (∀ u, s.pt.turn = some u → u.waiting = false) →
    ∃ t, exec (.terminalAnswer bytes) s = .next t ∧ exec .turnMiss s = .next t ∧ SameButMarks s t) ∧
  (∀ s u bytes, s.resetPin = false → s.pt.turn = some u → u.waiting = true → u.discard = true →
    ∃ t, exec .turnMiss s = .next t ∧ exec (.terminalAnswer bytes) s = .next t ∧
      SameButMarks { s with pt := { s.pt with turn := none } } t)

/-- The keys of the entry line: ENTRY_KEY appends its character while the text holds fewer than 8 (R162); CLEAR_KEY empties the text
(R165); QUOTE_KEY quotes the named slot and pushes it, or tells NO ENTRY or NO SYMBOL (R163, R164); RECALL_KEY turns the stack (R164);
ACK_KEY clears every alerted flag of the terminal and empties its alert queue (R186). Each changes its own terminal alone. That
a key row is taken for its terminal whenever the part is READY, with no turn answered by it, is the model's choice (DESIGN CHOICE, log
entry 20). -/
def Obligations.KeysEditAndQuote : Prop :=
  ∀ s u, s.resetPin = false → s.isReady = true →
    (let r := s.term u
     let becomes (c : Instr) (new : State → Terminal) : Prop :=
       ∃ t, exec c s = .next t ∧ SameButMarks { s with pt := { s.pt with
         terminals := vset s.pt.terminals u (new t) } } t
     (∀ code, isEntryKeyCode code = true → r.entry.length < 8 →
       becomes (.entryKey u code) (fun _ => { r with
         entry := r.entry ++ [code], response := .entry, dirty := join 13 r.dirty })) ∧
     (∀ code, isEntryKeyCode code = true → 8 ≤ r.entry.length →
       becomes (.entryKey u code) (fun _ => { r with response := .entry, dirty := join 13 r.dirty })) ∧
     becomes (.clearKey u) (fun _ => { r with entry := [], response := .empty, dirty := join 13 r.dirty }) ∧
     (r.entry = [] → becomes (.quoteKey u) (fun _ => { r with
       response := .message .noEntry, dirty := join 13 r.dirty })) ∧
     (r.entry ≠ [] → (∀ n, (s.slot n).state ≠ .unused → (s.slot n).name ≠ trimRight r.entry) →
       becomes (.quoteKey u) (fun _ => { r with response := .message .noSymbol, dirty := join 13 r.dirty })) ∧
     (∀ n, r.entry ≠ [] → (s.slot n).state ≠ .unused → (s.slot n).name = trimRight r.entry →
       (∀ m, (s.slot m).state ≠ .unused → (s.slot m).name = trimRight r.entry → m = n) →
       becomes (.quoteKey u) (fun _ => { r with
         recallStack := if r.recallStack.head? = some n then r.recallStack else (n :: r.recallStack).take 4
         entry := [], response := .quote n, dirty := join 13 r.dirty })) ∧
     (r.recallStack = [] → becomes (.recallKey u) (fun _ => { r with
       response := .message .noRecall, dirty := join 13 r.dirty })) ∧
     (∀ top, r.recallStack = [top] → becomes (.recallKey u) (fun _ => { r with
       response := .quote top, dirty := join 13 r.dirty })) ∧
     (∀ top next rest, r.recallStack = top :: next :: rest → becomes (.recallKey u) (fun _ => { r with
       recallStack := next :: (rest ++ [top]), response := .quote next, dirty := join 13 r.dirty })) ∧
     (∃ t, exec (.ackKey u) s = .next t ∧ (t.term u).alerts = [] ∧
       (∀ i, vget (t.term u).watch i = (vget r.watch i).map (fun e => { e with alerted := false })) ∧
       (∀ line, line ∈ (t.term u).dirty ↔
         line ∈ r.dirty ∨ ∃ i e, vget r.watch i = some e ∧ e.alerted = true ∧ line = i.val + 1) ∧
       SameButMarks { s with pt := { s.pt with terminals := vset s.pt.terminals u { r with
         watch := (t.term u).watch, dirty := (t.term u).dirty, alerts := [] } } } t))

/-- SEND_KEY appends a key record and answers SENT, or answers NO ENTRY or WAIT with the entry kept (R166, R167); with the mailbox EMPTY
and no record queued the record moves in (R200). WATCH_KEY makes a DEALER entry at the lowest empty place, or answers NO ENTRY, NO SYMBOL,
ON LIST or LIST FULL (R173). DROP_KEY removes a DEALER entry, or answers NO ENTRY, NO SYMBOL, NOT ON LIST or PINNED (R174). That a key
row is taken for its terminal whenever the part is READY, with no turn answered by it, is the model's choice (DESIGN CHOICE, log
entry 20). -/
def Obligations.KeysSendWatchAndDrop : Prop :=
  ∀ s u, s.resetPin = false → s.isReady = true →
    (let r := s.term u
     let tells (c : Instr) (m : Message) : Prop :=
       ∃ t, exec c s = .next t ∧ SameButMarks { s with pt := { s.pt with
         terminals := vset s.pt.terminals u { r with response := .message m, dirty := join 13 r.dirty } } } t
     (r.entry = [] → tells (.sendKey u) .noEntry ∧ tells (.watchKey u) .noEntry ∧ tells (.dropKey u) .noEntry) ∧
     (r.entry ≠ [] → 8 ≤ s.pt.keyQueue.length → tells (.sendKey u) .wait) ∧
     (r.entry ≠ [] → s.pt.keyQueue.length < 8 → s.cr.mailbox ≠ none →
       ∃ t, exec (.sendKey u) s = .next t ∧ 22 ∈ t.cr.dirty ∧
         SameButMarks { s with pt := { s.pt with
           terminals := vset s.pt.terminals u { r with
             entry := [], response := .message .sent, dirty := join 13 r.dirty }
           keyQueue := s.pt.keyQueue ++ [⟨u, r.entry, r.recallStack.head?⟩] } } t) ∧
     (r.entry ≠ [] → s.pt.keyQueue = [] → s.cr.mailbox = none →
       ∃ t, exec (.sendKey u) s = .next t ∧ AllDirty [9, 10, 11, 12, 13, 14, 22] t ∧
         (∀ i : Fin 4, vget t.cr.mailText i = wordOf (r.entry.getD (2 * i.val) 0x20) (r.entry.getD (2 * i.val + 1) 0x20)) ∧
         SameButMarks { s with
           pt := { s.pt with
             terminals := vset s.pt.terminals u { r with
               entry := [], response := .message .sent, dirty := join 13 r.dirty }
             keyQueue := [] }
           cr := { s.cr with
             mailbox := some ⟨u, r.entry, r.recallStack.head?⟩
             sequence := s.cr.sequence + 1
             mailText := t.cr.mailText
             mailSlot := match r.recallStack.head? with
               | some n => BitVec.ofNat 16 n.val
               | none => 0xFFFF
             flags := s.cr.flags ||| 0x0001 } } t) ∧
     (r.entry ≠ [] → (∀ n, (s.slot n).state ≠ .unused → (s.slot n).name ≠ trimRight r.entry) →
       tells (.watchKey u) .noSymbol ∧ tells (.dropKey u) .noSymbol) ∧
     (∀ n, r.entry ≠ [] → (s.slot n).state ≠ .unused → (s.slot n).name = trimRight r.entry →
       (∀ m, (s.slot m).state ≠ .unused → (s.slot m).name = trimRight r.entry → m = n) →
       (r.Watches n → tells (.watchKey u) .onList) ∧
       (¬ r.Watches n → tells (.dropKey u) .notOnList) ∧
       (¬ r.Watches n → (∀ i, vget r.watch i ≠ none) → tells (.watchKey u) .listFull) ∧
       (∀ i : Fin 12, ¬ r.Watches n → vget r.watch i = none → (∀ j, j < i → vget r.watch j ≠ none) →
         ∃ t, exec (.watchKey u) s = .next t ∧
           (∀ line, line ∈ (t.term u).dirty ↔ line ∈ r.dirty ∨ line = i.val + 1 ∨ line = 13) ∧
           (∀ v, v ∈ vget t.pt.subscribers n ↔ v ∈ vget s.pt.subscribers n ∨ v = u.val) ∧
           SameButMarks { s with pt := { s.pt with
             terminals := vset s.pt.terminals u { r with
               entry := [], response := .message (.watching n), dirty := (t.term u).dirty
               watch := vset r.watch i (some
                 { slot := n, origin := .dealer, code := 0, negate := true, limit := 0, hysteresis := 0
                   reference := (s.slot n).last, side := .unknown, alerted := false }) }
             subscribers := vset s.pt.subscribers n (vget t.pt.subscribers n) } } t) ∧
       (∀ (i : Fin 12) e, vget r.watch i = some e → e.slot = n →
         (∀ j, j < i → ∀ f, vget r.watch j = some f → f.slot ≠ n) →
         (e.origin = .host → tells (.dropKey u) .pinned) ∧
         (e.origin = .dealer →
           ∃ t, exec (.dropKey u) s = .next t ∧
           (∀ line, line ∈ (t.term u).dirty ↔ line ∈ r.dirty ∨ line = i.val + 1 ∨ line = 13) ∧
             SameButMarks { s with pt := { s.pt with
               terminals := vset s.pt.terminals u { r with
                 entry := [], response := .empty, dirty := (t.term u).dirty, watch := vset r.watch i none
                 alerts := r.alerts.filter (fun a => a != i.val + 1) }
               subscribers := vset s.pt.subscribers n
                 ((vget s.pt.subscribers n).filter (fun v => v ≠ u.val)) } } t))))

end
end

