-- ==== Sys2Proof/Laws/State.lean ====
section
/-!
SUPPORT. What each update of the state leaves in each field: one lemma per field per update, true by definition.
-/

namespace Sys2Proof.Machine

/-! ### The updates of the parts -/

@[simp] theorem State.setResetPin_resetPin (s : State) (x : Bool) : (s.setResetPin x).resetPin = x := rfl
@[simp] theorem State.setResetPin_mem (s : State) (x : Bool) : (s.setResetPin x).mem = s.mem := rfl
@[simp] theorem State.setResetPin_bp (s : State) (x : Bool) : (s.setResetPin x).bp = s.bp := rfl
@[simp] theorem State.setResetPin_qe (s : State) (x : Bool) : (s.setResetPin x).qe = s.qe := rfl
@[simp] theorem State.setResetPin_bc (s : State) (x : Bool) : (s.setResetPin x).bc = s.bc := rfl
@[simp] theorem State.setResetPin_tc (s : State) (x : Bool) : (s.setResetPin x).tc = s.tc := rfl
@[simp] theorem State.setResetPin_cs (s : State) (x : Bool) : (s.setResetPin x).cs = s.cs := rfl
@[simp] theorem State.setResetPin_pt (s : State) (x : Bool) : (s.setResetPin x).pt = s.pt := rfl
@[simp] theorem State.setResetPin_cr (s : State) (x : Bool) : (s.setResetPin x).cr = s.cr := rfl
@[simp] theorem State.setResetPin_freeDraws (s : State) (x : Bool) : (s.setResetPin x).freeDraws = s.freeDraws := rfl
@[simp] theorem State.setResetPin_pending (s : State) (x : Bool) : (s.setResetPin x).pending = s.pending := rfl

@[simp] theorem State.setMem_resetPin (s : State) (x : Memory) : (s.setMem x).resetPin = s.resetPin := rfl
@[simp] theorem State.setMem_mem (s : State) (x : Memory) : (s.setMem x).mem = x := rfl
@[simp] theorem State.setMem_bp (s : State) (x : Memory) : (s.setMem x).bp = s.bp := rfl
@[simp] theorem State.setMem_qe (s : State) (x : Memory) : (s.setMem x).qe = s.qe := rfl
@[simp] theorem State.setMem_bc (s : State) (x : Memory) : (s.setMem x).bc = s.bc := rfl
@[simp] theorem State.setMem_tc (s : State) (x : Memory) : (s.setMem x).tc = s.tc := rfl
@[simp] theorem State.setMem_cs (s : State) (x : Memory) : (s.setMem x).cs = s.cs := rfl
@[simp] theorem State.setMem_pt (s : State) (x : Memory) : (s.setMem x).pt = s.pt := rfl
@[simp] theorem State.setMem_cr (s : State) (x : Memory) : (s.setMem x).cr = s.cr := rfl
@[simp] theorem State.setMem_freeDraws (s : State) (x : Memory) : (s.setMem x).freeDraws = s.freeDraws := rfl
@[simp] theorem State.setMem_pending (s : State) (x : Memory) : (s.setMem x).pending = s.pending := rfl

@[simp] theorem State.setBp_resetPin (s : State) (x : BusPath) : (s.setBp x).resetPin = s.resetPin := rfl
@[simp] theorem State.setBp_mem (s : State) (x : BusPath) : (s.setBp x).mem = s.mem := rfl
@[simp] theorem State.setBp_bp (s : State) (x : BusPath) : (s.setBp x).bp = x := rfl
@[simp] theorem State.setBp_qe (s : State) (x : BusPath) : (s.setBp x).qe = s.qe := rfl
@[simp] theorem State.setBp_bc (s : State) (x : BusPath) : (s.setBp x).bc = s.bc := rfl
@[simp] theorem State.setBp_tc (s : State) (x : BusPath) : (s.setBp x).tc = s.tc := rfl
@[simp] theorem State.setBp_cs (s : State) (x : BusPath) : (s.setBp x).cs = s.cs := rfl
@[simp] theorem State.setBp_pt (s : State) (x : BusPath) : (s.setBp x).pt = s.pt := rfl
@[simp] theorem State.setBp_cr (s : State) (x : BusPath) : (s.setBp x).cr = s.cr := rfl
@[simp] theorem State.setBp_freeDraws (s : State) (x : BusPath) : (s.setBp x).freeDraws = s.freeDraws := rfl
@[simp] theorem State.setBp_pending (s : State) (x : BusPath) : (s.setBp x).pending = s.pending := rfl

@[simp] theorem State.setQe_resetPin (s : State) (x : QuoteEngine) : (s.setQe x).resetPin = s.resetPin := rfl
@[simp] theorem State.setQe_mem (s : State) (x : QuoteEngine) : (s.setQe x).mem = s.mem := rfl
@[simp] theorem State.setQe_bp (s : State) (x : QuoteEngine) : (s.setQe x).bp = s.bp := rfl
@[simp] theorem State.setQe_qe (s : State) (x : QuoteEngine) : (s.setQe x).qe = x := rfl
@[simp] theorem State.setQe_bc (s : State) (x : QuoteEngine) : (s.setQe x).bc = s.bc := rfl
@[simp] theorem State.setQe_tc (s : State) (x : QuoteEngine) : (s.setQe x).tc = s.tc := rfl
@[simp] theorem State.setQe_cs (s : State) (x : QuoteEngine) : (s.setQe x).cs = s.cs := rfl
@[simp] theorem State.setQe_pt (s : State) (x : QuoteEngine) : (s.setQe x).pt = s.pt := rfl
@[simp] theorem State.setQe_cr (s : State) (x : QuoteEngine) : (s.setQe x).cr = s.cr := rfl
@[simp] theorem State.setQe_freeDraws (s : State) (x : QuoteEngine) : (s.setQe x).freeDraws = s.freeDraws := rfl
@[simp] theorem State.setQe_pending (s : State) (x : QuoteEngine) : (s.setQe x).pending = s.pending := rfl

@[simp] theorem State.setBc_resetPin (s : State) (x : BoardController) : (s.setBc x).resetPin = s.resetPin := rfl
@[simp] theorem State.setBc_mem (s : State) (x : BoardController) : (s.setBc x).mem = s.mem := rfl
@[simp] theorem State.setBc_bp (s : State) (x : BoardController) : (s.setBc x).bp = s.bp := rfl
@[simp] theorem State.setBc_qe (s : State) (x : BoardController) : (s.setBc x).qe = s.qe := rfl
@[simp] theorem State.setBc_bc (s : State) (x : BoardController) : (s.setBc x).bc = x := rfl
@[simp] theorem State.setBc_tc (s : State) (x : BoardController) : (s.setBc x).tc = s.tc := rfl
@[simp] theorem State.setBc_cs (s : State) (x : BoardController) : (s.setBc x).cs = s.cs := rfl
@[simp] theorem State.setBc_pt (s : State) (x : BoardController) : (s.setBc x).pt = s.pt := rfl
@[simp] theorem State.setBc_cr (s : State) (x : BoardController) : (s.setBc x).cr = s.cr := rfl
@[simp] theorem State.setBc_freeDraws (s : State) (x : BoardController) : (s.setBc x).freeDraws = s.freeDraws := rfl
@[simp] theorem State.setBc_pending (s : State) (x : BoardController) : (s.setBc x).pending = s.pending := rfl

@[simp] theorem State.setTc_resetPin (s : State) (x : TapeController) : (s.setTc x).resetPin = s.resetPin := rfl
@[simp] theorem State.setTc_mem (s : State) (x : TapeController) : (s.setTc x).mem = s.mem := rfl
@[simp] theorem State.setTc_bp (s : State) (x : TapeController) : (s.setTc x).bp = s.bp := rfl
@[simp] theorem State.setTc_qe (s : State) (x : TapeController) : (s.setTc x).qe = s.qe := rfl
@[simp] theorem State.setTc_bc (s : State) (x : TapeController) : (s.setTc x).bc = s.bc := rfl
@[simp] theorem State.setTc_tc (s : State) (x : TapeController) : (s.setTc x).tc = x := rfl
@[simp] theorem State.setTc_cs (s : State) (x : TapeController) : (s.setTc x).cs = s.cs := rfl
@[simp] theorem State.setTc_pt (s : State) (x : TapeController) : (s.setTc x).pt = s.pt := rfl
@[simp] theorem State.setTc_cr (s : State) (x : TapeController) : (s.setTc x).cr = s.cr := rfl
@[simp] theorem State.setTc_freeDraws (s : State) (x : TapeController) : (s.setTc x).freeDraws = s.freeDraws := rfl
@[simp] theorem State.setTc_pending (s : State) (x : TapeController) : (s.setTc x).pending = s.pending := rfl

@[simp] theorem State.setCs_resetPin (s : State) (x : ClockSession) : (s.setCs x).resetPin = s.resetPin := rfl
@[simp] theorem State.setCs_mem (s : State) (x : ClockSession) : (s.setCs x).mem = s.mem := rfl
@[simp] theorem State.setCs_bp (s : State) (x : ClockSession) : (s.setCs x).bp = s.bp := rfl
@[simp] theorem State.setCs_qe (s : State) (x : ClockSession) : (s.setCs x).qe = s.qe := rfl
@[simp] theorem State.setCs_bc (s : State) (x : ClockSession) : (s.setCs x).bc = s.bc := rfl
@[simp] theorem State.setCs_tc (s : State) (x : ClockSession) : (s.setCs x).tc = s.tc := rfl
@[simp] theorem State.setCs_cs (s : State) (x : ClockSession) : (s.setCs x).cs = x := rfl
@[simp] theorem State.setCs_pt (s : State) (x : ClockSession) : (s.setCs x).pt = s.pt := rfl
@[simp] theorem State.setCs_cr (s : State) (x : ClockSession) : (s.setCs x).cr = s.cr := rfl
@[simp] theorem State.setCs_freeDraws (s : State) (x : ClockSession) : (s.setCs x).freeDraws = s.freeDraws := rfl
@[simp] theorem State.setCs_pending (s : State) (x : ClockSession) : (s.setCs x).pending = s.pending := rfl

@[simp] theorem State.setPt_resetPin (s : State) (x : TerminalController) : (s.setPt x).resetPin = s.resetPin := rfl
@[simp] theorem State.setPt_mem (s : State) (x : TerminalController) : (s.setPt x).mem = s.mem := rfl
@[simp] theorem State.setPt_bp (s : State) (x : TerminalController) : (s.setPt x).bp = s.bp := rfl
@[simp] theorem State.setPt_qe (s : State) (x : TerminalController) : (s.setPt x).qe = s.qe := rfl
@[simp] theorem State.setPt_bc (s : State) (x : TerminalController) : (s.setPt x).bc = s.bc := rfl
@[simp] theorem State.setPt_tc (s : State) (x : TerminalController) : (s.setPt x).tc = s.tc := rfl
@[simp] theorem State.setPt_cs (s : State) (x : TerminalController) : (s.setPt x).cs = s.cs := rfl
@[simp] theorem State.setPt_pt (s : State) (x : TerminalController) : (s.setPt x).pt = x := rfl
@[simp] theorem State.setPt_cr (s : State) (x : TerminalController) : (s.setPt x).cr = s.cr := rfl
@[simp] theorem State.setPt_freeDraws (s : State) (x : TerminalController) : (s.setPt x).freeDraws = s.freeDraws := rfl
@[simp] theorem State.setPt_pending (s : State) (x : TerminalController) : (s.setPt x).pending = s.pending := rfl

@[simp] theorem State.setCr_resetPin (s : State) (x : CommandReport) : (s.setCr x).resetPin = s.resetPin := rfl
@[simp] theorem State.setCr_mem (s : State) (x : CommandReport) : (s.setCr x).mem = s.mem := rfl
@[simp] theorem State.setCr_bp (s : State) (x : CommandReport) : (s.setCr x).bp = s.bp := rfl
@[simp] theorem State.setCr_qe (s : State) (x : CommandReport) : (s.setCr x).qe = s.qe := rfl
@[simp] theorem State.setCr_bc (s : State) (x : CommandReport) : (s.setCr x).bc = s.bc := rfl
@[simp] theorem State.setCr_tc (s : State) (x : CommandReport) : (s.setCr x).tc = s.tc := rfl
@[simp] theorem State.setCr_cs (s : State) (x : CommandReport) : (s.setCr x).cs = s.cs := rfl
@[simp] theorem State.setCr_pt (s : State) (x : CommandReport) : (s.setCr x).pt = s.pt := rfl
@[simp] theorem State.setCr_cr (s : State) (x : CommandReport) : (s.setCr x).cr = x := rfl
@[simp] theorem State.setCr_freeDraws (s : State) (x : CommandReport) : (s.setCr x).freeDraws = s.freeDraws := rfl
@[simp] theorem State.setCr_pending (s : State) (x : CommandReport) : (s.setCr x).pending = s.pending := rfl

@[simp] theorem State.setFreeDraws_resetPin (s : State) (x : Nat) : (s.setFreeDraws x).resetPin = s.resetPin := rfl
@[simp] theorem State.setFreeDraws_mem (s : State) (x : Nat) : (s.setFreeDraws x).mem = s.mem := rfl
@[simp] theorem State.setFreeDraws_bp (s : State) (x : Nat) : (s.setFreeDraws x).bp = s.bp := rfl
@[simp] theorem State.setFreeDraws_qe (s : State) (x : Nat) : (s.setFreeDraws x).qe = s.qe := rfl
@[simp] theorem State.setFreeDraws_bc (s : State) (x : Nat) : (s.setFreeDraws x).bc = s.bc := rfl
@[simp] theorem State.setFreeDraws_tc (s : State) (x : Nat) : (s.setFreeDraws x).tc = s.tc := rfl
@[simp] theorem State.setFreeDraws_cs (s : State) (x : Nat) : (s.setFreeDraws x).cs = s.cs := rfl
@[simp] theorem State.setFreeDraws_pt (s : State) (x : Nat) : (s.setFreeDraws x).pt = s.pt := rfl
@[simp] theorem State.setFreeDraws_cr (s : State) (x : Nat) : (s.setFreeDraws x).cr = s.cr := rfl
@[simp] theorem State.setFreeDraws_freeDraws (s : State) (x : Nat) : (s.setFreeDraws x).freeDraws = x := rfl
@[simp] theorem State.setFreeDraws_pending (s : State) (x : Nat) : (s.setFreeDraws x).pending = s.pending := rfl

@[simp] theorem State.setPending_resetPin (s : State) (x : List Instr) : (s.setPending x).resetPin = s.resetPin := rfl
@[simp] theorem State.setPending_mem (s : State) (x : List Instr) : (s.setPending x).mem = s.mem := rfl
@[simp] theorem State.setPending_bp (s : State) (x : List Instr) : (s.setPending x).bp = s.bp := rfl
@[simp] theorem State.setPending_qe (s : State) (x : List Instr) : (s.setPending x).qe = s.qe := rfl
@[simp] theorem State.setPending_bc (s : State) (x : List Instr) : (s.setPending x).bc = s.bc := rfl
@[simp] theorem State.setPending_tc (s : State) (x : List Instr) : (s.setPending x).tc = s.tc := rfl
@[simp] theorem State.setPending_cs (s : State) (x : List Instr) : (s.setPending x).cs = s.cs := rfl
@[simp] theorem State.setPending_pt (s : State) (x : List Instr) : (s.setPending x).pt = s.pt := rfl
@[simp] theorem State.setPending_cr (s : State) (x : List Instr) : (s.setPending x).cr = s.cr := rfl
@[simp] theorem State.setPending_freeDraws (s : State) (x : List Instr) : (s.setPending x).freeDraws = s.freeDraws := rfl
@[simp] theorem State.setPending_pending (s : State) (x : List Instr) : (s.setPending x).pending = x := rfl

/-! ### The updates of one record -/

@[simp] theorem State.setSlot_resetPin (s : State) (n : Slot) (r : SlotRec) : (s.setSlot n r).resetPin = s.resetPin := rfl
@[simp] theorem State.setSlot_mem (s : State) (n : Slot) (r : SlotRec) : (s.setSlot n r).mem = s.mem := rfl
@[simp] theorem State.setSlot_bp (s : State) (n : Slot) (r : SlotRec) : (s.setSlot n r).bp = s.bp := rfl
@[simp] theorem State.setSlot_qe (s : State) (n : Slot) (r : SlotRec) : (s.setSlot n r).qe = { s.qe with slots := vset s.qe.slots n r } := rfl
@[simp] theorem State.setSlot_bc (s : State) (n : Slot) (r : SlotRec) : (s.setSlot n r).bc = s.bc := rfl
@[simp] theorem State.setSlot_tc (s : State) (n : Slot) (r : SlotRec) : (s.setSlot n r).tc = s.tc := rfl
@[simp] theorem State.setSlot_cs (s : State) (n : Slot) (r : SlotRec) : (s.setSlot n r).cs = s.cs := rfl
@[simp] theorem State.setSlot_pt (s : State) (n : Slot) (r : SlotRec) : (s.setSlot n r).pt = s.pt := rfl
@[simp] theorem State.setSlot_cr (s : State) (n : Slot) (r : SlotRec) : (s.setSlot n r).cr = s.cr := rfl
@[simp] theorem State.setSlot_freeDraws (s : State) (n : Slot) (r : SlotRec) : (s.setSlot n r).freeDraws = s.freeDraws := rfl
@[simp] theorem State.setSlot_pending (s : State) (n : Slot) (r : SlotRec) : (s.setSlot n r).pending = s.pending := rfl

@[simp] theorem State.setPendingSize_resetPin (s : State) (n : Slot) (v : Option Word) : (s.setPendingSize n v).resetPin = s.resetPin := rfl
@[simp] theorem State.setPendingSize_mem (s : State) (n : Slot) (v : Option Word) : (s.setPendingSize n v).mem = s.mem := rfl
@[simp] theorem State.setPendingSize_bp (s : State) (n : Slot) (v : Option Word) : (s.setPendingSize n v).bp = s.bp := rfl
@[simp] theorem State.setPendingSize_qe (s : State) (n : Slot) (v : Option Word) : (s.setPendingSize n v).qe = { s.qe with pendingSize := vset s.qe.pendingSize n v } := rfl
@[simp] theorem State.setPendingSize_bc (s : State) (n : Slot) (v : Option Word) : (s.setPendingSize n v).bc = s.bc := rfl
@[simp] theorem State.setPendingSize_tc (s : State) (n : Slot) (v : Option Word) : (s.setPendingSize n v).tc = s.tc := rfl
@[simp] theorem State.setPendingSize_cs (s : State) (n : Slot) (v : Option Word) : (s.setPendingSize n v).cs = s.cs := rfl
@[simp] theorem State.setPendingSize_pt (s : State) (n : Slot) (v : Option Word) : (s.setPendingSize n v).pt = s.pt := rfl
@[simp] theorem State.setPendingSize_cr (s : State) (n : Slot) (v : Option Word) : (s.setPendingSize n v).cr = s.cr := rfl
@[simp] theorem State.setPendingSize_freeDraws (s : State) (n : Slot) (v : Option Word) : (s.setPendingSize n v).freeDraws = s.freeDraws := rfl
@[simp] theorem State.setPendingSize_pending (s : State) (n : Slot) (v : Option Word) : (s.setPendingSize n v).pending = s.pending := rfl

@[simp] theorem State.setLink_resetPin (s : State) (l : LinkId) (k : Link) : (s.setLink l k).resetPin = s.resetPin := rfl
@[simp] theorem State.setLink_mem (s : State) (l : LinkId) (k : Link) : (s.setLink l k).mem = s.mem := rfl
@[simp] theorem State.setLink_bp (s : State) (l : LinkId) (k : Link) : (s.setLink l k).bp = s.bp := rfl
@[simp] theorem State.setLink_qe (s : State) (l : LinkId) (k : Link) : (s.setLink l k).qe = s.qe := rfl
@[simp] theorem State.setLink_bc (s : State) (l : LinkId) (k : Link) : (s.setLink l k).bc = { s.bc with links := vset s.bc.links l k } := rfl
@[simp] theorem State.setLink_tc (s : State) (l : LinkId) (k : Link) : (s.setLink l k).tc = s.tc := rfl
@[simp] theorem State.setLink_cs (s : State) (l : LinkId) (k : Link) : (s.setLink l k).cs = s.cs := rfl
@[simp] theorem State.setLink_pt (s : State) (l : LinkId) (k : Link) : (s.setLink l k).pt = s.pt := rfl
@[simp] theorem State.setLink_cr (s : State) (l : LinkId) (k : Link) : (s.setLink l k).cr = s.cr := rfl
@[simp] theorem State.setLink_freeDraws (s : State) (l : LinkId) (k : Link) : (s.setLink l k).freeDraws = s.freeDraws := rfl
@[simp] theorem State.setLink_pending (s : State) (l : LinkId) (k : Link) : (s.setLink l k).pending = s.pending := rfl

@[simp] theorem State.setTerm_resetPin (s : State) (t : TermId) (r : Terminal) : (s.setTerm t r).resetPin = s.resetPin := rfl
@[simp] theorem State.setTerm_mem (s : State) (t : TermId) (r : Terminal) : (s.setTerm t r).mem = s.mem := rfl
@[simp] theorem State.setTerm_bp (s : State) (t : TermId) (r : Terminal) : (s.setTerm t r).bp = s.bp := rfl
@[simp] theorem State.setTerm_qe (s : State) (t : TermId) (r : Terminal) : (s.setTerm t r).qe = s.qe := rfl
@[simp] theorem State.setTerm_bc (s : State) (t : TermId) (r : Terminal) : (s.setTerm t r).bc = s.bc := rfl
@[simp] theorem State.setTerm_tc (s : State) (t : TermId) (r : Terminal) : (s.setTerm t r).tc = s.tc := rfl
@[simp] theorem State.setTerm_cs (s : State) (t : TermId) (r : Terminal) : (s.setTerm t r).cs = s.cs := rfl
@[simp] theorem State.setTerm_pt (s : State) (t : TermId) (r : Terminal) : (s.setTerm t r).pt = { s.pt with terminals := vset s.pt.terminals t r } := rfl
@[simp] theorem State.setTerm_cr (s : State) (t : TermId) (r : Terminal) : (s.setTerm t r).cr = s.cr := rfl
@[simp] theorem State.setTerm_freeDraws (s : State) (t : TermId) (r : Terminal) : (s.setTerm t r).freeDraws = s.freeDraws := rfl
@[simp] theorem State.setTerm_pending (s : State) (t : TermId) (r : Terminal) : (s.setTerm t r).pending = s.pending := rfl

/-! ### Flags and marks -/

@[simp] theorem State.raise_resetPin (s : State) (i : Nat) : (s.raise i).resetPin = s.resetPin := rfl
@[simp] theorem State.raise_mem (s : State) (i : Nat) : (s.raise i).mem = s.mem := rfl
@[simp] theorem State.raise_bp (s : State) (i : Nat) : (s.raise i).bp = s.bp := rfl
@[simp] theorem State.raise_qe (s : State) (i : Nat) : (s.raise i).qe = s.qe := rfl
@[simp] theorem State.raise_bc (s : State) (i : Nat) : (s.raise i).bc = s.bc := rfl
@[simp] theorem State.raise_tc (s : State) (i : Nat) : (s.raise i).tc = s.tc := rfl
@[simp] theorem State.raise_cs (s : State) (i : Nat) : (s.raise i).cs = s.cs := rfl
@[simp] theorem State.raise_pt (s : State) (i : Nat) : (s.raise i).pt = s.pt := rfl
@[simp] theorem State.raise_cr (s : State) (i : Nat) : (s.raise i).cr = { s.cr with flags := s.cr.flags ||| (1#16 <<< i) } := rfl
@[simp] theorem State.raise_freeDraws (s : State) (i : Nat) : (s.raise i).freeDraws = s.freeDraws := rfl
@[simp] theorem State.raise_pending (s : State) (i : Nat) : (s.raise i).pending = s.pending := rfl

@[simp] theorem State.markDirty_resetPin (s : State) (o : Nat) : (s.markDirty o).resetPin = s.resetPin := rfl
@[simp] theorem State.markDirty_mem (s : State) (o : Nat) : (s.markDirty o).mem = s.mem := rfl
@[simp] theorem State.markDirty_bp (s : State) (o : Nat) : (s.markDirty o).bp = s.bp := rfl
@[simp] theorem State.markDirty_qe (s : State) (o : Nat) : (s.markDirty o).qe = s.qe := rfl
@[simp] theorem State.markDirty_bc (s : State) (o : Nat) : (s.markDirty o).bc = s.bc := rfl
@[simp] theorem State.markDirty_tc (s : State) (o : Nat) : (s.markDirty o).tc = s.tc := rfl
@[simp] theorem State.markDirty_cs (s : State) (o : Nat) : (s.markDirty o).cs = s.cs := rfl
@[simp] theorem State.markDirty_pt (s : State) (o : Nat) : (s.markDirty o).pt = s.pt := rfl
@[simp] theorem State.markDirty_cr (s : State) (o : Nat) : (s.markDirty o).cr = { s.cr with dirty := join o s.cr.dirty } := rfl
@[simp] theorem State.markDirty_freeDraws (s : State) (o : Nat) : (s.markDirty o).freeDraws = s.freeDraws := rfl
@[simp] theorem State.markDirty_pending (s : State) (o : Nat) : (s.markDirty o).pending = s.pending := rfl

end Sys2Proof.Machine
end

