-- ==== Sys2Proof/Laws/Tables.lean ====
section
/-!
SUPPORT. Tables of fixed size and ordered sets: what is read after an update, and membership in a set after a join or a leave.
-/

namespace Sys2Proof.Machine

/-! ### Tables -/

@[simp] theorem vget_vset_self {α : Type} {n : Nat} (v : Vector α n) (i : Fin n) (x : α) : vget (vset v i x) i = x := by
  simp [vget, vset]

theorem vget_vset_ne {α : Type} {n : Nat} (v : Vector α n) (i j : Fin n) (x : α) (h : i ≠ j) :
    vget (vset v i x) j = vget v j := by
  have h' : i.val ≠ j.val := fun e => h (Fin.ext e)
  simp [vget, vset, h']

/-- Reading a table after an update, in either case. -/
theorem vget_vset {α : Type} {n : Nat} (v : Vector α n) (i j : Fin n) (x : α) :
    vget (vset v i x) j = if i = j then x else vget v j := by
  by_cases h : i = j
  · subst h; simp
  · simp [h, vget_vset_ne v i j x h]

@[simp] theorem vget_vmap {α β : Type} {n : Nat} (f : α → β) (v : Vector α n) (i : Fin n) :
    vget (vmap f v) i = f (vget v i) := by
  simp [vget, vmap]

@[simp] theorem vget_replicate {α : Type} {n : Nat} (x : α) (i : Fin n) : vget (Vector.replicate n x) i = x := by
  simp [vget]

/-- Two tables that agree at every place are equal. -/
theorem vget_ext {α : Type} {n : Nat} {v w : Vector α n} (h : ∀ i, vget v i = vget w i) : v = w := by
  apply Vector.ext
  intro i hi
  exact h ⟨i, hi⟩

@[simp] theorem vset_vget {α : Type} {n : Nat} (v : Vector α n) (i : Fin n) : vset v i (vget v i) = v := by
  apply vget_ext
  intro j
  rw [vget_vset]
  split
  · rename_i h; rw [h]
  · rfl

/-! ### Ordered sets -/

/-- A member of a set after a join is the one joined, or an earlier member; the one joined is found by its key. -/
theorem mem_insertBy {α : Type} (key : α → Nat) (x y : α) (l : List α) (h : y ∈ insertBy key x l) : y = x ∨ y ∈ l := by
  induction l with
  | nil => simpa [insertBy] using h
  | cons z zs ih =>
    simp only [insertBy] at h
    split at h
    · simpa using h
    · split at h
      · exact Or.inr h
      · rcases List.mem_cons.mp h with h | h
        · simp [h]
        · rcases ih h with h | h <;> simp [h]

/-- Every earlier member stays in a set after a join. -/
theorem mem_insertBy_of_mem {α : Type} (key : α → Nat) (x y : α) (l : List α) (h : y ∈ l) : y ∈ insertBy key x l := by
  induction l with
  | nil => simp at h
  | cons z zs ih =>
    simp only [insertBy]
    split
    · exact List.mem_cons_of_mem _ h
    · split
      · exact h
      · rcases List.mem_cons.mp h with h | h
        · simp [h]
        · exact List.mem_cons_of_mem _ (ih h)

/-- A set after a join holds a member with the key of the one joined. -/
theorem insertBy_key {α : Type} (key : α → Nat) (x : α) (l : List α) : ∃ y ∈ insertBy key x l, key y = key x := by
  induction l with
  | nil => exact ⟨x, by simp [insertBy], rfl⟩
  | cons z zs ih =>
    simp only [insertBy]
    split
    · exact ⟨x, by simp, rfl⟩
    · split
      · rename_i h; exact ⟨z, by simp, h.symm⟩
      · obtain ⟨y, hy, hk⟩ := ih; exact ⟨y, List.mem_cons_of_mem _ hy, hk⟩

/-- Membership in a set of numbers after a join. -/
@[simp] theorem mem_join (m n : Nat) (l : List Nat) : m ∈ join n l ↔ m = n ∨ m ∈ l := by
  constructor
  · exact mem_insertBy id n m l
  · rintro (rfl | h)
    · obtain ⟨y, hy, hk⟩ := insertBy_key id m l
      have : y = m := hk
      subst this
      exact hy
    · exact mem_insertBy_of_mem id n m l h

/-- Membership in a set after a member has left. -/
@[simp] theorem mem_leave {α : Type} [DecidableEq α] (x y : α) (l : List α) : y ∈ leave x l ↔ y ∈ l ∧ y ≠ x := by
  simp [leave]

/-! ### Due marks -/

/-- A due mark is known by its key. -/
theorem DueMark.key_inj {m n : DueMark} (h : m.key = n.key) : m = n := by
  obtain ⟨ms, mf⟩ := m
  obtain ⟨ns, nf⟩ := n
  simp only [DueMark.key] at h
  have hf : mf.index = nf.index := by cases mf <;> cases nf <;> simp [WbField.index] at h ⊢ <;> omega
  have hs : ms = ns := Fin.ext (by omega)
  have : mf = nf := by cases mf <;> cases nf <;> simp [WbField.index] at hf ⊢
  rw [hs, this]

/-- Putting an entry in by its key keeps every other. -/
theorem insertAfter_perm {α : Type} (key : α → Nat) (x : α) (l : List α) : (insertAfter key x l).Perm (x :: l) := by
  induction l with
  | nil => exact .refl _
  | cons y ys ih =>
    unfold insertAfter
    split
    · exact .refl _
    · exact (ih.cons y).trans (.swap x y ys)

/-- Putting an entry in by its key keeps the ascending order. -/
theorem insertAfter_sorted {α : Type} (key : α → Nat) (x : α) (l : List α) (h : l.Pairwise (fun a b => key a ≤ key b)) :
    (insertAfter key x l).Pairwise (fun a b => key a ≤ key b) := by
  induction l with
  | nil => simp [insertAfter]
  | cons y ys ih =>
    obtain ⟨hy, hys⟩ := List.pairwise_cons.1 h
    unfold insertAfter
    split
    · rename_i hlt
      refine List.pairwise_cons.2 ⟨fun b hb => ?_, h⟩
      rcases List.mem_cons.1 hb with rfl | hb
      · omega
      · have := hy b hb
        omega
    · refine List.pairwise_cons.2 ⟨fun b hb => ?_, ih hys⟩
      rcases List.mem_cons.1 ((insertAfter_perm key x ys).mem_iff.1 hb) with rfl | hb
      · omega
      · exact hy b hb

/-- Entries put in one after another by their keys: all of them, each as often as it was given. -/
theorem foldl_insertAfter_perm {α : Type} (key : α → Nat) (xs l : List α) :
    (xs.foldl (fun acc x => insertAfter key x acc) l).Perm (xs ++ l) := by
  induction xs generalizing l with
  | nil => exact .refl _
  | cons x xs ih => exact (ih _).trans (((insertAfter_perm key x l).append_left xs).trans List.perm_middle)

/-- Entries put in one after another by their keys stand in ascending order. -/
theorem foldl_insertAfter_sorted {α : Type} (key : α → Nat) (xs l : List α) (h : l.Pairwise (fun a b => key a ≤ key b)) :
    (xs.foldl (fun acc x => insertAfter key x acc) l).Pairwise (fun a b => key a ≤ key b) := by
  induction xs generalizing l with
  | nil => exact h
  | cons x xs ih => exact ih _ (insertAfter_sorted key x l h)

/-- Membership in the set of due marks after a join. -/
theorem mem_insertDue (m n : DueMark) (l : List DueMark) : m ∈ insertBy DueMark.key n l ↔ m = n ∨ m ∈ l := by
  constructor
  · exact mem_insertBy _ n m l
  · rintro (rfl | h)
    · obtain ⟨y, hy, hk⟩ := insertBy_key DueMark.key m l
      have e := DueMark.key_inj hk
      subst e; exact hy
    · exact mem_insertBy_of_mem _ n m l h

end Sys2Proof.Machine
end

