-- ==== Sys2Proof/Laws/Marks.lean ====
section
/-!
SUPPORT. What the end of an event can do: it only adds dirty marks and entries of the Side Write Queue (R53, R202).
-/

namespace Sys2Proof.Machine

/-! ### Dirty marks -/

/-- Marking report words changes the set of dirty marks alone. -/
theorem State.markAllDirty_eq (s : State) (os : List Nat) :
    s.markAllDirty os = s.setCr { s.cr with dirty := os.foldl (fun d o => join o d) s.cr.dirty } := by
  induction os generalizing s with
  | nil => rfl
  | cons o os ih =>
    have h : s.markAllDirty (o :: os) = (s.markDirty o).markAllDirty os := rfl
    rw [h, ih]
    rfl

theorem mem_foldl_join (m : Nat) (os d : List Nat) : m ∈ os.foldl (fun d o => join o d) d ↔ m ∈ os ∨ m ∈ d := by
  induction os generalizing d with
  | nil => simp
  | cons o os ih =>
    simp only [List.foldl_cons, ih, mem_join, List.mem_cons]
    tauto

/-- The dirty marks after some report words are marked. -/
@[simp] theorem State.mem_markAllDirty (s : State) (os : List Nat) (m : Nat) :
    m ∈ (s.markAllDirty os).cr.dirty ↔ m ∈ os ∨ m ∈ s.cr.dirty := by
  rw [State.markAllDirty_eq]
  exact mem_foldl_join m os s.cr.dirty

/-- Marking report words is no change but for the marks. -/
theorem State.markAllDirty_same (s : State) (os : List Nat) : SameButMarks s (s.markAllDirty os) := by
  rw [State.markAllDirty_eq]; rfl

theorem State.markDirty_same (s : State) (o : Nat) : SameButMarks s (s.markDirty o) := rfl

/-! ### States that agree but for the marks -/

theorem SameButMarks.refl (s : State) : SameButMarks s s := rfl

theorem SameButMarks.trans {s t u : State} (h : SameButMarks s t) (k : SameButMarks t u) : SameButMarks s u := by
  unfold SameButMarks at *
  rw [k, h]

/-- The report words' values do not rest on the marks. -/
theorem SameButMarks.reportValue {s t : State} (h : SameButMarks s t) (o : Nat) :
    Sys2Proof.Machine.reportValue t o = Sys2Proof.Machine.reportValue s o := by
  rw [h]; rfl

theorem SameButMarks.resetPin {s t : State} (h : SameButMarks s t) : t.resetPin = s.resetPin := by rw [h]
theorem SameButMarks.mem {s t : State} (h : SameButMarks s t) : t.mem = s.mem := by rw [h]
theorem SameButMarks.qe {s t : State} (h : SameButMarks s t) : t.qe = s.qe := by rw [h]
theorem SameButMarks.bc {s t : State} (h : SameButMarks s t) : t.bc = s.bc := by rw [h]
theorem SameButMarks.tc {s t : State} (h : SameButMarks s t) : t.tc = s.tc := by rw [h]
theorem SameButMarks.cs {s t : State} (h : SameButMarks s t) : t.cs = s.cs := by rw [h]
theorem SameButMarks.pt {s t : State} (h : SameButMarks s t) : t.pt = s.pt := by rw [h]
theorem SameButMarks.cr {s t : State} (h : SameButMarks s t) : t.cr = { s.cr with dirty := t.cr.dirty } := by rw [h]
theorem SameButMarks.bp {s t : State} (h : SameButMarks s t) : 
    t.bp = { s.bp with queue := t.bp.queue, port := t.bp.port } := by rw [h]
theorem SameButMarks.pending {s t : State} (h : SameButMarks s t) : t.pending = s.pending := by rw [h]
theorem SameButMarks.freeDraws {s t : State} (h : SameButMarks s t) : t.freeDraws = s.freeDraws := by rw [h]

/-! ### Entering marks (R53) -/

/-- Entering one mark adds at most one entry at the tail. -/
theorem enterMark_prefix (q : List SideWord) (w : SideWord) : q <+: enterMark q w := by
  unfold enterMark
  split
  · exact List.prefix_append _ _
  · exact List.prefix_refl _

theorem enterMark_length (q : List SideWord) (w : SideWord) (h : q.length ≤ 8) : (enterMark q w).length ≤ 8 := by
  unfold enterMark
  split
  · rename_i hq; simp; omega
  · exact h

theorem enterMark_nodup (q : List SideWord) (w : SideWord) (h : q.Nodup) : (enterMark q w).Nodup := by
  unfold enterMark
  split
  · rename_i hq
    refine List.nodup_append.mpr ⟨h, List.nodup_singleton w, ?_⟩
    intro a ha b hb
    simp only [List.mem_singleton] at hb
    subst hb
    intro e; subst e; exact hq.2 ha
  · exact h

/-- A mark entered has an entry while a place is free afterwards. -/
theorem mem_enterMark (q : List SideWord) (w : SideWord) (h : (enterMark q w).length < 8) : w ∈ enterMark q w := by
  unfold enterMark at *
  split
  · simp
  · rename_i hq
    rw [if_neg hq] at h
    by_contra hw
    exact hq ⟨h, hw⟩

theorem foldl_enterMark_prefix (ws q : List SideWord) : q <+: ws.foldl enterMark q := by
  induction ws generalizing q with
  | nil => exact List.prefix_refl _
  | cons w ws ih => exact (enterMark_prefix q w).trans (ih _)

theorem foldl_enterMark_length (ws q : List SideWord) (h : q.length ≤ 8) : (ws.foldl enterMark q).length ≤ 8 := by
  induction ws generalizing q with
  | nil => exact h
  | cons w ws ih => exact ih _ (enterMark_length q w h)

theorem foldl_enterMark_nodup (ws q : List SideWord) (h : q.Nodup) : (ws.foldl enterMark q).Nodup := by
  induction ws generalizing q with
  | nil => exact h
  | cons w ws ih => exact ih _ (enterMark_nodup q w h)

theorem mem_foldl_enterMark (ws q : List SideWord) (h : (ws.foldl enterMark q).length < 8) :
    ∀ w ∈ ws, w ∈ ws.foldl enterMark q := by
  induction ws generalizing q with
  | nil => simp
  | cons w ws ih =>
    intro x hx
    rcases List.mem_cons.mp hx with hx | hx
    · subst hx
      have hp := foldl_enterMark_prefix ws (enterMark q x)
      have hl : (enterMark q x).length < 8 := Nat.lt_of_le_of_lt hp.length_le h
      exact hp.subset (mem_enterMark q x hl)
    · exact ih _ h x hx

/-- A full queue takes no entry. -/
theorem foldl_enterMark_full (ws q : List SideWord) (h : 8 ≤ q.length) : ws.foldl enterMark q = q := by
  induction ws with
  | nil => rfl
  | cons w ws ih =>
    have : enterMark q w = q := by unfold enterMark; rw [if_neg (by omega)]
    rw [List.foldl_cons, this, ih]

/-- An entry found after entering was there before or is one of the marks entered. -/
theorem mem_of_foldl_enterMark (ws q : List SideWord) (x : SideWord) (h : x ∈ ws.foldl enterMark q) : x ∈ q ∨ x ∈ ws := by
  induction ws generalizing q with
  | nil => exact Or.inl h
  | cons w ws ih =>
    rcases ih _ h with h | h
    · unfold enterMark at h
      split at h
      · rcases List.mem_append.mp h with h | h
        · exact Or.inl h
        · exact Or.inr (by simpa using Or.inl h)
      · exact Or.inl h
    · exact Or.inr (List.mem_cons_of_mem _ h)

/-- A mark that has its entry, or that meets a full queue, is not entered. -/
theorem enterMark_skip (q : List SideWord) (w : SideWord) (h : w ∈ q ∨ 8 ≤ q.length) : enterMark q w = q := by
  unfold enterMark
  rcases h with h | h
  · simp [h]
  · simp [show ¬ q.length < 8 by omega]

/-- What entering the marks of a list adds behind a queue: marks of the list without an entry, in the list's order, and before every mark
of it that finds no place. -/
theorem foldl_enterMark_new (R : SideWord → SideWord → Prop) (ws q : List SideWord)
    (h : ws.Pairwise (fun v w => v = w ∨ R v w)) :
    ∃ new, ws.foldl enterMark q = q ++ new ∧ (∀ w ∈ new, w ∈ ws ∧ w ∉ q) ∧ new.Pairwise R ∧
      ∀ v ∈ new, ∀ w ∈ ws, w ∉ q ++ new → R v w := by
  induction ws generalizing q with
  | nil => exact ⟨[], by simp⟩
  | cons x ws ih =>
    obtain ⟨hx, hws⟩ := List.pairwise_cons.1 h
    by_cases hq : q.length < 8 ∧ x ∉ q
    · obtain ⟨new, e, hm, hp, hl⟩ := ih (q ++ [x]) hws
      have hR : ∀ w ∈ ws, w ∉ q ++ [x] → R x w := fun w hw hn =>
        (hx w hw).resolve_left (fun e => hn (by simp [e]))
      refine ⟨x :: new, by simp [enterMark, hq, e], ?_, List.pairwise_cons.2 ⟨fun w hw => hR w (hm w hw).1 (hm w hw).2, hp⟩, ?_⟩
      · intro w hw
        rcases List.mem_cons.1 hw with rfl | hw
        · exact ⟨by simp, hq.2⟩
        · exact ⟨List.mem_cons_of_mem _ (hm w hw).1, fun hn => (hm w hw).2 (by simp [hn])⟩
      · intro v hv w hw hn
        have hw' : w ∈ ws := (List.mem_cons.1 hw).resolve_left (fun e => hn (by simp [e]))
        rcases List.mem_cons.1 hv with rfl | hv
        · exact hR w hw' (fun hc => hn (by simp at hc ⊢; tauto))
        · exact hl v hv w hw' (by simpa using hn)
    · have hs : x ∈ q ∨ 8 ≤ q.length := by
        by_cases hx : x ∈ q
        · exact .inl hx
        · exact .inr (by simp [hx] at hq; omega)
      obtain ⟨new, e, hm, hp, hl⟩ := ih q hws
      refine ⟨new, by simp [enterMark_skip q x hs, e], fun w hw => ⟨List.mem_cons_of_mem _ (hm w hw).1, (hm w hw).2⟩, hp, ?_⟩
      intro v hv w hw hn
      rcases List.mem_cons.1 hw with rfl | hw
      · rcases hs with hs | hs
        · exact absurd (List.mem_append_left _ hs) hn
        · rw [foldl_enterMark_full ws q hs] at e
          rw [List.self_eq_append_right.1 e] at hv
          exact absurd hv (by simp)
      · exact hl v hv w hw hn

/-- A mark already entered, or that met a full queue, may be passed over later in the list. -/
theorem foldl_enterMark_filter (x : SideWord) (ws q : List SideWord) (h : x ∈ q ∨ 8 ≤ q.length) :
    ws.foldl enterMark q = (ws.filter (fun w => w ≠ x)).foldl enterMark q := by
  induction ws generalizing q with
  | nil => rfl
  | cons w ws ih =>
    have hk : x ∈ enterMark q w ∨ 8 ≤ (enterMark q w).length :=
      h.imp (fun h => (enterMark_prefix q w).subset h) (fun h => h.trans (enterMark_prefix q w).length_le)
    by_cases hw : w = x
    · subst hw
      simp [enterMark_skip q w h, ih q h]
    · simp [hw, ih _ hk]

/-- The marks in the order of R53 are exactly the set ones. -/
theorem mem_markOrder (s : State) (w : SideWord) : w ∈ markOrder s ↔ s.isMarked w = true := by
  have hh : w ∈ heldReportWord s → s.isMarked w = true := by
    intro h
    unfold heldReportWord at h
    split at h
    · split at h
      · split at h
        · rename_i hd
          simp only [List.mem_singleton] at h
          rw [h]; simpa [State.isMarked] using hd
        · simp at h
      · simp at h
    · simp at h
  simp only [markOrder, List.mem_append, List.mem_map]
  constructor
  · rintro ((h | ⟨o, ho, rfl⟩) | ⟨m, hm, rfl⟩)
    · exact hh h
    · simpa [State.isMarked] using ho
    · simpa [State.isMarked] using hm
  · intro h
    cases w with
    | report o => exact Or.inl (Or.inr ⟨o, by simpa [State.isMarked] using h, rfl⟩)
    | writeBack m => exact Or.inr ⟨m, by simpa [State.isMarked] using h, rfl⟩

/-- The report word whose read is held comes first among the marks when it is marked; else no mark is that of a held read (R53 case 1). -/
theorem heldReportWord_cases (s : State) :
    (heldReportWord s = [] ∧ ∀ w, s.isMarked w = true → ¬ ReadIsHeld s w) ∨
    ∃ x, heldReportWord s = [x] ∧ ReadIsHeld s x ∧ ∀ w, ReadIsHeld s w → w = x := by
  by_cases hr : ∃ a cause o, s.bp.held = some ⟨.read a, cause⟩ ∧ setupOffset s a = some o ∧ o ∈ s.cr.dirty
  · obtain ⟨a, cause, o, hh, ho, hd⟩ := hr
    refine .inr ⟨.report o, by simp [heldReportWord, hh, ho, hd], ⟨a, cause, o, hh, ho, rfl⟩, ?_⟩
    rintro w ⟨a', cause', o', hh', ho', rfl⟩
    rw [hh] at hh'
    cases hh'
    rw [ho] at ho'
    cases ho'
    rfl
  · have hn : ∀ w, s.isMarked w = true → ¬ ReadIsHeld s w := by
      rintro w hw ⟨a, cause, o, hh, ho, rfl⟩
      exact hr ⟨a, cause, o, hh, ho, by simpa [State.isMarked] using hw⟩
    refine .inl ⟨?_, hn⟩
    unfold heldReportWord
    split
    · rename_i a cause hh
      split
      · rename_i o ho
        exact if_neg (fun hd => hr ⟨a, cause, o, hh, ho, hd⟩)
      · rfl
    · rfl

/-- The marks that the end of an event enters stand behind the queue in the order of R53, before every mark that found no place. -/
theorem State.fill_new (s : State) (h : SetsOrdered s) :
    ∃ new, s.fill.bp.queue = s.bp.queue ++ new ∧ (∀ w ∈ new, s.isMarked w = true ∧ w ∉ s.bp.queue) ∧
      new.Pairwise (EntersBefore s) ∧ ∀ v ∈ new, ∀ w, s.isMarked w = true → w ∉ s.fill.bp.queue → EntersBefore s v w := by
  obtain ⟨hd, _, hu, _⟩ := h
  let marks := s.cr.dirty.map SideWord.report ++ s.qe.due.map SideWord.writeBack
  have base : marks.Pairwise (fun v w => ¬ ReadIsHeld s w → EntersBefore s v w) := by
    refine List.pairwise_append.2 ⟨?_, ?_, ?_⟩
    · exact List.pairwise_map.2 (hd.imp (fun hlt hn => .inr ⟨hn, .inl ⟨_, _, rfl, rfl, hlt⟩⟩))
    · exact List.pairwise_map.2 (hu.imp (fun hlt hn => .inr ⟨hn, .inr (.inr ⟨_, _, rfl, rfl, hlt⟩)⟩))
    · intro v hv w hw hn
      obtain ⟨o, _, rfl⟩ := List.mem_map.1 hv
      obtain ⟨m, _, rfl⟩ := List.mem_map.1 hw
      exact .inr ⟨hn, .inr (.inl ⟨_, _, rfl, rfl⟩)⟩
  have hmarks : ∀ w, w ∈ marks → s.isMarked w = true := fun w hw =>
    (mem_markOrder s w).1 (by simp only [markOrder, List.append_assoc]; exact List.mem_append_right _ hw)
  have hfill : s.fill.bp.queue = (heldReportWord s ++ marks).foldl enterMark s.bp.queue := by
    rw [← List.append_assoc]; rfl
  have key : ∃ ws : List SideWord, s.fill.bp.queue = ws.foldl enterMark s.bp.queue ∧ (∀ w, w ∈ ws ↔ w ∈ markOrder s) ∧
      ws.Pairwise (fun v w => v = w ∨ EntersBefore s v w) := by
    rcases heldReportWord_cases s with ⟨h0, hn⟩ | ⟨x, h1, hx, hu⟩
    · refine ⟨marks, by rw [hfill, h0]; rfl, fun w => by simp [markOrder, h0, marks], ?_⟩
      exact base.imp_of_mem (fun _ hw hi => .inr (hi (hn _ (hmarks _ hw))))
    · refine ⟨x :: marks.filter (fun w => w ≠ x), ?_, ?_, ?_⟩
      · have hk : x ∈ enterMark s.bp.queue x ∨ 8 ≤ (enterMark s.bp.queue x).length := by
          by_cases hl : (enterMark s.bp.queue x).length < 8
          · exact .inl (mem_enterMark _ _ hl)
          · exact .inr (by omega)
        rw [hfill, h1]
        exact foldl_enterMark_filter x marks _ hk
      · intro w
        by_cases hw : w = x <;> simp [markOrder, h1, marks, hw]
      · refine List.pairwise_cons.2 ⟨fun w _ => .inr (.inl hx), ?_⟩
        exact (List.Pairwise.filter _ base).imp_of_mem (fun _ hw hi =>
          .inr (hi (fun hr => by simpa [hu _ hr] using (List.mem_filter.1 hw).2)))
  obtain ⟨ws, e, hm, hp⟩ := key
  obtain ⟨new, e', hn, hp', hl⟩ := foldl_enterMark_new (EntersBefore s) ws s.bp.queue hp
  refine ⟨new, e.trans e', fun w hw => ⟨(mem_markOrder s w).1 ((hm w).1 (hn w hw).1), (hn w hw).2⟩, hp', ?_⟩
  intro v hv w hw hnot
  exact hl v hv w ((hm w).2 ((mem_markOrder s w).2 hw)) (by rwa [e, e'] at hnot)
/-! ### The end of an event -/

/-- Filling the queue is no change but for the marks. -/
theorem State.fill_same (s : State) : SameButMarks s s.fill := rfl

/-- A port freed or granted is no change but for the marks and the port. -/
theorem State.freePort_same (s : State) : SameButMarks s s.freePort := rfl
theorem State.arbitrate_same (s : State) : SameButMarks s s.arbitrate := rfl

/-- The end of an event only adds marks and entries and grants the port: what else the event did stands (R51, R53, R202). -/
theorem State.finish_same (s t : State) : SameButMarks t (s.finish t) :=
  ((State.markAllDirty_same t (changedWords s t)).trans (State.fill_same _)).trans (State.arbitrate_same _)

/-- An event does what its effect says, but for the marks and entries that its end adds. -/
theorem State.event_same (f : State → State) (s : State) : SameButMarks (f s) (s.event f) := State.finish_same s (f s)

/-- After an event exactly the marks its effect left and those of the report words whose value it changed are set (R202). -/
theorem State.event_dirty (f : State → State) (s : State) (o : Nat) :
    o ∈ (s.event f).cr.dirty ↔ (o ∈ reportOffsets ∧ reportValue s o ≠ reportValue (f s) o) ∨ o ∈ (f s).cr.dirty := by
  have h : (s.event f).cr = (s.markChanged (f s)).cr := rfl
  rw [h, State.markChanged, State.mem_markAllDirty]
  simp [changedWords]

/-- Marking the changed words leaves the Bus Path alone. -/
theorem State.markChanged_bp (s t : State) : (s.markChanged t).bp = t.bp := by
  rw [State.markChanged, State.markAllDirty_eq]; rfl

/-- The queue after an event: the marks in the order of R53 entered behind what the effect left. -/
theorem State.event_queue_eq (f : State → State) (s : State) :
    (s.event f).bp.queue = (markOrder (s.markChanged (f s))).foldl enterMark (f s).bp.queue := by
  rw [← State.markChanged_bp s (f s)]; rfl

/-- Entries are added at the tail (R53). -/
theorem State.event_queue (f : State → State) (s : State) : (f s).bp.queue <+: (s.event f).bp.queue := by
  rw [State.event_queue_eq]; exact foldl_enterMark_prefix _ _

/-- An event keeps the Side Write Queue legal when its effect does (R52). -/
theorem State.event_queueLegal (f : State → State) (s : State) (h : SideQueueLegal (f s)) : SideQueueLegal (s.event f) := by
  rw [SideQueueLegal, State.event_queue_eq]
  exact ⟨foldl_enterMark_length _ _ h.1, foldl_enterMark_nodup _ _ h.2⟩

/-- After an event every set mark has an entry, or the queue is full (R53). -/
theorem State.event_marksEntered (f : State → State) (s : State) : MarksEntered (s.event f) := by
  intro h w hw
  have m : (s.event f).isMarked w = (s.markChanged (f s)).isMarked w := by cases w <;> rfl
  rw [State.event_queue_eq] at h ⊢
  rw [m] at hw
  exact mem_foldl_enterMark _ _ h w ((mem_markOrder _ w).mpr hw)

/-- An event that marks nothing against a full queue is its effect, with the port granted. -/
theorem State.finish_of_full (s t : State) (hc : changedWords s t = []) (hf : 8 ≤ t.bp.queue.length) :
    s.finish t = t.arbitrate := by
  have h : s.markChanged t = t := by rw [State.markChanged, hc]; rfl
  rw [State.finish, h, State.fill, foldl_enterMark_full _ _ hf]
  rfl

/-- An event with which a use of the port ends does what its effect says, but for marks, entries and the port (R51). -/
theorem State.portEvent_eq (f : State → State) (s : State) : s.portEvent f = s.finish (f s).freePort := rfl

theorem State.portEvent_same (f : State → State) (s : State) : SameButMarks (f s) (s.portEvent f) :=
  (State.freePort_same (f s)).trans (State.finish_same s _)

@[simp] theorem State.freePort_mem (s : State) : s.freePort.mem = s.mem := rfl
@[simp] theorem State.freePort_qe (s : State) : s.freePort.qe = s.qe := rfl
@[simp] theorem State.freePort_bc (s : State) : s.freePort.bc = s.bc := rfl
@[simp] theorem State.freePort_tc (s : State) : s.freePort.tc = s.tc := rfl
@[simp] theorem State.freePort_cs (s : State) : s.freePort.cs = s.cs := rfl
@[simp] theorem State.freePort_pt (s : State) : s.freePort.pt = s.pt := rfl
@[simp] theorem State.freePort_cr (s : State) : s.freePort.cr = s.cr := rfl
@[simp] theorem State.freePort_resetPin (s : State) : s.freePort.resetPin = s.resetPin := rfl
@[simp] theorem State.freePort_pending (s : State) : s.freePort.pending = s.pending := rfl
@[simp] theorem State.freePort_freeDraws (s : State) : s.freePort.freeDraws = s.freeDraws := rfl
@[simp] theorem State.freePort_queue (s : State) : s.freePort.bp.queue = s.bp.queue := rfl
@[simp] theorem State.freePort_held (s : State) : s.freePort.bp.held = s.bp.held := rfl
@[simp] theorem State.freePort_windows (s : State) : s.freePort.bp.windows = s.bp.windows := rfl
@[simp] theorem State.freePort_anchor (s : State) : s.freePort.bp.anchor = s.bp.anchor := rfl
@[simp] theorem State.freePort_hostData (s : State) : s.freePort.bp.hostData = s.bp.hostData := rfl
@[simp] theorem State.freePort_port (s : State) : s.freePort.bp.port = none := rfl

/-- The report words' values do not rest on the port. -/
@[simp] theorem State.freePort_reportValue (s : State) (o : Nat) : reportValue s.freePort o = reportValue s o := rfl

/-! ### The grant of the port (R51) -/

/-- What waits for the port rests on the queue, the text-line request and the part state alone. -/
theorem State.sideWaits_congr (s t : State) (x : SideAccess) (h1 : t.bp.queue = s.bp.queue)
    (h2 : t.bc.textRequest = s.bc.textRequest) (h3 : t.cr.part = s.cr.part) : t.sideWaits x = s.sideWaits x := by
  cases x <;> simp [State.sideWaits, State.isLoading, h1, h2, h3]

@[simp] theorem State.arbitrate_port (s : State) : s.arbitrate.bp.port = s.portChoice := rfl

@[simp] theorem State.arbitrate_sideWaits (s : State) (x : SideAccess) : s.arbitrate.sideWaits x = s.sideWaits x :=
  State.sideWaits_congr s s.arbitrate x rfl rfl rfl

/-- A port that stays free has nothing waiting for it. -/
theorem State.portChoice_none (s : State) (h : s.portChoice = none) (x : SideAccess) : s.sideWaits x = false := by
  have hn : s.nextSide = none := by
    unfold State.portChoice at h
    split at h
    · split at h
      · simp at h
      · exact h
    · exact h
  simp only [State.nextSide, List.find?_eq_none, List.mem_cons, List.not_mem_nil, or_false, Bool.not_eq_true] at hn
  cases x
  · exact hn _ (Or.inl rfl)
  · exact hn _ (Or.inr (Or.inl rfl))
  · exact hn _ (Or.inr (Or.inr rfl))

/-- The side access that gets the port waits for it. -/
theorem State.portChoice_waits (s : State) (x : SideAccess) (h : s.portChoice = some x) : s.sideWaits x = true := by
  unfold State.portChoice at h
  split at h
  · split at h
    · rename_i hw
      simp only [Option.some.injEq] at h
      subst h
      exact hw
    · exact List.find?_some (p := s.sideWaits) h
  · exact List.find?_some (p := s.sideWaits) h

/-- A side access whose cycle is in progress keeps the port while it waits for its end (R51). -/
theorem State.portChoice_kept (s : State) (x : SideAccess) (h : s.bp.port = some x) (hw : s.sideWaits x = true) :
    s.portChoice = some x := by
  simp [State.portChoice, h, hw]

/-- A port granted anew goes to the landing when an entry is queued (R51). -/
theorem State.portChoice_landing (s : State) (h : s.bp.port = none) (hq : s.bp.queue ≠ []) : s.portChoice = some .landing := by
  simp [State.portChoice, h, State.nextSide, State.sideWaits, hq]

/-- After an event the port is granted as the arbiter chooses among what then waits. -/
theorem State.finish_port (s t : State) :
    (s.finish t).bp.port = (s.markChanged t).fill.portChoice := rfl

/-- An event of the part with RESET released. -/
theorem partEvent_next (f : State → State) (s : State) (h : s.resetPin = false) : partEvent f s = .next (s.event f) := by
  simp [partEvent, h]

/-! ### What an event leaves as its effect left it -/

@[simp] theorem State.finish_mem (s t : State) : (s.finish t).mem = t.mem := (State.finish_same s t).mem
@[simp] theorem State.finish_qe (s t : State) : (s.finish t).qe = t.qe := (State.finish_same s t).qe
@[simp] theorem State.finish_bc (s t : State) : (s.finish t).bc = t.bc := (State.finish_same s t).bc
@[simp] theorem State.finish_tc (s t : State) : (s.finish t).tc = t.tc := (State.finish_same s t).tc
@[simp] theorem State.finish_cs (s t : State) : (s.finish t).cs = t.cs := (State.finish_same s t).cs
@[simp] theorem State.finish_pt (s t : State) : (s.finish t).pt = t.pt := (State.finish_same s t).pt
@[simp] theorem State.finish_resetPin (s t : State) : (s.finish t).resetPin = t.resetPin := (State.finish_same s t).resetPin
@[simp] theorem State.finish_pending (s t : State) : (s.finish t).pending = t.pending := (State.finish_same s t).pending
@[simp] theorem State.finish_freeDraws (s t : State) : (s.finish t).freeDraws = t.freeDraws :=
  (State.finish_same s t).freeDraws
@[simp] theorem State.finish_part (s t : State) : (s.finish t).cr.part = t.cr.part := by rw [(State.finish_same s t).cr]
@[simp] theorem State.finish_running (s t : State) : (s.finish t).cr.running = t.cr.running := by
  rw [(State.finish_same s t).cr]
@[simp] theorem State.finish_status (s t : State) : (s.finish t).cr.status = t.cr.status := by
  rw [(State.finish_same s t).cr]
@[simp] theorem State.finish_flags (s t : State) : (s.finish t).cr.flags = t.cr.flags := by rw [(State.finish_same s t).cr]
@[simp] theorem State.finish_mailbox (s t : State) : (s.finish t).cr.mailbox = t.cr.mailbox := by
  rw [(State.finish_same s t).cr]
@[simp] theorem State.finish_held (s t : State) : (s.finish t).bp.held = t.bp.held := by rw [(State.finish_same s t).bp]
@[simp] theorem State.finish_windows (s t : State) : (s.finish t).bp.windows = t.bp.windows := by
  rw [(State.finish_same s t).bp]
@[simp] theorem State.finish_anchor (s t : State) : (s.finish t).bp.anchor = t.bp.anchor := by
  rw [(State.finish_same s t).bp]
@[simp] theorem State.finish_hostData (s t : State) : (s.finish t).bp.hostData = t.bp.hostData := by
  rw [(State.finish_same s t).bp]

/-- What the effect of an event is but for marks, the event is. -/
theorem State.finish_sameAs {e u : State} (s : State) (h : SameButMarks e u) : SameButMarks e (s.finish u) :=
  h.trans (State.finish_same s u)

/-- What the effect of an event that uses the port is but for marks, the event is. -/
theorem State.finish_freePort_sameAs {e u : State} (s : State) (h : SameButMarks e u) : SameButMarks e (s.finish u.freePort) :=
  h.trans ((State.freePort_same u).trans (State.finish_same s _))

/-- A mark the effect left is set after the event. -/
theorem State.mem_finish_of_mem {s u : State} {o : Nat} (h : o ∈ u.cr.dirty) : o ∈ (s.finish u).cr.dirty :=
  (State.event_dirty (fun _ => u) s o).mpr (Or.inr h)

/-- A report word whose value the event changed is dirty after it (R202). -/
theorem State.mem_finish_of_ne {s u : State} {o : Nat} (ho : o ∈ reportOffsets)
    (h : Sys2Proof.Machine.reportValue s o ≠ Sys2Proof.Machine.reportValue u o) : o ∈ (s.finish u).cr.dirty :=
  (State.event_dirty (fun _ => u) s o).mpr (Or.inl ⟨ho, h⟩)

end Sys2Proof.Machine
end

