-- ==== Sys2Proof/Laws/Memory.lean ====
section
/-!
SUPPORT. Memory: a read after a write, the bytes a write leaves alone, and the canonical form that every write keeps.
-/

namespace Sys2Proof.Machine

/-! ### The canonical form -/

theorem Memory.wf_cons (c : Host.Cell) (m : Memory) :
    Memory.wf (c :: m) = true ↔ c.2 ≠ Config.unwrittenByte ∧ (∀ d ∈ m, c.1 < d.1) ∧ m.wf = true := by
  simp [Memory.wf, and_assoc]

/-- The keys of a memory after a byte write are the old ones and the one written. -/
theorem Memory.mem_writeByte (m : Memory) (k : Nat) (b : Byte) (d : Host.Cell) (h : d ∈ m.writeByte k b) :
    d ∈ m ∨ d = (k, b) := by
  induction m with
  | nil =>
    simp only [Memory.writeByte] at h
    split at h <;> simp_all
  | cons c m ih =>
    simp only [Memory.writeByte] at h
    split at h
    · split at h
      · exact Or.inl h
      · rcases List.mem_cons.mp h with h | h
        · exact Or.inr h
        · exact Or.inl h
    · split at h
      · split at h
        · exact Or.inl (List.mem_cons_of_mem _ h)
        · rcases List.mem_cons.mp h with h | h
          · exact Or.inr h
          · exact Or.inl (List.mem_cons_of_mem _ h)
      · rcases List.mem_cons.mp h with h | h
        · exact Or.inl (by simp [h])
        · rcases ih h with h | h
          · exact Or.inl (List.mem_cons_of_mem _ h)
          · exact Or.inr h

/-- A byte write keeps the canonical form. -/
theorem Memory.wf_writeByte (m : Memory) (k : Nat) (b : Byte) (h : m.wf = true) : (m.writeByte k b).wf = true := by
  induction m with
  | nil =>
    simp only [Memory.writeByte]
    split
    · rfl
    · rename_i hb; simp [Memory.wf, hb]
  | cons c m ih =>
    have hc := (Memory.wf_cons c m).mp h
    simp only [Memory.writeByte]
    split
    · rename_i hk
      split
      · exact h
      · rename_i hb
        refine (Memory.wf_cons _ _).mpr ⟨hb, ?_, h⟩
        intro d hd
        rcases List.mem_cons.mp hd with hd | hd
        · simpa [hd] using hk
        · have := hc.2.1 d hd
          simp only; omega
    · rename_i hk
      split
      · rename_i he
        split
        · exact hc.2.2
        · rename_i hb
          refine (Memory.wf_cons _ _).mpr ⟨hb, ?_, hc.2.2⟩
          intro d hd
          have := hc.2.1 d hd
          simp only; omega
      · rename_i he
        refine (Memory.wf_cons _ _).mpr ⟨hc.1, ?_, ih hc.2.2⟩
        intro d hd
        rcases Memory.mem_writeByte m k b d hd with hd | hd
        · exact hc.2.1 d hd
        · rw [hd]; simp only; omega

/-- A word write keeps the canonical form, whatever its lanes. -/
theorem Memory.wf_writeWord (m : Memory) (a : Nat) (d : Word) (lanes : Lanes) (h : m.wf = true) :
    (m.writeWord a d lanes).wf = true := by
  cases lanes
  · exact Memory.wf_writeByte _ _ _ (Memory.wf_writeByte _ _ _ h)
  · exact Memory.wf_writeByte _ _ _ h
  · exact Memory.wf_writeByte _ _ _ h

/-! ### Reads after writes -/

/-- A byte write leaves every other byte alone, in any memory. -/
theorem Memory.readByte_writeByte_ne (m : Memory) (k j : Nat) (b : Byte) (h : j ≠ k) :
    (m.writeByte k b).readByte j = m.readByte j := by
  induction m with
  | nil =>
    simp only [Memory.writeByte]
    split
    · rfl
    · simp [Memory.readByte, Ne.symm h]
  | cons c m ih =>
    simp only [Memory.writeByte]
    split
    · split
      · rfl
      · simp [Memory.readByte, Ne.symm h]
    · split
      · rename_i he
        split <;> simp [Memory.readByte, ← he, Ne.symm h]
      · simp only [Memory.readByte, ih]

/-- A key below every cell reads as unwritten. -/
theorem Memory.readByte_below (m : Memory) (k : Nat) (h : ∀ d ∈ m, k < d.1) : m.readByte k = Config.unwrittenByte := by
  induction m with
  | nil => rfl
  | cons c m ih =>
    have h1 := h c (by simp)
    have hne : c.1 ≠ k := by omega
    simp [Memory.readByte, hne, ih (fun d hd => h d (List.mem_cons_of_mem _ hd))]

/-- A byte written is read back. -/
theorem Memory.readByte_writeByte_self (m : Memory) (k : Nat) (b : Byte) (h : m.wf = true) :
    (m.writeByte k b).readByte k = b := by
  induction m with
  | nil =>
    simp only [Memory.writeByte]
    split
    · rename_i hb; simp [Memory.readByte, hb]
    · simp [Memory.readByte]
  | cons c m ih =>
    have hc := (Memory.wf_cons c m).mp h
    simp only [Memory.writeByte]
    split
    · rename_i hk
      split
      · rename_i hb
        rw [hb]
        refine Memory.readByte_below _ _ ?_
        intro d hd
        rcases List.mem_cons.mp hd with hd | hd
        · simpa [hd] using hk
        · have := hc.2.1 d hd; omega
      · simp [Memory.readByte]
    · split
      · rename_i he
        split
        · rename_i hb
          rw [hb]
          refine Memory.readByte_below _ _ ?_
          intro d hd
          have := hc.2.1 d hd; omega
        · simp [Memory.readByte]
      · rename_i he
        have hne : c.1 ≠ k := fun e => he e.symm
        simp [Memory.readByte, hne, ih hc.2.2]

theorem Memory.readByte_writeByte (m : Memory) (k j : Nat) (b : Byte) (h : m.wf = true) :
    (m.writeByte k b).readByte j = if j = k then b else m.readByte j := by
  by_cases hj : j = k
  · subst hj; simp [Memory.readByte_writeByte_self m j b h]
  · simp [hj, Memory.readByte_writeByte_ne m k j b hj]

@[simp] theorem hiByte_wordOf (h l : Byte) : hiByte (wordOf h l) = h := by
  simp only [hiByte, wordOf]
  apply BitVec.eq_of_getLsbD_eq
  intro i hi
  rw [BitVec.getLsbD_extractLsb', BitVec.getLsbD_append]
  have e : 8 + i - 8 = i := by omega
  simp [hi, e]
@[simp] theorem loByte_wordOf (h l : Byte) : loByte (wordOf h l) = l := by
  simp only [loByte, wordOf]
  apply BitVec.eq_of_getLsbD_eq
  intro i hi
  rw [BitVec.getLsbD_extractLsb', BitVec.getLsbD_append]
  simp [hi]
@[simp] theorem wordOf_bytes (w : Word) : wordOf (hiByte w) (loByte w) = w := by
  simp only [wordOf, hiByte, loByte]
  apply BitVec.eq_of_getLsbD_eq
  intro i hi
  simp only [BitVec.getLsbD_append, BitVec.getLsbD_extractLsb']
  split
  · simp [*]
  · have : i - 8 < 8 := by omega
    have e : 8 + (i - 8) = i := by omega
    simp [this, e]

/-- A word written whole is read back. -/
theorem Memory.readWord_writeWord_self (m : Memory) (a : Nat) (d : Word) (h : m.wf = true) :
    (m.writeWord a d .both).readWord a = d := by
  have h1 := Memory.wf_writeByte m (2 * a) (hiByte d) h
  simp [Memory.readWord, Memory.writeWord, Memory.readByte_writeByte _ _ _ _ h1, Memory.readByte_writeByte _ _ _ _ h]

/-- A word write leaves every other word alone, in any memory. -/
theorem Memory.readWord_writeWord_ne (m : Memory) (a b : Nat) (d : Word) (lanes : Lanes) (h : b ≠ a) :
    (m.writeWord a d lanes).readWord b = m.readWord b := by
  have h0 : 2 * b ≠ 2 * a := by omega
  have h1 : 2 * b ≠ 2 * a + 1 := by omega
  have h2 : 2 * b + 1 ≠ 2 * a := by omega
  cases lanes <;> simp [Memory.readWord, Memory.writeWord, Memory.readByte_writeByte_ne, h0, h1, h2]

end Sys2Proof.Machine
end

