-- ==== Sys2Proof/Laws/Bus.lean ====
section
/-!
SUPPORT. The path of a host access: what its address names, and what presenting it does when the port is free (chapter 3).
-/

namespace Sys2Proof.Machine

/-! ### The fields of a quote record (R30) -/

/-- What an offset is looked up as is a field that the record holds there. -/
theorem FieldOffsets.lookup_named (o : FieldOffsets) (i : Nat) : FieldNamed o i (o.lookup i) := by
  unfold FieldOffsets.lookup
  split
  · assumption
  split
  · assumption
  split
  · assumption
  split
  · rename_i f h
    have hf : o.writeBack f = some i := by simpa using List.find?_some h
    cases f <;> simp only [FieldOffsets.writeBack] at hf
    case volLow =>
      obtain ⟨v, hv, e⟩ := Option.map_eq_some_iff.1 hf
      exact ⟨v, hv, e.symm⟩
    all_goals exact hf
  · rename_i h
    simp [allWbFields, FieldOffsets.writeBack] at h
    simp [FieldNamed, FieldOffsets.words]
    grind

/-- The offset of a write-back field is one at which the record holds it. -/
theorem FieldOffsets.writeBack_named (o : FieldOffsets) (f : WbField) (i : Nat) :
    o.writeBack f = some i ↔ FieldNamed o i (.writeBack f) := by
  cases f <;> simp [FieldOffsets.writeBack, FieldNamed, eq_comm]

/-! ### What an address names -/

/-- What an address names rests on the anchor, the part state and the windows alone. -/
theorem target_congr (s t : State) (a : Addr) (h1 : t.bp.anchor = s.bp.anchor) (h2 : t.cr.part = s.cr.part)
    (h3 : t.bp.windows = s.bp.windows) : target t a = target s a := by
  unfold target setupOffset State.isReady
  rw [h1, h2, h3]

theorem sideWordAt_congr (s t : State) (a : Addr) (h1 : t.bp.anchor = s.bp.anchor) (h2 : t.cr.part = s.cr.part)
    (h3 : t.bp.windows = s.bp.windows) : sideWordAt t a = sideWordAt s a := by
  unfold sideWordAt
  rw [target_congr s t a h1 h2 h3]

/-- Setup word +0 stands at the anchor. -/
theorem setupAddr_zero (s : State) : setupAddr s 0 = s.bp.anchor := by
  simp [setupAddr]

/-- The address of a setup word, the setup block lying whole in the address space. -/
theorem setupAddr_toNat (s : State) (o : Nat) (h : AnchorFits s) (ho : o ≤ 123) :
    (setupAddr s o).toNat = s.bp.anchor.toNat + o := by
  have : s.bp.anchor.toNat + 123 < 0x40000 := h
  simp only [setupAddr, BitVec.toNat_ofNat]
  omega

theorem setupOffset_zero (s : State) : setupOffset s (setupAddr s 0) = some 0 := by
  rw [setupAddr_zero]
  simp [setupOffset]

theorem setupOffset_setupAddr (s : State) (o : Nat) (h : AnchorFits s) (ho : o ≤ 123) :
    setupOffset s (setupAddr s o) = some o := by
  simp only [setupOffset, setupAddr_toNat s o h ho]
  rw [if_pos (by omega)]
  simp

theorem target_command (s : State) : target s (setupAddr s 0) = .command := by
  simp [target, setupOffset_zero, setupTarget]

theorem target_setup (s : State) (o : Nat) (h : AnchorFits s) (ho : o ≤ 123) :
    target s (setupAddr s o) = setupTarget o := by
  simp [target, setupOffset_setupAddr s o h ho]

/-- No window word is a setup word: a window's address names a field, a line, or a bulletin word. -/
theorem Window.decode_cases (w : Window) (a : Addr) :
    (∃ n f, w.decode a = .quote w.index n f) ∨ (∃ l, w.decode a = .text w.index l) ∨ ∃ i, w.decode a = .bulletin i := by
  unfold Window.decode
  cases w.kind
  · exact Or.inl ⟨_, _, rfl⟩
  · exact Or.inr (Or.inl ⟨_, rfl⟩)
  · exact Or.inr (Or.inr ⟨_, rfl⟩)

/-- Only the word at the anchor is the command word. -/
theorem eq_anchor_of_command (s : State) (a : Addr) (h : target s a = .command) : a = s.bp.anchor := by
  unfold target at h
  split at h
  · rename_i o ho
    unfold setupOffset at ho
    split at ho
    · rename_i hr
      simp only [Option.some.injEq] at ho
      subst ho
      unfold setupTarget at h
      split at h
      · apply BitVec.eq_of_toNat_eq; omega
      · split at h
        · simp at h
        · split at h
          · simp at h
          · split at h <;> simp at h
    · simp at ho
  · split at h
    · split at h
      · rename_i w _
        rcases Window.decode_cases w a with ⟨n, f, e⟩ | ⟨l, e⟩ | ⟨i, e⟩ <;> rw [e] at h <;> simp at h
      · simp at h
    · simp at h

/-! ### A granted write -/

/-- A write to a word with no mark that is set takes no entry (R58). -/
theorem State.overrideMark_none (s : State) (a : Addr) (h : sideWordAt s a = none) : s.overrideMark a = s := by
  simp [State.overrideMark, h]

theorem State.overrideMark_clear (s : State) (a : Addr) (w : SideWord) (h : sideWordAt s a = some w)
    (hm : s.isMarked w = false) : s.overrideMark a = s := by
  simp [State.overrideMark, h, hm]

/-- A granted write to a word that holds no mark of the part: memory takes it, and its owner (R49, R50). -/
theorem State.performAccess_write (s : State) (a : Addr) (d : Word) (lanes : Lanes) (h : sideWordAt s a = none) :
    State.performAccess (.write a d lanes) s = (s.setMem (s.mem.writeWord a.toNat d lanes)).handWrite a d lanes := by
  have h' : sideWordAt (s.setMem (s.mem.writeWord a.toNat d lanes)) a = none :=
    (sideWordAt_congr s (s.setMem (s.mem.writeWord a.toNat d lanes)) a rfl rfl rfl).trans h
  simp only [State.performAccess, State.memoryAccess, State.overrideMark_none _ a h']

/-! ### Presenting an access -/

/-- With no access held there is none to complete first. -/
theorem State.finishHeld_none (s : State) (h : s.bp.held = none) : s.finishHeld = s := by
  unfold State.finishHeld State.releaseHeld
  simp [h]

/-- An access presented to a free port is granted at once, unless it reads a word owed a landing (R55, R56). -/
theorem State.present_free (s : State) (acc : HostAccess) (h : PortFree s) (ho : s.readOwed acc = false) :
    s.present acc = s.finish (State.performAccess acc s).freePort := by
  obtain ⟨h1, h2, h3⟩ := h
  have h3' : ¬ 8 ≤ s.bp.queue.length := by omega
  simp [State.present, h1, State.finishHeld_none s h2, State.admitAccess, h3', ho, State.portEvent_eq]

/-- A write presented to a free port is granted at once. -/
theorem State.present_write (s : State) (a : Addr) (d : Word) (lanes : Lanes) (h : PortFree s) :
    s.present (.write a d lanes) = s.finish (State.performAccess (.write a d lanes) s).freePort :=
  State.present_free s _ h rfl

/-- A command word written to a free port is decided by CR in the same event (R189). -/
theorem State.giveCommand_free (s : State) (opcode operand : Byte) (h : PortFree s) :
    s.giveCommand opcode operand =
      s.finish ((withCommandWord s opcode operand).commandWrite (wordOf opcode operand)).freePort := by
  have ht := target_command s
  have hs : sideWordAt s (setupAddr s 0) = none := by simp [sideWordAt, ht]
  have ht' : target (s.setMem (s.mem.writeWord (setupAddr s 0).toNat (wordOf opcode operand) .both)) (setupAddr s 0)
      = .command :=
    (target_congr s (s.setMem (s.mem.writeWord (setupAddr s 0).toNat (wordOf opcode operand) .both)) (setupAddr s 0)
      rfl rfl rfl).trans ht
  rw [State.giveCommand, State.writeSetup, State.present_write _ _ _ _ h, State.performAccess_write _ _ _ _ hs,
    State.handWrite, ht']
  rfl

/-- A known command given to a free, READY part with no command running is handed to its owner (R189, case 5). -/
theorem State.giveCommand_owner (s : State) (opcode operand : Byte) (h : TakesCommands s)
    (hk : isKnownOpcode opcode = true) :
    s.giveCommand opcode operand = s.finish ((withCommandWord s opcode operand).owner opcode operand).freePort := by
  obtain ⟨hf, hr, hn⟩ := h
  rw [State.giveCommand_free s _ _ hf]
  have h1 : (withCommandWord s opcode operand).cr = s.cr := rfl
  have h2 : s.cr.part ≠ .unconfigured := by
    intro e
    simp [State.isReady, e] at hr
  simp [State.commandWrite, h1, hn, hk, h2]

/-! ### The port between side accesses and a held access (R51, R55) -/

@[simp] theorem State.setHeld_held (s : State) (h : Option Held) : (s.setHeld h).bp.held = h := rfl
@[simp] theorem State.setHeld_queue (s : State) (h : Option Held) : (s.setHeld h).bp.queue = s.bp.queue := rfl
@[simp] theorem State.setHeld_mem (s : State) (h : Option Held) : (s.setHeld h).mem = s.mem := rfl

/-- With no access held there is none to grant. -/
@[simp] theorem State.grantHeld_none (s : State) (h : s.bp.held = none) : s.grantHeld = s := by
  simp [State.grantHeld, h]

@[simp] theorem State.afterRead_none (s : State) (h : s.bp.held = none) : s.afterRead = s := by
  simp [State.afterRead, h]

/-- While a side access does not have the port, the end of its cycle cannot come (R51). -/
theorem State.endCycle_other (s : State) (side : SideAccess) (h : s.bp.port ≠ some side) : s.endCycle side = s := by
  cases side <;> simp [State.endCycle, State.landing, State.textRead, State.loadRead, h]

/-- The end of a side access's cycle with no access held: its effect, and the port granted anew. -/
theorem State.landing_free (s : State) (h : s.bp.port = some .landing) (hh : s.bp.held = none) :
    s.landing = s.portEvent State.landHead := by
  have e : (s.portEvent State.landHead).bp.held = none := by
    rw [State.portEvent_eq, State.finish_held, State.freePort_held, ← hh]
    unfold State.landHead
    split
    · rfl
    · rename_i w q _
      cases w <;> simp only [State.clearMark] <;> split <;> rfl
  rw [State.landing, if_pos h, State.grantHeld_none _ e]

/-- The end of a read's cycle with an access that met a full queue behind it: the access waits on, for a landing. -/
@[simp] theorem State.afterRead_fullQueue (s : State) (acc : HostAccess) (h : s.bp.held = some ⟨acc, .fullQueue⟩) :
    s.afterRead = s := by
  simp [State.afterRead, h]

/-- An access presented behind a side access that has the port is held until the end of its cycle. -/
theorem State.presentBehind_waits (s : State) (acc : HostAccess) (side : SideAccess) (h : PortFree s)
    (hw : s.bp.port = some side) :
    s.presentBehind acc = s.event (State.setHeld (some ⟨acc, .arbitration⟩)) := by
  obtain ⟨h1, h2, h3⟩ := h
  have h3' : ¬ 8 ≤ s.bp.queue.length := by omega
  cases side <;> simp [State.presentBehind, h1, State.finishHeld_none s h2, State.admitBehind, hw, h3']

end Sys2Proof.Machine
end

