-- ==== Sys2Proof/Laws/Command.lean ====
section
/-!
SUPPORT. The taking of commands: COMMAND STATUS, the operands, the saturating counts, the mailbox and the host write that presents a
command (10.2, 10.5).
-/

namespace Sys2Proof.Machine

/-! ### COMMAND STATUS (R191) -/

/-- Setting COMMAND STATUS marks its word. -/
theorem State.setStatus_dirty (s : State) (opcode : Byte) (out : CmdOutcome) (reason : Reason) :
    8 ∈ (s.setStatus opcode out reason).cr.dirty := by
  unfold State.setStatus
  split <;> exact (mem_join 8 8 _).mpr (Or.inl rfl)

/-- Setting COMMAND STATUS is `answered`, but for the mark. -/
theorem State.setStatus_same (s : State) (opcode : Byte) (out : CmdOutcome) (reason : Reason) :
    SameButMarks (answered s opcode out reason) (s.setStatus opcode out reason) := by
  unfold State.setStatus answered
  split <;> rfl

/-- What setting COMMAND STATUS leaves as it was. -/
theorem State.setStatus_frame (s : State) (opcode : Byte) (out : CmdOutcome) (reason : Reason) :
    (s.setStatus opcode out reason).mem = s.mem ∧ (s.setStatus opcode out reason).bp = s.bp ∧
    (s.setStatus opcode out reason).qe = s.qe ∧ (s.setStatus opcode out reason).bc = s.bc ∧
    (s.setStatus opcode out reason).tc = s.tc ∧ (s.setStatus opcode out reason).cs = s.cs ∧
    (s.setStatus opcode out reason).pt = s.pt ∧ (s.setStatus opcode out reason).cr.part = s.cr.part ∧
    (s.setStatus opcode out reason).cr.running = s.cr.running := by
  unfold State.setStatus
  split <;> exact ⟨rfl, rfl, rfl, rfl, rfl, rfl, rfl, rfl, rfl⟩

@[simp] theorem State.cmdDone_mem (s : State) (opcode : Byte) : (s.cmdDone opcode).mem = s.mem :=
  (s.setStatus_frame opcode .done .none).1
@[simp] theorem State.cmdDone_bp (s : State) (opcode : Byte) : (s.cmdDone opcode).bp = s.bp :=
  (s.setStatus_frame opcode .done .none).2.1
@[simp] theorem State.cmdDone_qe (s : State) (opcode : Byte) : (s.cmdDone opcode).qe = s.qe :=
  (s.setStatus_frame opcode .done .none).2.2.1
@[simp] theorem State.cmdDone_bc (s : State) (opcode : Byte) : (s.cmdDone opcode).bc = s.bc :=
  (s.setStatus_frame opcode .done .none).2.2.2.1
@[simp] theorem State.cmdDone_tc (s : State) (opcode : Byte) : (s.cmdDone opcode).tc = s.tc :=
  (s.setStatus_frame opcode .done .none).2.2.2.2.1
@[simp] theorem State.cmdDone_cs (s : State) (opcode : Byte) : (s.cmdDone opcode).cs = s.cs :=
  (s.setStatus_frame opcode .done .none).2.2.2.2.2.1
@[simp] theorem State.cmdDone_pt (s : State) (opcode : Byte) : (s.cmdDone opcode).pt = s.pt :=
  (s.setStatus_frame opcode .done .none).2.2.2.2.2.2.1
@[simp] theorem State.cmdDone_part (s : State) (opcode : Byte) : (s.cmdDone opcode).cr.part = s.cr.part :=
  (s.setStatus_frame opcode .done .none).2.2.2.2.2.2.2.1
@[simp] theorem State.cmdDone_running (s : State) (opcode : Byte) : (s.cmdDone opcode).cr.running = s.cr.running :=
  (s.setStatus_frame opcode .done .none).2.2.2.2.2.2.2.2

/-- A refused command changes COMMAND STATUS and CMD alone (R191). -/
theorem refusedWith_finish (s : State) (opcode operand : Byte) (reason : Reason) :
    RefusedWith s opcode operand reason (s.finish ((withCommandWord s opcode operand).cmdRefused opcode reason).freePort) :=
  ⟨State.finish_freePort_sameAs _ (State.setStatus_same _ _ _ _), State.mem_finish_of_mem (State.setStatus_dirty _ _ _ _)⟩

/-! ### Operands (R12, R168, R175) -/

theorem State.paramSlot_none (s : State) (h : 256 ≤ (s.param 0).toNat) : s.paramSlot = none := by
  unfold State.paramSlot
  rw [dif_neg (by omega)]

theorem State.paramSlot_some (s : State) (n : Slot) (h : (s.param 0).toNat = n.val) : s.paramSlot = some n := by
  have := n.isLt
  unfold State.paramSlot
  rw [dif_pos (by omega)]
  exact congrArg some (Fin.ext h)

theorem operandTerm_none (x : Byte) (h : 16 ≤ x.toNat) : operandTerm x = none := by
  unfold operandTerm
  rw [dif_neg (by omega)]

theorem operandTerm_some (x : Byte) (u : TermId) (h : x.toNat = u.val) : operandTerm x = some u := by
  have := u.isLt
  unfold operandTerm
  rw [dif_pos (by omega)]
  exact congrArg some (Fin.ext h)

/-! ### Counts (R38, R111) -/

/-- A saturating count rises by one, held to 65535. -/
theorem countUp_toNat (w : Word) : (countUp w).toNat = min 65535 (w.toNat + 1) := by
  unfold countUp
  have hw := w.isLt
  split
  · rename_i h; subst h; rfl
  · rename_i h
    have : w.toNat ≠ 65535 := fun e => h (BitVec.eq_of_toNat_eq e)
    rw [BitVec.toNat_add]
    simp
    omega

theorem countUp_ne (w : Word) (h : w ≠ 0xFFFF) : w ≠ countUp w := by
  intro e
  have e' := congrArg BitVec.toNat e
  rw [countUp_toNat] at e'
  have : w.toNat ≠ 65535 := fun e => h (BitVec.eq_of_toNat_eq e)
  omega

/-! ### The rows that present a host write -/

/-- A row that presents a host write to a free port does what the granted write does (log entry 3). -/
theorem exec_write {c : Instr} {s : State} {a : Addr} {d : Word} {lanes : Lanes}
    (hc : accessOf s c = some (.write a d lanes)) (hn : ∀ wait, c ≠ .arbitrationWait wait) (h : PortFree s) :
    exec c s = .next (s.finish (State.performAccess (.write a d lanes) s).freePort) := by
  rw [← State.present_write s a d lanes h]
  cases c <;> simp only [accessOf, Option.some.injEq, HostAccess.write.injEq, reduceCtorEq] at hc <;>
    first
    | (obtain ⟨rfl, rfl, rfl⟩ := hc; rfl)
    | exact absurd rfl (hn _)

/-! ### The owner of a written word (R28, R50)

What a granted write does, told from what its address names before memory takes the write. -/

/-- A write of the command word. -/
theorem State.handWrite_command {s : State} {a : Addr} (h : target s a = .command) (m : Memory) (d : Word)
    (lanes : Lanes) : (s.setMem m).handWrite a d lanes =
      (if lanes = .both then (s.setMem m).commandWrite d else (s.setMem m).anomaly) := by
  unfold State.handWrite
  rw [(target_congr s (s.setMem m) a rfl rfl rfl).trans h]

/-- A write of a parameter word. -/
theorem State.handWrite_parameter {s : State} {a : Addr} {p : Fin 4} (h : target s a = .parameter p) (m : Memory) (d : Word)
    (lanes : Lanes) : (s.setMem m).handWrite a d lanes = (s.setMem m).parameterTaken p d lanes := by
  unfold State.handWrite
  rw [(target_congr s (s.setMem m) a rfl rfl rfl).trans h]

/-- A write of the acknowledge word. -/
theorem State.handWrite_acknowledge {s : State} {a : Addr} (h : target s a = .acknowledge) (m : Memory) (d : Word)
    (lanes : Lanes) : (s.setMem m).handWrite a d lanes = (s.setMem m).acknowledge d lanes := by
  unfold State.handWrite
  rw [(target_congr s (s.setMem m) a rfl rfl rfl).trans h]

/-- A write of a report word. -/
theorem State.handWrite_report {s : State} {a : Addr} {o : Nat} (h : target s a = .report o) (m : Memory) (d : Word)
    (lanes : Lanes) : (s.setMem m).handWrite a d lanes = s.setMem m := by
  unfold State.handWrite
  rw [(target_congr s (s.setMem m) a rfl rfl rfl).trans h]

/-- A write in a quote record. -/
theorem State.handWrite_quote {s : State} {a : Addr} {w : Fin 8} {n : Slot} {f : QuoteField} (h : target s a = .quote w n f) (m : Memory) (d : Word)
    (lanes : Lanes) : (s.setMem m).handWrite a d lanes = (s.setMem m).quoteWrite w n d lanes f := by
  unfold State.handWrite
  rw [(target_congr s (s.setMem m) a rfl rfl rfl).trans h]

/-- A write in a text line. -/
theorem State.handWrite_text {s : State} {a : Addr} {w : Fin 8} {line : Nat} (h : target s a = .text w line) (m : Memory) (d : Word)
    (lanes : Lanes) : (s.setMem m).handWrite a d lanes = (s.setMem m).setBc (s.bc.textWrite w line) := by
  unfold State.handWrite
  rw [(target_congr s (s.setMem m) a rfl rfl rfl).trans h]
  rfl

/-- A write in the bulletin window. -/
theorem State.handWrite_bulletin {s : State} {a : Addr} {i : Fin 8} (h : target s a = .bulletin i) (m : Memory) (d : Word)
    (lanes : Lanes) : (s.setMem m).handWrite a d lanes = (s.setMem m).setTc (s.tc.bulletinWrite i d lanes) := by
  unfold State.handWrite
  rw [(target_congr s (s.setMem m) a rfl rfl rfl).trans h]
  rfl

/-- A write of a word that no block watches. -/
theorem State.handWrite_plain {s : State} {a : Addr} (h : target s a = .plain) (m : Memory) (d : Word)
    (lanes : Lanes) : (s.setMem m).handWrite a d lanes = s.setMem m := by
  unfold State.handWrite
  rw [(target_congr s (s.setMem m) a rfl rfl rfl).trans h]

/-! ### The mailbox (R200) -/

/-- The head key record moves into an EMPTY mailbox. -/
theorem State.mailboxMoveIn_eq (s : State) (r : KeyRecord) (q : List KeyRecord) (h1 : s.cr.mailbox = none)
    (h2 : s.pt.keyQueue = r :: q) :
    s.mailboxMoveIn =
      (((s.setPt { s.pt with keyQueue := q }).setCr { s.cr with
        mailbox := some r
        sequence := s.cr.sequence + 1
        mailText := #v[mailWord r.text 0, mailWord r.text 1, mailWord r.text 2, mailWord r.text 3]
        mailSlot := match r.slot with
          | some n => BitVec.ofNat 16 n.val
          | none => 0xFFFF }).markAllDirty [9, 10, 11, 12, 13, 14, 22]).raise flagKey := by
  unfold State.mailboxMoveIn
  rw [h1, h2]
  rfl

/-- With a FULL mailbox, or no key record queued, no record moves. -/
theorem State.mailboxMoveIn_none (s : State) (h : s.cr.mailbox ≠ none ∨ s.pt.keyQueue = []) : s.mailboxMoveIn = s := by
  unfold State.mailboxMoveIn
  rcases h with h | h
  · cases e : s.cr.mailbox with
    | none => exact absurd e h
    | some _ => rfl
  · rw [h]
    cases s.cr.mailbox <;> rfl

end Sys2Proof.Machine
end

