-- ==== Sys2Proof/Laws/Load.lean ====
section
/-!
SUPPORT. What an accepted LOAD leaves of the boards and the loop, what a configured link holds, and when the session stays out of DARK.
-/

namespace Sys2Proof.Machine

/-! ### What is going out when a LOAD is accepted (R99, R106, R152) -/

/-- A piece kept is one whose frame is out or going out; its answer is discarded and no frame of it follows. -/
theorem Work.loadAccepted_some (w v : Work) (h : w.loadAccepted = some v) :
    v.discard = true ∧ v.fromPass = false ∧ v.phase = w.phase ∧ (v.phase = .sending ∨ v.phase = .waiting) ∧
    ∀ r rest, v.piece = .symbolRow r rest → rest = [] := by
  obtain ⟨piece, phase, p, d⟩ := w
  cases phase <;> simp only [Work.loadAccepted, Work.closed, Option.some.injEq, reduceCtorEq] at h <;> subst h <;>
    refine ⟨rfl, rfl, rfl, by simp, ?_⟩ <;> intro r rest e <;> cases piece <;> simp_all

/-- A link that a LOAD took is idle. -/
theorem Link.loadAccepted_idle (k : Link) : k.loadAccepted.Idle := by
  refine ⟨rfl, fun w h => ?_⟩
  obtain ⟨v, -, hv⟩ := Option.bind_eq_some_iff.mp h
  obtain ⟨h1, h2, -, h4, h5⟩ := Work.loadAccepted_some v w hv
  exact ⟨h1, h2, h4, h5⟩

/-- A link idle before a LOAD keeps what it has in hand. -/
theorem Link.loadAccepted_of_idle (k : Link) (h : k.Idle) : k.loadAccepted = k := by
  obtain ⟨hk, hw⟩ := h
  have key : k.work.bind Work.loadAccepted = k.work := by
    clear hk
    cases e : k.work with
    | none => rfl
    | some w =>
      obtain ⟨h1, h2, h3, h4⟩ := hw w e
      obtain ⟨piece, phase, p, d⟩ := w
      simp only at h1 h2 h3 h4
      subst h1 h2
      rcases h3 with rfl | rfl <;> cases piece <;> simp_all [Work.loadAccepted, Work.closed]
  rw [Link.loadAccepted, key]
  exact hk.symm

/-- An idle link stays UNUSED when its row count is 0. -/
theorem configuredLink_unused (u : Setup) (kinds : List RowKind) (l : LinkId) (k : Link) (h : k.Idle) (hr : vget u.rows l = 0) :
    configuredLink u kinds l k = k := by
  simp [configuredLink, hr, k.loadAccepted_of_idle h]

/-! ### The end of DIMMING (R140) -/

/-- While a link, the tape or the session keeps the floor lit, nothing takes it to DARK. -/
theorem State.sessionDark_lit (s : State)
    (h : s.cs.session ≠ .dimming ∨ s.isReady = false ∨ s.bc.drained = false ∨ s.tc.isEmpty = false) : s.sessionDark = s := by
  unfold State.sessionDark
  rw [if_neg]
  rintro ⟨h1, h2, h3, h4⟩
  rcases h with h | h | h | h
  · exact h h2
  · simp [h] at h1
  · simp [h] at h3
  · simp [h] at h4

end Sys2Proof.Machine
end

