-- ==== Sys2Proof/Laws/PerInstr.lean ====
section
/-!
SUPPORT. Statements made per command: one lemma for each constructor of `Instr`.
-/

namespace Sys2Proof.Laws.WellFormedness

/-- A command is spelled as its row says exactly when its operand is one the row admits: an entry key's code, a command word with an
opcode outside Table 11-8; every operand of every other row is admitted. -/
def Statement (i : Instr) : Prop :=
  (i.wellFormed = true) ↔
    (∀ t code, i = .entryKey t code → isEntryKeyCode code = true) ∧
    (∀ w, i = .unknownOpcode w → isKnownOpcode (w.extractLsb' 8 8) = false)

theorem resetAssert (landing : Bool) : Statement (.resetAssert landing) :=
  ⟨fun _ => ⟨nofun, nofun⟩, fun _ => rfl⟩

theorem resetRelease (straps : BitVec 4) (levels : BitVec 4) : Statement (.resetRelease straps levels) :=
  ⟨fun _ => ⟨nofun, nofun⟩, fun _ => rfl⟩

theorem capture (a : Addr) (v : Word) : Statement (.capture a v) :=
  ⟨fun _ => ⟨nofun, nofun⟩, fun _ => rfl⟩

theorem sizeWrite (a : Addr) (v : Word) : Statement (.sizeWrite a v) :=
  ⟨fun _ => ⟨nofun, nofun⟩, fun _ => rfl⟩

theorem closeWrite (a : Addr) (v : Word) : Statement (.closeWrite a v) :=
  ⟨fun _ => ⟨nofun, nofun⟩, fun _ => rfl⟩

theorem partialWrite (a : Addr) (d : Word) (half : Half) : Statement (.partialWrite a d half) :=
  ⟨fun _ => ⟨nofun, nofun⟩, fun _ => rfl⟩

theorem textWrite (a : Addr) (d : Word) (lanes : Lanes) : Statement (.textWrite a d lanes) :=
  ⟨fun _ => ⟨nofun, nofun⟩, fun _ => rfl⟩

theorem bulletinWrite (a : Addr) (d : Word) (lanes : Lanes) : Statement (.bulletinWrite a d lanes) :=
  ⟨fun _ => ⟨nofun, nofun⟩, fun _ => rfl⟩

theorem hostWrite (a : Addr) (d : Word) (lanes : Lanes) : Statement (.hostWrite a d lanes) :=
  ⟨fun _ => ⟨nofun, nofun⟩, fun _ => rfl⟩

theorem hostAccessHold (acc : HostAccess) : Statement (.hostAccessHold acc) :=
  ⟨fun _ => ⟨nofun, nofun⟩, fun _ => rfl⟩

theorem heldRead (a : Addr) : Statement (.heldRead a) :=
  ⟨fun _ => ⟨nofun, nofun⟩, fun _ => rfl⟩

theorem landing : Statement .landing :=
  ⟨fun _ => ⟨nofun, nofun⟩, fun _ => rfl⟩

theorem textLineReadAnswer : Statement .textLineReadAnswer :=
  ⟨fun _ => ⟨nofun, nofun⟩, fun _ => rfl⟩

theorem loadReadAnswer : Statement .loadReadAnswer :=
  ⟨fun _ => ⟨nofun, nofun⟩, fun _ => rfl⟩

theorem loadComplete : Statement .loadComplete :=
  ⟨fun _ => ⟨nofun, nofun⟩, fun _ => rfl⟩

theorem loadRefused : Statement .loadRefused :=
  ⟨fun _ => ⟨nofun, nofun⟩, fun _ => rfl⟩

theorem parameterWrite (p : Fin 4) (d : Word) (lanes : Lanes) : Statement (.parameterWrite p d lanes) :=
  ⟨fun _ => ⟨nofun, nofun⟩, fun _ => rfl⟩

theorem commandWordPartial (d : Word) (half : Half) : Statement (.commandWordPartial d half) :=
  ⟨fun _ => ⟨nofun, nofun⟩, fun _ => rfl⟩

theorem unknownOpcode (w : Word) : Statement (.unknownOpcode w) :=
  ⟨fun h => ⟨nofun, fun _ e => by cases e; simpa [Instr.wellFormed] using h⟩,
    fun h => by simpa [Instr.wellFormed] using h.2 w rfl⟩

theorem load (operand : Byte) : Statement (.load operand) :=
  ⟨fun _ => ⟨nofun, nofun⟩, fun _ => rfl⟩

theorem roll (operand : Byte) : Statement (.roll operand) :=
  ⟨fun _ => ⟨nofun, nofun⟩, fun _ => rfl⟩

theorem openMarket (operand : Byte) : Statement (.openMarket operand) :=
  ⟨fun _ => ⟨nofun, nofun⟩, fun _ => rfl⟩

theorem closeMarket (operand : Byte) : Statement (.closeMarket operand) :=
  ⟨fun _ => ⟨nofun, nofun⟩, fun _ => rfl⟩

theorem dark (operand : Byte) : Statement (.dark operand) :=
  ⟨fun _ => ⟨nofun, nofun⟩, fun _ => rfl⟩

theorem setClose (operand : Byte) : Statement (.setClose operand) :=
  ⟨fun _ => ⟨nofun, nofun⟩, fun _ => rfl⟩

theorem halt (operand : Byte) : Statement (.halt operand) :=
  ⟨fun _ => ⟨nofun, nofun⟩, fun _ => rfl⟩

theorem resume (operand : Byte) : Statement (.resume operand) :=
  ⟨fun _ => ⟨nofun, nofun⟩, fun _ => rfl⟩

theorem setClock (operand : Byte) : Statement (.setClock operand) :=
  ⟨fun _ => ⟨nofun, nofun⟩, fun _ => rfl⟩

theorem watch (operand : Byte) : Statement (.watch operand) :=
  ⟨fun _ => ⟨nofun, nofun⟩, fun _ => rfl⟩

theorem unwatch (operand : Byte) : Statement (.unwatch operand) :=
  ⟨fun _ => ⟨nofun, nofun⟩, fun _ => rfl⟩

theorem statusText (operand : Byte) : Statement (.statusText operand) :=
  ⟨fun _ => ⟨nofun, nofun⟩, fun _ => rfl⟩

theorem repaint (operand : Byte) : Statement (.repaint operand) :=
  ⟨fun _ => ⟨nofun, nofun⟩, fun _ => rfl⟩

theorem tapeClear (operand : Byte) : Statement (.tapeClear operand) :=
  ⟨fun _ => ⟨nofun, nofun⟩, fun _ => rfl⟩

theorem attentionAcknowledge (d : Word) : Statement (.attentionAcknowledge d) :=
  ⟨fun _ => ⟨nofun, nofun⟩, fun _ => rfl⟩

theorem mailboxSlotRead : Statement .mailboxSlotRead :=
  ⟨fun _ => ⟨nofun, nofun⟩, fun _ => rfl⟩

theorem mailboxMoveIn : Statement .mailboxMoveIn :=
  ⟨fun _ => ⟨nofun, nofun⟩, fun _ => rfl⟩

theorem rollSlot : Statement .rollSlot :=
  ⟨fun _ => ⟨nofun, nofun⟩, fun _ => rfl⟩

theorem sessionDark : Statement .sessionDark :=
  ⟨fun _ => ⟨nofun, nofun⟩, fun _ => rfl⟩

theorem baseStep : Statement .baseStep :=
  ⟨fun _ => ⟨nofun, nofun⟩, fun _ => rfl⟩

theorem wholeSecond : Statement .wholeSecond :=
  ⟨fun _ => ⟨nofun, nofun⟩, fun _ => rfl⟩

theorem wholeMinute : Statement .wholeMinute :=
  ⟨fun _ => ⟨nofun, nofun⟩, fun _ => rfl⟩

theorem blinkExpiry : Statement .blinkExpiry :=
  ⟨fun _ => ⟨nofun, nofun⟩, fun _ => rfl⟩

theorem sweepExpiry : Statement .sweepExpiry :=
  ⟨fun _ => ⟨nofun, nofun⟩, fun _ => rfl⟩

theorem feedGoesStale : Statement .feedGoesStale :=
  ⟨fun _ => ⟨nofun, nofun⟩, fun _ => rfl⟩

theorem floorLineChange (line : LineId) (level : Bool) : Statement (.floorLineChange line level) :=
  ⟨fun _ => ⟨nofun, nofun⟩, fun _ => rfl⟩

theorem takeWork (l : LinkId) : Statement (.takeWork l) :=
  ⟨fun _ => ⟨nofun, nofun⟩, fun _ => rfl⟩

theorem frameSent (l : LinkId) : Statement (.frameSent l) :=
  ⟨fun _ => ⟨nofun, nofun⟩, fun _ => rfl⟩

theorem boardAck (l : LinkId) (bytes : Text) : Statement (.boardAck l bytes) :=
  ⟨fun _ => ⟨nofun, nofun⟩, fun _ => rfl⟩

theorem answerWaitExpiry (l : LinkId) : Statement (.answerWaitExpiry l) :=
  ⟨fun _ => ⟨nofun, nofun⟩, fun _ => rfl⟩

theorem probeIntervalExpiry (l : LinkId) : Statement (.probeIntervalExpiry l) :=
  ⟨fun _ => ⟨nofun, nofun⟩, fun _ => rfl⟩

theorem tapePaceExpiry : Statement .tapePaceExpiry :=
  ⟨fun _ => ⟨nofun, nofun⟩, fun _ => rfl⟩

theorem turnStart : Statement .turnStart :=
  ⟨fun _ => ⟨nofun, nofun⟩, fun _ => rfl⟩

theorem terminalFrameSent : Statement .terminalFrameSent :=
  ⟨fun _ => ⟨nofun, nofun⟩, fun _ => rfl⟩

theorem terminalAnswer (bytes : Text) : Statement (.terminalAnswer bytes) :=
  ⟨fun _ => ⟨nofun, nofun⟩, fun _ => rfl⟩

theorem turnMiss : Statement .turnMiss :=
  ⟨fun _ => ⟨nofun, nofun⟩, fun _ => rfl⟩

theorem entryKey (t : TermId) (code : Byte) : Statement (.entryKey t code) :=
  ⟨fun h => ⟨fun _ _ e => by cases e; exact h, nofun⟩, fun h => h.1 t code rfl⟩

theorem quoteKey (t : TermId) : Statement (.quoteKey t) :=
  ⟨fun _ => ⟨nofun, nofun⟩, fun _ => rfl⟩

theorem recallKey (t : TermId) : Statement (.recallKey t) :=
  ⟨fun _ => ⟨nofun, nofun⟩, fun _ => rfl⟩

theorem clearKey (t : TermId) : Statement (.clearKey t) :=
  ⟨fun _ => ⟨nofun, nofun⟩, fun _ => rfl⟩

theorem sendKey (t : TermId) : Statement (.sendKey t) :=
  ⟨fun _ => ⟨nofun, nofun⟩, fun _ => rfl⟩

theorem watchKey (t : TermId) : Statement (.watchKey t) :=
  ⟨fun _ => ⟨nofun, nofun⟩, fun _ => rfl⟩

theorem dropKey (t : TermId) : Statement (.dropKey t) :=
  ⟨fun _ => ⟨nofun, nofun⟩, fun _ => rfl⟩

theorem ackKey (t : TermId) : Statement (.ackKey t) :=
  ⟨fun _ => ⟨nofun, nofun⟩, fun _ => rfl⟩

theorem arbitrationWait (acc : HostAccess) : Statement (.arbitrationWait acc) :=
  ⟨fun _ => ⟨nofun, nofun⟩, fun _ => rfl⟩

end Sys2Proof.Laws.WellFormedness
end

