-- ==== Sys2Proof/Laws/Quote.lean ====
section
/-!
SUPPORT. Records, notices and due marks (chapters 1 and 2), watch places and symbols (chapters 8 and 9).
-/

namespace Sys2Proof.Machine

/-! ### Due marks (R42) -/

theorem mem_foldl_insertDue (m : DueMark) (ms d : List DueMark) :
    m ∈ ms.foldl (fun d m => insertBy DueMark.key m d) d ↔ m ∈ ms ∨ m ∈ d := by
  induction ms generalizing d with
  | nil => simp
  | cons n ms ih =>
    simp only [List.foldl_cons, ih, mem_insertDue, List.mem_cons]
    tauto

/-- The due marks after some are set. -/
theorem State.mem_setDue (s : State) (ms : List DueMark) (m : DueMark) :
    m ∈ (s.setDue ms).qe.due ↔ m ∈ ms ∨ m ∈ s.qe.due := mem_foldl_insertDue m ms s.qe.due

/-- The marks a changed record makes due. -/
theorem mem_dueFor (s : State) (n : Slot) (before after : SlotRec) (m : DueMark) :
    m ∈ dueFor s n before after ↔
      m.slot = n ∧ before.writeBack m.field ≠ after.writeBack m.field ∧ (writeBackAddr s m).isSome = true := by
  simp only [dueFor, List.mem_filter, List.mem_map, Bool.and_eq_true, decide_eq_true_eq]
  constructor
  · rintro ⟨⟨f, _, rfl⟩, h⟩
    exact ⟨rfl, h⟩
  · rintro ⟨rfl, h⟩
    exact ⟨⟨m.field, by cases m.field <;> decide, rfl⟩, h⟩

/-! ### A record changed, its notice delivered (R17, R44) -/

/-- A changed record: the record, the due marks, and the notice at BC, TC and PT; nothing else. -/
theorem State.changeRecord_eq (s : State) (n : Notice) (after : SlotRec) :
    s.changeRecord n after =
      { s with
        qe := { s.qe with
          slots := vset s.qe.slots n.slot after
          due := (dueFor s n.slot (s.slot n.slot) after).foldl (fun d m => insertBy DueMark.key m d) s.qe.due }
        bc := s.bc.notice n
        tc := s.tc.notice n
        pt := s.pt.notice n after.close } := rfl

/-- The due marks after a changed record. -/
theorem State.mem_changeRecord_due (s : State) (n : Notice) (after : SlotRec) (m : DueMark) :
    m ∈ (s.changeRecord n after).qe.due ↔
      m ∈ s.qe.due ∨ (m.slot = n.slot ∧ (s.slot n.slot).writeBack m.field ≠ after.writeBack m.field ∧
        (writeBackAddr s m).isSome = true) := by
  rw [State.changeRecord_eq, ← mem_dueFor]
  exact (mem_foldl_insertDue m _ _).trans or_comm

/-- A notice other than TRADE leaves the tape alone (R17). -/
theorem TapeController.notice_none (t : TapeController) (n : Notice) (h : n.trade = none) : t.notice n = t := by
  simp [TapeController.notice, h]

/-! ### Watch places (R171, R172) -/

theorem mem_allPlaces (i : Fin 12) : i ∈ allPlaces := by
  revert i
  decide

/-- A slot has no place exactly when the list does not hold it. -/
theorem Terminal.placeOf_eq_none (r : Terminal) (n : Slot) : r.placeOf n = none ↔ ¬ r.Watches n := by
  simp only [Terminal.placeOf, List.find?_eq_none, decide_eq_true_eq, Option.map_eq_some_iff, Terminal.Watches]
  constructor
  · rintro h ⟨i, e, he, hn⟩
    exact h i (mem_allPlaces i) ⟨e, he, hn⟩
  · rintro h i _ ⟨e, he, hn⟩
    exact h ⟨i, e, he, hn⟩

/-- The place of a slot holds an entry for it. -/
theorem Terminal.placeOf_some (r : Terminal) (n : Slot) (i : Fin 12) (h : r.placeOf n = some i) :
    ∃ e, vget r.watch i = some e ∧ e.slot = n := by
  have := List.find?_some h
  simpa using this

/-- The first place that a test accepts. -/
theorem find_allPlaces (p : Fin 12 → Bool) (i : Fin 12) (hp : p i = true) (hl : ∀ j, j < i → p j = false) :
    allPlaces.find? p = some i := by
  have split : ∀ i : Fin 12, allPlaces = allPlaces.take i.val ++ i :: allPlaces.drop (i.val + 1) := by decide
  have below : ∀ i j : Fin 12, j ∈ allPlaces.take i.val → j < i := by decide
  have none : (allPlaces.take i.val).find? p = none := by
    rw [List.find?_eq_none]
    intro j hj
    simp [hl j (below i j hj)]
  rw [split i, List.find?_append, none]
  simp [hp]

/-- The lowest place with an entry for the slot is its place. -/
theorem Terminal.placeOf_eq (r : Terminal) (n : Slot) (i : Fin 12) (e : WatchEntry) (h : vget r.watch i = some e)
    (hs : e.slot = n) (hl : ∀ j, j < i → ∀ f, vget r.watch j = some f → f.slot ≠ n) : r.placeOf n = some i := by
  apply find_allPlaces
  · simp [h, hs]
  · intro j hj
    simp only [decide_eq_false_iff_not, Option.map_eq_some_iff, not_exists, not_and]
    exact fun f hf => hl j hj f hf

/-- The lowest empty place. -/
theorem Terminal.emptyPlace_eq (r : Terminal) (i : Fin 12) (h : vget r.watch i = none)
    (hl : ∀ j, j < i → vget r.watch j ≠ none) : r.emptyPlace = some i := by
  apply find_allPlaces
  · simp [h]
  · intro j hj
    have := hl j hj
    cases e : vget r.watch j with
    | none => exact absurd e this
    | some _ => rfl

/-- No place is empty exactly when every place holds an entry. -/
theorem Terminal.emptyPlace_eq_none (r : Terminal) : r.emptyPlace = none ↔ ∀ i, vget r.watch i ≠ none := by
  simp only [Terminal.emptyPlace, List.find?_eq_none, Option.isNone_iff_eq_none]
  exact ⟨fun h i => h i (mem_allPlaces i), fun h i _ => h i⟩

end Sys2Proof.Machine
end

