-- ==== Sys2Proof/Tests/Slice0.lean ====
section
/-!
SUPPORT. Tests of the model against the spec's worked examples, and for every statement with hypotheses a concrete state and operands
that meet them.
-/

namespace Sys2Proof.Tests

open Sys2Proof.Machine

/-! ### Well-formedness -/

theorem test_entry_key_refused : (Instr.entryKey 0 0x3A).wellFormed = false := by decide
theorem test_entry_key_admitted : (Instr.entryKey 0 0x41).wellFormed = true := by decide
theorem test_unknown_opcode_refused : (Instr.unknownOpcode 0x0E00).wellFormed = false := by decide
theorem test_unknown_opcode_admitted : (Instr.unknownOpcode 0x0F00).wellFormed = true := by decide

/-! ### A small floor -/

/-- QUOTE window 0: slots 10 to 13 at 01000H, stride 8, with LAST 0, SIZE 1, CLOSE 2, CHG 3 and FLAGS 4, notify count 3. -/
def quoteWindow : Window :=
  { index := 0, kind := .quote, base := 0x1000, length := 32, stride := 8, firstSlot := 10, notify := 3
    offsets := ⟨some 0, some 1, some 2, some 3, none, none, some 4, none⟩ }

/-- TEXT window 1: two lines at 02000H. -/
def textWindow : Window :=
  { index := 1, kind := .text, base := 0x2000, length := 48, stride := 0, firstSlot := 0, notify := 0, offsets := noOffsets }

/-- BULLETIN window 2 at 03000H. -/
def bulletinWindow : Window :=
  { index := 2, kind := .bulletin, base := 0x3000, length := 8, stride := 0, firstSlot := 0, notify := 0
    offsets := noOffsets }

/-- ABC, eighths, close 336, last 338 UP. -/
def abc : SlotRec :=
  { SlotRec.reset with
    state := .listed, name := ascii ['A', 'B', 'C'], base := .eighths, close := 336, last := 338, direction := .up
    high := 340, low := 336, volume := 12 }

/-- XYZ, thirty-seconds, halted, never traded. -/
def xyz : SlotRec := { SlotRec.reset with state := .halted, name := ascii ['X', 'Y', 'Z'], base := .thirtySeconds, close := 40 }

/-- A used link of 4 rows of 16 columns, rows 1 and 2 showing the lines of the TEXT window. -/
def boardLink (state : LinkState) : Link :=
  { Link.reset with state := state, rows := 4, cols := 16, rowMap := [.symbol, .text 1 0, .text 1 1, .symbol] }

/-- An entry for slot `n`. -/
def entryFor (n : Slot) (origin : Origin) : WatchEntry := { dealerEntry n 338 with origin := origin }

/-- Terminal 0 watches ABC by its dealer's key. -/
def dealerTerminal : Terminal :=
  { Terminal.reset with online := true, watch := vset (Vector.replicate 12 none) 0 (some (entryFor 10 .dealer)) }

/-- Terminal 1 watches ABC by the host's command. -/
def hostTerminal : Terminal :=
  { Terminal.reset with online := true, watch := vset (Vector.replicate 12 none) 0 (some (entryFor 10 .host)) }

/-- Terminal 2 has a full watch list, without slots 10 and 11. -/
def fullTerminal : Terminal :=
  { Terminal.reset with
    online := true
    watch := #v[some (entryFor 20 .host), some (entryFor 21 .host), some (entryFor 22 .host), some (entryFor 23 .host),
      some (entryFor 24 .host), some (entryFor 25 .host), some (entryFor 26 .host), some (entryFor 27 .host),
      some (entryFor 28 .host), some (entryFor 29 .host), some (entryFor 30 .host), some (entryFor 31 .host)] }

/-- A READY floor in a session: link 0 ONLINE, 1 OFFLINE, 2 DARK, 3 UNUSED; slot 10 ABC, slot 11 XYZ. -/
def floor (session : Session) : State :=
  { State.reset with
    bp := { anchor := 0x4000, windows := [quoteWindow, textWindow, bulletinWindow], queue := [], held := none, port := none
            hostData := 0 }
    qe := { QuoteEngine.reset with
      slots := vset (vset (Vector.replicate 256 SlotRec.reset) 10 abc) 11 xyz
      countdowns := vset (Vector.replicate 8 ⟨0, 0⟩) 0 ⟨3, 3⟩ }
    bc := { BoardController.reset with
      blinkTenths := 5
      sweepSeconds := 2
      links := #v[boardLink .online, boardLink .offline, boardLink .dark, Link.reset]
      placements := [⟨10, 0, .last, 0, 0, 8⟩] }
    tc := { TapeController.reset with timerRunning := true, pace := 10, threshold := 100, late1 := 60, late2 := 120, back := 30 }
    cs := { ClockSession.reset with
      session := session, feedTimeout := 3, lineFunctions := #v[.openBell, .closeBell, .tapeHold, .none] }
    pt := { TerminalController.reset with
      terminals := vset (vset (vset (Vector.replicate 16 Terminal.reset) 0 dealerTerminal) 1 hostTerminal) 2 fullTerminal
      poll := [0]
      subscribers := vset (Vector.replicate 256 []) 10 [0, 1] }
    cr := { CommandReport.reset with part := .ready } }

/-- A state with parameter shadows P0 to P3. -/
def params (s : State) (p0 p1 p2 p3 : Word) : State := s.setCr { s.cr with shadows := #v[p0, p1, p2, p3] }

/-- A state with a Side Write Queue of marked report words, the port granted to the first landing. -/
def owing (s : State) (os : List Nat) : State :=
  (s.setBp { s.bp with queue := os.map SideWord.report, port := if os.isEmpty then none else some .landing }).setCr
    { s.cr with dirty := os }

/-- A state with a text-line read of link 0 in its memory cycle. -/
def reading (s : State) : State :=
  (s.setBc { s.bc with textRequest := some 0 }).setBp { s.bp with port := some .textRead }

/-- A state with the record of terminal 0 changed. -/
def dealer (s : State) (f : Terminal → Terminal) : State := s.setTerm 0 (f (s.term 0))

/-- A state with link 0 changed. -/
def onLink (s : State) (f : Link → Link) : State := s.setLink 0 (f (s.link 0))

/-- A LOADING state with the LOAD's read in its memory cycle. -/
def loading (run : LoadRun) : State :=
  { State.reset with
    bp := { BusPath.reset with queue := [], port := some .loadRead }
    cr := { CommandReport.reset with part := .loading run, running := some .load } }

theorem portFree_floor (x : Session) : PortFree (floor x) := ⟨rfl, rfl, Nat.zero_lt_succ 7⟩

theorem takesCommands_floor (x : Session) : TakesCommands (floor x) := ⟨portFree_floor x, rfl, rfl⟩

theorem takesCommands_params (x : Session) (p0 p1 p2 p3 : Word) : TakesCommands (params (floor x) p0 p1 p2 p3) :=
  ⟨⟨rfl, rfl, Nat.zero_lt_succ 7⟩, rfl, rfl⟩

theorem anchorFits_floor (x : Session) : AnchorFits (floor x) := by
  show 0x4000 + 123 < 0x40000
  decide

/-! ### The spec's worked examples -/

/-- Table 1-4, slot 40 before the capture, with the SIZE of 5 lots pending. -/
def xyz40 : SlotRec :=
  { SlotRec.reset with
    state := .listed, name := ascii ['X', 'Y', 'Z'], base := .eighths, close := 345, last := 341, prior := 344
    direction := .down, high := 350, low := 341, volume := 1200, stamp := some 339870, lastSize := some 10 }

/-- Table 1-4: the capture of 339. -/
theorem test_capture_record : captureRec xyz40 339 (some 5) 345120 =
    { xyz40 with
      last := 339, prior := 341, direction := .down, low := 339, newLow := true, volume := 1205, stamp := some 345120
      lastSize := some 5 } := by decide

/-- Table 1-3, the row of an equal price after an UP. -/
theorem test_direction_zero_up : directionAfter 338 336 338 .up = .zeroUp := by decide

/-- Table 1-7. -/
theorem test_change_words : [(345, 339), (345, 0), (0, 339), (345, 345), (100, 30000), (40000, 3000), (1000, 65535)].map
      (fun (x : Word × Word) => changeWord { SlotRec.reset with close := x.1, last := x.2 }.change) =
    [0xFFFA, 0x8000, 0x8000, 0x0000, 0x74CC, 0x8001, 0x7FFF] := by decide

/-- Table 1-8. -/
theorem test_price_texts : [(8, 339), (8, 344), (8, 4), (16, 683), (16, 682), (32, 3138), (32, 25)].map
      (fun x : Nat × Nat => priceText x.1 x.2) =
    [[0x34, 0x32, 0x83], [0x34, 0x33], [0x84], [0x34, 0x32, 0x20, 0x31, 0x31, 0x88], [0x34, 0x32, 0x85],
      [0x39, 0x38, 0x20, 0x31, 0x88], [0x32, 0x35, 0x89]] := by decide +kernel

/-- Table 1-9. -/
theorem test_volume_texts : [(6, 1205), (6, 1234567), (4, 1234567), (4, 4294967295), (2, 750)].map
      (fun x : Nat × Nat => fitVolume x.1 x.2) =
    [[0x20, 0x20, 0x31, 0x32, 0x30, 0x35], [0x20, 0x31, 0x32, 0x33, 0x34, 0x4B], [0x20, 0x20, 0x31, 0x4D],
      [0x23, 0x23, 0x23, 0x23], [0x23, 0x23]] := by decide +kernel

/-- 11.4: a probe, the LAST cell of XYZ at 339, a bare poll to terminal 3, and the answers. -/
theorem test_frames : probeFrame = [0, 0, 0, 0, 0xA6] ∧
    boardFrame .none 1 5 true .red [0x20, 0x20, 0x20, 0x20, 0x34, 0x32, 0x83] =
      [0x01, 0x05, 0x06, 0x07, 0x20, 0x20, 0x20, 0x20, 0x34, 0x32, 0x83, 0x2A] ∧
    pollFrame 3 = [0x03, 0xFF, 0x00, 0xA4] ∧ isGoodAck [0xC3, 0xE3] = true ∧ isGoodAck [0xC3, 0xE4] = false ∧
    goodAnswer [0xA1, 0x05] = some 0xA1 ∧ goodAnswer [0x00, 0xA6] = some 0x00 := by decide

/-- Table 6-3. -/
theorem test_lateness : [(344400, 342010), (345912, 345810), (12, 863990), (100, 400), (432000, 0), (432001, 0)].map
      (fun x : Nat × Nat => latenessOf x.1 x.2) = [239, 10, 2, 0, 43200, 0] := by decide

/-- Table 6-5: XYZ at 340 with 20 lots in SHORT after a memo of 42, and QRS at 3161 after a memo of 98. -/
theorem test_print_texts :
    tradeText .short 100 (some 42) xyz40 340 (some 20) false = ascii ['X', 'Y', 'Z', ' ', '2'] ++ [0x84, 0x20, 0x20, 0x20] ∧
    tradeText .short 100 (some 98) { xyz40 with name := ascii ['Q', 'R', 'S'], base := .thirtySeconds } 3161 none false =
      ascii ['Q', 'R', 'S', ' ', '8', ' ', '2', '5'] ++ [0x89, 0x20, 0x20, 0x20] := by decide +kernel

/-- Table 9-6, the XYZ entry (ABOVE 344 with a hysteresis of 2) through its trades 1, 2, 4, 6 and 7: the alerts. -/
theorem test_crossing_entry :
    let e : WatchEntry := { dealerEntry 40 0 with origin := .host, code := 5, negate := false, limit := 344, hysteresis := 2 }
    let trade (v : Word) : TradeDetails := ⟨v, none, 0, 340, false, false⟩
    let run (x : WatchEntry × List Bool) (v : Word) : WatchEntry × List Bool :=
      let y := x.1.evaluate (trade v) 345
      (y.1, x.2 ++ [y.2])
    (([341, 344, 343, 341, 346] : List Word).foldl run (e, [])).2 = [false, true, false, false, true] := by decide

/-- 7.1: the trim of 42 parts, one base step in 24,966 lengthened; here a step on which the accumulator overflows, at midnight. -/
theorem test_trim_step : { ClockSession.reset with trimMagnitude := 42, trimAccumulator := 1048570 }.trimStep = (2, 36) ∧
    { ClockSession.reset with trimMagnitude := 42, trimNegative := true, trimAccumulator := 1048570 }.trimStep = (0, 36) ∧
    advanceBy 863999 1 = 0 := by decide

/-- 7.5: at 8:00:00 the clock words are 0000H and 7080H. -/
theorem test_clock_words : clockHighWord { ClockSession.reset with clock := 288000, notSet := false } = 0x0000 ∧
    clockLowWord { ClockSession.reset with clock := 288000, notSet := false } = 0x7080 := by decide

/-- R62: releasing RESET with straps 0 and the floor lines low gives the state after reset. -/
theorem test_reset_release :
    (State.reset.assertReset false).releaseReset 0 0 = State.reset := rfl

/-- R49: a low-lane write leaves the high byte. -/
theorem test_lane_write : (Memory.writeWord [] 0x100 0xABCD .both).writeWord 0x100 0x1122 .low = [(0x200, 0xAB), (0x201, 0x22)] := by
  decide

/-- R51: a mark that enters in a text read's cycle does not take the port from it; the end of the cycle gives it to the landing. -/
theorem test_port_is_kept :
    let s := (reading (floor .opened)).event State.anomaly
    s.bp.queue = [.report 7, .report 19] ∧ s.landing.bp.queue = [.report 7, .report 19] ∧ s.textRead.bp.queue = [.report 7, .report 19] ∧
    s.textRead.bc.textRequest = none ∧ s.textRead.bp.port = some .landing := by decide +kernel

/-- R51: the end of the read's cycle grants the access that waits for it, before any landing. -/
theorem test_arbitration_wait :
    let s := (owing (reading (floor .opened)) [6]).setBp
      { (owing (reading (floor .opened)) [6]).bp with port := some .textRead, held := some ⟨.write 0x100 1 .both, .arbitration⟩ }
    s.textRead.bp.queue = [.report 6] ∧ s.textRead.mem.readWord 0x100 = 1 ∧ s.textRead.hold = false := by decide +kernel

/-- R61: a landing whose cycle a host access waits for completes at RESET, before that access; a read's cycle lands nothing. READY in
OPEN is PART STATUS 0022H (Table 11-6). -/
theorem test_reset_completes_landing :
    let s := (owing (floor .opened) [6]).setHeld (some ⟨.write 0x100 1 .both, .arbitration⟩)
    (s.assertReset false).mem.readWord 0x4006 = 0x0022 ∧ (s.assertReset false).mem.readWord 0x100 = 1 ∧
    ((s.setBp { s.bp with port := some .textRead }).assertReset true).mem = (s.assertReset false).mem.take 1 := by decide +kernel

/-- Tables 11-11 and 11-12: the ends of the code ranges on the boards and on the tape. -/
theorem test_character_sets :
    ([0x1F, 0x20, 0x5F, 0x60, 0x80, 0x81, 0x8E, 0x8F] : Text).map boardChar = [0x20, 0x20, 0x5F, 0x20, 0x20, 0x81, 0x8E, 0x20] ∧
    ([0x60, 0x80, 0x81, 0x8F, 0x90, 0x91] : Text).map tapeChar = [0x20, 0x20, 0x81, 0x8F, 0x90, 0x20] := by decide

/-- R204: the byte 0C5H on its line, bit 0 first. -/
theorem test_line_form : onLine [0xC5] = [.start, .data true, .data false, .data true, .data false, .data false, .data false,
    .data true, .data true, .stop] := by decide

/-- Section 11.1: the window descriptor of section 2.9. -/
theorem test_window_descriptor :
    windowOf (List.replicate 36 0 ++ [0x8132, 0x0032, 0x0000, 0x0200, 0x0020, 0x0124, 0x5678, 0x00FF]) 0 =
      some { index := 0, kind := .quote, base := 0x20000, length := 512, stride := 16, firstSlot := 32, notify := 50
             offsets := ⟨some 0, some 1, some 2, some 4, some 5, some 6, some 7, some 8⟩ } := by decide +kernel

/-- R106: the frame going out when a LOAD is accepted is completed, and no frame of its row follows. -/
theorem test_load_completes_frame :
    ((onLink (floor .closed) (fun k =>
      { k with work := some ⟨.symbolRow 0 [0], .sending, true, false⟩, frameOut := [1] })).loadAccepted).link 0 =
    { Link.reset with work := some ⟨.symbolRow 0 [], .sending, false, true⟩, frameOut := [1] } := by decide +kernel

/-! ### Hypotheses that can be met

One theorem for each statement with hypotheses, on concrete states and operands; where a statement has several clauses, each of them,
at a boundary of its range where it has one. -/

/-- A LOADING part with a LOAD read to be answered. -/
def waiting : State := (loading LoadRun.start).setPending [.loadReadAnswer]

theorem modesAgree_waiting : ModesAgree waiting := by
  refine ⟨fun h => absurd rfl h, ⟨fun _ => ⟨_, rfl⟩, fun _ => rfl⟩, ?_, ?_, fun h => absurd h (by decide)⟩
  · exact ⟨fun h => absurd h (by decide), fun h => absurd h (by decide)⟩
  · exact ⟨fun h => absurd h (by decide), fun h => absurd h (by decide)⟩

theorem modesAgree_floor (x : Session) (h : x ≠ .dimming) : ModesAgree (floor x) := by
  refine ⟨fun _ => rfl, ?_, ?_, ?_, fun h => absurd h nofun⟩
  · exact ⟨nofun, fun h => by obtain ⟨_, h⟩ := h; exact absurd h nofun⟩
  · exact ⟨nofun, fun e => absurd e h⟩
  · exact ⟨nofun, fun h => absurd h nofun⟩


/-- Terminal 0 watches and quotes ABC and has XYZ on its recall stack. -/
def quotingTerminal : Terminal := { dealerTerminal with recallStack := [11], response := .quote 10 }

/-- A READY floor on which terminal 0 alone names slots, and gives a RECALL key. -/
def quoting : State :=
  ((floor .opened).setPt { TerminalController.reset with
    terminals := vset (Vector.replicate 16 Terminal.reset) 0 quotingTerminal }).setPending [.recallKey 0]

/-- An access is held. -/
def holding (acc : HostAccess) (cause : HoldCause) (s : State) : State := s.setHeld (some ⟨acc, cause⟩)

/-- The first 99 configuration words: 0 but for those named by their setup offsets. -/
def configWords (xs : List (Nat × Word)) : List Word := (List.range 99).map (fun i => (xs.lookup (i + 24)).getD 0)

/-- A BULLETIN window. -/
def bulletinAt (index : Fin 8) (base : Nat) : Window := { bulletinWindow with index := index, base := base }

theorem bulletin_limit_nil (i : Fin 8) (b : Nat) : ¬ (bulletinAt i b).LimitBad [] := by
  show ¬ 1 ≤ 0
  decide

theorem bulletin_geometry (i : Fin 8) (b : Nat) (h : b + 8 ≤ 0x40000) : ¬ (bulletinAt i b).GeometryBad := by
  rintro (h1 | ⟨h1, _⟩ | ⟨h1, _⟩ | ⟨_, h1⟩)
  · exact absurd (show 0x40000 < b + 8 from h1) (by omega)
  · nomatch (show WindowKind.bulletin = .quote from h1)
  · nomatch (show WindowKind.bulletin = .text from h1)
  · exact h1 rfl

theorem bulletin_overlap_nil (i : Fin 8) (b : Nat) (h : 124 ≤ b) : ¬ (bulletinAt i b).OverlapBad 0 [] := by
  rintro (h1 | ⟨_, h1, _⟩)
  · exact absurd (show b < 0 + 124 from h1.1) (by omega)
  · exact absurd h1 List.not_mem_nil

theorem bulletin_offsets (i : Fin 8) (b : Nat) : ¬ (bulletinAt i b).OffsetsBad :=
  fun h => nomatch (show WindowKind.bulletin = .quote from h.1)

theorem idleOutsideReady_loading (run : LoadRun) : IdleOutsideReady (loading run) := by
  refine fun _ => ⟨rfl, rfl, fun l => ?_, rfl, rfl, nofun⟩
  rw [show (loading run).link l = Link.reset from vget_replicate _ l]
  exact ⟨rfl, nofun⟩

theorem witness_StepTakesFront : State.reset.pending = [] := rfl

theorem witness_MemoryStaysCanonical : MemoryCanonical waiting ∧ ∃ t, step waiting = .next t := ⟨rfl, _, rfl⟩

theorem witness_SideQueueStaysLegal :
    (SideQueueLegal waiting ∧ MarksEntered waiting ∧ PortKept waiting ∧ ∃ t, step waiting = .next t) ∧
    (let s := owing (floor .opened) [6, 23]
     s.resetPin = false ∧ s.bp.held = none ∧ SideQueueLegal s ∧ SetsOrdered s ∧ (∀ b, Instr.landing ≠ .resetAssert b) ∧
       s.isMarked (.report 6) = true ∧ ∃ t, exec .landing s = .next t) ∧
    (let s := reading (floor .opened)
     s.bp.port = some .textRead ∧ accessOf s .baseStep = none ∧ ∃ t, exec .baseStep s = .next t ∧ t.sideWaits .textRead = true) ∧
    (let s := holding (.read 23) .readWord (owing (floor .opened) [6, 23])
     s.resetPin = false ∧ s.bp.held ≠ none ∧ accessOf s .baseStep = none ∧ SideQueueLegal s ∧ SetsOrdered s ∧
       ∃ t, exec .baseStep s = .next t) := by
  refine ⟨⟨⟨by decide, by decide⟩, ?_, ⟨nofun, fun _ => ⟨?_, nofun⟩⟩, _, rfl⟩,
    ⟨rfl, rfl, ⟨by decide, by decide⟩, by unfold SetsOrdered; decide +kernel, nofun, by decide +kernel, _, rfl⟩, ⟨rfl, rfl, _, rfl,
    by decide +kernel⟩, rfl, nofun, rfl, ⟨by decide, by decide⟩, by unfold SetsOrdered; decide +kernel, _, rfl⟩
  · intro _ m hm
    cases m with
    | report o => exact absurd (of_decide_eq_true (p := o ∈ waiting.cr.dirty) hm) List.not_mem_nil
    | writeBack d => exact absurd (of_decide_eq_true (p := d ∈ waiting.qe.due) hm) List.not_mem_nil
  · intro x hx
    cases hx
    decide +kernel

theorem witness_ClockAndAnchorStayInRange : ClockInRange waiting ∧ AnchorFits waiting ∧ ∃ t, step waiting = .next t :=
  ⟨⟨by decide, by decide, by decide⟩, by show 0 + 123 < 0x40000; decide, _, rfl⟩

theorem witness_ModesStayAgreed :
    ModesAgree waiting ∧ MaskClearOutsideReady waiting ∧ waiting.isReady = false ∧ ∃ t, step waiting = .next t :=
  ⟨modesAgree_waiting, fun _ => rfl, rfl, _, rfl⟩

theorem witness_StaysIdleOutsideReady :
    (ModesAgree waiting ∧ IdleOutsideReady waiting ∧ SideQueueLegal waiting ∧ SetsOrdered waiting ∧ EntriesAreMarked waiting ∧
      waiting.isReady = false ∧ ∃ t, step waiting = .next t) ∧
    (let s := (owing (floor .opened) [6, 23]).setPending [.landing]
     ModesAgree s ∧ IdleOutsideReady s ∧ SideQueueLegal s ∧ SetsOrdered s ∧ EntriesAreMarked s ∧ ∃ t, step s = .next t) :=
  ⟨⟨modesAgree_waiting, idleOutsideReady_loading LoadRun.start, ⟨by decide, by decide⟩, by unfold SetsOrdered; decide +kernel,
    ⟨nofun, fun _ => rfl⟩, rfl, _, rfl⟩, modesAgree_floor .opened nofun, nofun, ⟨by decide, by decide⟩,
    by unfold SetsOrdered; decide +kernel, ⟨by decide +kernel, nofun⟩, _, rfl⟩

theorem witness_CapacitiesStayKept :
    (CapacitiesKept waiting ∧ SetsOrdered waiting ∧ ∃ t, step waiting = .next t) ∧
    (let s := (onLink (floor .opened) (fun k => { k with queue := [.cell 0, .row 1], blink := [⟨0, 0⟩] })).setPending [.blinkExpiry]
     RefreshQueuesDistinct s ∧ BlinkListsDistinct s ∧ ∃ t, step s = .next t) := by
  refine ⟨⟨⟨by decide, by decide, by decide, ?_, ?_⟩, by unfold SetsOrdered; decide +kernel, _, rfl⟩, ?_, ?_, _, rfl⟩
  · intro l
    rw [show waiting.link l = Link.reset from vget_replicate _ l]
    exact ⟨by decide, by decide, by decide⟩
  · intro u
    rw [show waiting.term u = Terminal.reset from vget_replicate _ u]
    exact ⟨by decide, by decide, by decide, by decide, by decide⟩
  · intro l
    refine ⟨by revert l; decide +kernel, fun p hp => ⟨⟨10, 0, .last, 0, 0, 8⟩, ?_⟩⟩
    match l, hp with
    | 0, hp =>
      rcases List.mem_cons.1 hp with h | h
      · cases h
        exact ⟨rfl, rfl, by decide +kernel⟩
      · rcases List.mem_cons.1 h with h | h
        · cases h
        · cases h
    | 1, hp => cases hp
    | 2, hp => cases hp
    | 3, hp => cases hp
  · intro l
    match l with
    | 0 =>
      refine ⟨by decide +kernel, fun c hc => ?_, by decide +kernel, fun h => absurd rfl h⟩
      rcases List.mem_cons.1 hc with h | h
      · rw [h]
        exact ⟨by decide +kernel, _, rfl, rfl⟩
      · cases h
    | 1 => exact ⟨by decide +kernel, nofun, by decide +kernel, fun _ => rfl⟩
    | 2 => exact ⟨by decide +kernel, nofun, by decide +kernel, fun _ => rfl⟩
    | 3 => exact ⟨by decide +kernel, nofun, by decide +kernel, fun _ => rfl⟩

theorem witness_SubscribersStayAgreed :
    (SubscribersAgree waiting ∧ ∃ t, step waiting = .next t) ∧
    (ModesAgree waiting ∧ IdleOutsideReady waiting ∧ NamedSlotsListed waiting) ∧
    ModesAgree quoting ∧ IdleOutsideReady quoting ∧ NamedSlotsListed quoting ∧ ∃ t, step quoting = .next t := by
  have empty : ∀ (u : TermId) i, vget (waiting.term u).watch i = none := by
    intro u i
    rw [show waiting.term u = Terminal.reset from vget_replicate _ u]
    exact vget_replicate _ i
  have resets : ∀ n : Slot, ¬ (Terminal.reset.Watches n ∨ n ∈ Terminal.reset.recallStack ∨ Terminal.reset.response = .quote n ∨
      Terminal.reset.response = .message (.watching n)) := by
    rintro n (⟨i, e, he, _⟩ | h | h | h)
    · rw [show vget Terminal.reset.watch i = none from vget_replicate _ i] at he
      cases he
    · cases h
    · cases h
    · cases h
  refine ⟨⟨⟨?_, ?_⟩, _, rfl⟩, ⟨modesAgree_waiting, idleOutsideReady_loading LoadRun.start, ?_⟩, modesAgree_floor .opened nofun, nofun,
    ?_, _, rfl⟩
  · intro u i j e f he
    simp [empty u i] at he
  · intro u n
    rw [show vget waiting.pt.subscribers n = [] from vget_replicate _ n]
    simp [Terminal.Watches, empty u]
  · intro u n h
    rw [show waiting.term u = Terminal.reset from vget_replicate _ u] at h
    exact absurd h (resets n)
  · intro u n h
    rw [show quoting.term u = if 0 = u then quotingTerminal else Terminal.reset by
      rw [← vget_replicate Terminal.reset u]
      exact vget_vset _ _ _ _] at h
    show (vget (floor .opened).qe.slots n).state ≠ .unused
    split at h
    · have named : n = 10 ∨ n = 11 := by
        rcases h with ⟨i, e, he, hn⟩ | h | h | h
        · change vget (vset (Vector.replicate 12 none) 0 (some (entryFor 10 .dealer))) i = some e at he
          rw [vget_vset, vget_replicate] at he
          split at he
          · cases he
            exact .inl hn.symm
          · cases he
        · exact .inr (List.mem_singleton.1 h)
        · cases h
          exact .inl rfl
        · cases h
      rcases named with h | h <;> subst h <;> decide +kernel
    · exact absurd h (resets n)

theorem witness_SessionFollowsTable :
    ModesAgree (floor .preOpen) ∧ (floor .preOpen).bp.held = none ∧
    ∃ t, exec (.openMarket 0) (floor .preOpen) = .next t ∧ t.cs.session ≠ (floor .preOpen).cs.session :=
  ⟨modesAgree_floor .preOpen (by decide), rfl, _, rfl, by decide +kernel⟩

theorem witness_ChangedReportWordsAreDirty :
    (floor .opened).resetPin = false ∧ (floor .opened).bp.held = none ∧ 19 ∈ reportOffsets ∧ 6 ∈ reportOffsets ∧ 23 ∈ reportOffsets ∧
    ∃ t, exec (.commandWordPartial 0 .high) (floor .opened) = .next t ∧ reportValue t 19 ≠ reportValue (floor .opened) 19 :=
  ⟨rfl, rfl, by decide, by decide, by decide, _, rfl, by decide +kernel⟩

theorem witness_ResetHoldsThePart :
    (State.reset.setResetPin true).resetPin = true ∧ (∀ b, Instr.landing ≠ .resetAssert b) ∧ ∀ x y, Instr.landing ≠ .resetRelease x y := ⟨rfl, nofun, nofun⟩

theorem witness_MemoryFrame :
    (floor .opened).bp.held = none ∧ (∃ t, exec (.hostWrite 0x100 0x1234 .both) (floor .opened) = .next t) ∧
    0x1FF ∉ storedKeys (floor .opened) (.hostWrite 0x100 0x1234 .both) ∧ 0x202 ∉ storedKeys (floor .opened) (.hostWrite 0x100 0x1234 .both) :=
  ⟨rfl, ⟨_, rfl⟩, by decide, by decide⟩

theorem witness_HostAccessReachesMemory :
    PortFree (floor .opened) ∧ MemoryCanonical (floor .opened) ∧
    accessOf (floor .opened) (.hostWrite 0x3FFFF 0x1234 .low) = some (.write 0x3FFFF 0x1234 .low) ∧
    accessOf (floor .opened) (.heldRead 0x3FFFF) = some (.read 0x3FFFF) ∧
    (floor .opened).readOwed (.read 0x3FFFF) = false :=
  ⟨portFree_floor _, rfl, rfl, rfl, by decide +kernel⟩

theorem witness_ResetAssertClearsThePart :
    (let s := owing (floor .opened) [6]
     s.bp.port = some .landing ∧ s.bp.held = none ∧ s.bp.queue = .report 6 :: [] ∧ sideWordAddr s (.report 6) = some 0x4006) ∧
    (∀ acc, (let s := holding acc .arbitration (owing (floor .opened) [6])
      s.bp.port = some .landing ∧ s.bp.held = some ⟨acc, .arbitration⟩ ∧ s.bp.queue = .report 6 :: [] ∧
        sideWordAddr s (.report 6) = some 0x4006)) ∧
    (∀ acc cause, (holding acc cause (reading (floor .opened))).bp.port ≠ some .landing ∧
      (holding acc cause (reading (floor .opened))).bp.held = some ⟨acc, cause⟩) :=
  ⟨⟨rfl, rfl, rfl, rfl⟩, fun _ => ⟨rfl, rfl, rfl, rfl⟩, fun _ _ => ⟨nofun, rfl⟩⟩

theorem witness_FullQueueHoldsAccess :
    (let s := owing (floor .opened) [6, 7, 8, 9, 10, 11, 12, 13]
     s.resetPin = false ∧ s.bp.held = none ∧ 8 ≤ s.bp.queue.length) ∧
    (∀ acc, let s := holding acc .fullQueue (owing (floor .opened) [6, 7])
      s.resetPin = false ∧ s.bp.port = some .landing ∧ s.bp.held = some ⟨acc, .fullQueue⟩ ∧
        s.bp.queue = .report 6 :: [.report 7] ∧ sideWordAddr s (.report 6) = some 0x4006 ∧ sideWordAt s 0x100 = none) ∧
    (let s := holding (.read 0x4009) .fullQueue (owing (floor .opened) [6, 7])
     sideWordAt s 0x4009 = some (.report 9) ∧ SideWord.report 9 ∉ s.bp.queue ∧ s.isMarked (.report 9) = false ∧
       sideWordAt s 0x4007 = some (.report 7) ∧ SideWord.report 7 ≠ .report 6 ∧ 7 ∈ s.cr.dirty) :=
  ⟨⟨rfl, rfl, by decide⟩, fun _ => ⟨rfl, rfl, rfl, rfl, rfl, rfl⟩,
    by decide +kernel, by decide, rfl, by decide +kernel, by decide, by decide⟩

theorem witness_OwedReadIsHeld :
    PortFree (owing (floor .opened) [6]) ∧ (owing (floor .opened) [6]).readOwed (.read 0x4006) = true ∧
    (let s := (floor .opened).markDirty 23
     PortFree s ∧ s.readOwed (.read 0x4017) = true ∧ sideWordAt s 0x4017 = some (.report 23) ∧ SideWord.report 23 ∉ s.bp.queue) ∧
    (let s := holding (.read 0x4006) .readWord (owing (floor .opened) [6, 7])
     s.resetPin = false ∧ MemoryCanonical s ∧ s.bp.port = some .landing ∧ s.bp.held = some ⟨.read 0x4006, .readWord⟩ ∧
       s.bp.queue = .report 6 :: [.report 7] ∧ SideWord.report 6 ∉ [SideWord.report 7] ∧
       sideWordAt s 0x4006 = some (.report 6) ∧ sideWordAddr s (.report 6) = some (0x4006 : Addr).toNat ∧
       target s 0x4006 ≠ .report 14) ∧
    ∀ box keys, (let s0 := holding (.read 0x400E) .readWord (owing (floor .opened) [14])
      let s := (s0.setCr { s0.cr with mailbox := box }).setPt { s0.pt with keyQueue := keys }
      s.resetPin = false ∧ MemoryCanonical s ∧ s.bp.port = some .landing ∧ s.bp.held = some ⟨.read 0x400E, .readWord⟩ ∧
        s.bp.queue = .report 14 :: [] ∧ target s 0x400E = .report 14 ∧ s.cr.mailbox = box ∧ s.pt.keyQueue = keys) := by
  refine ⟨⟨rfl, rfl, by decide⟩, by decide +kernel, ⟨⟨rfl, rfl, by decide⟩, by decide +kernel, by decide +kernel, by decide⟩,
    ⟨rfl, rfl, rfl, rfl, rfl, by decide, by decide +kernel, by decide +kernel, by decide +kernel⟩,
    fun _ _ => ⟨rfl, rfl, rfl, rfl, rfl, ?_, rfl, rfl⟩⟩
  refine (target_congr (floor .opened) _ _ ?_ ?_ ?_).trans (by decide +kernel : target (floor .opened) 0x400E = _) <;> rfl

theorem witness_ArbitrationHoldsAccess :
    (let s := owing (floor .opened) [6]
     PortFree s ∧ s.bp.port = some .landing ∧ s.sideWaits .landing = true) ∧
    (let s := owing (floor .opened) [6, 7, 8, 9, 10, 11, 12, 13]
     s.resetPin = false ∧ s.bp.held = none ∧ 8 ≤ s.bp.queue.length ∧ s.bp.port = some .landing ∧ s.sideWaits .landing = true) ∧
    (PortFree (reading (floor .opened)) ∧ (reading (floor .opened)).bp.port = some .textRead ∧
      (reading (floor .opened)).sideWaits .textRead = true) ∧
    (PortFree (floor .opened) ∧ (floor .opened).bp.port = none ∧ (floor .opened).bp.port ≠ some .landing) ∧
    (∀ acc cause, (let s := holding acc cause (reading (floor .opened))
      s.resetPin = false ∧ s.bp.port = some .textRead ∧ s.bp.held = some ⟨acc, cause⟩ ∧ s.bc.textRequest = some 0 ∧
        target s 0x100 = .plain ∧ sideWordAt s 0x100 = none)) ∧
    (let s := holding (.read 0x4017) .arbitration (reading (owing (floor .opened) [23]))
     s.resetPin = false ∧ s.bp.port = some .textRead ∧ s.bc.textRequest = some 0 ∧ sideWordAt s 0x4017 = some (.report 23) ∧
       23 ∈ s.cr.dirty) ∧
    (let s := holding (.read 0x4006) .fullQueue (reading (owing (floor .opened) [6, 7, 8, 9, 10, 11, 12, 13]))
     s.resetPin = false ∧ s.bp.port = some .textRead ∧ 8 ≤ s.bp.queue.length ∧ s.bc.textRequest = some 0) ∧
    (∀ acc, let s := holding acc .arbitration (loading LoadRun.start)
     s.resetPin = false ∧ s.bp.port = some .loadRead ∧ s.bp.held = some ⟨acc, .arbitration⟩ ∧
       s.cr.part = .loading LoadRun.start ∧ LoadRun.start.failed = none ∧ LoadRun.start.phase = .configuration ∧
       LoadRun.start.words.length < 99 ∧ target s 0x100 = .plain ∧ sideWordAt s 0x100 = none ∧
       sideWordAt s 0x10 = some (.report 16) ∧ SideWord.report 16 ∉ s.bp.queue ∧ s.isMarked (.report 16) = false) ∧
    16 ∈ ((loading LoadRun.start).markDirty 16).cr.dirty :=
  ⟨⟨⟨rfl, rfl, by decide⟩, rfl, by decide +kernel⟩, ⟨rfl, rfl, by decide, rfl, by decide +kernel⟩,
    ⟨⟨rfl, rfl, by decide⟩, rfl, rfl⟩, ⟨portFree_floor _, rfl, nofun⟩, fun _ _ => ⟨rfl, rfl, rfl, rfl, rfl, rfl⟩,
    ⟨rfl, rfl, rfl, rfl, by decide⟩, ⟨rfl, rfl, by decide, rfl⟩,
    fun _ => ⟨rfl, rfl, rfl, rfl, rfl, rfl, by decide, rfl, rfl, rfl, List.not_mem_nil, rfl⟩, by decide⟩

theorem witness_LandingWritesHead :
    let s := owing (floor .opened) [6, 23]
    s.resetPin = false ∧ s.bp.held = none ∧ s.bp.port = some .landing ∧ s.bp.queue = .report 6 :: [.report 23] ∧
    SideWord.report 6 ∉ [SideWord.report 23] ∧ sideWordAddr s (.report 6) = some 0x4006 ∧ MemoryCanonical s ∧
    SlotRec.reset.last = 0 ∧ abc.last ≠ 0 ∧ abc.close ≠ 0 :=
  ⟨rfl, rfl, rfl, rfl, by decide, rfl, rfl, rfl, by decide, by decide⟩

theorem witness_HostWriteTakesEntry :
    (let s := owing (floor .opened) [6]
     PortFree s ∧ sideWordAt s 0x4006 = some (.report 6) ∧ s.isMarked (.report 6) = true) ∧
    (let s := (floor .opened).setDue [⟨10, .chg⟩]
     PortFree s ∧ sideWordAt s 0x1003 = some (.writeBack ⟨10, .chg⟩) ∧ s.isMarked (.writeBack ⟨10, .chg⟩) = true) ∧
    PortFree (floor .opened) ∧ target (floor .opened) 0x1007 = .quote 0 10 .unwatched ∧
    target (floor .opened) 0x4017 = .report 23 ∧ (floor .opened).isMarked (.report 23) = false ∧
    target (floor .opened) 0x407C = .plain ∧ target (floor .opened) 0x4018 = .plain :=
  ⟨⟨⟨rfl, rfl, by decide⟩, by decide +kernel, by decide +kernel⟩, ⟨⟨rfl, rfl, by decide⟩, by decide +kernel, by decide +kernel⟩,
    portFree_floor _, by decide +kernel, by decide +kernel, by decide +kernel, by decide +kernel, by decide +kernel⟩

theorem witness_CaptureTakesTrade :
    PortFree (floor .opened) ∧ target (floor .opened) 0x1000 = .quote 0 10 .last ∧
    ((floor .opened).slot 10).state = .listed ∧ (floor .opened).cs.session = .opened ∧ (339 : Word) ≠ 0 ∧
    [0x1003, 0x1004, 0x101F, 0x1020, 0x2017, 0x2018, 0x3000, 0x4000, 0x4001, 0x4004, 0x4005, 0x4006].map (target (floor .opened)) =
      [.quote 0 10 (.writeBack .chg), .quote 0 10 (.writeBack .flags), .quote 0 13 .unwatched, .plain, .text 1 0, .text 1 1,
        .bulletin 0, .command, .parameter 0, .parameter 3, .acknowledge, .report 6] :=
  ⟨portFree_floor _, by decide +kernel, by decide +kernel, rfl, by decide, by decide +kernel⟩

theorem witness_AnomaliesAreCounted :
    PortFree (floor .closed) ∧ target (floor .closed) 0x1000 = .quote 0 10 .last ∧ (floor .closed).cs.session ≠ .opened ∧
    target (floor .closed) 0x1019 = .quote 0 13 .size ∧ ((floor .closed).slot 13).state = .unused ∧
    target (floor .closed) 0x101A = .quote 0 13 .close ∧ target (floor .closed) 0x4000 = .command ∧ Half.low.lanes ≠ .both ∧
    accessOf (floor .closed) (.capture 0x1000 5) = some (.write 0x1000 5 .both) :=
  ⟨portFree_floor _, by decide +kernel, by decide, by decide +kernel, by decide +kernel, by decide +kernel, by decide +kernel, by decide, rfl⟩

theorem witness_SizeWriteSetsPendingSize :
    PortFree (floor .closed) ∧ target (floor .closed) 0x1009 = .quote 0 11 .size ∧ ((floor .closed).slot 11).state ≠ .unused ∧
    target (floor .closed) 0x1019 = .quote 0 13 .size ∧ ((floor .closed).slot 13).state = .unused :=
  ⟨portFree_floor _, by decide +kernel, by decide +kernel, by decide +kernel, by decide +kernel⟩

theorem witness_CloseIsSet :
    PortFree (floor .closed) ∧ target (floor .closed) 0x100A = .quote 0 11 .close ∧ ((floor .closed).slot 11).state ≠ .unused ∧
    TakesCommands (params (floor .closed) 11 50 0 0) ∧ ((params (floor .closed) 11 50 0 0).param 0).toNat = (11 : Slot).val :=
  ⟨portFree_floor _, by decide +kernel, by decide +kernel, takesCommands_params _ _ _ _ _, by decide +kernel⟩

theorem witness_HaltAndResumeChangeState :
    TakesCommands (params (floor .closed) 10 0 0 0) ∧ ((params (floor .closed) 10 0 0 0).param 0).toNat = (10 : Slot).val ∧
    ((params (floor .closed) 10 0 0 0).slot 10).state = .listed ∧
    ((params (floor .closed) 11 0 0 0).param 0).toNat = (11 : Slot).val ∧ ((params (floor .closed) 11 0 0 0).slot 11).state = .halted :=
  ⟨takesCommands_params _ _ _ _ _, by decide +kernel, by decide +kernel, by decide +kernel, by decide +kernel⟩

theorem witness_SetupWritesAreTaken :
    PortFree (floor .dimming) ∧ AnchorFits (floor .dimming) ∧ Lanes.high ≠ .both ∧ Lanes.low ≠ .both ∧
    (let flagged (flags mask : Word) : State :=
       (floor .dimming).setCr { (floor .dimming).cr with flags := flags, mask := mask }
     (flagged 0x8001 0x8000).attn = true ∧ (flagged 0x8001 0x7FFE).attn = false ∧
       ({ flagged 0x8001 0x8000 with resetPin := true } : State).attn = false) :=
  ⟨portFree_floor _, anchorFits_floor _, by decide, by decide, by decide +kernel, by decide +kernel, by decide +kernel⟩

theorem witness_CommandWordRefusals :
    (let s := loading LoadRun.start
     PortFree s ∧ accessOf s (.tapeClear 0) = some (.write 0 0x0E00 .both) ∧ target s 0 = .command ∧ s.cr.running ≠ none) ∧
    (let s := floor .closed
     PortFree s ∧ s.cr.running = none ∧ target s 0x4000 = .command ∧ isKnownOpcode (hiByte 0x0F00) = false ∧
       isKnownOpcode (hiByte 0x0000) = false ∧ (Instr.unknownOpcode 0x0F00).wellFormed = true) ∧
    (let s := owing State.reset []
     PortFree s ∧ s.cr.running = none ∧ isKnownOpcode (hiByte 0x0E00) = true ∧ s.cr.part = .unconfigured ∧
       hiByte 0x0E00 ≠ 0x01) :=
  ⟨⟨⟨rfl, rfl, by decide⟩, rfl, by decide +kernel, nofun⟩, ⟨portFree_floor _, rfl, by decide +kernel, by decide, by decide, by decide⟩,
    ⟨rfl, rfl, by decide⟩, rfl, by decide, rfl, by decide⟩

theorem witness_OwnersRefuse :
    TakesCommands (params (floor .opened) 256 0 0 0) ∧ 256 ≤ ((params (floor .opened) 256 0 0 0).param 0).toNat ∧
    ((params (floor .opened) 255 0 0 0).param 0).toNat = (255 : Slot).val ∧
    ((params (floor .opened) 255 0 0 0).slot 255).state = .unused ∧ ((floor .opened).slot 11).state = .halted ∧
    ((floor .opened).slot 10).state = .listed ∧ (floor .opened).cs.session ≠ .preOpen ∧ (floor .closed).cs.session ≠ .opened ∧
    (floor .opened).cs.session ≠ .closed ∧ (floor .opened).cs.session ≠ .dark ∧
    (0xFC : Byte).getLsbD 0 = false ∧ (0xFC : Byte).getLsbD 1 = false ∧
    864000 ≤ ((params (floor .opened) 13 0x2F00 0 0).param 0).toNat % 16 * 65536 +
      ((params (floor .opened) 13 0x2F00 0 0).param 1).toNat ∧
    16 ≤ (16 : Byte).toNat ∧ (0xFE : Byte) ≠ 0xFF ∧ ¬ ((floor .opened).term 2).Watches 10 ∧
    ∀ i, vget ((floor .opened).term 2).watch i ≠ none :=
  ⟨takesCommands_params _ _ _ _ _, by decide +kernel, by decide +kernel, by decide +kernel, by decide +kernel, by decide +kernel,
    by decide, by decide, by decide, by decide, by decide, by decide, by decide +kernel, by decide, by decide,
    (Terminal.placeOf_eq_none _ _).mp (by decide +kernel), by decide +kernel⟩

theorem witness_MailboxMovesAndReleases :
    (let s := (floor .closed).setPt { (floor .closed).pt with keyQueue := [⟨3, [0x41], none⟩] }
     s.resetPin = false ∧ s.cr.mailbox = none ∧ s.pt.keyQueue = ⟨3, [0x41], none⟩ :: []) ∧
    (let s := (floor .closed).setCr { (floor .closed).cr with mailbox := some ⟨3, [0x41], some 10⟩ }
     PortFree s ∧ AnchorFits s ∧ s.readOwed (.read (setupAddr s 14)) = false ∧ s.cr.mailbox = some ⟨3, [0x41], some 10⟩ ∧
       s.pt.keyQueue = [] ∧
       (s.setPt { s.pt with keyQueue := [⟨4, [0x42], none⟩] }).readOwed (.read (setupAddr s 14)) = false) ∧
    (floor .closed).readOwed (.read (setupAddr (floor .closed) 14)) = false ∧ (floor .closed).cr.mailbox = none :=
  ⟨⟨rfl, rfl, rfl⟩, ⟨⟨rfl, rfl, by decide⟩, anchorFits_floor .closed, by decide +kernel, rfl, rfl, by decide +kernel⟩,
    by decide +kernel, rfl⟩

theorem witness_OpenAndCloseChangeSession :
    TakesCommands (floor .preOpen) ∧ (floor .preOpen).cs.session = .preOpen ∧ TakesCommands (floor .opened) ∧
    (floor .opened).cs.session = .opened :=
  ⟨takesCommands_floor _, rfl, takesCommands_floor _, rfl⟩

theorem witness_RollBegins :
    TakesCommands (floor .closed) ∧ (floor .closed).cs.session = .closed ∧ TakesCommands (floor .dark) ∧
    (floor .dark).cs.session = .dark ∧ ((floor .closed).link 0).state = .online ∧ ((floor .closed).link 2).state = .dark ∧
    ((floor .closed).link 1).state = .offline ∧ ((floor .closed).link 3).state = .unused ∧
    ((floor .closed).setTc { (floor .closed).tc with mode := .short }).tc.mode ≠ .full ∧
    (floor .closed).tc.mode = .full :=
  ⟨takesCommands_floor _, rfl, takesCommands_floor _, rfl, rfl, rfl, rfl, rfl, by decide, rfl⟩

theorem witness_RollSlotRollsOneSlot :
    let s (n : Slot) := (floor .closed).setCs { (floor .closed).cs with rollNext := some n }
    (∀ n, (s n).resetPin = false ∧ (s n).cs.rollNext = some n) ∧ ((s 254).slot 254).state = .unused ∧
    ((s 10).slot 10).state ≠ .unused ∧ ((s 255).slot 255).state = .unused :=
  ⟨fun _ => ⟨rfl, rfl⟩, by decide +kernel, by decide +kernel, by decide +kernel⟩

theorem witness_DarkBeginsAndIsReached :
    (let s := onLink (floor .closed) (fun k => { k with stale := [0] })
     TakesCommands s ∧ s.cs.session = .closed ∧ s.bc.drained = false) ∧
    (TakesCommands (floor .closed) ∧ (floor .closed).bc.drained = true ∧ (floor .closed).tc.isEmpty = true) ∧
    (let s := floor .dimming
     s.resetPin = false ∧ s.isReady = true ∧ s.cs.session = .dimming ∧ s.bc.drained = true ∧ s.tc.isEmpty = true) ∧
    (let s := (floor .dimming).setTc { (floor .dimming).tc with queue := [.bulletin [0x41] false] }
     s.resetPin = false ∧ s.cs.session = .dimming ∧ s.tc.isEmpty = false) ∧
    (let w : Work := ⟨.cell 0, .waiting, false, false⟩
     let s (n : Nat) := onLink (floor .dimming) (fun k => { k with failures := n, work := some w })
     (s 0).isReady = true ∧ (s 0).tc.isEmpty = true ∧ (∀ m, m ≠ 0 → ((s 0).link m).drained = true) ∧
       ((s 0).link 0).state = .online ∧ ((s 0).link 0).work = some w ∧ ((s 0).link 0).queue = [] ∧
       ((s 0).link 0).stale = [] ∧ ((s 2).link 0).failures = 2) ∧
    (let s := (floor .dimming).setTc { (floor .dimming).tc with current := [0x20] }
     s.resetPin = false ∧ s.isReady = true ∧ s.cs.session = .dimming ∧ s.bc.drained = true ∧ s.tc.timerRunning = true ∧
       s.tc.current = [0x20] ∧ s.tc.queue = [] ∧ s.tc.reserved = none) :=
  ⟨⟨⟨⟨rfl, rfl, Nat.zero_lt_succ 7⟩, rfl, rfl⟩, rfl, by decide +kernel⟩,
    ⟨takesCommands_floor _, by decide +kernel, by decide +kernel⟩, ⟨rfl, rfl, rfl, by decide +kernel, by decide +kernel⟩,
    ⟨rfl, rfl, by decide +kernel⟩, ⟨rfl, by decide +kernel, by decide +kernel, rfl, rfl, rfl, rfl, rfl⟩,
    rfl, rfl, rfl, by decide +kernel, rfl, rfl, rfl, rfl⟩

theorem witness_SetClockSetsTimeAndTrim :
    TakesCommands (params (floor .closed) 0xFFFD 0x2EFF 0x8001 0) ∧ (0x03 : Byte).getLsbD 0 = true ∧
    ((params (floor .closed) 0xFFFD 0x2EFF 0x8001 0).param 0).toNat % 16 * 65536 +
      ((params (floor .closed) 0xFFFD 0x2EFF 0x8001 0).param 1).toNat < 864000 ∧
    (0x02 : Byte).getLsbD 0 = false ∧ (0x02 : Byte).getLsbD 1 = true :=
  ⟨takesCommands_params _ _ _ _ _, by decide, by decide +kernel, by decide, by decide⟩

theorem witness_BaseStepAdvancesClock :
    let last := onLink ((floor .opened).setCs { (floor .opened).cs with
        clock := 863999, trimMagnitude := 32767, trimAccumulator := 1048575, feedCount := 2 })
      (fun k => { k with blink := [⟨0, 1⟩] })
    (floor .opened).resetPin = false ∧ ClockInRange (floor .opened) ∧ ¬ FeedDue (floor .opened) ∧ ¬ SweepDue (floor .opened) ∧
    last.resetPin = false ∧ ClockInRange last ∧ FeedDue last ∧
    SweepDue (last.setBc { last.bc with sweepCount := 1 }) ∧ (⟨0, 1⟩ : BlinkCell) ∈ (last.link 0).blink ∧
    last.bc.placements[0]? = some ⟨10, 0, .last, 0, 0, 8⟩ ∧ (last.link 0).state = .online :=
  ⟨rfl, ⟨by decide, by decide, by decide⟩, fun h => absurd h.2 (by decide), fun h => absurd h.2.2 (by decide), rfl,
    ⟨by decide, by decide, by decide⟩, ⟨⟨rfl, rfl, by decide, rfl⟩, by decide⟩, ⟨rfl, by decide, by decide⟩, by decide +kernel,
    rfl, rfl⟩

theorem witness_WholeSecondAndMinute :
    (floor .opened).resetPin = false ∧ (floor .opened).cs.secondTaken = false ∧ (floor .opened).isReady = true ∧
    FeedRuns (floor .opened) ∧ ¬ FeedDue (floor .opened) ∧ ¬ SweepDue (floor .opened) ∧
    SweepDue ((floor .opened).setBc { (floor .opened).bc with sweepCount := 1 }) ∧
    FeedDue ((floor .opened).setCs { (floor .opened).cs with feedCount := 2 }) ∧ ¬ FeedRuns (floor .closed) ∧
    (loading LoadRun.start).isReady = false ∧ (loading LoadRun.start).cs.secondTaken = false ∧
    ((floor .opened).setCs { (floor .opened).cs with secondTaken := true }).cs.secondTaken = true :=
  ⟨rfl, rfl, rfl, ⟨rfl, rfl, by decide, rfl⟩, fun h => absurd h.2 (by decide), fun h => absurd h.2.2 (by decide),
    ⟨rfl, by decide, by decide⟩, ⟨⟨rfl, rfl, by decide, rfl⟩, by decide⟩, fun h => absurd h.2.1 (by decide), rfl, rfl, rfl⟩

theorem witness_FeedGoesStale :
    (let s := floor .opened
     s.resetPin = false ∧ s.isReady = true ∧ s.cs.session = .opened ∧ s.cs.feedTimeout ≠ 0 ∧ s.cs.feedStale = false) ∧
    (let s := (floor .opened).setCs { (floor .opened).cs with feedCount := 2 }
     s.cs.secondTaken = false ∧ s.cs.feedCount + 1 = s.cs.feedTimeout) :=
  ⟨⟨rfl, rfl, rfl, by decide, rfl⟩, rfl, rfl⟩

theorem witness_FloorLineRingsTheBell :
    (floor .preOpen).resetPin = false ∧ (floor .preOpen).isReady = true ∧ (floor .preOpen).cs.session = .preOpen ∧
    (floor .preOpen).cs.signal .openBell = false ∧
    { (floor .preOpen).cs with lineLevels := vset (floor .preOpen).cs.lineLevels 0 true }.signal .openBell = true ∧
    (floor .opened).cs.session = .opened ∧ (floor .opened).cs.signal .closeBell = false ∧
    { (floor .opened).cs with lineLevels := vset (floor .opened).cs.lineLevels 1 true }.signal .closeBell = true ∧
    (floor .closed).cs.session ≠ .preOpen ∧ (floor .closed).cs.session ≠ .opened :=
  ⟨rfl, rfl, rfl, by decide +kernel, by decide +kernel, rfl, by decide +kernel, by decide +kernel, by decide, by decide⟩

theorem witness_LoadBegins :
    PortFree (owing State.reset []) ∧ (owing State.reset []).cr.running = none ∧ (owing State.reset []).cr.part = .unconfigured ∧
    (∀ w, (let s := onLink (floor .closed) (fun k => { k with work := w })
      PortFree s ∧ s.cr.running = none ∧ s.cr.part = .ready ∧ s.cs.session = .closed ∧ (s.link 0).work = w)) ∧
    (let s := (floor .closed).setBp { (floor .closed).bp with queue := [.report 6, .writeBack ⟨10, .chg⟩] }
     PortFree s ∧ s.cr.running = none ∧ s.cr.part = .ready ∧ s.cs.session = .closed) :=
  ⟨⟨rfl, rfl, by decide⟩, rfl, rfl, fun _ => ⟨⟨rfl, rfl, Nat.zero_lt_succ 7⟩, rfl, rfl, rfl, rfl⟩, ⟨rfl, rfl, by decide⟩, rfl, rfl, rfl⟩

theorem witness_LoadReadTakesWord :
    (∀ run : LoadRun, run.failed = none → LoadReads (loading run) run) ∧ (List.replicate 98 (0 : Word)).length < 99 ∧
    (let ws := configWords [(60, 0x8300), (62, 0x3000), (63, 8)]
     ws.length = 99 ∧ PointersGood (ws ++ [0]) ∧ DescriptorPasses 0 (ws ++ [0]) 0 ∧
       (∀ n, n ≠ 0 → DescriptorPasses 0 (ws ++ [0]) n) ∧ (loading LoadRun.start).bp.anchor.toNat = 0 ∧
       (loading LoadRun.start).mem.readWord 123 = 0) ∧
    (let s := (loading LoadRun.start).setMem ((loading LoadRun.start).mem.writeWord 1019 0xC008 .both)
     (s.mem.readWord 1019).getLsbD 15 = true ∧ (s.mem.readWord 1019).toNat % 256 = 8 ∧ NameIs 0x4142 0x4320 (ascii ['A', 'B', 'C']) ∧
       (s.mem.readWord 1023).getLsbD 15 = false ∧ (setupOf [] []).directory = 0 ∧
       ∀ m : Slot, (s.slot m).state = .unused) ∧
    (let u : Setup := { setupOf [] [textWindow] with rows := #v[4, 0, 0, 0], cols := #v[16, 0, 0, 0], placementCount := 1 }
     RowKindIs u 0x4000 .symbol ∧ RowKindIs u 0x8101 (.text 1 1) ∧ (0 : Nat) < vget u.rows 0 ∧ vget u.rows 3 ≤ 31 ∧
       (∀ v ∈ u.windows, ∀ v' ∈ u.windows, v.index = v'.index → v = v') ∧ u.placementCount ≠ 0 ∧
       (setupOf [] []).placementCount = 0 ∧
       (let p := placementOf 0x0A02 0x0008 .last
        ((0x0A02 : Word).toNat % 8, FieldKind.last) = (2, .last) ∧ ((floor .opened).slot p.slot).state ≠ .unused ∧
          ¬ p.PlaceBad u [.symbol] ∧ ¬ p.CellBad [] ∧ ¬ p.CountBad [])) := by
  refine ⟨fun run h => ⟨rfl, rfl, rfl, rfl, h⟩, by decide, ⟨by decide +kernel, ?_, ?_, ?_, rfl, by decide⟩,
    ⟨by decide +kernel, by decide +kernel, ⟨by decide, by decide, by decide, by decide⟩, by decide +kernel, rfl, ?_⟩,
    rfl, ⟨rfl, rfl, rfl, textWindow, List.mem_cons_self, rfl, rfl, by decide⟩, by decide, by decide, by decide, by decide,
    by decide, rfl, by decide +kernel, ?_, ?_, ?_⟩
  · unfold PointersGood PointerBad
    decide +kernel
  · exact fun _ => ⟨bulletinAt 0 0x3000, by decide +kernel, bulletin_limit_nil _ _, bulletin_geometry _ _ (by decide),
      bulletin_overlap_nil _ _ (by decide), bulletin_offsets _ _⟩
  · exact fun n h e => absurd e (by revert n; decide +kernel)
  · exact fun m => congrArg SlotRec.state (vget_replicate SlotRec.reset m)
  · unfold Placement.PlaceBad
    decide +kernel
  · exact fun h => by obtain ⟨q, hq, _⟩ := h; exact absurd hq List.not_mem_nil
  · unfold Placement.CountBad
    decide

theorem witness_LoadCompletes :
    let u : Setup := { setupOf [] [quoteWindow] with rows := #v[4, 0, 0, 0], cols := #v[16, 0, 0, 0] }
    let run : LoadRun := { LoadRun.start with phase := .placements, setup := some u }
    (loading run).resetPin = false ∧ IdleOutsideReady (loading run) ∧ (loading run).cr.part = .loading run ∧
    run.phase = .placements ∧ run.failed = none ∧ run.setup = some u ∧ u.placementCount ≤ run.entry ∧
    quoteWindow ∈ u.windows ∧ quoteWindow.kind = .quote ∧
    (∀ v ∈ u.windows, v.index = quoteWindow.index → v = quoteWindow) ∧ (∀ w ∈ u.windows, w.index = 1 → w.kind ≠ .quote) ∧
    vget u.rows 0 ≠ 0 ∧ vget u.rows 1 = 0 :=
  ⟨rfl, idleOutsideReady_loading _, rfl, rfl, rfl, rfl, by decide, by decide, rfl, by decide, by decide, by decide, by decide⟩

theorem witness_LoadIsRefused :
    (let run : LoadRun := LoadRun.start.fail 13 0
     (loading run).resetPin = false ∧ IdleOutsideReady (loading run) ∧ (loading run).cr.part = .loading run ∧
       run.failed = some (13, 0)) ∧
    (∀ run : LoadRun, run.failed = none → LoadReads (loading run) run) ∧
    (let pointers (x : List (Nat × Word)) : Prop × Prop × Prop :=
       (PointerBad (configWords x ++ [0]) 26 1024, PointerBad (configWords x ++ [0]) 28 0,
         PointerBad (configWords x ++ [0]) 31 128)
     (pointers [(26, 4)]).1 ∧ ¬ (pointers [(28, 4)]).1 ∧ (pointers [(28, 4)]).2.1 ∧ ¬ (pointers [(31, 3), (32, 0xFF81)]).1 ∧
       ¬ (pointers [(31, 3), (32, 0xFF81)]).2.1 ∧ (pointers [(31, 3), (32, 0xFF81)]).2.2) ∧
    (cfgWord (configWords [(60, 0x8000)]) 60).getLsbD 15 = true ∧
    (cfgWord (configWords [(60, 0x8000)]) 60).toNat / 256 % 4 = 0 ∧
    windowOf (configWords [(60, 0x8300), (62, 0x3000), (63, 8)]) 0 = some (bulletinAt 0 0x3000) ∧
    (bulletinAt 0 0x3000).LimitBad [bulletinAt 1 0x2000] ∧
    ({ bulletinAt 0 0x3000 with length := 7 } : Window).GeometryBad ∧ (bulletinAt 0 123).OverlapBad 0 [] ∧
    ({ quoteWindow with offsets := noOffsets } : Window).OffsetsBad ∧
    ((0x8009 : Word).toNat % 256 ≠ 8 ∧ (0x8009 : Word).toNat % 256 ≠ 16 ∧ (0x8009 : Word).toNat % 256 ≠ 32) ∧
    (∀ name, ¬ NameIs 0x2041 0x4243 name) ∧
    (10 : Slot) < 11 ∧ ((floor .opened).slot 10).state ≠ .unused ∧ NameIs 0x4142 0x4320 ((floor .opened).slot 10).name ∧
    (let u : Setup := { setupOf [] [textWindow] with rows := #v[4, 0, 0, 0], cols := #v[16, 0, 0, 0], placementCount := 1 }
     (∀ kind, ¬ RowKindIs u 0xC000 kind) ∧
       ((floor .opened).slot (placementOf 0x0B02 0x0008 .last).slot).state ≠ .unused ∧
       ((floor .opened).slot (placementOf 0x0C02 0x0008 .last).slot).state = .unused ∧
       (placementOf 0x0A02 0x000D .last).PlaceBad u [.symbol] ∧ ¬ (placementOf 0x0A02 0x000C .last).PlaceBad u [.symbol] ∧
       (placementOf 0x0A02 0x0008 .last).CellBad [placementOf 0x0A02 0x00E8 .last] ∧
       (placementOf 0x0A02 0x0008 .last).CountBad (List.replicate 4 (placementOf 0x0A02 0x0108 .last))) := by
  refine ⟨⟨rfl, idleOutsideReady_loading _, rfl, rfl⟩, fun run h => ⟨rfl, rfl, rfl, rfl, h⟩, ?_, by decide +kernel,
    by decide +kernel, by decide +kernel, ?_, Or.inr (Or.inr (Or.inr ⟨rfl, by decide⟩)), Or.inl (by decide),
    ⟨rfl, Or.inl rfl⟩, by decide, ?_, by decide, by decide +kernel, ⟨by decide, by decide, by decide, by decide⟩, ?_,
    by decide +kernel, by decide +kernel, ?_, ?_, ?_, ?_⟩
  · unfold PointerBad
    decide +kernel
  · unfold Window.LimitBad
    decide
  · intro name ⟨h1, _, h3, h4⟩
    cases name with
    | nil => exact absurd h1 (by decide)
    | cons c cs =>
      have hc : (0x20 : Byte) = c := (List.cons.inj h4).1
      exact absurd (h3 c List.mem_cons_self) (by subst hc; decide)
  · intro kind
    cases kind with
    | symbol => exact fun h => absurd h (by show ¬ (_ = _); decide)
    | text i line => exact fun h => absurd h.1 (by decide)
  · unfold Placement.PlaceBad
    decide +kernel
  · unfold Placement.PlaceBad
    decide +kernel
  · exact ⟨_, List.mem_cons_self, rfl, rfl, by decide, by decide⟩
  · unfold Placement.CountBad
    decide

theorem witness_TextWriteOwesRows :
    PortFree (floor .opened) ∧ target (floor .opened) 0x202F = .text 1 1 ∧ ((floor .opened).link 0).state = .online ∧
    ((floor .opened).link 0).rowMap[2]? = some (RowKind.text 1 1) ∧ ((floor .opened).link 1).state ≠ .online ∧
    (let b := (floor .opened).bc
     let k (q : List RefreshEntry) (stale : List Nat) : Link := { boardLink .online with queue := q, stale := stale }
     0 ∈ (k [] [0]).stale ∧ RefreshEntry.row 0 ∈ (k [.row 0] []).queue ∧
       (k [.row 3, .cell 0, .cell 0] []).queue = [.row 3] ++ .cell 0 :: [.cell 0] ∧
       b.placements[0]? = some ⟨10, 0, .last, 0, 0, 8⟩ ∧ (∀ e ∈ [RefreshEntry.row 3], b.isCellOf 0 e = false) ∧
       RefreshEntry.row 0 ∉ (k [.row 3, .cell 0, .cell 0] []).queue ∧ (k [.row 3] []).queue.length < 32 ∧
       (∀ e ∈ (k (List.replicate 32 (.row 3)) []).queue, b.isCellOf 0 e = false) ∧
       32 ≤ (k (List.replicate 32 (.row 3)) []).queue.length) :=
  ⟨portFree_floor _, by decide +kernel, rfl, rfl, by decide, by decide, by decide, rfl, rfl, by decide, by decide, by decide,
    by decide +kernel, by decide⟩

theorem witness_BlinkSweepAndRepaint :
    (let s := onLink (floor .opened) (fun k => { k with blink := [⟨0, 0⟩] })
     s.resetPin = false ∧ (⟨0, 0⟩ : BlinkCell) ∈ (s.link 0).blink ∧ s.bc.placements[0]? = some ⟨10, 0, .last, 0, 0, 8⟩ ∧
       (s.link 0).state = .online) ∧
    (floor .opened).isReady = true ∧ (floor .opened).bc.sweepSeconds ≠ 0 ∧ TakesCommands (floor .opened) :=
  ⟨⟨rfl, by decide +kernel, rfl, rfl⟩, rfl, by decide, takesCommands_floor _⟩

theorem witness_TakeWorkChoosesNext :
    (let s := onLink (floor .opened) (fun k => { k with queue := [.cell 0] })
     s.resetPin = false ∧ (s.link 0).work = none ∧ (s.link 0).state = .online ∧ (s.link 0).queue = .cell 0 :: [] ∧
       s.bc.placements[0]? = some ⟨10, 0, .last, 0, 0, 8⟩) ∧
    (let s := onLink (floor .opened) (fun k => { k with stale := [0, 3] })
     (s.link 0).work = none ∧ (s.link 0).state = .online ∧ (s.link 0).queue = [] ∧ (s.link 0).stale = 0 :: [3] ∧
       (s.link 0).rowMap[0]? = some .symbol) ∧
    (let s := onLink (floor .opened) (fun k => { k with stale := [2] })
     (s.link 0).stale = 2 :: [] ∧ (s.link 0).rowMap[2]? = some (.text 1 1) ∧
       s.bp.windows.find? (fun v => decide (v.index = 1)) = some textWindow ∧ s.bc.textRequest = none) ∧
    (let s := onLink (floor .opened) (fun k => { k with queue := [.row 1, .cell 0] })
     (s.link 0).queue = .row 1 :: [.cell 0] ∧ (s.link 0).rowMap[1]? = some (.text 1 0)) ∧
    (let s := onLink (floor .opened) (fun k => { k with pass := some 3 })
     (s.link 0).work = none ∧ (s.link 0).queue = [] ∧ (s.link 0).stale = [] ∧ (s.link 0).pass = some 3 ∧
       (s.link 0).rowMap[3]? = some .symbol) ∧
    (let s := (floor .opened).setLink 1 { boardLink .offline with probeDue := true }
     (s.link 1).work = none ∧ (s.link 1).state = .offline ∧ (s.link 1).probeDue = true) ∧
    (let s := floor .opened
     (s.link 0).work = none ∧ (s.link 0).state = .online ∧ (s.link 0).queue = [] ∧ (s.link 0).stale = [] ∧
       (s.link 0).pass = none ∧ (s.link 1).work = none ∧ (s.link 1).state = .offline ∧ (s.link 1).probeDue = false) ∧
    (∀ w, ((onLink (floor .opened) (fun k => { k with work := some w })).link 0).work = some w) ∧
    Priced abc ∧ abc.base ≠ .none ∧ Priced SlotRec.reset ∧ (31 : Nat) < 32 ∧ (63 : Nat) < 64 ∧ (List.replicate 48 (0x20 : Byte)).length ≤ 48 :=
  ⟨⟨rfl, rfl, rfl, rfl, rfl⟩, ⟨rfl, rfl, rfl, rfl, rfl⟩, ⟨rfl, rfl, by decide +kernel, rfl⟩, ⟨rfl, rfl⟩,
    ⟨rfl, rfl, rfl, rfl, rfl⟩, ⟨rfl, rfl, rfl⟩, ⟨rfl, rfl, rfl, rfl, rfl, rfl, rfl, rfl⟩, fun _ => rfl, nofun,
    nofun, fun _ => ⟨rfl, rfl, rfl, rfl⟩, by decide, by decide, by decide⟩

theorem witness_BoardsAnswer :
    (∀ w, (let s := onLink (floor .opened) (fun k => { k with work := some w })
      s.resetPin = false ∧ KeptLit s 0 ∧ (s.link 0).state = .online ∧ (s.link 0).work = some w)) ∧
    (let s := onLink (floor .dimming) (fun k => { k with stale := [2], work := some ⟨.cell 0, .waiting, false, false⟩ })
     (s.link 0).state = .online ∧ (s.link 0).stale ≠ []) ∧
    (floor .opened).bc.placements[0]? = some ⟨10, 0, .last, 0, 0, 8⟩ ∧
    (let s := (floor .opened).setLink 1 { boardLink .offline with work := some ⟨.probe, .waiting, false, false⟩ }
     KeptLit s 1 ∧ (s.link 1).state = .offline ∧ (s.link 1).work = some ⟨.probe, .waiting, false, false⟩) ∧
    ([0xC3, 0xE2] : Text) ≠ [0xC3, 0xE3] ∧
    ([0xC3, 0xE3, 0x00] : Text) ≠ [0xC3, 0xE3] ∧
    (∀ w, ((floor .opened).link 0).work = some w → w.phase ≠ .waiting) ∧ (floor .opened).cs.session ≠ .dimming :=
  ⟨fun _ => ⟨rfl, Or.inl (by decide : Session.opened ≠ .dimming), rfl, rfl⟩, ⟨rfl, by decide +kernel⟩, rfl,
    ⟨Or.inl (by decide), rfl, rfl⟩, by decide, by decide, nofun, by decide⟩

theorem witness_BoardsMissAnswers :
    (∀ n w, (let s := onLink (floor .opened) (fun k => { k with failures := n, work := some w })
      s.resetPin = false ∧ KeptLit s 0 ∧ (s.link 0).state = .online ∧ (s.link 0).work = some w ∧ (s.link 0).failures = n ∧
        s.bc.placements[0]? = some ⟨10, 0, .last, 0, 0, 8⟩)) ∧
    (let s := (floor .opened).setLink 1 { boardLink .offline with work := some ⟨.probe, .waiting, false, false⟩ }
     KeptLit s 1 ∧ (s.link 1).state = .offline ∧ (s.link 1).work = some ⟨.probe, .waiting, false, false⟩) ∧
    (let s := (floor .opened).setLink 1 { boardLink .offline with probeTimer := true }
     (s.link 1).state = .offline ∧ (s.link 1).probeTimer = true ∧ (s.link 1).work = none) :=
  ⟨fun _ _ => ⟨rfl, Or.inl (by decide : Session.opened ≠ .dimming), rfl, rfl, rfl, rfl⟩, ⟨Or.inl (by decide), rfl, rfl⟩, rfl, rfl, rfl⟩

theorem witness_TextLineReadTakesWord :
    let s (n : Nat) := reading (onLink (floor .opened) (fun k =>
      { k with work := some ⟨.textRow 1, .reading ⟨0x2000, n, []⟩, false, false⟩ }))
    (s 1).resetPin = false ∧ (s 1).bp.held = none ∧ (s 1).bp.port = some .textRead ∧ (s 1).bc.textRequest = some 0 ∧
    ((s 1).link 0).work = some ⟨.textRow 1, .reading ⟨0x2000, 1, []⟩, false, false⟩ ∧
    ((s 2).link 0).work = some ⟨.textRow 1, .reading ⟨0x2000, 2, []⟩, false, false⟩ :=
  ⟨rfl, rfl, rfl, rfl, rfl, rfl⟩

theorem witness_BulletinIsShadowedAndQueued :
    PortFree (floor .opened) ∧ target (floor .opened) 0x3006 = .bulletin 6 ∧ target (floor .opened) 0x3007 = .bulletin 7 ∧
    trimRight (((vset (floor .opened).tc.shadow 7 0x4142).toList.flatMap (fun w => [hiByte w, loByte w])).map tapeChar) ≠ [] ∧
    trimRight (((vset (floor .opened).tc.shadow 7 0x2020).toList.flatMap (fun w => [hiByte w, loByte w])).map tapeChar) = [] ∧
    (floor .opened).tc.queue.length < 96 ∧
    96 ≤ ((floor .opened).setTc { (floor .opened).tc with queue := List.replicate 96 (.bulletin [0x41] false) }).tc.queue.length :=
  ⟨portFree_floor _, by decide +kernel, by decide +kernel, by decide +kernel, by decide +kernel, by decide, by decide +kernel⟩

theorem witness_TradesJoinTheTape :
    let filler : List Print := List.replicate 88 (.bulletin [0x41] false)
    let younger : List Print := List.replicate 7 (.bulletin [0x42] false)
    TapeController.reset.queue.length < 96 ∧ 96 ≤ (filler ++ [Print.trade 10 338 none 0 false] ++ younger).length ∧
    younger.length < 8 ∧ (∀ x ∈ younger, ∀ p z st om, x ≠ Print.trade 10 p z st om) ∧
    (∀ x ∈ (filler ++ [Print.trade 10 338 none 0 false] ++ younger).drop 88, ∀ p z st om, x ≠ Print.trade 11 p z st om) ∧
    (let n : Notice := ⟨10, .trade, ⟨true, true, true, false, false, false, false⟩, some ⟨339, none, 0, 338, false, false⟩⟩
     n.trade = some ⟨339, none, 0, 338, false, false⟩ ∧ n.slot = 10 ∧ ({ n with trade := none } : Notice).trade = none) := by
  refine ⟨by decide, by decide +kernel, by decide, ?_, ?_, rfl, rfl, rfl⟩
  · intro x hx
    rw [List.eq_of_mem_replicate hx]
    exact nofun
  · intro x hx
    rw [show (List.replicate 88 (Print.bulletin [0x41] false) ++ [Print.trade 10 338 none 0 false] ++
      List.replicate 7 (Print.bulletin [0x42] false)).drop 88 =
      Print.trade 10 338 none 0 false :: List.replicate 7 (Print.bulletin [0x42] false) from by decide +kernel] at hx
    rcases List.mem_cons.mp hx with rfl | hx
    · simp
    · rw [List.eq_of_mem_replicate hx]
      exact nofun

theorem witness_TapeRuns :
    let s (q : List Print) (reserved : Option Text) (current : Text) :=
      (floor .opened).setTc { (floor .opened).tc with queue := q, reserved := reserved, current := current }
    (∀ q r c, (s q r c).resetPin = false ∧ (s q r c).cs.session ≠ .dimming ∧ (s q r c).tc.timerRunning = true ∧
      (s q r c).tapeHold = false ∧ (s q r c).tc.queue = q ∧ (s q r c).tc.reserved = r ∧ (s q r c).tc.current = c ∧
      (s q r c).cs.clock < 864000) ∧ (863999 : Nat) < 864000 ∧
    ((s [] none []).setCs { (floor .opened).cs with lineLevels := vset (Vector.replicate 4 false) 2 true }).tapeHold = true ∧
    TakesCommands (floor .opened) ∧ abc.base ≠ .none :=
  ⟨fun _ _ _ => ⟨rfl, (by decide : Session.opened ≠ .dimming), rfl, rfl, rfl, rfl, rfl, (by decide : (0 : Nat) < 864000)⟩,
    by decide, by decide +kernel, takesCommands_floor _, nofun⟩

theorem witness_HostWatchesAndUnwatches :
    let s := params (floor .opened) 10 5 344 2
    TakesCommands s ∧ (2 : Byte).toNat = (2 : TermId).val ∧ (15 : Byte).toNat = (15 : TermId).val ∧
    (s.param 0).toNat = (10 : Slot).val ∧ (s.slot 10).state ≠ .unused ∧ ¬ (s.term 15).Watches 10 ∧
    vget (s.term 15).watch 0 = none ∧ (0 : Byte).toNat = (0 : TermId).val ∧
    vget (s.term 0).watch 0 = some (entryFor 10 .dealer) ∧ (entryFor 10 .dealer).slot = 10 :=
  ⟨takesCommands_params _ _ _ _ _, by decide, by decide, by decide +kernel, by decide +kernel,
    (Terminal.placeOf_eq_none _ _).mp (by decide +kernel), by decide +kernel, by decide, by decide +kernel, rfl⟩

theorem witness_StatusTextIsTaken :
    TakesCommands (params (floor .opened) 0x4142 0x4344 0x2020 0x0001) ∧ (15 : Byte).toNat = (15 : TermId).val ∧
    16 ≤ (16 : Byte).toNat ∧ (16 : Byte) ≠ 0xFF :=
  ⟨takesCommands_params _ _ _ _ _, by decide, by decide, by decide⟩

theorem witness_TurnsBegin :
    (let s := floor .opened
     s.resetPin = false ∧ s.isReady = true ∧ s.pt.turn = none ∧ NextPlace s.pt.poll s.pt.pointer 0 ∧
       s.pt.poll.getD 0 255 = (0 : TermId).val ∧ (s.term 0).online = true ∧ (s.term 0).alerts = [] ∧
       (s.term 0).dirty = []) ∧
    NextPlace [16, 3, 255] 2 1 ∧ (∀ e ∈ [255, 16], 15 < e) ∧
    (let s := dealer (floor .opened) (fun r => { r with alerts := [1, 2], dirty := [1, 2] })
     (s.term 0).online = true ∧ (s.term 0).alerts = 1 :: [2]) ∧
    (let s := dealer (floor .opened) (fun r => { r with dirty := [0, 1, 13] })
     (s.term 0).alerts = [] ∧ 13 ∈ (s.term 0).dirty) ∧
    (let s := dealer (floor .opened) (fun r => { r with dirty := [0, 12] })
     13 ∉ (s.term 0).dirty ∧ 0 ∈ (s.term 0).dirty) ∧
    (let s := dealer (floor .opened) (fun r => { r with dirty := [12] })
     13 ∉ (s.term 0).dirty ∧ 0 ∉ (s.term 0).dirty ∧ (s.term 0).dirty = 12 :: []) ∧
    (∀ u, ((floor .opened).setPt { (floor .opened).pt with turn := some u }).pt.turn = some u) ∧
    (13 : Nat) < 14 ∧ ClockInRange (floor .opened) ∧ dealerTerminal.Bounded ∧ (255 : Nat) < 256 ∧
    ShownSlot dealerTerminal 1 10 ∧
    ∀ n, ShownSlot dealerTerminal 1 n → Priced ((floor .opened).slot n) ∧ ((floor .opened).slot n).name.length ≤ 4 :=
  ⟨⟨rfl, rfl, rfl, ⟨0, by decide, rfl, by decide, by decide⟩, by decide +kernel, by decide +kernel, by decide +kernel,
      by decide +kernel⟩,
    ⟨2, by decide, rfl, by decide, by decide⟩, by decide, ⟨by decide +kernel, by decide +kernel⟩,
    ⟨by decide +kernel, by decide +kernel⟩, ⟨by decide +kernel, by decide +kernel⟩,
    ⟨by decide +kernel, by decide +kernel, by decide +kernel⟩, fun _ => rfl, by decide, ⟨by decide, by decide, by decide⟩,
    ⟨by decide, by decide, by decide, by decide, by decide⟩, by decide, Or.inl ⟨0, entryFor 10 .dealer, rfl, rfl, rfl⟩,
    fun n _ => (by unfold Priced; decide +kernel :
      ∀ n, Priced ((floor .opened).slot n) ∧ ((floor .opened).slot n).name.length ≤ 4) n⟩

theorem witness_TurnsEnd :
    (∀ n discard, (let u : Turn := ⟨0, some 1, true, true, discard⟩
      let s0 := dealer (floor .opened) (fun r => { r with misses := n })
      let s := s0.setPt { s0.pt with turn := some u }
      s.resetPin = false ∧ s.isReady = true ∧ s.pt.turn = some u ∧ u.waiting = true ∧ (s.term 0).online = true ∧
        (s.term 0).misses = n)) ∧ NextPlace (floor .opened).pt.poll ((floor .opened).pt.pointer + 1) 0 ∧
    ((floor .opened).term 5).online = false ∧ (0xA1 + 0x05 + 0x5A : Byte) = 0 ∧ (0x41 + 0x65 + 0x5A : Byte) = 0 ∧
    isEntryKeyCode 0x41 = true ∧ (0xA8 + 0xFE + 0x5A : Byte) = 0 ∧ isEntryKeyCode 0xA8 = false ∧
    (0xA8 : Byte) ∉ [(0xA1 : Byte), 0xA2, 0xA3, 0xA4, 0xA5, 0xA6, 0xA7] ∧ goodAnswer [0x00, 0xA7] = none ∧
    CheckGood [0x00, 0xA6] ∧ ¬ CheckGood [0x00, 0xA7] ∧ ([0x00, 0xA6, 0x00] : Text).length ≠ 2 ∧
    ∀ u, (floor .opened).pt.turn = some u → u.waiting = false :=
  ⟨fun _ _ => ⟨rfl, rfl, rfl, rfl, rfl, rfl⟩, ⟨0, by decide, rfl, by decide, by decide⟩, by decide +kernel, by decide, by decide,
    by decide, by decide, by decide, by decide, by decide, by unfold CheckGood; decide, by unfold CheckGood; decide, by decide, nofun⟩

theorem witness_KeysEditAndQuote :
    (let s := dealer (floor .opened) (fun r => { r with entry := ascii ['A', 'B', 'C', ' '] })
     s.resetPin = false ∧ s.isReady = true ∧ isEntryKeyCode 0x5A = true ∧ (s.term 0).entry.length < 8 ∧ (s.term 0).entry ≠ [] ∧
       (s.slot 10).state ≠ .unused ∧ (s.slot 10).name = trimRight (s.term 0).entry ∧
       ∀ m, (s.slot m).state ≠ .unused → (s.slot m).name = trimRight (s.term 0).entry → m = 10) ∧
    8 ≤ ((dealer (floor .opened) (fun r => { r with entry := List.replicate 8 0x41 })).term 0).entry.length ∧
    ((floor .opened).term 0).entry = [] ∧ ((floor .opened).term 0).recallStack = [] ∧
    (let s := dealer (floor .opened) (fun r => { r with entry := [0x51] })
     ∀ n, (s.slot n).state ≠ .unused → (s.slot n).name ≠ trimRight (s.term 0).entry) ∧
    ((dealer (floor .opened) (fun r => { r with recallStack := [10] })).term 0).recallStack = [10] ∧
    ((dealer (floor .opened) (fun r => { r with recallStack := [10, 11, 10] })).term 0).recallStack = 10 :: 11 :: [10] :=
  ⟨⟨rfl, rfl, by decide, by decide +kernel, by decide +kernel, by decide +kernel, by decide +kernel, by decide +kernel⟩,
    by decide +kernel, by decide +kernel, by decide +kernel, by decide +kernel, by decide +kernel, by decide +kernel⟩

theorem witness_KeysSendWatchAndDrop :
    (let s := dealer (floor .opened) (fun r => { r with entry := ascii ['A', 'B', 'C'] })
     s.resetPin = false ∧ s.isReady = true ∧ (s.term 0).entry ≠ [] ∧ s.pt.keyQueue = [] ∧ s.cr.mailbox = none ∧
       (s.slot 10).state ≠ .unused ∧ (s.slot 10).name = trimRight (s.term 0).entry ∧
       (∀ m, (s.slot m).state ≠ .unused → (s.slot m).name = trimRight (s.term 0).entry → m = 10) ∧
       vget (s.term 0).watch 0 = some (entryFor 10 .dealer) ∧ (entryFor 10 .dealer).origin = .dealer) ∧
    ((floor .opened).term 0).entry = [] ∧
    8 ≤ ((floor .opened).setPt { (floor .opened).pt with keyQueue := List.replicate 8 ⟨0, [0x41], none⟩ }).pt.keyQueue.length ∧
    ((floor .opened).setCr { (floor .opened).cr with mailbox := some ⟨0, [0x41], none⟩ }).cr.mailbox ≠ none ∧
    (let s := dealer (floor .opened) (fun r => { r with entry := [0x51] })
     ∀ n, (s.slot n).state ≠ .unused → (s.slot n).name ≠ trimRight (s.term 0).entry) ∧
    ((floor .opened).term 0).Watches 10 ∧ ¬ ((floor .opened).term 3).Watches 10 ∧
    vget ((floor .opened).term 3).watch 0 = none ∧ ¬ ((floor .opened).term 2).Watches 10 ∧
    (∀ i, vget ((floor .opened).term 2).watch i ≠ none) ∧
    vget ((floor .opened).term 1).watch 0 = some (entryFor 10 .host) ∧ (entryFor 10 .host).origin = .host :=
  ⟨⟨rfl, rfl, by decide +kernel, rfl, rfl, by decide +kernel, by decide +kernel, by decide +kernel, by decide +kernel, rfl⟩,
    by decide +kernel, by decide +kernel, nofun, by decide +kernel, ⟨0, entryFor 10 .dealer, by decide +kernel, rfl⟩,
    (Terminal.placeOf_eq_none _ _).mp (by decide +kernel), by decide +kernel,
    (Terminal.placeOf_eq_none _ _).mp (by decide +kernel), by decide +kernel, by decide +kernel, rfl⟩

theorem witness_ResetValues :
    (State.reset.assertReset false).resetPin = true ∧ (State.reset.assertReset false).bp.queue = [] ∧
    (State.reset.assertReset false).bp.held = none ∧ (State.reset.assertReset false).bp.port = none ∧
    (State.reset.assertReset false).qe.due = [] := ⟨rfl, rfl, rfl, rfl, rfl⟩

theorem witness_BoardsTakeNotices :
    let n : Notice := ⟨10, .trade, ⟨true, true, true, false, false, false, false⟩, none⟩
    let b := (floor .opened).bc
    let full := (onLink (floor .opened) (fun k =>
      { k with queue := List.replicate 32 (.row 3), blink := ⟨1, 3⟩ :: List.replicate 15 ⟨2, 4⟩ })).bc
    n.cause = .trade ∧ b.placements[0]? = some ⟨10, 0, .last, 0, 0, 8⟩ ∧ RefreshedBy n ⟨10, 0, .last, 0, 0, 8⟩ ∧
    (vget b.links 0).state = .online ∧ RefreshEntry.cell 0 ∉ (vget b.links 0).queue ∧ 0 ∉ (vget b.links 0).stale ∧
    RefreshEntry.row 0 ∉ (vget b.links 0).queue ∧ (vget b.links 0).queue.length < 32 ∧ (vget b.links 0).blink.length < 16 ∧
    (∀ c ∈ (vget b.links 0).blink, c.placement ≠ 0) ∧ b.blinkTenths ≠ 0 ∧ BoardController.reset.blinkTenths = 0 ∧
    32 ≤ (vget full.links 0).queue.length ∧ RefreshEntry.row 0 ∉ (vget full.links 0).queue ∧
    16 ≤ (vget full.links 0).blink.length ∧ (∀ c ∈ (vget full.links 0).blink, c.placement ≠ 0) ∧
    (vget full.links 0).blink = ⟨1, 3⟩ :: List.replicate 15 ⟨2, 4⟩ ∧ (∃ c ∈ (vget full.links 0).blink, c.placement = 1) ∧
    (vget b.links 1).state ≠ .online :=
  ⟨rfl, rfl, ⟨rfl, Or.inl ⟨rfl, rfl⟩⟩, rfl, by decide, by decide, by decide, by decide, by decide, by decide, by decide, rfl,
    by decide +kernel, by decide +kernel, by decide +kernel, by decide +kernel, rfl, by decide +kernel, by decide⟩

theorem witness_TerminalsTakeNotices :
    let watching (e : WatchEntry) : TerminalController :=
      (dealer (floor .opened) (fun r => { r with watch := vset r.watch 0 (some e) })).pt
    (∀ e, (0 : TermId).val ∈ vget (watching e).subscribers 10 ∧ vget (vget (watching e).terminals 0).watch 0 = some e) ∧
    (∀ j : Fin 12, ¬ j < 0) ∧ (3 : TermId).val ∉ vget (floor .opened).pt.subscribers 10 ∧
    (entryFor 10 .host).slot = 10 ∧ (entryFor 10 .host).code.val ≤ 4 ∧
    (let e : WatchEntry := { entryFor 10 .host with code := 5, negate := false, limit := 344, hysteresis := 2 }
     let d (v : Word) : TradeDetails := ⟨v, none, 0, 340, false, false⟩
     e.side = .unknown ∧ e.Holds (d 344) 0 ∧ ¬ e.Holds (d 343) 0 ∧ e.Rearmed 341 ∧ ¬ e.Rearmed 342) ∧
    (let e : WatchEntry := { entryFor 10 .host with code := 7, negate := false, limit := 2, reference := 340 }
     let d (v : Word) : TradeDetails := ⟨v, none, 0, 340, false, false⟩
     e.reference ≠ 0 ∧ e.Holds (d 342) 0 ∧ ¬ e.Holds (d 341) 0) := by
  refine ⟨fun e => ⟨(by decide : 0 ∈ [0, 1]), rfl⟩, by decide, by decide +kernel, rfl, by decide, ⟨rfl, ?_, ?_, ?_, ?_⟩, by decide, ?_, ?_⟩
  · exact ⟨fun _ => rfl, fun _ => by show (344 : Word) ≤ 344; decide⟩
  · exact fun h => absurd (show (344 : Word) ≤ 343 from h.mpr rfl) (by decide)
  · exact ⟨fun _ _ => by decide, nofun, nofun, nofun⟩
  · exact fun h => absurd (h.1 rfl rfl) (by decide)
  · exact ⟨fun _ => rfl, fun _ => ⟨by decide, Or.inl (by decide)⟩⟩
  · exact fun h => absurd (h.mpr rfl).2 (by decide)

end Sys2Proof.Tests
end

