-- ==== Sys2Proof/Proofs/Capture.lean ====
section
/-!
PROOFS. Writes on the memory path: a word whose mark is taken, a word no block acts on, an anomalous write, and the SIZE field
(chapters 2 and 3).
-/

namespace Sys2Proof.Machine

/-! ### An event that changes no report word (R202) -/

/-- An event that changes no report word's value marks none. -/
theorem State.markChanged_of_reportValue {s t : State} (h : ∀ o, reportValue s o = reportValue t o) : s.markChanged t = t := by
  have hc : changedWords s t = [] := by simp [changedWords, h]
  rw [State.markChanged, hc]
  rfl

/-- Filling the queue and granting the port leave the marks. -/
theorem State.arbitrate_fill_dirty (s : State) : s.fill.arbitrate.cr.dirty = s.cr.dirty := rfl

theorem State.finish_dirty_of_reportValue {s t : State} (h : ∀ o, reportValue s o = reportValue t o) :
    (s.finish t).cr.dirty = t.cr.dirty := by
  rw [State.finish, State.markChanged_of_reportValue h, State.arbitrate_fill_dirty]

/-- The marks are told by the dirty set and the due set alone. -/
theorem State.isMarked_congr {s t : State} (hd : t.cr.dirty = s.cr.dirty) (hq : t.qe.due = s.qe.due) (w : SideWord) :
    t.isMarked w = s.isMarked w := by
  cases w <;> simp [State.isMarked, hd, hq]

theorem State.finish_isMarked_of_reportValue {s t : State} (h : ∀ o, reportValue s o = reportValue t o) (w : SideWord) :
    (s.finish t).isMarked w = t.isMarked w :=
  State.isMarked_congr (State.finish_dirty_of_reportValue h) (by rw [State.finish_qe]) w

/-- The end of an event adds entries at the tail (R53). -/
theorem State.finish_queue_prefix (s t : State) : t.bp.queue <+: (s.finish t).bp.queue := State.event_queue (fun _ => t) s

/-- A word with neither entry nor mark gets no entry at the end of an event that changes no report word (R53). -/
theorem State.not_mem_finish_queue {s t : State} (h : ∀ o, reportValue s o = reportValue t o) {w : SideWord}
    (hq : w ∉ t.bp.queue) (hm : t.isMarked w = false) : w ∉ (s.finish t).bp.queue := by
  intro hw
  have e : (s.finish t).bp.queue = (markOrder t).foldl enterMark t.bp.queue := by
    have := State.event_queue_eq (fun _ => t) s
    rwa [State.markChanged_of_reportValue h] at this
  rw [e] at hw
  rcases mem_of_foldl_enterMark _ _ _ hw with hw | hw
  · exact hq hw
  · simp [(mem_markOrder t w).1 hw] at hm

/-! ### A mark cleared (R58) -/

@[simp] theorem State.clearMark_bp (s : State) (w : SideWord) : (s.clearMark w).bp = s.bp := by cases w <;> rfl

theorem State.clearMark_reportValue (s : State) (w : SideWord) (o : Nat) :
    reportValue (s.clearMark w) o = reportValue s o := by cases w <;> rfl

theorem State.clearMark_isMarked_self (s : State) (w : SideWord) : (s.clearMark w).isMarked w = false := by
  cases w <;> simp [State.clearMark, State.isMarked]

theorem State.clearMark_isMarked_ne (s : State) {v w : SideWord} (h : v ≠ w) :
    (s.clearMark w).isMarked v = s.isMarked v := by
  cases w with
  | report o =>
    cases v with
    | report p =>
      have hp : p ≠ o := fun e => h (congrArg _ e)
      simp [State.clearMark, State.isMarked, hp]
    | writeBack m => rfl
  | writeBack m =>
    cases v with
    | report o => rfl
    | writeBack k =>
      have hk : k ≠ m := fun e => h (congrArg _ e)
      simp [State.clearMark, State.isMarked, hk]

/-- The mark of a word is cleared and its entry leaves the queue (R58). -/
def State.takeEntry (s : State) (w : SideWord) : State := (s.setBp { s.bp with queue := leave w s.bp.queue }).clearMark w

/-- A host write to a word whose mark is set takes its entry (R58). -/
theorem State.overrideMark_set {s : State} {a : Addr} {w : SideWord} (h : sideWordAt s a = some w)
    (hm : s.isMarked w = true) : s.overrideMark a = s.takeEntry w := by
  simp [State.overrideMark, State.takeEntry, h, hm]

/-- A host write to a word with no mark set takes no entry (R58). -/
theorem State.overrideMark_unmarked {s : State} {a : Addr} (h : ∀ w, sideWordAt s a = some w → s.isMarked w = false) :
    s.overrideMark a = s := by
  cases hw : sideWordAt s a with
  | none => exact State.overrideMark_none s a hw
  | some w => exact State.overrideMark_clear s a w hw (h w hw)

theorem State.takeEntry_queue (s : State) (w : SideWord) : (s.takeEntry w).bp.queue = leave w s.bp.queue := by
  simp [State.takeEntry]

theorem State.takeEntry_isMarked_self (s : State) (w : SideWord) : (s.takeEntry w).isMarked w = false :=
  State.clearMark_isMarked_self _ w

theorem State.takeEntry_isMarked_ne (s : State) {v w : SideWord} (h : v ≠ w) :
    (s.takeEntry w).isMarked v = s.isMarked v :=
  (State.clearMark_isMarked_ne _ h).trans (State.isMarked_congr rfl rfl v)

theorem State.takeEntry_reportValue (s : State) (w : SideWord) (o : Nat) :
    reportValue (s.takeEntry w) o = reportValue s o := State.clearMark_reportValue _ w o

/-- Taking an entry changes the marks and the queue alone. -/
theorem State.takeEntry_same (s : State) (w : SideWord) :
    SameButMarks { s with qe := { s.qe with due := (s.takeEntry w).qe.due } } (s.takeEntry w) := by
  cases w <;> rfl

theorem State.takeEntry_target (s : State) (w : SideWord) (a : Addr) : target (s.takeEntry w) a = target s a := by
  cases w <;> exact target_congr _ _ a rfl rfl rfl

/-! ### A word that no block takes (R37, R49) -/

/-- A word that a write changes in memory alone: a report word, a write-back or unwatched word of a quote record, or a word that
no block watches. -/
def HandedToNone (x : Target) : Prop :=
  x = .plain ∨ (∃ o, x = .report o) ∨ ∃ i n f, x = .quote i n f ∧ f ≠ .last ∧ f ≠ .size ∧ f ≠ .close

/-- A word with a mark is handed to no block. -/
theorem handedToNone_of_sideWordAt {s : State} {a : Addr} {w : SideWord} (h : sideWordAt s a = some w) :
    HandedToNone (target s a) := by
  unfold sideWordAt at h
  split at h
  · rename_i o ht
    exact .inr (.inl ⟨o, ht⟩)
  · rename_i i n f ht
    exact .inr (.inr ⟨i, n, _, ht, nofun, nofun, nofun⟩)
  · cases h

theorem State.handWrite_handedToNone {s : State} {a : Addr} (h : HandedToNone (target s a)) (d : Word) (lanes : Lanes) :
    s.handWrite a d lanes = s := by
  unfold State.handWrite
  obtain ht | ⟨o, ht⟩ | ⟨i, n, f, ht, hl, hs, hc⟩ := h <;> rw [ht]
  cases f with
  | last => exact absurd rfl hl
  | size => exact absurd rfl hs
  | close => exact absurd rfl hc
  | writeBack _ => rfl
  | unwatched => rfl

/-- A granted write to a word whose mark is set: memory takes it, and the word's entry is taken (R58). -/
theorem State.performAccess_marked {s : State} {a : Addr} {w : SideWord} (h : sideWordAt s a = some w)
    (hm : s.isMarked w = true) (d : Word) (lanes : Lanes) :
    State.performAccess (.write a d lanes) s = (s.setMem (s.mem.writeWord a.toNat d lanes)).takeEntry w := by
  let u := s.setMem (s.mem.writeWord a.toNat d lanes)
  have hu : sideWordAt u a = some w := (sideWordAt_congr s u a rfl rfl rfl).trans h
  have hmu : u.isMarked w = true := (State.isMarked_congr rfl rfl w).trans hm
  have ht : HandedToNone (target (u.takeEntry w) a) := by
    rw [State.takeEntry_target]
    exact handedToNone_of_sideWordAt hu
  calc State.performAccess (.write a d lanes) s
      = (u.overrideMark a).handWrite a d lanes := rfl
    _ = (u.takeEntry w).handWrite a d lanes := by rw [State.overrideMark_set hu hmu]
    _ = u.takeEntry w := State.handWrite_handedToNone ht d lanes

/-- A granted write to a word with no mark set that no block takes: memory alone changes (R37). -/
theorem State.performAccess_handedToNone {s : State} {a : Addr} (hm : ∀ w, sideWordAt s a = some w → s.isMarked w = false)
    (h : HandedToNone (target s a)) (d : Word) (lanes : Lanes) :
    State.performAccess (.write a d lanes) s = s.setMem (s.mem.writeWord a.toNat d lanes) := by
  let u := s.setMem (s.mem.writeWord a.toNat d lanes)
  have hmu : ∀ w, sideWordAt u a = some w → u.isMarked w = false := fun w hw =>
    (State.isMarked_congr rfl rfl w).trans (hm w ((sideWordAt_congr s u a rfl rfl rfl).symm.trans hw))
  have ht : HandedToNone (target u a) := (target_congr s u a rfl rfl rfl).symm ▸ h
  calc State.performAccess (.write a d lanes) s
      = (u.overrideMark a).handWrite a d lanes := rfl
    _ = u.handWrite a d lanes := by rw [State.overrideMark_unmarked hmu]
    _ = u := State.handWrite_handedToNone ht d lanes

/-- Settles O23. The write changes no report word's value, so the end of its event sets no mark, and a word whose entry has just
been taken gets none anew. -/
theorem hostWriteTakesEntry : Obligations.HostWriteTakesEntry := by
  intro s a d lanes hp
  have hx := exec_write (c := .hostWrite a d lanes) rfl nofun hp
  let u := s.setMem (s.mem.writeWord a.toNat d lanes)
  constructor
  · intro w hw hm
    rw [State.performAccess_marked hw hm] at hx
    let e := (u.takeEntry w).freePort
    have hr : ∀ o, reportValue s o = reportValue e o := fun o => (State.takeEntry_reportValue u w o).symm
    have he : ∀ v, e.isMarked v = (u.takeEntry w).isMarked v := State.isMarked_congr rfl rfl
    have hq : e.bp.queue = leave w s.bp.queue := State.takeEntry_queue u w
    have hself : e.isMarked w = false := (he w).trans (State.takeEntry_isMarked_self u w)
    refine ⟨s.finish e, hx, ?_, ?_, ?_, ?_, ?_⟩
    · exact (State.finish_isMarked_of_reportValue hr w).trans hself
    · exact State.not_mem_finish_queue hr (by simp [hq]) hself
    · intro v hv
      calc (s.finish e).isMarked v
          = e.isMarked v := State.finish_isMarked_of_reportValue hr v
        _ = u.isMarked v := (he v).trans (State.takeEntry_isMarked_ne u hv)
        _ = s.isMarked v := State.isMarked_congr rfl rfl v
    · have hpre := State.finish_queue_prefix s e
      rwa [hq] at hpre
    · rw [State.finish_qe]
      exact State.finish_freePort_sameAs s (State.takeEntry_same u w)
  · intro hm ht
    rw [State.performAccess_handedToNone hm ht] at hx
    have hr : ∀ o, reportValue s o = reportValue u.freePort o := fun o => rfl
    exact ⟨s.finish u.freePort, hx, State.finish_dirty_of_reportValue hr, State.finish_queue_prefix s u.freePort,
      State.finish_freePort_sameAs s (SameButMarks.refl u)⟩

/-! ### Anomalies (R33 to R36, R38, R189) -/

/-- A write that its owner can only count: a LAST write that is no capture, a SIZE or CLOSE write on an UNUSED slot, or a one-byte
write of such a field or of the command word. -/
def AnomalousWrite (s : State) (a : Addr) (d : Word) (lanes : Lanes) : Prop :=
  (∃ w n, target s a = .quote w n .last ∧
    (lanes ≠ .both ∨ (s.slot n).state ≠ .listed ∨ s.cs.session ≠ .opened ∨ d = 0)) ∨
  (∃ w n, target s a = .quote w n .size ∧ (lanes ≠ .both ∨ (s.slot n).state = .unused)) ∨
  (∃ w n, target s a = .quote w n .close ∧ (lanes ≠ .both ∨ (s.slot n).state = .unused)) ∨
  (target s a = .command ∧ lanes ≠ .both)

/-- `t` is `s` with memory `m` and one anomaly more: the count raised, saturating, its report word dirty when it rose, and ANOM set
(R38). -/
structure CountsAnomaly (s : State) (m : Memory) (t : State) : Prop where
  dirty : s.qe.anomalies ≠ 0xFFFF → 19 ∈ t.cr.dirty
  counted : SameButMarks { s with
    mem := m
    qe := { s.qe with anomalies := countUp s.qe.anomalies }
    cr := { s.cr with flags := s.cr.flags ||| 0x0080 } } t

/-- A LAST write that is no capture is an anomaly (R33). -/
theorem State.lastWrite_anomaly {s : State} {n : Slot} {v : Word}
    (h : (s.slot n).state ≠ .listed ∨ s.cs.session ≠ .opened ∨ v = 0) (w : Fin 8) : s.lastWrite w n v = s.anomaly :=
  if_neg (by tauto)

/-- A SIZE write on an UNUSED slot is an anomaly (R34). -/
theorem State.sizeWrite_unused {s : State} {n : Slot} (h : (s.slot n).state = .unused) (v : Word) :
    s.sizeWrite n v = s.anomaly := if_pos h

/-- A SIZE write on a used slot sets the pending size (R34). -/
theorem State.sizeWrite_used {s : State} {n : Slot} (h : (s.slot n).state ≠ .unused) (v : Word) :
    s.sizeWrite n v = s.setPendingSize n (if v = 0 then none else some v) := if_neg h

/-- A CLOSE write on an UNUSED slot is an anomaly (R35). -/
theorem State.closeWrite_unused {s : State} {n : Slot} (h : (s.slot n).state = .unused) (v : Word) :
    s.closeWrite n v = s.anomaly := if_pos h

/-- A word that an anomalous write names has no mark. -/
theorem AnomalousWrite.sideWordAt_eq_none {s : State} {a : Addr} {d : Word} {lanes : Lanes} (h : AnomalousWrite s a d lanes) :
    sideWordAt s a = none := by
  obtain ⟨w, n, ht, _⟩ | ⟨w, n, ht, _⟩ | ⟨w, n, ht, _⟩ | ⟨ht, _⟩ := h <;> simp [sideWordAt, ht]

/-- The owner of the word an anomalous write names counts it, and does nothing else. -/
theorem AnomalousWrite.handWrite_eq {s : State} {a : Addr} {d : Word} {lanes : Lanes} (h : AnomalousWrite s a d lanes)
    (m : Memory) : (s.setMem m).handWrite a d lanes = (s.setMem m).anomaly := by
  obtain ⟨w, n, ht, h⟩ | ⟨w, n, ht, h⟩ | ⟨w, n, ht, h⟩ | ⟨ht, h⟩ := h
  · exact (State.handWrite_quote ht m d lanes).trans
      (ite_eq_right_iff.2 fun hb => State.lastWrite_anomaly (s := s.setMem m) (h.resolve_left (· hb)) w)
  · exact (State.handWrite_quote ht m d lanes).trans
      (ite_eq_right_iff.2 fun hb => State.sizeWrite_unused (s := s.setMem m) (h.resolve_left (· hb)) d)
  · exact (State.handWrite_quote ht m d lanes).trans
      (ite_eq_right_iff.2 fun hb => State.closeWrite_unused (s := s.setMem m) (h.resolve_left (· hb)) d)
  · rw [State.handWrite_command ht, if_neg h]

/-- An event whose effect is to take memory and count an anomaly. -/
theorem countsAnomaly_finish (s : State) (m : Memory) : CountsAnomaly s m (s.finish (s.setMem m).anomaly.freePort) := by
  constructor
  · intro hne
    exact State.mem_finish_of_ne (by decide) (countUp_ne _ hne)
  · exact State.finish_freePort_sameAs s (SameButMarks.refl _)

/-- An anomalous write presented to a free port is granted and counted. -/
theorem AnomalousWrite.exec_counts {s : State} {a : Addr} {d : Word} {lanes : Lanes} (h : AnomalousWrite s a d lanes) {c : Instr}
    (hc : accessOf s c = some (.write a d lanes)) (hn : ∀ wait, c ≠ .arbitrationWait wait) (hp : PortFree s) :
    ∃ t, exec c s = .next t ∧ CountsAnomaly s (s.mem.writeWord a.toNat d lanes) t := by
  have hx := exec_write hc hn hp
  rw [State.performAccess_write s a d lanes h.sideWordAt_eq_none, h.handWrite_eq] at hx
  exact ⟨_, hx, countsAnomaly_finish s _⟩

/-- The count rises by one, held to 65535 (R38). -/
theorem CountsAnomaly.anomalies_toNat {s t : State} {m : Memory} (h : CountsAnomaly s m t) :
    t.qe.anomalies.toNat = min 65535 (s.qe.anomalies.toNat + 1) := by
  rw [h.counted.qe]
  exact countUp_toNat _

/-- What else an anomaly leaves, told by the count it left. -/
theorem CountsAnomaly.same {s t : State} {m : Memory} (h : CountsAnomaly s m t) :
    SameButMarks { s with
      mem := m
      qe := { s.qe with anomalies := t.qe.anomalies }
      cr := { s.cr with flags := s.cr.flags ||| 0x0080 } } t := by
  rw [h.counted.qe]
  exact h.counted

/-- No half is both lanes. -/
theorem half_lanes_ne_both (half : Half) : half.lanes ≠ .both := by cases half <;> nofun

/-- A one-byte write of a LAST, SIZE or CLOSE field is anomalous, whatever the slot and the session (R36). -/
theorem anomalousWrite_partial {s : State} {a : Addr} {w : Fin 8} {n : Slot} {f : QuoteField} (ht : target s a = .quote w n f)
    (hf : f = .last ∨ f = .size ∨ f = .close) (d : Word) (half : Half) : AnomalousWrite s a d half.lanes := by
  obtain rfl | rfl | rfl := hf
  · exact .inl ⟨w, n, ht, .inl (half_lanes_ne_both half)⟩
  · exact .inr (.inl ⟨w, n, ht, .inl (half_lanes_ne_both half)⟩)
  · exact .inr (.inr (.inl ⟨w, n, ht, .inl (half_lanes_ne_both half)⟩))

/-- Settles O25: each of the writes is an `AnomalousWrite`, and every one of those is granted and counted in the same way. -/
theorem anomaliesAreCounted : Obligations.AnomaliesAreCounted := by
  refine ⟨?_, ?_, ?_⟩
  · intro c s a d lanes hc hn hp h
    obtain ⟨t, hx, ht⟩ := AnomalousWrite.exec_counts h hc hn hp
    exact ⟨t, hx, ht.anomalies_toNat, ht.dirty, ht.same⟩
  · intro s a d half w n f hp ht hf
    obtain ⟨t, hx, _, hs⟩ := (anomalousWrite_partial ht hf d half).exec_counts (c := .partialWrite a d half) rfl nofun hp
    have hq := hs.qe
    exact ⟨t, hx, by rw [hq], by rw [hq], by rw [hq], hs.cs, hs.mem, by rw [hq], by rw [hs.cr]⟩
  · intro s d half hp
    have ha : AnomalousWrite s (setupAddr s 0) d half.lanes := .inr (.inr (.inr ⟨target_command s, half_lanes_ne_both half⟩))
    obtain ⟨t, hx, _, hs⟩ := ha.exec_counts (c := .commandWordPartial d half) rfl nofun hp
    have hm := hs.mem
    rw [setupAddr_zero] at hm
    exact ⟨t, hx, by rw [hs.cr], hm, hs.qe, by rw [hs.cr]⟩

/-! ### The SIZE field (R34) -/

/-- Settles O26: on a used slot the write reaches `State.sizeWrite_used`, on an UNUSED one it is anomalous. -/
theorem sizeWriteSetsPendingSize : Obligations.SizeWriteSetsPendingSize := by
  intro s a v w n hp ht
  constructor
  · intro hu
    let u := s.setMem (s.mem.writeWord a.toNat v .both)
    have hx := exec_write (c := .sizeWrite a v) rfl nofun hp
    have hw : sideWordAt s a = none := by simp [sideWordAt, ht]
    have he : u.quoteWrite w n v .both .size = u.setPendingSize n (if v = 0 then none else some v) :=
      State.sizeWrite_used (s := u) hu v
    rw [State.performAccess_write s a v .both hw, State.handWrite_quote ht, he] at hx
    exact ⟨_, hx, State.finish_freePort_sameAs s (SameButMarks.refl _)⟩
  · intro hu
    have ha : AnomalousWrite s a v .both := .inr (.inl ⟨w, n, ht, .inr hu⟩)
    obtain ⟨t, hx, hc⟩ := ha.exec_counts (c := .sizeWrite a v) rfl nofun hp
    exact ⟨t, hx, hc.anomalies_toNat, hc.same⟩

end Sys2Proof.Machine
end

