-- ==== Sys2Proof/Proofs/StatusText.lean ====
section
/-!
PROOFS. STATUS TEXT: the text its parameters hold, the terminals its operand names, and what its taking leaves (chapter 8).
-/

namespace Sys2Proof.Machine

/-! ### A command DONE in the event of its write (R191) -/

/-- A DONE command adds COMMAND STATUS and CMD to what its effect left (R191). -/
theorem done_finish (s b : State) (opcode : Byte) :
    SameButMarks (answered b opcode .done .none) (s.finish (b.cmdDone opcode).freePort) ∧
      8 ∈ (s.finish (b.cmdDone opcode).freePort).cr.dirty :=
  ⟨State.finish_freePort_sameAs s (State.setStatus_same b opcode .done .none),
    State.mem_finish_of_mem (State.setStatus_dirty b opcode .done .none)⟩

/-- What the effect of a DONE command left of a terminal's record stands after the event. -/
theorem done_finish_term (s b : State) (opcode : Byte) (u : TermId) :
    (s.finish (b.cmdDone opcode).freePort).term u = b.term u := by
  simp [State.term]

/-! ### The status text (R168) -/

/-- The status text is that of the parameter words, in order. -/
theorem statusChars_shadows (s : State) :
    statusChars s.cr.shadows =
      ([s.param 0, s.param 1, s.param 2, s.param 3].flatMap (fun w => [hiByte w, loByte w])).map boardChar := by
  have hlist : s.cr.shadows.toList = [s.param 0, s.param 1, s.param 2, s.param 3] := by
    apply List.ext_getElem
    · simp
    · intro i hi _
      have hi4 : i < 4 := by simpa using hi
      obtain rfl | rfl | rfl | rfl : i = 0 ∨ i = 1 ∨ i = 2 ∨ i = 3 := by omega
      all_goals rfl
  rw [statusChars, hlist]

/-- A record given a status text has line 0 joined to its dirty set. -/
theorem Terminal.mem_setStatus_dirty (r : Terminal) (text : Text) (line : Nat) :
    line ∈ (r.setStatus text).dirty ↔ line ∈ r.dirty ∨ line = 0 :=
  (mem_join line 0 r.dirty).trans or_comm

/-- A record given a status text changes in the text and the dirty set alone. -/
theorem Terminal.setStatus_eq (r : Terminal) (text : Text) :
    r.setStatus text = { r with statusText := text, dirty := (r.setStatus text).dirty } := rfl

/-! ### The operand (R168) -/

theorem State.cmdStatusText_named (s : State) {x : Byte} {u : TermId} (h : x.toNat = u.val) :
    s.cmdStatusText x = (s.setTerm u ((s.term u).setStatus (statusChars s.cr.shadows))).cmdDone 0x0C := by
  rw [State.cmdStatusText, operandTerm_some x u h]

theorem State.cmdStatusText_all (s : State) :
    s.cmdStatusText 0xFF = (s.setPt (s.pt.setAllStatus (statusChars s.cr.shadows))).cmdDone 0x0C := by
  rw [State.cmdStatusText, operandTerm_none 0xFF (by decide)]
  rfl

theorem State.cmdStatusText_range (s : State) {x : Byte} (h : 16 ≤ x.toNat) (hx : x ≠ 0xFF) :
    s.cmdStatusText x = s.cmdRefused 0x0C .range := by
  rw [State.cmdStatusText, operandTerm_none x h]
  exact if_neg hx

/-! ### The command (R168) -/

/-- PT takes STATUS TEXT in the event that writes the command word (R189). -/
theorem exec_statusText {s : State} (x : Byte) (h : TakesCommands s) :
    exec (.statusText x) s = .next (s.finish ((withCommandWord s 0x0C x).cmdStatusText x).freePort) :=
  congrArg Host.Outcome.next (State.giveCommand_owner s 0x0C x h rfl)

/-- The named terminal alone takes the text. -/
theorem statusText_named {s : State} {x : Byte} {u : TermId} (h : TakesCommands s) (hu : x.toNat = u.val) :
    ∃ t, exec (.statusText x) s = .next t ∧ 8 ∈ t.cr.dirty ∧
      t.term u = (s.term u).setStatus (statusChars s.cr.shadows) ∧
      SameButMarks (answered ((withCommandWord s 0x0C x).setTerm u ((s.term u).setStatus (statusChars s.cr.shadows)))
        0x0C .done .none) t := by
  have hx := exec_statusText x h
  rw [State.cmdStatusText_named _ hu] at hx
  obtain ⟨hsame, hdirty⟩ := done_finish s _ 0x0C
  exact ⟨_, hx, hdirty, (done_finish_term s _ 0x0C u).trans (vget_vset_self _ _ _), hsame⟩

/-- The operand 0FFH gives every terminal the text. -/
theorem statusText_all {s : State} (h : TakesCommands s) :
    ∃ t, exec (.statusText 0xFF) s = .next t ∧ 8 ∈ t.cr.dirty ∧
      (∀ u, t.term u = (s.term u).setStatus (statusChars s.cr.shadows)) ∧
      SameButMarks (answered ((withCommandWord s 0x0C 0xFF).setPt (s.pt.setAllStatus (statusChars s.cr.shadows)))
        0x0C .done .none) t := by
  have hx := exec_statusText 0xFF h
  rw [State.cmdStatusText_all] at hx
  obtain ⟨hsame, hdirty⟩ := done_finish s _ 0x0C
  exact ⟨_, hx, hdirty, fun u => (done_finish_term s _ 0x0C u).trans (vget_vmap _ _ _), hsame⟩

/-- An operand of 16 to 0FEH is refused RANGE. -/
theorem statusText_range {s : State} {x : Byte} (h : TakesCommands s) (hr : 16 ≤ x.toNat) (hx : x ≠ 0xFF) :
    ∃ t, exec (.statusText x) s = .next t ∧ RefusedWith s 0x0C x .range t :=
  ⟨_, by rw [exec_statusText x h, State.cmdStatusText_range _ hr hx], refusedWith_finish s 0x0C x .range⟩

/-- Settles O56: the operand names one terminal, all of them or none, and each record given the text is `Terminal.setStatus`. -/
theorem statusTextIsTaken : Obligations.StatusTextIsTaken := by
  intro s x h
  rw [← statusChars_shadows]
  refine ⟨?_, ?_, statusText_range h⟩
  · intro u hu
    obtain ⟨t, hx, hdirty, hterm, hsame⟩ := statusText_named h hu
    rw [Terminal.setStatus_eq, ← hterm] at hsame
    exact ⟨t, hx, hdirty, fun line => hterm ▸ Terminal.mem_setStatus_dirty _ _ line, hsame⟩
  · rintro rfl
    obtain ⟨t, hx, hdirty, hterm, hsame⟩ := statusText_all h
    have hpt : t.pt = s.pt.setAllStatus (statusChars s.cr.shadows) := hsame.pt
    refine ⟨t, hx, hdirty, fun u => ⟨fun line => ?_, ?_⟩, ?_⟩
    · rw [hterm u]
      exact Terminal.mem_setStatus_dirty _ _ line
    · rw [hterm u]
      exact Terminal.setStatus_eq _ _
    · rw [hpt]
      exact hsame

end Sys2Proof.Machine
end

