-- ==== Sys2Proof/Proofs/Exec.lean ====
section
/-!
PROOFS. What a command does, said once for all 64 rows: a host access is presented, a side access's cycle ends, RESET changes, or an
event of the part is taken whole.
-/

namespace Sys2Proof.Machine

-- Elaborated one after the other, the proofs hold less memory at once.
set_option Elab.async false

/-! ### The four kinds of row -/

/-- What an event of the part does, the marking and the grant at its end apart (R53, R202). A row that is no event of the part does
nothing of its own here. -/
def partEffect : Instr → State → State
  | .loadComplete => State.loadComplete
  | .loadRefused => State.loadRefused
  | .rollSlot => State.rollSlot
  | .sessionDark => State.sessionDark
  | .baseStep => State.baseStep
  | .wholeSecond => State.wholeSecondEvent
  | .wholeMinute => State.wholeMinute
  | .feedGoesStale => State.feedGoesStale
  | .floorLineChange line level => fun x => x.lineChange line level
  | .blinkExpiry => State.blinkExpiry
  | .sweepExpiry => State.sweepExpiry
  | .takeWork l => fun x => x.takeWork l
  | .frameSent l => fun x => x.setLink l (x.link l).frameSent
  | .boardAck l bytes => fun x => if isGoodAck bytes then (x.boardAcked l).sessionDark else x
  | .answerWaitExpiry l => fun x => (x.answerWaitEnds l).sessionDark
  | .probeIntervalExpiry l => fun x => x.probeIntervalEnds l
  | .tapePaceExpiry => fun x => x.tapePace.sessionDark
  | .mailboxMoveIn => State.mailboxMoveIn
  | .turnStart => State.turnStart
  | .terminalFrameSent => fun x => x.setPt x.pt.frameSent
  | .terminalAnswer bytes => fun x => x.terminalAnswer bytes
  | .turnMiss => State.turnMiss
  | .entryKey t code => fun x => if isEntryKeyCode code then x.keyEvent t (.entry code) else x
  | .quoteKey t => fun x => x.keyEvent t .quote
  | .recallKey t => fun x => x.keyEvent t .recall
  | .clearKey t => fun x => x.keyEvent t .clear
  | .sendKey t => fun x => x.keyEvent t .send
  | .watchKey t => fun x => x.keyEvent t .watch
  | .dropKey t => fun x => x.keyEvent t .drop
  | .ackKey t => fun x => x.keyEvent t .ack
  | _ => id

/-- The row that ends the cycle of a side access. -/
def cycleRow : SideAccess → Instr
  | .landing => .landing
  | .textRead => .textLineReadAnswer
  | .loadRead => .loadReadAnswer

/-- What the command `c` is in the state `s`, and what taking it does. -/
inductive CommandIs (s : State) (c : Instr) : Prop
  | resetAssert (landing : Bool) (hc : c = .resetAssert landing)
  | resetRelease (straps levels : BitVec 4) (hc : c = .resetRelease straps levels)
  | behind (acc : HostAccess) (hc : c = .arbitrationWait acc)
  | access (acc : HostAccess) (ha : accessOf s c = some acc) (hn : ∀ wait, c ≠ .arbitrationWait wait)
      (hx : exec c s = .next (s.present acc))
  | cycle (x : SideAccess) (hc : c = cycleRow x) (hx : exec c s = .next (if s.resetPin then s else s.endCycle x))
  | part (ha : accessOf s c = none) (hn : ∀ x, c ≠ cycleRow x) (hr : ∀ b, c ≠ .resetAssert b)
      (hx : exec c s = partEvent (partEffect c) s)

/-- Every command is of one of the kinds. -/
theorem commandIs (s : State) (c : Instr) : CommandIs s c := by
  cases c
  case resetAssert b => exact .resetAssert b rfl
  case resetRelease x y => exact .resetRelease x y rfl
  case arbitrationWait acc => exact .behind acc rfl
  case landing => exact .cycle .landing rfl rfl
  case textLineReadAnswer => exact .cycle .textRead rfl rfl
  case loadReadAnswer => exact .cycle .loadRead rfl rfl
  case capture | sizeWrite | closeWrite | partialWrite | textWrite | bulletinWrite | hostWrite | hostAccessHold | heldRead
      | parameterWrite | commandWordPartial | unknownOpcode | load | roll | openMarket | closeMarket | dark | setClose | halt
      | resume | setClock | watch | unwatch | statusText | repaint | tapeClear | attentionAcknowledge | mailboxSlotRead =>
    exact .access _ rfl (fun _ h => Instr.noConfusion h) rfl
  all_goals exact .part rfl (fun x h => by cases x <;> exact Instr.noConfusion h) (fun _ h => Instr.noConfusion h) rfl

theorem exec_resetRelease (s : State) (straps levels : BitVec 4) :
    exec (.resetRelease straps levels) s = .next (if s.resetPin then s.releaseReset straps levels else s) := rfl

theorem exec_arbitration (s : State) (acc : HostAccess) : exec (.arbitrationWait acc) s = .next (s.presentBehind acc) := rfl

theorem exec_cycleRow (s : State) (x : SideAccess) : exec (cycleRow x) s = .next (if s.resetPin then s else s.endCycle x) := by
  cases x <;> rfl

/-- With RESET released, the row of a side access ends its cycle. -/
theorem exec_endCycle {s : State} (x : SideAccess) (hp : s.resetPin = false) : exec (cycleRow x) s = .next (s.endCycle x) := by
  rw [exec_cycleRow, hp]
  rfl

/-- No row that ends a cycle presents an access. -/
theorem accessOf_cycleRow (s : State) (x : SideAccess) : accessOf s (cycleRow x) = none := by cases x <;> rfl

/-! ### The cycle of a side access (R51, R54, R59) -/

/-- What the end of a side access's cycle does, when that access has the port. -/
def cycleEffect : SideAccess → State → State
  | .landing => State.landHead
  | .textRead => State.textReadAnswered
  | .loadRead => State.loadReadAnswered

/-- The grant of the access that waited for the end of a cycle: behind a read, one that met a full queue waits on (R51, R55). -/
def afterCycle : SideAccess → State → State
  | .landing => State.grantHeld
  | .textRead => State.afterRead
  | .loadRead => State.afterRead

/-- The end of the cycle of the side access that has the port: its effect, then the grant of the access that waited. -/
theorem State.endCycle_eq {s : State} {x : SideAccess} (h : s.bp.port = some x) :
    s.endCycle x = afterCycle x (s.portEvent (cycleEffect x)) := by
  cases x <;> simp [State.endCycle, State.landing, State.textRead, State.loadRead, h, afterCycle, cycleEffect]

/-- With no access held the grant grants none. -/
theorem afterCycle_none {s : State} (x : SideAccess) (h : s.bp.held = none) : afterCycle x s = s := by
  cases x <;> simp [afterCycle, h]

/-- The end of a cycle grants the access held or leaves the state as the cycle left it. -/
theorem afterCycle_cases (x : SideAccess) (s : State) : afterCycle x s = s.grantHeld ∨ afterCycle x s = s := by
  cases x
  · exact .inl rfl
  all_goals
    simp only [afterCycle, State.afterRead]
    split
    · exact .inr rfl
    · exact .inl rfl

/-! ### Side accesses leave the held access held -/

@[simp] theorem State.clearMark_held (s : State) (w : SideWord) : (s.clearMark w).bp.held = s.bp.held := by rw [State.clearMark_bp]

theorem State.landHead_held (s : State) : s.landHead.bp.held = s.bp.held := by
  unfold State.landHead
  split
  · rfl
  · simp only [State.clearMark_held]
    split <;> rfl

theorem State.textReadAnswered_bp (s : State) : s.textReadAnswered.bp = s.bp := by
  unfold State.textReadAnswered
  split
  · rfl
  · simp only [State.setBc_bp]
    split
    · split <;> rfl
    · rfl

/-- A word that a LOAD takes changes its run, and in the DIRECTORY phase a slot. -/
theorem State.takeLoadWord_cases (s : State) (run : LoadRun) (w : Word) :
    s.takeLoadWord run w = s ∨ (∃ r, s.takeLoadWord run w = s.setRun r) ∨
      ∃ k r, s.takeLoadWord run w = (s.setSlot (Fin.ofNat 256 run.entry) k).setRun r := by
  have goes : ∀ {t r}, t = s.setRun r → t = s ∨ (∃ r, t = s.setRun r) ∨
      ∃ k r, t = (s.setSlot (Fin.ofNat 256 run.entry) k).setRun r := fun h => .inr (.inl ⟨_, h⟩)
  unfold State.takeLoadWord
  split
  · unfold State.takeConfigWord
    simp only
    split
    · exact goes rfl
    · split <;> exact goes rfl
  · unfold State.takeDirectoryWord
    split
    · simp only
      split
      · exact goes rfl
      · exact .inr (.inr ⟨_, _, rfl⟩)
    · exact goes rfl
  · unfold State.takeRowMapWord
    split <;> exact goes rfl
  · unfold State.takePlacementWord
    split
    · split <;> exact goes rfl
    · exact goes rfl
  · exact .inl rfl
  · exact .inl rfl

theorem State.takeLoadWord_bp (s : State) (run : LoadRun) (w : Word) : (s.takeLoadWord run w).bp = s.bp := by
  obtain h | ⟨r, h⟩ | ⟨k, r, h⟩ := s.takeLoadWord_cases run w <;> rw [h] <;> rfl

/-- A LOAD that ends refused changes the windows alone of the Bus Path. -/
theorem State.loadRefused_bp (s : State) : s.loadRefused.bp = { s.bp with windows := s.loadRefused.bp.windows } := by
  unfold State.loadRefused
  split
  · split <;> rfl
  · rfl
  · rfl

/-- A LOAD that completes changes the windows alone of the Bus Path. -/
theorem State.loadComplete_bp (s : State) : s.loadComplete.bp = { s.bp with windows := s.loadComplete.bp.windows } := by
  unfold State.loadComplete
  split
  · split
    · simp only [State.cmdDone_bp, State.setCr_bp]
      rfl
    · rfl
  · rfl
  · rfl

theorem State.loadReadAnswered_bp (s : State) :
    s.loadReadAnswered.bp = { s.bp with windows := s.loadReadAnswered.bp.windows } := by
  unfold State.loadReadAnswered
  split
  · split
    · rw [State.loadComplete_bp, State.loadRefused_bp, State.takeLoadWord_bp]
    · rfl
  · rfl
  · rfl

/-- The end of a side access's cycle leaves the held access held. -/
theorem cycleEffect_held (x : SideAccess) (s : State) : (cycleEffect x s).bp.held = s.bp.held := by
  cases x
  · exact s.landHead_held
  · exact congrArg BusPath.held s.textReadAnswered_bp
  · show s.loadReadAnswered.bp.held = s.bp.held
    rw [State.loadReadAnswered_bp]

/-! ### A command that is one event -/

/-- What the one event of a command leaves before its end: `u` in the state `s` by command `c`. -/
inductive Effect (s : State) (c : Instr) : State → Prop
  | part (ha : accessOf s c = none) (hn : ∀ x, c ≠ cycleRow x) : Effect s c (partEffect c s)
  | cycle (x : SideAccess) (hc : c = cycleRow x) (hp : s.bp.port = some x) : Effect s c (cycleEffect x s).freePort
  | hold (acc : HostAccess) (cause : HoldCause) (ha : accessOf s c = some acc) :
      Effect s c (s.setHeld (some ⟨acc, cause⟩)).freePort
  | behind (acc : HostAccess) (cause : HoldCause) (ha : accessOf s c = some acc) : Effect s c (s.setHeld (some ⟨acc, cause⟩))
  | access (acc : HostAccess) (ha : accessOf s c = some acc) : Effect s c (State.performAccess acc s).freePort

/-- An access admitted to a free port is held or granted, in one event. -/
theorem Effect.of_admitAccess {s : State} {c : Instr} {acc : HostAccess} (ha : accessOf s c = some acc) :
    ∃ u, Effect s c u ∧ s.admitAccess acc = s.finish u := by
  unfold State.admitAccess
  split
  · exact ⟨_, .hold acc _ ha, rfl⟩
  · split
    · exact ⟨_, .hold acc _ ha, rfl⟩
    · exact ⟨_, .access acc ha, rfl⟩

/-- With RESET released, a command other than RESET_ASSERT that finds no access to complete first is one event, or changes nothing. -/
theorem exec_single {s t : State} {c : Instr} (hp : s.resetPin = false)
    (hh : s.bp.held = none ∨ (accessOf s c = none ∧ ∀ x, c ≠ cycleRow x)) (hr : ∀ b, c ≠ .resetAssert b)
    (hx : exec c s = .next t) : t = s ∨ ∃ u, Effect s c u ∧ t = s.finish u := by
  cases commandIs s c with
  | resetAssert b hc => exact absurd hc (hr b)
  | resetRelease x y hc =>
    subst hc
    left
    rw [exec_resetRelease, hp] at hx
    exact (Host.Outcome.next.inj hx).symm
  | behind acc hc =>
    subst hc
    right
    have hn : s.bp.held = none := hh.resolve_right (fun h => (by cases h.1))
    have e : t = s.admitBehind acc := by
      rw [exec_arbitration] at hx
      simpa [State.presentBehind, hp, State.finishHeld_none s hn] using hx.symm
    subst e
    unfold State.admitBehind
    split
    · exact ⟨_, .behind acc _ rfl, rfl⟩
    · exact ⟨_, .behind acc _ rfl, rfl⟩
    · exact Effect.of_admitAccess rfl
  | access acc ha hn hx' =>
    right
    have hn : s.bp.held = none := hh.resolve_right (fun h => by simp [ha] at h)
    have e : t = s.admitAccess acc := by
      simpa [hx', State.present, hp, State.finishHeld_none s hn] using hx.symm
    subst e
    exact Effect.of_admitAccess ha
  | cycle x hc hx' =>
    have hn : s.bp.held = none := hh.resolve_right (fun h => h.2 x hc)
    have e : t = s.endCycle x := by simpa [hx', hp] using hx.symm
    subst e
    by_cases hpx : s.bp.port = some x
    · right
      refine ⟨_, .cycle x hc hpx, ?_⟩
      rw [State.endCycle_eq hpx, afterCycle_none]
      · rfl
      · rw [State.portEvent_eq, State.finish_held, State.freePort_held, cycleEffect_held, hn]
    · exact .inl (State.endCycle_other s x hpx)
  | part ha hn hr hx' =>
    right
    refine ⟨_, .part ha hn, ?_⟩
    rw [hx', partEvent_next _ _ hp] at hx
    exact (Host.Outcome.next.inj hx).symm

end Sys2Proof.Machine
end

