-- ==== Sys2Proof/Proofs/Keeps.lean ====
section
/-!
PROOFS. What it is for a change of state to keep every invariant of the model, and the changes inside one event that do: a relation
that composes, so that each operation is shown to keep the invariants from those it is made of.
-/

namespace Sys2Proof.Machine

-- A proof that a field or a hypothesis fills in by default waits for all before it: elaborated at once, each would hold a thread.
set_option Elab.async false

/-! ### The blocks at rest (R83, R106, R128, R152) -/

/-- The boards in their reset condition but for the frames an accepted LOAD found in hand. -/
def BoardController.Resting (b : BoardController) : Prop :=
  b = { BoardController.reset with links := b.links } ∧ ∀ l, (vget b.links l).Idle

/-- The tape in its reset condition but for the character going out. -/
def TapeController.Resting (t : TapeController) : Prop := t = { TapeController.reset with charOut := t.charOut }

/-- The terminals in their reset condition but for a turn that an accepted LOAD overtook. -/
def TerminalController.Resting (p : TerminalController) : Prop :=
  p = { TerminalController.reset with turn := p.turn, frameOut := p.frameOut } ∧ ∀ u, p.turn = some u → u.discard = true

/-- The boards, the tape and the terminals rest. -/
structure BlocksRest (s : State) : Prop where
  board : s.bc.Resting
  tape : s.tc.Resting
  loop : s.pt.Resting

theorem idleOutsideReady_iff (s : State) :
    IdleOutsideReady s ↔ (s.isReady = false → s.bp.windows = [] ∧ BlocksRest s) := by
  constructor
  · intro h hr
    obtain ⟨hw, hb, hl, ht, hp, hu⟩ := h hr
    exact ⟨hw, ⟨hb, hl⟩, ht, ⟨hp, hu⟩⟩
  · intro h hr
    obtain ⟨hw, ⟨hb, hl⟩, ht, ⟨hp, hu⟩⟩ := h hr
    exact ⟨hw, hb, hl, ht, hp, hu⟩

theorem TerminalController.Resting.keyQueue {p : TerminalController} (h : p.Resting) : p.keyQueue = [] := by rw [h.1]; rfl

theorem TapeController.Resting.timer {t : TapeController} (h : t.Resting) : t.timerRunning = false := by rw [h]; rfl

/-! ### A change that keeps every invariant -/

/-- The change from `s` to `t` keeps each invariant of the model. `g` is what is known of the state in which the command was taken: it
stands for `ModesAgree` and `IdleOutsideReady` there. -/
structure Keeps (g : Prop) (s t : State) : Prop where
  pin : t.resetPin = s.resetPin := by rfl
  mem : MemoryCanonical s → MemoryCanonical t := by exact id
  clock : ClockInRange s → ClockInRange t := by exact id
  anchor : AnchorFits s → AnchorFits t := by exact id
  modes : ModesAgree s → ModesAgree t := by exact id
  mask : MaskClearOutsideReady s → MaskClearOutsideReady t := by exact id
  idle : g → ModesAgree s → IdleOutsideReady s → IdleOutsideReady t := by exact fun _ _ h => h
  caps : CapacitiesKept s → CapacitiesKept t := by exact id
  sets : SetsOrdered s → SetsOrdered t := by exact id
  queues : RefreshQueuesDistinct s → RefreshQueuesDistinct t := by exact id
  blinks : BlinkListsDistinct s → BlinkListsDistinct t := by exact id
  subs : SubscribersAgree s → SubscribersAgree t := by exact id
  named : g → ModesAgree s → IdleOutsideReady s → NamedSlotsListed s → NamedSlotsListed t := by exact fun _ _ _ h => h
  legal : SideQueueLegal s → SideQueueLegal t := by exact id
  marked : g → SideQueueLegal s → SetsOrdered s → EntriesAreMarked s → EntriesAreMarked t := by exact fun _ _ _ h => h

namespace Keeps

theorem refl (g : Prop) (s : State) : Keeps g s s := {}

theorem trans {g : Prop} {s t u : State} (h : Keeps g s t) (k : Keeps g t u) : Keeps g s u where
  pin := k.pin.trans h.pin
  mem := k.mem ∘ h.mem
  clock := k.clock ∘ h.clock
  anchor := k.anchor ∘ h.anchor
  modes := k.modes ∘ h.modes
  mask := k.mask ∘ h.mask
  idle := fun x hs hi => k.idle x (h.modes hs) (h.idle x hs hi)
  caps := k.caps ∘ h.caps
  sets := k.sets ∘ h.sets
  queues := k.queues ∘ h.queues
  blinks := k.blinks ∘ h.blinks
  subs := k.subs ∘ h.subs
  named := fun x hs hi hn => k.named x (h.modes hs) (h.idle x hs hi) (h.named x hs hi hn)
  legal := k.legal ∘ h.legal
  marked := fun x hl ho he => k.marked x (h.legal hl) (h.sets ho) (h.marked x hl ho he)

end Keeps

/-! ### A quiet change: memory, the Bus Path, the modes and the marks stand -/

/-- A slot is LISTED or HALTED. -/
def State.Used (s : State) (n : Slot) : Prop := (s.slot n).state ≠ .unused

/-- The slots that a terminal's watch list, recall stack or response names. -/
def Terminal.Names (r : Terminal) (n : Slot) : Prop :=
  r.Watches n ∨ n ∈ r.recallStack ∨ r.response = .quote n ∨ r.response = .message (.watching n)

/-- The change from `s` to `t` leaves memory, the Bus Path, the part state, the session, the running command and the mask as they are and
takes no mark, and it keeps the invariants of the blocks. -/
structure Quiet (g : Prop) (s t : State) : Prop where
  pin : t.resetPin = s.resetPin := by rfl
  mem : t.mem = s.mem := by rfl
  bp : t.bp = s.bp := by rfl
  part : t.cr.part = s.cr.part := by rfl
  running : t.cr.running = s.cr.running := by rfl
  mask : t.cr.mask = s.cr.mask := by rfl
  session : t.cs.session = s.cs.session := by rfl
  roll : t.cs.rollNext.isSome = s.cs.rollNext.isSome := by rfl
  marks : ∀ w, s.isMarked w = true → t.isMarked w = true := by exact fun _ h => h
  due : g → s.isReady = false → s.qe.due = [] → t.qe.due = [] := by exact fun _ _ h => h
  clock : ClockInRange s → ClockInRange t := by exact id
  rest : g → s.isReady = false → BlocksRest s → BlocksRest t := by exact fun _ _ h => ⟨h.1, h.2, h.3⟩
  caps : CapacitiesKept s → CapacitiesKept t := by exact id
  sets : SetsOrdered s → SetsOrdered t := by exact id
  queues : RefreshQueuesDistinct s → RefreshQueuesDistinct t := by exact id
  blinks : BlinkListsDistinct s → BlinkListsDistinct t := by exact id
  subs : SubscribersAgree s → SubscribersAgree t := by exact id
  named : NamedSlotsListed s → NamedSlotsListed t := by exact id

namespace Quiet

theorem refl (g : Prop) (s : State) : Quiet g s s := {}

theorem isReady {g : Prop} {s t : State} (h : Quiet g s t) : t.isReady = s.isReady := by
  unfold State.isReady
  rw [h.part]

theorem trans {g : Prop} {s t u : State} (h : Quiet g s t) (k : Quiet g t u) : Quiet g s u where
  pin := k.pin.trans h.pin
  mem := k.mem.trans h.mem
  bp := k.bp.trans h.bp
  part := k.part.trans h.part
  running := k.running.trans h.running
  mask := k.mask.trans h.mask
  session := k.session.trans h.session
  roll := k.roll.trans h.roll
  marks := fun w => k.marks w ∘ h.marks w
  due := fun x hr hd => k.due x (h.isReady.trans hr) (h.due x hr hd)
  clock := k.clock ∘ h.clock
  rest := fun x hr hb => k.rest x (h.isReady.trans hr) (h.rest x hr hb)
  caps := k.caps ∘ h.caps
  sets := k.sets ∘ h.sets
  queues := k.queues ∘ h.queues
  blinks := k.blinks ∘ h.blinks
  subs := k.subs ∘ h.subs
  named := k.named ∘ h.named

/-- The modes agree as before. -/
theorem modesAgree {g : Prop} {s t : State} (h : Quiet g s t) (hs : ModesAgree s) : ModesAgree t := by
  unfold ModesAgree at *
  rw [h.part, h.running, h.session, h.roll, h.isReady]
  exact hs

/-- A quiet change keeps every invariant. -/
theorem keeps {g : Prop} {s t : State} (h : Quiet g s t) : Keeps g s t where
  pin := h.pin
  mem := fun hs => by rwa [MemoryCanonical, h.mem]
  clock := h.clock
  anchor := fun hs => by rwa [AnchorFits, h.bp]
  modes := h.modesAgree
  mask := fun hs => by rwa [MaskClearOutsideReady, h.isReady, h.mask]
  idle := fun x _ hi => by
    rw [idleOutsideReady_iff] at hi ⊢
    intro hr
    rw [h.isReady] at hr
    rw [h.bp]
    exact ⟨(hi hr).1, h.rest x hr (hi hr).2⟩
  caps := h.caps
  sets := h.sets
  queues := h.queues
  blinks := h.blinks
  subs := h.subs
  named := fun _ _ _ => h.named
  legal := fun hs => by rwa [SideQueueLegal, h.bp]
  marked := fun x _ _ he => by
    refine ⟨fun w hw => h.marks w (he.1 w (by rwa [h.bp] at hw)), fun hr => ?_⟩
    rw [h.isReady] at hr
    exact h.due x hr (he.2 hr)

end Quiet

/-! ### Ordered sets -/

/-- A set by rising key keeps its order when a member joins. -/
theorem insertBy_sorted {α : Type} (key : α → Nat) (x : α) (l : List α) (h : l.Pairwise (fun a b => key a < key b)) :
    (insertBy key x l).Pairwise (fun a b => key a < key b) := by
  induction l with
  | nil => simp [insertBy]
  | cons y ys ih =>
    obtain ⟨hy, hys⟩ := List.pairwise_cons.1 h
    unfold insertBy
    split
    · rename_i hlt
      refine List.pairwise_cons.2 ⟨fun b hb => ?_, h⟩
      rcases List.mem_cons.1 hb with rfl | hb
      · exact hlt
      · exact hlt.trans (hy b hb)
    · split
      · exact h
      · refine List.pairwise_cons.2 ⟨fun b hb => ?_, ih hys⟩
        rcases mem_insertBy key x b ys hb with rfl | hb
        · omega
        · exact hy b hb

theorem join_sorted (n : Nat) {l : List Nat} (h : l.Pairwise (· < ·)) : (join n l).Pairwise (· < ·) := insertBy_sorted id n l h

theorem leave_sorted {α : Type} [DecidableEq α] {R : α → α → Prop} (x : α) {l : List α} (h : l.Pairwise R) :
    (leave x l).Pairwise R := h.filter _

/-- Two numbers with a digit below 6 are in the order of what stands above it, then of the digit. -/
theorem six_mul_add_lt {a b i j : Nat} (hi : i < 6) (hj : j < 6) : 6 * a + i < 6 * b + j ↔ a < b ∨ (a = b ∧ i < j) := by
  have step : ∀ {a b i j : Nat}, i < 6 → a < b → 6 * a + i < 6 * b + j := fun h hab =>
    (Nat.add_lt_add_left h _).trans_le ((Nat.mul_le_mul_left 6 hab).trans (Nat.le_add_right _ _))
  obtain h | rfl | h := Nat.lt_trichotomy a b
  · exact iff_of_true (step hi h) (.inl h)
  · exact Nat.add_lt_add_iff_left.trans ⟨fun h => .inr ⟨rfl, h⟩, fun h => (h.resolve_left (Nat.lt_irrefl a)).2⟩
  · exact iff_of_false (Nat.lt_asymm (step hj h)) fun e => e.elim (Nat.lt_asymm h) fun e => Nat.lt_irrefl b (e.1 ▸ h)

theorem DueMark.key_lt (m n : DueMark) : m.key < n.key ↔ m.slot < n.slot ∨ (m.slot = n.slot ∧ m.field.index < n.field.index) := by
  have hm : m.field.index < 6 := by cases m.field <;> decide
  have hn : n.field.index < 6 := by cases n.field <;> decide
  rw [DueMark.key, DueMark.key, six_mul_add_lt hm hn, Fin.lt_def, Fin.ext_iff]

/-- The order of due marks, by slot and then by field. -/
def DueOrdered (d : List DueMark) : Prop :=
  d.Pairwise (fun m n => m.slot < n.slot ∨ (m.slot = n.slot ∧ m.field.index < n.field.index))

theorem DueOrdered.insert (m : DueMark) {d : List DueMark} (h : DueOrdered d) : DueOrdered (insertBy DueMark.key m d) := by
  have e := insertBy_sorted DueMark.key m d (h.imp (fun {a b} hab => (DueMark.key_lt a b).2 hab))
  exact e.imp (fun {a b} hab => (DueMark.key_lt a b).1 hab)

theorem DueOrdered.foldl_insert (ms : List DueMark) {d : List DueMark} (h : DueOrdered d) :
    DueOrdered (ms.foldl (fun d m => insertBy DueMark.key m d) d) := by
  induction ms generalizing d with
  | nil => exact h
  | cons m ms ih => exact ih (h.insert m)

end Sys2Proof.Machine
end

