-- ==== Sys2Proof/Proofs/Quiet.lean ====
section
/-!
PROOFS. Changes of one block that are quiet, from what they do inside the block: reports, records, tape, boards and terminals.
-/

namespace Sys2Proof.Machine

-- A proof that a field or a hypothesis fills in by default waits for all before it: elaborated at once, each would hold a thread.
set_option Elab.async false

/-! ### CR -/

/-- The dirty marks of `d'` are those of `d` and perhaps more, in order, all of report words. -/
structure DirtyKept (d d' : List Nat) : Prop where
  sub : ∀ o ∈ d, o ∈ d' := by exact fun _ h => h
  ordered : d.Pairwise (· < ·) → d'.Pairwise (· < ·) := by exact id
  report : (∀ o ∈ d, o ∈ reportOffsets) → ∀ o ∈ d', o ∈ reportOffsets := by exact id

theorem DirtyKept.join {o : Nat} (h : o ∈ reportOffsets) (d : List Nat) : DirtyKept d (join o d) where
  sub := fun x hx => (mem_join x o d).2 (.inr hx)
  ordered := join_sorted o
  report := fun hd x hx => ((mem_join x o d).1 hx).elim (fun e => e ▸ h) (hd x)

theorem SetsOrdered.of_cr {s : State} {c : CommandReport} (h : DirtyKept s.cr.dirty c.dirty) (hs : SetsOrdered s) :
    SetsOrdered (s.setCr c) := by
  obtain ⟨hd, hr, hrest⟩ := hs
  exact ⟨h.ordered hd, h.report hr, hrest⟩

namespace Quiet

variable {g : Prop} {s : State}

theorem setCr {c : CommandReport} (hd : DirtyKept s.cr.dirty c.dirty := by exact {}) (hp : c.part = s.cr.part := by rfl)
    (hr : c.running = s.cr.running := by rfl) (hm : c.mask = s.cr.mask := by rfl) : Quiet g s (s.setCr c) where
  part := hp
  running := hr
  mask := hm
  marks := fun w hw => by
    cases w with
    | report o => exact decide_eq_true (hd.sub o (of_decide_eq_true hw))
    | writeBack m => exact hw
  sets := SetsOrdered.of_cr hd

theorem raise (i : Nat) : Quiet g s (s.raise i) := setCr

theorem markDirty {o : Nat} (h : o ∈ reportOffsets) : Quiet g s (s.markDirty o) := setCr (.join h _)

theorem markAllDirty {os : List Nat} (h : ∀ o ∈ os, o ∈ reportOffsets) : Quiet g s (s.markAllDirty os) := by
  induction os generalizing s with
  | nil => exact .refl g s
  | cons o os ih =>
    exact (markDirty (h o (by simp))).trans (ih (s := s.markDirty o) (fun x hx => h x (List.mem_cons_of_mem _ hx)))

theorem setStatus (op : Byte) (out : CmdOutcome) (reason : Reason) : Quiet g s (s.setStatus op out reason) := by
  have h1 : Quiet g s ((s.setCr { s.cr with status := ⟨op, out, reason⟩ }).markDirty 8) :=
    (setCr (g := g) (s := s)).trans (markDirty (by decide))
  unfold State.setStatus
  split
  · exact h1
  · exact h1.trans (raise _)

theorem cmdDone (op : Byte) : Quiet g s (s.cmdDone op) := setStatus op _ _

theorem cmdRefused (op : Byte) (reason : Reason) : Quiet g s (s.cmdRefused op reason) := setStatus op _ _

theorem setFreeDraws (n : Nat) : Quiet g s (s.setFreeDraws n) := {}

theorem parameterTaken (p : Fin 4) (d : Word) (lanes : Lanes) : Quiet g s (s.parameterTaken p d lanes) := setCr

theorem acknowledge (d : Word) (lanes : Lanes) : Quiet g s (s.acknowledge d lanes) := by
  unfold State.acknowledge
  split
  · exact setCr
  · exact refl g s

/-! ### QE -/

/-- A change of QE that keeps each used slot used and loses no due mark. A part outside READY has none. -/
theorem setQe {q : QuoteEngine} (hu : ∀ n, s.Used n → (vget q.slots n).state ≠ .unused := by exact fun _ h => h)
    (hd : ∀ m ∈ s.qe.due, m ∈ q.due := by exact fun _ h => h)
    (ho : DueOrdered s.qe.due → DueOrdered q.due := by exact id)
    (hr : g → s.isReady = false → s.qe.due = [] → q.due = [] := by exact fun _ _ h => h) : Quiet g s (s.setQe q) where
  marks := fun w hw => by
    cases w with
    | report o => exact hw
    | writeBack m => exact decide_eq_true (hd m (of_decide_eq_true hw))
  due := hr
  sets := fun ⟨h1, h2, h3, h4⟩ => ⟨h1, h2, ho h3, h4⟩
  named := fun h u n hn => hu n (h u n hn)

theorem anomaly : Quiet g s s.anomaly := (setQe (g := g) (s := s)).trans (raise _)

theorem setPendingSize (n : Slot) (v : Option Word) : Quiet g s (s.setPendingSize n v) := setQe

theorem setDue (hr : g → s.isReady = true) (ms : List DueMark) : Quiet g s (s.setDue ms) :=
  setQe (hd := fun m hm => (State.mem_setDue s ms m).2 (.inr hm)) (ho := DueOrdered.foldl_insert ms)
    (hr := fun hg hf => by simp [hr hg] at hf)

theorem setSlot {n : Slot} {r : SlotRec} (h : s.Used n → r.state ≠ .unused) : Quiet g s (s.setSlot n r) :=
  setQe (hu := fun m hm => by
    show (vget (vset s.qe.slots n r) m).state ≠ .unused
    rw [vget_vset]
    split
    · rename_i e
      exact h (e ▸ hm)
    · exact hm)

theorem countDown (w : Fin 8) : Quiet g s (s.countDown w) := by
  unfold State.countDown
  simp only
  split
  · exact refl g s
  · split
    · exact (setQe (g := g) (s := s)).trans (raise _)
    · exact setQe

/-! ### CS -/

theorem setCs {c : ClockSession} (hs : c.session = s.cs.session := by rfl)
    (hr : c.rollNext.isSome = s.cs.rollNext.isSome := by rfl)
    (hc : ClockInRange s → c.clock < 864000 ∧ c.trimMagnitude < 32768 ∧ c.trimAccumulator < 1048576 := by exact id) :
    Quiet g s (s.setCs c) where
  session := hs
  roll := hr
  clock := hc

/-! ### TC -/

theorem setTc {t : TapeController} (hq : s.tc.queue.length ≤ 96 → t.queue.length ≤ 96 := by exact id)
    (hr : g → s.isReady = false → s.tc.Resting → t.Resting) : Quiet g s (s.setTc t) where
  rest := fun hg hf ⟨h1, h2, h3⟩ => ⟨h1, hr hg hf h2, h3⟩
  caps := fun ⟨h1, h2⟩ => ⟨hq h1, h2⟩

end Quiet

/-! ### A terminal record -/

/-- A change of a terminal record that keeps its bounds and its watch places, and that names no slot anew but used ones. -/
structure Terminal.Kept (used : Slot → Prop) (r r' : Terminal) : Prop where
  bounded : r.Bounded → r'.Bounded := by exact id
  dirty : r.dirty.Pairwise (· < ·) → r'.dirty.Pairwise (· < ·) := by exact id
  places : ∀ i, (vget r'.watch i).map (·.slot) = (vget r.watch i).map (·.slot) := by exact fun _ => rfl
  stack : ∀ n ∈ r'.recallStack, n ∈ r.recallStack ∨ used n := by exact fun _ h => .inl h
  response : ∀ n, r'.response = .quote n ∨ r'.response = .message (.watching n) →
    r.response = .quote n ∨ r.response = .message (.watching n) ∨ n ∈ r.recallStack ∨ used n :=
      by exact fun _ h => h.elim .inl (.inr ∘ .inl)

theorem Terminal.watches_iff (r : Terminal) (n : Slot) : r.Watches n ↔ ∃ i, (vget r.watch i).map (·.slot) = some n := by
  simp [Terminal.Watches]

namespace Terminal.Kept

variable {used : Slot → Prop}

theorem refl (r : Terminal) : Kept used r r := {}

theorem watches {r r' : Terminal} (h : Kept used r r') (n : Slot) : r'.Watches n ↔ r.Watches n := by
  rw [Terminal.watches_iff, Terminal.watches_iff]
  exact exists_congr (fun i => by rw [h.places i])

theorem names {r r' : Terminal} (h : Kept used r r') (n : Slot) (hn : r'.Names n) : r.Names n ∨ used n := by
  rcases hn with hw | hs | hr | hr
  · exact .inl (.inl ((h.watches n).1 hw))
  · exact (h.stack n hs).imp_left (fun hs => .inr (.inl hs))
  · have := h.response n (.inl hr)
    unfold Terminal.Names
    tauto
  · have := h.response n (.inr hr)
    unfold Terminal.Names
    tauto

theorem trans {r r' r'' : Terminal} (h : Kept used r r') (k : Kept used r' r'') : Kept used r r'' where
  bounded := k.bounded ∘ h.bounded
  dirty := k.dirty ∘ h.dirty
  places := fun i => (k.places i).trans (h.places i)
  stack := fun n hn => (k.stack n hn).elim (h.stack n) .inr
  response := fun n hn => by
    rcases k.response n hn with hr | hr | hr | hr
    · exact h.response n (.inl hr)
    · exact h.response n (.inr hr)
    · exact .inr (.inr (h.stack n hr))
    · exact .inr (.inr (.inr hr))

theorem mark (r : Terminal) (line : Nat) : Kept used r (r.mark line) where
  dirty := join_sorted line

end Terminal.Kept

/-! ### PT -/

/-- A change of PT that keeps the subscriber sets and the watch lists in agreement, and every bound. -/
structure TerminalController.Kept (used : Slot → Prop) (p p' : TerminalController) : Prop where
  queue : p.keyQueue.length ≤ 8 → p'.keyQueue.length ≤ 8 := by exact id
  records : (∀ u, (vget p.terminals u).Bounded) → (∀ r ∈ p.keyQueue, r.text.length ≤ 8) → ∀ r ∈ p'.keyQueue, r.text.length ≤ 8 :=
    by exact fun _ h => h
  bounded : (∀ u, (vget p.terminals u).Bounded) → ∀ u, (vget p'.terminals u).Bounded := by exact id
  dirty : (∀ u, (vget p.terminals u).dirty.Pairwise (· < ·)) → ∀ u, (vget p'.terminals u).dirty.Pairwise (· < ·) := by exact id
  subscribers : (∀ n, (vget p.subscribers n).Pairwise (· < ·)) → ∀ n, (vget p'.subscribers n).Pairwise (· < ·) := by exact id
  agree : ∀ s s' : State, s.pt = p → s'.pt = p' → SubscribersAgree s → SubscribersAgree s'
  names : ∀ u n, (vget p'.terminals u).Names n → (vget p.terminals u).Names n ∨ used n := by exact fun _ _ h => .inl h

theorem SubscribersAgree.congr {s s' : State} (h : ∀ u i, (vget (s'.term u).watch i).map (·.slot) = (vget (s.term u).watch i).map (·.slot))
    (hs : s'.pt.subscribers = s.pt.subscribers) (ha : SubscribersAgree s) : SubscribersAgree s' := by
  obtain ⟨h1, h2⟩ := ha
  constructor
  · intro u i j e f he hf hef
    have hi := h u i
    have hj := h u j
    rw [he] at hi
    rw [hf] at hj
    obtain ⟨e', he', hes⟩ := Option.map_eq_some_iff.1 hi.symm
    obtain ⟨f', hf', hfs⟩ := Option.map_eq_some_iff.1 hj.symm
    exact h1 u i j e' f' he' hf' (hes.trans (hef.trans hfs.symm))
  · intro u n
    rw [hs, h2 u n, Terminal.watches_iff, Terminal.watches_iff]
    exact exists_congr (fun i => by rw [h u i])

namespace TerminalController.Kept

variable {used : Slot → Prop} {p p' : TerminalController}

/-- Every record kept, the sets and the key queue as they were. -/
theorem of_terms (h : ∀ u, (vget p.terminals u).Kept used (vget p'.terminals u)) (hs : p'.subscribers = p.subscribers := by rfl)
    (hq : p.keyQueue.length ≤ 8 → p'.keyQueue.length ≤ 8 := by exact id)
    (hr : (∀ u, (vget p.terminals u).Bounded) → (∀ r ∈ p.keyQueue, r.text.length ≤ 8) → ∀ r ∈ p'.keyQueue, r.text.length ≤ 8 :=
      by exact fun _ h => h) : p.Kept used p' where
  queue := hq
  records := hr
  bounded := fun hb u => (h u).bounded (hb u)
  dirty := fun hd u => (h u).dirty (hd u)
  subscribers := fun hn => by rwa [hs]
  agree := fun s s' e e' => SubscribersAgree.congr
    (fun u i => by simp only [State.term, e, e']; exact (h u).places i) (by rw [e, e', hs])
  names := fun u n => (h u).names n

theorem put (u : TermId) {r : Terminal} (h : (vget p.terminals u).Kept used r) : p.Kept used (p.put u r) :=
  of_terms (fun v => by
    show (vget p.terminals v).Kept used (vget (vset p.terminals u r) v)
    rw [vget_vset]
    split
    · rename_i e
      exact e ▸ h
    · exact .refl _)

theorem trans {p'' : TerminalController} (h : p.Kept used p') (k : p'.Kept used p'') : p.Kept used p'' where
  queue := k.queue ∘ h.queue
  records := fun hb hr => k.records (h.bounded hb) (h.records hb hr)
  bounded := k.bounded ∘ h.bounded
  dirty := k.dirty ∘ h.dirty
  subscribers := k.subscribers ∘ h.subscribers
  agree := fun s s'' e e'' ha =>
    k.agree (s.setPt p') s'' rfl e'' (h.agree s (s.setPt p') e rfl ha)
  names := fun u n hn => (k.names u n hn).elim (h.names u n) .inr

theorem refl (p : TerminalController) : p.Kept used p := of_terms (fun _ => .refl _)

end TerminalController.Kept

namespace Quiet

variable {g : Prop} {s : State}

theorem setPt {p : TerminalController} (h : s.pt.Kept s.Used p) (hr : g → s.isReady = false → s.pt.Resting → p.Resting) :
    Quiet g s (s.setPt p) where
  rest := fun hg hf ⟨h1, h2, h3⟩ => ⟨h1, h2, hr hg hf h3⟩
  caps := fun ⟨h1, h2, h3, h4, h5⟩ => ⟨h1, h.queue h2, h.records h5 h3, h4, h.bounded h5⟩
  sets := fun ⟨h1, h2, h3, h4, h5, h6⟩ => ⟨h1, h2, h3, h4, h.dirty h5, h.subscribers h6⟩
  subs := h.agree s _ rfl rfl
  named := fun hn u n hx => (h.names u n hx).elim (hn u n) id

/-- A change of PT in a part known to be READY. -/
theorem setPt_ready {p : TerminalController} (h : s.pt.Kept s.Used p) (ha : g → s.isReady = true) : Quiet g s (s.setPt p) :=
  setPt h (fun hg hf => by simp [ha hg] at hf)

theorem setTerm {u : TermId} {r : Terminal} (h : (s.term u).Kept s.Used r) (ha : g → s.isReady = true) :
    Quiet g s (s.setTerm u r) :=
  setPt_ready (p := s.pt.put u r) (.put u h) ha

theorem markStatusLines (ha : g → s.isReady = true) : Quiet g s s.markStatusLines :=
  setPt_ready (.of_terms (fun u => by
    show (vget s.pt.terminals u).Kept s.Used (vget (vmap (fun r : Terminal => r.mark 0) s.pt.terminals) u)
    rw [vget_vmap]
    exact .mark _ _)) ha

theorem setTc_ready {t : TapeController} (ha : g → s.isReady = true)
    (hq : s.tc.queue.length ≤ 96 → t.queue.length ≤ 96 := by exact id) : Quiet g s (s.setTc t) :=
  setTc hq (fun hg hf => by simp [ha hg] at hf)

end Quiet

end Sys2Proof.Machine
end

