-- ==== Sys2Proof/Proofs/Boards.lean ====
section
/-!
PROOFS. The operations of the boards keep the bounds and orders of their links, and leave links at rest as they are (chapters 4 and 5).
-/

namespace Sys2Proof.Machine

-- A proof that a field or a hypothesis fills in by default waits for all before it: elaborated at once, each would hold a thread.
set_option Elab.async false

/-! ### A link's refresh queue and blink list -/

/-- The refresh queue of link `l` holds no entry twice, and cells of the link whose row it does not hold. -/
def Link.QueueFits (ps : List Placement) (l : LinkId) (k : Link) : Prop :=
  k.queue.Nodup ∧ ∀ p, RefreshEntry.cell p ∈ k.queue → ∃ q, ps[p]? = some q ∧ q.link = l ∧ RefreshEntry.row q.row ∉ k.queue

/-- The blink list of link `l` holds cells of the link, each once, the least time left first, and none while the link is not ONLINE. -/
def Link.BlinkFits (ps : List Placement) (tenths : Nat) (l : LinkId) (k : Link) : Prop :=
  (k.blink.map BlinkCell.placement).Nodup ∧
  (∀ c ∈ k.blink, c.remaining ≤ tenths ∧ ∃ q, ps[c.placement]? = some q ∧ q.link = l) ∧
  k.blink.Pairwise (fun c d => c.remaining ≤ d.remaining) ∧ (k.state ≠ .online → k.blink = [])

/-- A change of link `l` that keeps its bounds and orders. -/
structure Link.Kept (ps : List Placement) (tenths : Nat) (l : LinkId) (k k' : Link) : Prop where
  bounded : k.Bounded → k'.Bounded := by exact id
  stale : k.stale.Pairwise (· < ·) → k'.stale.Pairwise (· < ·) := by exact id
  queue : k.QueueFits ps l → k'.QueueFits ps l := by exact id
  blink : k.BlinkFits ps tenths l → k'.BlinkFits ps tenths l := by exact id

/-- A change of the boards that keeps the bounds and orders of every link. -/
structure BoardController.Kept (b b' : BoardController) : Prop where
  placements : b'.placements = b.placements := by rfl
  tenths : b'.blinkTenths = b.blinkTenths := by rfl
  link : ∀ l, (vget b.links l).Kept b.placements b.blinkTenths l (vget b'.links l)

namespace Link.Kept

variable {ps : List Placement} {tenths : Nat} {l : LinkId} {k k' k'' : Link}

theorem refl (k : Link) : Kept ps tenths l k k := {}

theorem trans (h : Kept ps tenths l k k') (h' : Kept ps tenths l k' k'') : Kept ps tenths l k k'' where
  bounded := h'.bounded ∘ h.bounded
  stale := h'.stale ∘ h.stale
  queue := h'.queue ∘ h.queue
  blink := h'.blink ∘ h.blink

/-! ### Requests -/

theorem join_stale (k : Link) (r : Nat) : Kept ps tenths l k { k with stale := join r k.stale } where
  stale := join_sorted r

/-- A CELL request for a placement of the link. -/
theorem cellRequest {p : Nat} {q : Placement} (hq : ps[p]? = some q) (hl : q.link = l) (k : Link) :
    Kept ps tenths l k (k.cellRequest p q.row) := by
  unfold Link.cellRequest
  split
  · exact refl k
  split
  · exact refl k
  rename_i howed
  obtain ⟨hp, hrow⟩ := not_or.1 howed
  have hrow' : RefreshEntry.row q.row ∉ k.queue := fun h => hrow (by simp [Link.owed, h])
  split
  · rename_i hlen
    exact {
      bounded := fun ⟨_, h2, h3⟩ => ⟨by simp; omega, h2, h3⟩
      queue := fun ⟨hn, hc⟩ => by
        refine ⟨List.nodup_append.2 ⟨hn, List.nodup_singleton _, ?_⟩, ?_⟩
        · rintro e he _ hs rfl
          exact hp (List.mem_singleton.1 hs ▸ he)
        · intro p' hp'
          simp only [List.mem_append, List.mem_singleton, RefreshEntry.cell.injEq, reduceCtorEq, or_false] at hp' ⊢
          rcases hp' with hp' | rfl
          · exact hc p' hp'
          · exact ⟨q, hq, hl, hrow'⟩ }
  · exact join_stale k q.row

/-- Members of a queue in which a row has taken the place of its cells. -/
theorem mem_placeRow {f : RefreshEntry → Bool} {r : Nat} {es : List RefreshEntry} {e : RefreshEntry}
    (h : e ∈ placeRow f r es) : e = .row r ∨ (e ∈ es ∧ f e = false) := by
  induction es with
  | nil => simp [placeRow] at h
  | cons x xs ih =>
    unfold placeRow at h
    split at h
    · rcases List.mem_cons.1 h with rfl | h
      · exact .inl rfl
      · have := List.mem_filter.1 h
        exact .inr ⟨List.mem_cons_of_mem _ this.1, by simpa using this.2⟩
    · rename_i hx
      rcases List.mem_cons.1 h with rfl | h
      · exact .inr ⟨by simp, by simpa using hx⟩
      · exact (ih h).imp_right (fun ⟨h1, h2⟩ => ⟨List.mem_cons_of_mem _ h1, h2⟩)

theorem placeRow_nodup {f : RefreshEntry → Bool} {r : Nat} {es : List RefreshEntry} (hn : es.Nodup)
    (hr : RefreshEntry.row r ∉ es) : (placeRow f r es).Nodup := by
  induction es with
  | nil => exact List.nodup_nil
  | cons x xs ih =>
    obtain ⟨hx, hxs⟩ := List.nodup_cons.1 hn
    obtain ⟨hrx, hrxs⟩ := not_or.1 (fun h => hr (List.mem_cons.2 h))
    unfold placeRow
    split
    · exact List.nodup_cons.2 ⟨fun h => hrxs (List.mem_filter.1 h).1, hxs.filter _⟩
    · refine List.nodup_cons.2 ⟨fun h => ?_, ih hxs hrxs⟩
      rcases mem_placeRow h with e | ⟨h, _⟩
      · exact hrx e.symm
      · exact hx h

theorem placeRow_length (f : RefreshEntry → Bool) (r : Nat) (es : List RefreshEntry) :
    (placeRow f r es).length ≤ es.length := by
  induction es with
  | nil => exact Nat.le_refl _
  | cons x xs ih =>
    unfold placeRow
    split
    · simpa using List.length_filter_le _ xs
    · simpa using ih

/-- A ROW request. -/
theorem rowRequestOn (b : BoardController) (k : Link) (r : Nat) :
    Kept b.placements tenths l k (b.rowRequestOn k r) := by
  unfold BoardController.rowRequestOn
  split
  · exact refl k
  split
  · exact refl k
  rename_i howed
  have hrow : RefreshEntry.row r ∉ k.queue := fun h => howed (by simp [Link.owed, h])
  have other : ∀ {p q}, b.isCellOf r (.cell p) = false → b.placements[p]? = some q → q.row ≠ r := by
    intro p q hf hq hr
    simp [BoardController.isCellOf, BoardController.rowOf, hq, hr] at hf
  split
  · exact {
      bounded := fun ⟨h1, h2, h3⟩ => ⟨(placeRow_length _ _ _).trans h1, h2, h3⟩
      queue := fun ⟨hn, hc⟩ => by
        refine ⟨placeRow_nodup hn hrow, fun p hp => ?_⟩
        obtain ⟨hp, hf⟩ := (mem_placeRow hp).resolve_left (by rintro ⟨⟩)
        obtain ⟨q, hq, hl, hr⟩ := hc p hp
        refine ⟨q, hq, hl, fun h => ?_⟩
        rcases mem_placeRow h with e | ⟨h, _⟩
        · exact other hf hq (RefreshEntry.row.inj e)
        · exact hr h }
  rename_i hany
  split
  · rename_i hlen
    exact {
      bounded := fun ⟨_, h2, h3⟩ => ⟨by simp; omega, h2, h3⟩
      queue := fun ⟨hn, hc⟩ => by
        refine ⟨List.nodup_append.2 ⟨hn, List.nodup_singleton _, ?_⟩, fun p hp => ?_⟩
        · rintro e he _ hs rfl
          exact hrow (List.mem_singleton.1 hs ▸ he)
        · have hp : RefreshEntry.cell p ∈ k.queue := by simpa using hp
          have hf : b.isCellOf r (.cell p) = false := by
            by_contra h
            exact hany (List.any_eq_true.2 ⟨_, hp, by simpa using h⟩)
          obtain ⟨q, hq, hl, hr⟩ := hc p hp
          refine ⟨q, hq, hl, fun h => ?_⟩
          rcases List.mem_append.1 h with h | h
          · exact hr h
          · exact other hf hq (RefreshEntry.row.inj (List.mem_singleton.1 h)) }
  · exact join_stale k r

/-! ### Blink lists -/

/-- The time of every cell lowered. -/
theorem lowerBlinks (n : Nat) (k : Link) : Kept ps tenths l k (k.lowerBlinks n) where
  bounded := fun ⟨h1, h2, h3⟩ => ⟨h1, by simpa [Link.lowerBlinks] using h2, h3⟩
  blink := fun ⟨hn, hc, hs, ho⟩ => by
    refine ⟨by simpa [Link.lowerBlinks, Function.comp_def, BlinkCell.lower] using hn, fun c hc' => ?_, ?_, fun h => ?_⟩
    · obtain ⟨d, hd, rfl⟩ := List.mem_map.1 hc'
      exact ⟨(Nat.sub_le _ _).trans (hc d hd).1, (hc d hd).2⟩
    · exact List.pairwise_map.2 (hs.imp (fun {c d} h => Nat.sub_le_sub_right h n))
    · exact List.map_eq_nil_iff.2 (ho h)

/-- Some cells leave. -/
theorem filter_blink (f : BlinkCell → Bool) (k : Link) : Kept ps tenths l k { k with blink := k.blink.filter f } where
  bounded := fun ⟨h1, h2, h3⟩ => ⟨h1, (List.length_filter_le _ _).trans h2, h3⟩
  blink := fun ⟨hn, hc, hs, ho⟩ =>
    ⟨hn.sublist (List.Sublist.map _ List.filter_sublist), fun c h => hc c (List.mem_filter.1 h).1,
      hs.filter _, fun h => by simp [ho h]⟩

/-- A cell that is not in the list joins it at the tail with the longest time. -/
theorem append_blink {p : Nat} {q : Placement} (hq : ps[p]? = some q) (hl : q.link = l) (h : Kept ps tenths l k k')
    (hp : ∀ c ∈ k'.blink, c.placement ≠ p) (hlen : k.Bounded → k'.blink.length < 16) (ho : k'.state = .online) :
    Kept ps tenths l k { k' with blink := k'.blink ++ [⟨p, tenths⟩] } where
  bounded := fun hb => by
    obtain ⟨h1, _, h3⟩ := h.bounded hb
    have h16 := hlen hb
    exact ⟨h1, by simp; omega, h3⟩
  stale := h.stale
  queue := h.queue
  blink := fun hb => by
    obtain ⟨hn, hc, hs, _⟩ := h.blink hb
    refine ⟨?_, ?_, ?_, fun h => absurd ho h⟩
    · simp only [List.map_append, List.map_cons, List.map_nil]
      refine List.nodup_append.2 ⟨hn, List.nodup_singleton _, ?_⟩
      rintro _ ha _ hb rfl
      obtain ⟨c, hc', rfl⟩ := List.mem_map.1 ha
      exact hp c hc' (List.mem_singleton.1 hb)
    · intro c hc'
      rcases List.mem_append.1 hc' with hc' | hc'
      · exact hc c hc'
      · obtain rfl := List.mem_singleton.1 hc'
        exact ⟨Nat.le_refl _, q, hq, hl⟩
    · refine List.pairwise_append.2 ⟨hs, List.pairwise_singleton _ _, fun c hc' d hd => ?_⟩
      obtain rfl := List.mem_singleton.1 hd
      exact (hc c hc').1

/-- The oldest cell leaves. -/
theorem tail_blink {k : Link} {c : BlinkCell} {cs : List BlinkCell} (h : k.blink = c :: cs) :
    Kept ps tenths l k { k with blink := cs } where
  bounded := fun ⟨h1, h2, h3⟩ => ⟨h1, by simp [h] at h2 ⊢; omega, h3⟩
  blink := fun ⟨hn, hc, hs, ho⟩ => by
    rw [h] at hn hc hs ho
    refine ⟨(List.nodup_cons.1 hn).2, fun d hd => hc d (List.mem_cons_of_mem _ hd), (List.pairwise_cons.1 hs).2, fun h => ?_⟩
    exact absurd (ho h) (List.cons_ne_nil _ _)

/-! ### Work in hand -/

/-- The head of the queue is taken. -/
theorem tail_queue {k : Link} {e : RefreshEntry} {es : List RefreshEntry} (h : k.queue = e :: es) :
    Kept ps tenths l k { k with queue := es } where
  bounded := fun ⟨h1, h2, h3⟩ => ⟨by simp [h] at h1 ⊢; omega, h2, h3⟩
  queue := fun ⟨hn, hc⟩ => by
    rw [h] at hn hc
    refine ⟨(List.nodup_cons.1 hn).2, fun p hp => ?_⟩
    obtain ⟨q, hq, hl, hr⟩ := hc p (List.mem_cons_of_mem _ hp)
    exact ⟨q, hq, hl, fun h => hr (List.mem_cons_of_mem _ h)⟩

theorem startRow (s : State) (m : LinkId) (k : Link) (r : Nat) (f : Bool) : Kept ps tenths l k (startRow s m k r f) := by
  have h1 : Kept ps tenths l k { k with stale := leave r k.stale } := { stale := leave_sorted r }
  unfold Sys2Proof.Machine.startRow
  simp only
  split
  · exact h1.trans {}
  · exact h1.trans {}
  · exact h1.trans {}

theorem nextWork (s : State) (m : LinkId) (k : Link) : Kept ps tenths l k (nextWork s m k) := by
  unfold Sys2Proof.Machine.nextWork
  split
  · split
    · rename_i h
      exact (tail_queue h).trans {}
    · rename_i h
      exact (tail_queue h).trans (startRow s m _ _ _)
    · split
      · exact startRow s m k _ _
      · split
        · exact startRow s m k _ _
        · exact refl k
  · split
    · exact {}
    · exact refl k
  · exact refl k
  · exact refl k

theorem frameSent (k : Link) : Kept ps tenths l k k.frameSent := by
  unfold Link.frameSent
  split
  · split
    · exact {}
    · exact refl k
  · exact refl k

theorem endPiece (k : Link) (w : Work) : Kept ps tenths l k (k.endPiece w) := {}

theorem failures {n : Nat} (h : n < 3) (k : Link) : Kept ps tenths l k { k with failures := n } where
  bounded := fun ⟨h1, h2, _⟩ => ⟨h1, h2, h⟩

theorem range_sorted (n : Nat) : (List.range n).Pairwise (· < ·) := List.pairwise_lt_range

theorem zero_lt_three : 0 < 3 := by decide

/-- A link whose queue and blink list are emptied and whose failure count is 0. -/
theorem emptied {k k' : Link} (hq : k'.queue = []) (hb : k'.blink = []) (hf : k'.failures < 3)
    (hs : k'.stale.Pairwise (· < ·)) : Kept ps tenths l k k' where
  bounded := fun _ => ⟨by simp [hq], by simp [hb], hf⟩
  stale := fun _ => hs
  queue := fun _ => by simp [Link.QueueFits, hq]
  blink := fun _ => by simp [Link.BlinkFits, hb]

theorem goOffline (k : Link) : Kept ps tenths l k k.goOffline := emptied rfl rfl zero_lt_three (range_sorted _)

theorem allStale (k : Link) : Kept ps tenths l k k.allStale := by
  unfold Link.allStale
  split
  · exact { stale := fun _ => range_sorted _ }
  · exact refl k

theorem rollAccepted (k : Link) : Kept ps tenths l k k.rollAccepted := by
  unfold Link.rollAccepted
  split
  · exact goOffline k
  · exact allStale k
  · exact refl k
  · exact refl k

theorem endPass (k : Link) : Kept ps tenths l k k.endPass := {}

theorem goDark (k : Link) : Kept ps tenths l k k.goDark := by
  unfold Link.goDark
  simp only
  split
  · exact emptied rfl rfl zero_lt_three List.Pairwise.nil
  · exact emptied rfl rfl zero_lt_three List.Pairwise.nil
  · exact refl k
  · exact refl k

theorem takeTextWord (k : Link) (r : Nat) (w : Work) (ln : LineRead) (word : Word) :
    Kept ps tenths l k (k.takeTextWord r w ln word) := by
  unfold Link.takeTextWord
  simp only
  split <;> exact {}

/-- An ONLINE link is one whose blink list may hold cells. -/
theorem online (k : Link) : Kept ps tenths l k { k with state := .online } where
  blink := fun ⟨h1, h2, h3, _⟩ => ⟨h1, h2, h3, fun h => absurd rfl h⟩

end Link.Kept

namespace BoardController.Kept

variable {b b' b'' : BoardController}

theorem refl (b : BoardController) : Kept b b := { link := fun _ => .refl _ }

theorem trans (h : Kept b b') (k : Kept b' b'') : Kept b b'' where
  placements := k.placements.trans h.placements
  tenths := k.tenths.trans h.tenths
  link := fun l => (h.link l).trans (by
    have := k.link l
    rwa [h.placements, h.tenths] at this)

/-- One link is changed. -/
theorem setLink (b : BoardController) (l : LinkId) {k : Link} (h : (vget b.links l).Kept b.placements b.blinkTenths l k) :
    Kept b { b with links := vset b.links l k } where
  link := fun m => by
    show (vget b.links m).Kept _ _ m (vget (vset b.links l k) m)
    rw [vget_vset]
    split
    · rename_i e
      exact e ▸ h
    · exact .refl _

/-- Every link is changed. -/
theorem vmap (b : BoardController) (f : Link → Link) (h : ∀ k l, Link.Kept b.placements b.blinkTenths l k (f k)) :
    Kept b { b with links := vmap f b.links } where
  link := fun m => by
    show (vget b.links m).Kept _ _ m (vget (Sys2Proof.Machine.vmap f b.links) m)
    rw [vget_vmap]
    exact h _ _

/-- Changes made one after another. -/
theorem foldl {α : Type} (f : BoardController → α → BoardController) (h : ∀ b x, Kept b (f b x)) (xs : List α) (b : BoardController) :
    Kept b (xs.foldl f b) := by
  induction xs generalizing b with
  | nil => exact refl b
  | cons x xs ih => exact (h b x).trans (ih _)

theorem request (b : BoardController) (p : Nat) : Kept b (b.request p) := by
  unfold BoardController.request
  split
  · rename_i q hq
    exact setLink b q.link (.cellRequest hq rfl _)
  · exact refl b

end BoardController.Kept

/-- A request leaves each link's state and blink list as they were. -/
theorem BoardController.request_link (b : BoardController) (p : Nat) (l : LinkId) :
    { vget (b.request p).links l with queue := (vget b.links l).queue, stale := (vget b.links l).stale } = vget b.links l := by
  unfold BoardController.request
  split
  · simp only [vget_vset]
    split
    · rename_i e
      subst e
      unfold Link.cellRequest
      split
      · rfl
      split
      · rfl
      split <;> rfl
    · rfl
  · rfl

theorem BoardController.request_blink (b : BoardController) (p : Nat) (l : LinkId) :
    (vget (b.request p).links l).blink = (vget b.links l).blink := by
  have e := congrArg Link.blink (b.request_link p l)
  exact e

theorem BoardController.request_state (b : BoardController) (p : Nat) (l : LinkId) :
    (vget (b.request p).links l).state = (vget b.links l).state := by
  have e := congrArg Link.state (b.request_link p l)
  exact e

/-- Placement `p` blinks on a link whose list holds it. -/
theorem Link.blinks_iff (k : Link) (p : Nat) : k.blinks p = true ↔ ∃ c ∈ k.blink, c.placement = p := by
  simp [Link.blinks]

namespace BoardController.Kept

theorem blinkJoin (b : BoardController) (l : LinkId) (p : Nat) {q : Placement} (hq : b.placements[p]? = some q)
    (hl : q.link = l) (ho : (vget b.links l).state = .online) : Kept b (b.blinkJoin l p) := by
  unfold BoardController.blinkJoin
  simp only
  split
  · rename_i hb
    obtain ⟨c, hc, hcp⟩ := (Link.blinks_iff _ _).1 hb
    have hlt : ((vget b.links l).blink.filter (fun c => c.placement != p)).length < (vget b.links l).blink.length :=
      List.length_filter_lt_length_iff_exists.2 ⟨c, hc, by simp [hcp]⟩
    exact setLink b l (.append_blink hq hl (.filter_blink _ _) (fun d hd => by simpa using (List.mem_filter.1 hd).2)
      (fun hbd => Nat.lt_of_lt_of_le hlt hbd.2.1) ho)
  rename_i hb
  have hp : ∀ c ∈ (vget b.links l).blink, c.placement ≠ p := fun c hc e => hb ((Link.blinks_iff _ _).2 ⟨c, hc, e⟩)
  split
  · rename_i hlen
    exact setLink b l (.append_blink hq hl (.refl _) hp (fun _ => hlen) ho)
  split
  · exact refl b
  rename_i oldest rest hk
  generalize hb1 : ({ b with links := vset b.links l { vget b.links l with blink := rest } } : BoardController) = b1
  have h2 : Kept b (b1.request oldest.placement) := by
    subst hb1
    exact (setLink b l (.tail_blink hk)).trans (request _ _)
  have hbl : (vget (b1.request oldest.placement).links l).blink = rest := by
    rw [BoardController.request_blink, ← hb1]
    simp
  have hst : (vget (b1.request oldest.placement).links l).state = .online := by
    rw [BoardController.request_state, ← hb1]
    simpa using ho
  have ht : b1.blinkTenths = b.blinkTenths := by rw [← hb1]
  refine { placements := h2.placements, tenths := h2.tenths, link := fun m => ?_ }
  have hm := h2.link m
  simp only [vget_vset]
  split
  · rename_i e
    subst e
    refine .append_blink hq hl hm (fun c hc => ?_) (fun hbd => ?_) hst
    · rw [hbl] at hc
      exact hp c (by rw [hk]; exact List.mem_cons_of_mem _ hc)
    · have h16 := hbd.2.1
      rw [hk] at h16
      rw [hbl]
      simpa using h16
  · exact hm

theorem blinkStart (b : BoardController) (p : Nat) : Kept b (b.blinkStart p) := by
  unfold BoardController.blinkStart
  split
  · rename_i q hq
    split
    · rename_i h
      exact blinkJoin b q.link p hq rfl h.2
    · exact refl b
  · exact refl b

theorem notice (b : BoardController) (n : Notice) : Kept b (b.notice n) := by
  have h1 := foldl BoardController.request request (b.refreshed n) b
  unfold BoardController.notice
  simp only
  split
  · exact h1.trans (foldl _ blinkStart _ _)
  · exact h1

theorem lowerBlinks (b : BoardController) (k : Nat) : Kept b (b.lowerBlinks k) := vmap b _ (fun x _ => .lowerBlinks k x)

theorem expireBlinks (b : BoardController) (l : LinkId) : Kept b (b.expireBlinks l) :=
  (setLink b l (.filter_blink _ _)).trans (foldl (fun x (c : BlinkCell) => x.request c.placement) (fun x c => request x c.placement) _ _)

theorem textWriteOn (w : Fin 8) (n : Nat) (b : BoardController) (l : LinkId) : Kept b (b.textWriteOn w n l) := by
  refine setLink b l ?_
  generalize (List.map _ _ : List Nat) = rows
  generalize vget b.links l = k
  induction rows generalizing k with
  | nil => exact .refl k
  | cons r rs ih => exact (Link.Kept.rowRequestOn b k r).trans (ih _)

theorem textWrite (b : BoardController) (w : Fin 8) (n : Nat) : Kept b (b.textWrite w n) :=
  foldl _ (fun b l => textWriteOn w n b l) _ _

theorem presentRead (b : BoardController) : Kept b b.presentRead := by
  unfold BoardController.presentRead
  split
  · exact refl b
  · exact { link := fun _ => .refl _ }

theorem repaint (b : BoardController) (mask : Byte) : Kept b (b.repaint mask) where
  link := by
    intro l
    unfold BoardController.repaint
    simp only
    generalize allLinks = ls
    have key : ∀ v : Vector Link 4, (vget b.links l).Kept b.placements b.blinkTenths l (vget v l) →
        (vget b.links l).Kept b.placements b.blinkTenths l
          (vget (ls.foldl (fun v l => if mask.getLsbD l.val then vset v l (vget v l).allStale else v) v) l) := by
      induction ls with
      | nil => exact fun v h => h
      | cons m ms ih =>
        intro v h
        refine ih _ ?_
        show (vget b.links l).Kept _ _ l (vget (if mask.getLsbD m.val then vset v m (vget v m).allStale else v) l)
        split
        · rw [vget_vset]
          split
          · rename_i e
            subst e
            exact h.trans (.allStale _)
          · exact h
        · exact h
    exact key _ (.refl _)

end BoardController.Kept

/-! ### Links at rest -/

theorem Link.Idle.state {k : Link} (h : k.Idle) : k.state = .unused := by rw [h.1]; rfl
theorem Link.Idle.blink {k : Link} (h : k.Idle) : k.blink = [] := by rw [h.1]; rfl

theorem BoardController.Resting.textRequest {b : BoardController} (h : b.Resting) : b.textRequest = none := by rw [h.1]; rfl
theorem BoardController.Resting.placements {b : BoardController} (h : b.Resting) : b.placements = [] := by rw [h.1]; rfl

/-- Boards at rest stay so when one link is changed to an idle one. -/
theorem BoardController.Resting.setLink {b : BoardController} (h : b.Resting) (l : LinkId) {k : Link} (hk : k.Idle) :
    ({ b with links := vset b.links l k } : BoardController).Resting := by
  refine ⟨?_, fun m => ?_⟩
  · have e := h.1
    cases b
    simp only [BoardController.reset, BoardController.mk.injEq] at e ⊢
    tauto
  · simp only [vget_vset]
    split
    · exact hk
    · exact h.2 m

/-- Boards at rest take no request. -/
theorem BoardController.Resting.request {b : BoardController} (h : b.Resting) (p : Nat) : b.request p = b := by
  simp [BoardController.request, h.placements]

theorem BoardController.Resting.lowerBlinks {b : BoardController} (h : b.Resting) (k : Nat) : b.lowerBlinks k = b := by
  have e : vmap (Link.lowerBlinks k) b.links = b.links := vget_ext (fun l => by
    rw [vget_vmap]
    have hb := (h.2 l).blink
    revert hb
    generalize vget b.links l = x
    intro hb
    cases x
    simp only at hb
    subst hb
    rfl)
  simp [BoardController.lowerBlinks, e]

theorem BoardController.Resting.expireBlinks {b : BoardController} (h : b.Resting) (l : LinkId) : b.expireBlinks l = b := by
  have hb := (h.2 l).blink
  unfold BoardController.expireBlinks
  have e : ({ vget b.links l with blink := [] } : Link) = vget b.links l := by rw [← hb]
  simp [hb, e]

theorem Link.Idle.isReading {k : Link} (h : k.Idle) : k.isReading = false := by
  unfold Link.isReading
  split
  · rename_i w hw
    rcases (h.2 w hw).2.2.1 with e | e <;> simp [e]
  · rfl

theorem BoardController.Resting.presentRead {b : BoardController} (h : b.Resting) : b.presentRead = b := by
  unfold BoardController.presentRead
  have e : (rotation b.textLast).find? (fun l => (vget b.links l).isReading) = none :=
    List.find?_eq_none.2 (fun l _ => by simp [(h.2 l).isReading])
  split
  · rfl
  · rename_i hn
    rw [e, ← hn]

theorem Link.Idle.nextWork {k : Link} (h : k.Idle) (s : State) (l : LinkId) : nextWork s l k = k := by
  simp [Sys2Proof.Machine.nextWork, h.state]

/-- An idle link stays idle when its piece goes on or ends. -/
theorem Link.Idle.setWork {k : Link} (h : k.Idle) {w : Option Work}
    (hw : ∀ v, w = some v → v.discard = true ∧ v.fromPass = false ∧ (v.phase = .sending ∨ v.phase = .waiting) ∧
      ∀ r rest, v.piece = .symbolRow r rest → rest = []) : ({ k with work := w } : Link).Idle := by
  refine ⟨?_, hw⟩
  have e := h.1
  cases k
  simp only [Link.reset, Link.mk.injEq] at e ⊢
  tauto

theorem Link.Idle.frameSent {k : Link} (h : k.Idle) : k.frameSent.Idle := by
  unfold Link.frameSent
  split
  · rename_i w hw
    obtain ⟨h1, h2, h3, h4⟩ := h.2 w hw
    split
    · exact h.setWork (fun v hv => by cases hv; exact ⟨h1, h2, .inr rfl, h4⟩)
    · exact h
  · exact h

theorem Link.Idle.endPiece {k : Link} (h : k.Idle) {w : Work} (hw : k.work = some w) : (k.endPiece w).Idle := by
  have hf := (h.2 w hw).2.1
  have e : k.endPiece w = { k with work := none } := by simp [Link.endPiece, hf]
  rw [e]
  exact h.setWork (by rintro _ ⟨⟩)

namespace Quiet

variable {g : Prop} {s : State}

theorem setBc {b : BoardController} (h : s.bc.Kept b) (hr : g → s.isReady = false → s.bc.Resting → b.Resting) :
    Quiet g s (s.setBc b) where
  rest := fun hg hf ⟨h1, h2, h3⟩ => ⟨hr hg hf h1, h2, h3⟩
  caps := fun ⟨h1, h2, h3, h4, h5⟩ => ⟨h1, h2, h3, fun l => (h.link l).bounded (h4 l), h5⟩
  sets := fun ⟨h1, h2, h3, h4, h5⟩ => ⟨h1, h2, h3, fun l => (h.link l).stale (h4 l), h5⟩
  queues := fun hq l => by
    have := (h.link l).queue (hq l)
    rwa [← h.placements] at this
  blinks := fun hb l => by
    have := (h.link l).blink (hb l)
    rwa [← h.placements, ← h.tenths] at this

theorem setBc_ready {b : BoardController} (h : s.bc.Kept b) (ha : g → s.isReady = true) : Quiet g s (s.setBc b) :=
  setBc h (fun hg hf => by simp [ha hg] at hf)

theorem setLink {l : LinkId} {k : Link} (h : (s.link l).Kept s.bc.placements s.bc.blinkTenths l k)
    (hr : (s.link l).Idle → k.Idle) : Quiet g s (s.setLink l k) :=
  setBc (.setLink s.bc l h) (fun _ _ hb => hb.setLink l (hr (hb.2 l)))

theorem takeWork (l : LinkId) : Quiet g s (s.takeWork l) := by
  unfold State.takeWork
  simp only
  split
  · exact refl g s
  · have h1 : Quiet g s (s.setLink l (nextWork s l (s.link l))) :=
      setLink (.nextWork s l _) (fun h => by rwa [h.nextWork])
    exact h1.trans (setBc (.presentRead _) (fun _ _ hb => by rwa [hb.presentRead]))

theorem frameSent (l : LinkId) : Quiet g s (s.setLink l (s.link l).frameSent) :=
  setLink (.frameSent _) Link.Idle.frameSent

theorem blinkExpiry : Quiet g s s.blinkExpiry :=
  setBc (.foldl _ (fun b l => .expireBlinks b l) _ _) (fun _ _ hb => by
    have : ∀ ls : List LinkId, ls.foldl BoardController.expireBlinks s.bc = s.bc := by
      intro ls
      induction ls with
      | nil => rfl
      | cons l ls ih => rw [List.foldl_cons, hb.expireBlinks, ih]
    rwa [this])

theorem lowerBlinks (k : Nat) : Quiet g s (s.setBc (s.bc.lowerBlinks k)) :=
  setBc (.lowerBlinks _ k) (fun _ _ hb => by rwa [hb.lowerBlinks])

theorem boardAcked (l : LinkId) : Quiet g s (s.boardAcked l) := by
  unfold State.boardAcked
  simp only
  split
  · exact refl g s
  rename_i w hw
  have live : w.discard = false → ∀ k, (s.link l).Idle → Link.Idle k := fun hd k h => by
    simp [(h.2 w hw).1] at hd
  split
  · exact refl g s
  split
  · exact setLink (.endPiece _ w) (fun h => h.endPiece hw)
  rename_i hd
  have hd : w.discard = false := by simpa using hd
  have ended : Quiet g s (s.setLink l ((s.link l).endPiece w)) := setLink (.endPiece _ w) (live hd _)
  have cleared : Quiet g s (s.setLink l { (s.link l).endPiece w with failures := 0 }) :=
    setLink ((Link.Kept.endPiece _ w).trans (.failures Link.Kept.zero_lt_three _)) (live hd _)
  split
  · exact cleared
  · exact cleared
  · exact cleared
  · exact setLink ((Link.Kept.failures Link.Kept.zero_lt_three _).trans {}) (live hd _)
  · exact ended
  · split
    · exact ended
    · exact (setLink (((Link.Kept.endPiece _ w).trans (.failures Link.Kept.zero_lt_three _)).trans (.online _)) (live hd _)).trans (raise _)

theorem boardMissed (l : LinkId) (w : Work) (r : Option Nat) (hd : ¬ (s.link l).Idle) :
    Quiet g s (s.boardMissed l (s.link l) w r) := by
  unfold State.boardMissed
  simp only
  split
  · exact setLink (.endPiece _ w) (fun h => absurd h hd)
  · split
    · rename_i hf
      refine setLink ?_ (fun h => absurd h hd)
      cases r with
      | none => exact (Link.Kept.endPiece _ w).trans (.failures hf _)
      | some r => exact ((Link.Kept.endPiece _ w).trans (.join_stale _ r)).trans (.failures hf _)
    · exact (setLink (.emptied rfl rfl zero_lt_three (Link.Kept.range_sorted _)) (fun h => absurd h hd)).trans (raise _)

theorem answerWaitEnds (l : LinkId) : Quiet g s (s.answerWaitEnds l) := by
  unfold State.answerWaitEnds
  simp only
  split
  · exact refl g s
  rename_i w hw
  split
  · exact refl g s
  split
  · exact setLink (.endPiece _ w) (fun h => h.endPiece hw)
  rename_i hd
  have live : ¬ (s.link l).Idle := fun h => hd (h.2 w hw).1
  split
  · exact boardMissed l w _ live
  · exact boardMissed l w _ live
  · exact boardMissed l w _ live
  · exact setLink (.endPiece _ w) (fun h => absurd h live)
  · split
    · exact setLink (.endPiece _ w) (fun h => absurd h live)
    · exact setLink ((Link.Kept.endPiece _ w).trans {}) (fun h => absurd h live)

theorem probeIntervalEnds (l : LinkId) : Quiet g s (s.probeIntervalEnds l) := by
  unfold State.probeIntervalEnds
  simp only
  split
  · rename_i h
    exact (setLink (g := g) (s := s) (l := l) {} (fun hi => by simp [hi.state] at h)).trans (takeWork l)
  · exact refl g s

theorem textReadAnswered : Quiet g s s.textReadAnswered := by
  unfold State.textReadAnswered
  split
  · exact refl g s
  rename_i l hl
  have awake : ¬ s.bc.Resting := fun h => by simp [h.textRequest] at hl
  have links : ∀ k, (s.link l).Kept s.bc.placements s.bc.blinkTenths l k → Quiet g s (s.setBc (BoardController.presentRead
      { s.bc with links := vset s.bc.links l k, textRequest := none, textLast := l })) := fun k hk =>
    setBc ((BoardController.Kept.setLink s.bc l hk).trans (BoardController.Kept.trans
      (b' := { s.bc with links := vset s.bc.links l k, textRequest := none, textLast := l })
      { link := fun _ => .refl _ } (.presentRead _))) (fun _ _ h => absurd h awake)
  have same : Quiet g s (s.setBc (BoardController.presentRead { s.bc with textRequest := none, textLast := l })) :=
    setBc (BoardController.Kept.trans (b' := { s.bc with textRequest := none, textLast := l })
      { link := fun _ => .refl _ } (.presentRead _)) (fun _ _ h => absurd h awake)
  simp only
  split
  · split
    · exact links _ (.takeTextWord _ _ _ _ _)
    · exact same
  · exact same

theorem sweepExpiry : Quiet g s s.sweepExpiry := by
  unfold State.sweepExpiry
  split
  · rename_i h
    refine setBc ?_ (fun _ hf => by simp [h.1] at hf)
    refine BoardController.Kept.trans (b' := { s.bc with sweepCount := 0 }) { link := fun _ => .refl _ } (.vmap _ _ (fun k l => ?_))
    simp only
    split
    · exact {}
    · exact .refl _
  · exact refl g s

end Quiet

end Sys2Proof.Machine
end

