-- ==== Sys2Proof/Proofs/Terminals.lean ====
section
/-!
PROOFS. The operations of the terminals and the tape keep their bounds and their watch lists, and are quiet (chapters 6, 8 and 9).
-/

namespace Sys2Proof.Machine

-- A proof that a field or a hypothesis fills in by default waits for all before it: elaborated at once, each would hold a thread.
set_option Elab.async false

namespace Terminal.Kept

variable {used : Slot → Prop}

/-! ### Keys and marks of one terminal -/

theorem respond (r : Terminal) (x : Response) (h : ∀ n, x = .quote n ∨ x = .message (.watching n) → n ∈ r.recallStack ∨ used n) :
    Kept used r (r.respond x) where
  dirty := join_sorted 13
  response := fun n hn => .inr (.inr (h n hn))

/-- A message that names no slot. -/
theorem tell (r : Terminal) {m : Message} (h : ∀ n, m ≠ .watching n) : Kept used r (r.respond (.message m)) :=
  respond r _ (fun n hn => by
    rcases hn with hn | hn
    · exact absurd hn (by rintro ⟨⟩)
    · exact absurd (Response.message.inj hn) (h n))

theorem clearEntry (r : Terminal) : Kept used r { r with entry := [] } where
  bounded := fun ⟨_, h⟩ => ⟨Nat.zero_le _, h⟩

theorem entryKey (r : Terminal) (code : Byte) : Kept used r (r.entryKey code) where
  bounded := fun ⟨h1, h2⟩ => by
    refine ⟨?_, h2⟩
    show (if r.entry.length < 8 then r.entry ++ [code] else r.entry).length ≤ 8
    split
    · simp; omega
    · exact h1
  dirty := join_sorted 13
  response := fun n hn => by rcases hn with hn | hn <;> exact absurd hn (by rintro ⟨⟩)

theorem mem_pushRecall {st : List Slot} {n m : Slot} (h : m ∈ pushRecall st n) : m ∈ st ∨ m = n := by
  unfold pushRecall at h
  split at h
  · exact .inl h
  · rcases List.mem_cons.1 (List.mem_of_mem_take h) with h | h
    · exact .inr h
    · exact .inl h

theorem pushRecall_length {st : List Slot} (n : Slot) (h : st.length ≤ 4) : (pushRecall st n).length ≤ 4 := by
  unfold pushRecall
  split
  · exact h
  · simp

end Terminal.Kept

/-- A text that names a symbol names a used slot. -/
theorem findSymbol_used {s : State} {t : Text} {n : Slot} (h : findSymbol s t = some n) : s.Used n := by
  have := List.find?_some h
  simp only [decide_eq_true_eq] at this
  exact this.1

namespace Terminal.Kept

variable {used : Slot → Prop}

theorem quoteKeyOn (s : State) (r : Terminal) : Kept s.Used r (quoteKeyOn s r) := by
  unfold Sys2Proof.Machine.quoteKeyOn
  split
  · exact tell r (by rintro _ ⟨⟩)
  · split
    · exact tell r (by rintro _ ⟨⟩)
    · rename_i n hn
      have hu := findSymbol_used hn
      exact {
        bounded := fun ⟨_, h2, h3⟩ => ⟨Nat.zero_le _, pushRecall_length n h2, h3⟩
        dirty := join_sorted 13
        stack := fun m hm => (mem_pushRecall hm).imp_right (fun (e : m = n) => e ▸ hu)
        response := fun m hm => by
          rcases hm with hm | hm
          · cases hm
            exact .inr (.inr (.inr hu))
          · exact absurd hm (by rintro ⟨⟩) }

theorem recallKey (r : Terminal) : Kept used r r.recallKey := by
  unfold Terminal.recallKey
  split
  · exact tell r (by rintro _ ⟨⟩)
  · rename_i top rest h
    have hm : ∀ m, m ∈ rest ++ [top] → m ∈ r.recallStack := fun m hm => by
      rw [h]
      simpa [or_comm] using hm
    exact {
      bounded := fun ⟨h1, h2, h3⟩ => ⟨h1, by simpa [h, Terminal.respond, Terminal.mark] using h2, h3⟩
      dirty := join_sorted 13
      stack := fun m hm' => .inl (hm m hm')
      response := fun m hm' => by
        rcases hm' with hm' | hm'
        · refine .inr (.inr (.inl (hm m ?_)))
          have e := Response.quote.inj hm'
          rw [← e]
          cases rest <;> simp
        · exact absurd hm' (by rintro ⟨⟩) }

theorem clearKey (r : Terminal) : Kept used r r.clearKey :=
  (clearEntry r).trans (respond _ _ (fun n hn => by rcases hn with hn | hn <;> exact absurd hn (by rintro ⟨⟩)))

/-- An entry is put where an entry for the same slot stood. -/
theorem putEntry (r : Terminal) (i : Fin 12) (e : Option WatchEntry) (h : e.map (·.slot) = (vget r.watch i).map (·.slot)) :
    Kept used r (r.putEntry i e) where
  dirty := join_sorted _
  places := fun j => by
    show (vget (vset r.watch i e) j).map (·.slot) = _
    rw [vget_vset]
    split
    · rename_i hij
      subst hij
      exact h
    · rfl

theorem dropAlerts (r : Terminal) (i : Fin 12) : Kept used r (r.dropAlerts i) where
  bounded := fun ⟨h1, h2, h3, h4⟩ => ⟨h1, h2, (List.length_filter_le _ _).trans h3, h4⟩

theorem clearAlerts (r : Terminal) : Kept used r { r with alerts := [] } where
  bounded := fun ⟨h1, h2, _, h4⟩ => ⟨h1, h2, Nat.zero_le _, h4⟩

theorem acknowledge (r : Terminal) : Kept used r r.acknowledge := by
  unfold Terminal.acknowledge
  have key : ∀ (is : List (Fin 12)) (x : Terminal), Kept used x (is.foldl (fun (x : Terminal) (i : Fin 12) =>
      match vget x.watch i with
      | some e => if e.alerted then x.putEntry i (some { e with alerted := false }) else x
      | none => x) x) := by
    intro is
    induction is with
    | nil => exact fun x => refl x
    | cons i is ih =>
      intro x
      refine Kept.trans ?_ (ih _)
      simp only
      split
      · rename_i e he
        split
        · exact putEntry x i _ (by rw [he]; rfl)
        · exact refl x
      · exact refl x
  exact (key allPlaces r).trans (clearAlerts _)

theorem rollEntries (r : Terminal) : Kept used r r.rollEntries where
  places := fun i => by
    show (vget (vmap (Option.map WatchEntry.rolled) r.watch) i).map (·.slot) = _
    rw [vget_vmap, Option.map_map]
    rfl

theorem setStatus (r : Terminal) {text : Text} (h : text.length = 8) : Kept used r (r.setStatus text) where
  bounded := fun ⟨h1, h2, h3, _, h5⟩ => ⟨h1, h2, h3, h, h5⟩
  dirty := join_sorted 0

theorem noticeMarks (r : Terminal) (n : Slot) (sub : Bool) : Kept used r (r.noticeMarks n sub) := by
  have quoted : ∀ x : Terminal, Kept used x (if x.response = .quote n then x.mark 13 else x) := fun x => by
    split
    · exact mark _ _
    · exact refl x
  refine Kept.trans ?_ (quoted _)
  split
  · split
    · exact mark r _
    · exact refl r
  · exact refl r

/-- Evaluating a trade changes the entry, not its slot. -/
theorem evaluate_slot (e : WatchEntry) (d : TradeDetails) (close : Word) : (e.evaluate d close).1.slot = e.slot := by
  unfold WatchEntry.evaluate
  simp only
  split
  · unfold WatchEntry.evalCrossing
    split
    · rfl
    · split <;> rfl
    · split <;> rfl
  · split
    · unfold WatchEntry.evalMove
      split
      · rfl
      · split
        · rfl
        · split <;> rfl
    · rfl

theorem pushAlert_length {q : List Nat} (line : Nat) (h : q.length ≤ 4) : (pushAlert q line).length ≤ 4 := by
  unfold pushAlert
  split <;> simp <;> omega

theorem evaluate (r : Terminal) (n : Slot) (d : TradeDetails) (close : Word) : Kept used r (r.evaluate n d close) := by
  unfold Terminal.evaluate
  split
  · exact refl r
  rename_i i hi
  split
  · exact refl r
  rename_i e he
  simp only
  split
  · refine (putEntry r i (some { (e.evaluate d close).1 with alerted := true }) ?_).trans
      { bounded := fun ⟨h1, h2, h3, h4⟩ => ⟨h1, h2, pushAlert_length _ h3, h4⟩ }
    rw [he]
    exact congrArg some (evaluate_slot e d close)
  · refine { places := fun j => ?_ }
    show (vget (vset r.watch i _) j).map (·.slot) = _
    rw [vget_vset]
    split
    · rename_i hij
      subst hij
      rw [he]
      exact congrArg some (evaluate_slot e d close)
    · rfl

end Terminal.Kept

namespace TerminalController.Kept

variable {used : Slot → Prop}

theorem noticeAt (n : Notice) (close : Word) (p : TerminalController) (u : TermId) : p.Kept used (p.noticeAt n close u) := by
  unfold TerminalController.noticeAt
  refine put u ?_
  have h1 := Terminal.Kept.noticeMarks (used := used) (vget p.terminals u) n.slot (decide (u.val ∈ vget p.subscribers n.slot))
  split
  · split
    · exact h1.trans (.evaluate _ _ _ _)
    · exact h1
  · exact h1

theorem notice (p : TerminalController) (n : Notice) (close : Word) : p.Kept used (p.notice n close) := by
  unfold TerminalController.notice
  generalize allTerms = us
  induction us generalizing p with
  | nil => exact refl p
  | cons u us ih => exact (noticeAt n close p u).trans (ih _)

/-- A change of every record alike. -/
theorem vmap (p : TerminalController) (f : Terminal → Terminal) (h : ∀ r, Terminal.Kept used r (f r)) :
    p.Kept used { p with terminals := vmap f p.terminals } :=
  of_terms (fun u => by
    show (vget p.terminals u).Kept used (vget (Sys2Proof.Machine.vmap f p.terminals) u)
    rw [vget_vmap]
    exact h _)

theorem rewriteEntry (p : TerminalController) (u : TermId) (i : Fin 12) (e : WatchEntry)
    (h : (vget (vget p.terminals u).watch i).map (·.slot) = some e.slot) : p.Kept used (p.rewriteEntry u i e) :=
  put u ((Terminal.Kept.dropAlerts _ i).trans (.putEntry _ i _ h.symm))

/-- Places of a list after one is changed. -/
theorem watches_putEntry (r : Terminal) (i : Fin 12) (x : Option WatchEntry) (j : Fin 12) :
    vget (r.putEntry i x).watch j = if i = j then x else vget r.watch j := vget_vset _ _ _ _

/-- A new entry at an empty place for a slot that the list does not hold: the terminal joins its subscriber set. -/
theorem addEntry (p : TerminalController) (u : TermId) (i : Fin 12) (e : WatchEntry) (hu : used e.slot)
    (hn : ¬ (vget p.terminals u).Watches e.slot) (hi : vget (vget p.terminals u).watch i = none) :
    p.Kept used (p.addEntry u i e) := by
  have hterm : ∀ v, vget (p.addEntry u i e).terminals v =
      if u = v then (vget p.terminals u).putEntry i (some e) else vget p.terminals v := fun v => vget_vset _ _ _ _
  have hsub : ∀ n, vget (p.addEntry u i e).subscribers n =
      if e.slot = n then join u.val (vget p.subscribers e.slot) else vget p.subscribers n := fun n => vget_vset _ _ _ _
  have hwatch : ∀ n, ((vget p.terminals u).putEntry i (some e)).Watches n ↔ (vget p.terminals u).Watches n ∨ n = e.slot := by
    intro n
    simp only [Terminal.Watches, watches_putEntry]
    constructor
    · rintro ⟨j, f, hj, rfl⟩
      split at hj
      · cases hj
        exact .inr rfl
      · exact .inl ⟨j, f, hj, rfl⟩
    · rintro (⟨j, f, hj, rfl⟩ | rfl)
      · have hij : i ≠ j := fun h => by
          rw [h, hj] at hi
          cases hi
        exact ⟨j, f, by rw [if_neg hij, hj], rfl⟩
      · exact ⟨i, e, by rw [if_pos rfl], rfl⟩
  refine { bounded := fun hb v => ?_, dirty := fun hd v => ?_, subscribers := fun hs n => ?_, agree := ?_, names := fun v n hx => ?_ }
  · rw [hterm]
    split
    · exact hb u
    · exact hb v
  · rw [hterm]
    split
    · exact join_sorted _ (hd u)
    · exact hd v
  · rw [hsub]
    split
    · exact join_sorted _ (hs _)
    · exact hs n
  · rintro s s' rfl e' ⟨h1, h2⟩
    constructor
    · intro v j k f f' hf hf' hs
      simp only [State.term, e', hterm] at hf hf'
      by_cases hv : u = v
      · subst hv
        simp only [if_true, watches_putEntry] at hf hf'
        by_cases hij : i = j <;> by_cases hik : i = k
        · exact hij.symm.trans hik
        · rw [if_pos hij] at hf
          rw [if_neg hik] at hf'
          cases hf
          exact absurd ⟨k, f', hf', hs.symm⟩ hn
        · rw [if_neg hij] at hf
          rw [if_pos hik] at hf'
          cases hf'
          exact absurd ⟨j, f, hf, hs⟩ hn
        · rw [if_neg hij] at hf
          rw [if_neg hik] at hf'
          exact h1 u j k f f' hf hf' hs
      · rw [if_neg hv] at hf hf'
        exact h1 v j k f f' hf hf' hs
    · intro v n
      have hv2 : v.val ∈ vget s.pt.subscribers n ↔ (vget s.pt.terminals v).Watches n := h2 v n
      simp only [State.term, e', hterm, hsub]
      by_cases hv : u = v
      · subst hv
        rw [if_pos rfl, hwatch, ← hv2]
        split
        · rename_i hen
          subst hen
          simp [or_comm]
        · rename_i hen
          simp [Ne.symm hen]
      · rw [if_neg hv, ← hv2]
        split
        · rename_i hen
          subst hen
          have : v.val ≠ u.val := fun h => hv (Fin.ext h.symm)
          simp [this]
        · rfl
  · rw [hterm] at hx
    split at hx
    · rename_i huv
      subst huv
      rcases hx with hx | hx
      · rcases (hwatch n).1 hx with hx | rfl
        · exact .inl (.inl hx)
        · exact .inr hu
      · exact .inl (.inr hx)
    · exact .inl hx

/-- The entry of a slot is removed: the terminal leaves its subscriber set. -/
theorem removeEntry (p : TerminalController) (u : TermId) (i : Fin 12) (n : Slot)
    (hi : (vget (vget p.terminals u).watch i).map (·.slot) = some n) : p.Kept used (p.removeEntry u i n) := by
  obtain ⟨e, he, hen⟩ := Option.map_eq_some_iff.1 hi
  have hterm : ∀ v, vget (p.removeEntry u i n).terminals v =
      if u = v then ((vget p.terminals u).dropAlerts i).putEntry i none else vget p.terminals v := fun v => vget_vset _ _ _ _
  have hsub : ∀ m, vget (p.removeEntry u i n).subscribers m =
      if n = m then leave u.val (vget p.subscribers n) else vget p.subscribers m := fun m => vget_vset _ _ _ _
  have hplace : ∀ j, vget (((vget p.terminals u).dropAlerts i).putEntry i none).watch j =
      if i = j then none else vget (vget p.terminals u).watch j := fun j => vget_vset _ _ _ _
  refine { bounded := fun hb v => ?_, dirty := fun hd v => ?_, subscribers := fun hs m => ?_, agree := ?_, names := fun v m hx => ?_ }
  · rw [hterm]
    split
    · exact (Terminal.Kept.dropAlerts (used := used) _ i).bounded (hb u)
    · exact hb v
  · rw [hterm]
    split
    · exact join_sorted _ (hd u)
    · exact hd v
  · rw [hsub]
    split
    · exact leave_sorted _ (hs _)
    · exact hs m
  · rintro s s' rfl e' ⟨h1, h2⟩
    constructor
    · intro v j k f f' hf hf' hs
      simp only [State.term, e', hterm] at hf hf'
      by_cases hv : u = v
      · subst hv
        simp only [if_true, hplace] at hf hf'
        split at hf
        · cases hf
        · split at hf'
          · cases hf'
          · exact h1 u j k f f' hf hf' hs
      · rw [if_neg hv] at hf hf'
        exact h1 v j k f f' hf hf' hs
    · intro v m
      have hv2 : v.val ∈ vget s.pt.subscribers m ↔ (vget s.pt.terminals v).Watches m := h2 v m
      simp only [State.term, e', hterm, hsub]
      by_cases hv : u = v
      · subst hv
        have hw : (((vget s.pt.terminals u).dropAlerts i).putEntry i none).Watches m ↔
            (vget s.pt.terminals u).Watches m ∧ m ≠ n := by
          simp only [Terminal.Watches, hplace]
          constructor
          · rintro ⟨j, f, hj, rfl⟩
            split at hj
            · cases hj
            · rename_i hij
              exact ⟨⟨j, f, hj, rfl⟩, fun h => hij (h1 u i j e f he hj (hen.trans h.symm))⟩
          · rintro ⟨⟨j, f, hj, rfl⟩, hne⟩
            have hij : i ≠ j := fun h => hne (by
              rw [h, hj] at he
              cases he
              exact hen)
            exact ⟨j, f, by rw [if_neg hij, hj], rfl⟩
        rw [if_pos rfl, hw, ← hv2]
        split
        · rename_i hnm
          subst hnm
          simp
        · rename_i hnm
          simp [Ne.symm hnm]
      · rw [if_neg hv, ← hv2]
        split
        · rename_i hnm
          subst hnm
          have : v.val ≠ u.val := fun h => hv (Fin.ext h.symm)
          simp [this]
        · rfl
  · rw [hterm] at hx
    split at hx
    · rename_i huv
      subst huv
      rcases hx with ⟨j, f, hj, rfl⟩ | hx
      · rw [hplace] at hj
        split at hj
        · cases hj
        · exact .inl (.inl ⟨j, f, hj, rfl⟩)
      · exact .inl (.inr hx)
    · exact .inl hx

end TerminalController.Kept

/-- The place of a slot holds an entry for it. -/
theorem Terminal.placeOf_slot {r : Terminal} {n : Slot} {i : Fin 12} (h : r.placeOf n = some i) :
    (vget r.watch i).map (·.slot) = some n := by
  obtain ⟨e, he, hn⟩ := r.placeOf_some n i h
  rw [he, Option.map_some, hn]

theorem Terminal.emptyPlace_none {r : Terminal} {i : Fin 12} (h : r.emptyPlace = some i) : vget r.watch i = none := by
  have := List.find?_some h
  simpa using this

namespace Quiet

variable {g : Prop} {s : State}

/-! ### Keys (8.6, 8.7, 9.3) -/

theorem mailboxMoveIn : Quiet g s s.mailboxMoveIn := by
  unfold State.mailboxMoveIn
  split
  · rename_i r q hm hq
    have h1 : Quiet g s (s.setPt { s.pt with keyQueue := q }) := setPt
      (.of_terms (fun _ => .refl _) (hq := fun h => by rw [hq] at h; exact (Nat.le_succ _).trans h)
        (hr := fun _ h x hx => h x (by rw [hq]; exact List.mem_cons_of_mem _ hx)))
      (fun _ _ h => by simp [h.keyQueue] at hq)
    exact ((h1.trans setCr).trans (markAllDirty (by decide))).trans (raise _)
  · exact refl g s

theorem mailboxRelease : Quiet g s s.mailboxRelease := by
  unfold State.mailboxRelease
  split
  · exact refl g s
  · exact (((setCr (g := g) (s := s)).trans (setFreeDraws _)).trans (markDirty (by decide))).trans mailboxMoveIn

theorem handRead (a : Addr) : Quiet g s (s.handRead a) := by
  unfold State.handRead
  split
  · exact mailboxRelease
  · exact refl g s

theorem sendKey (ha : g → s.isReady = true) (u : TermId) : Quiet g s (s.sendKey u) := by
  unfold State.sendKey
  simp only
  split
  · exact setTerm (.tell _ (by rintro _ ⟨⟩)) ha
  split
  · exact setTerm (.tell _ (by rintro _ ⟨⟩)) ha
  rename_i hq
  refine ((Quiet.trans (t := s.setPt { s.pt with
      terminals := vset s.pt.terminals u (({ s.term u with entry := [] } : Terminal).respond (.message .sent))
      keyQueue := s.pt.keyQueue ++ [⟨u, (s.term u).entry, (s.term u).recallStack.head?⟩] })
    (setPt_ready (.of_terms (fun v => ?_) (hq := fun _ => by simp; omega) (hr := fun hb h x hx => ?_)) ha)
    (markDirty (by decide)))).trans mailboxMoveIn
  · simp only [vget_vset]
    split
    · rename_i e
      subst e
      exact (Terminal.Kept.clearEntry _).trans (.tell _ (by rintro _ ⟨⟩))
    · exact .refl _
  · rcases List.mem_append.1 hx with hx | hx
    · exact h x hx
    · obtain rfl := List.mem_singleton.1 hx
      exact (hb u).1

theorem watchKey (ha : g → s.isReady = true) (u : TermId) : Quiet g s (s.watchKey u) := by
  unfold State.watchKey
  simp only
  split
  · exact setTerm (.tell _ (by rintro _ ⟨⟩)) ha
  split
  · exact setTerm (.tell _ (by rintro _ ⟨⟩)) ha
  rename_i n hn
  have hu := findSymbol_used hn
  split
  · exact setTerm (.tell _ (by rintro _ ⟨⟩)) ha
  rename_i hp
  split
  · exact setTerm (.tell _ (by rintro _ ⟨⟩)) ha
  rename_i i hi
  have hp : (s.term u).placeOf n = none := by simpa using hp
  have hw := ((s.term u).placeOf_eq_none n).1 hp
  have he := Terminal.emptyPlace_none hi
  let r1 : Terminal := ({ s.term u with entry := [] } : Terminal).respond (.message (.watching n))
  have h1 : (s.term u).Kept s.Used r1 := (Terminal.Kept.clearEntry _).trans (.respond _ _ (fun m hm => by
    rcases hm with hm | hm
    · exact absurd hm (by rintro ⟨⟩)
    · cases hm
      exact .inr hu))
  have hr : vget (s.pt.put u r1).terminals u = r1 := vget_vset_self _ _ _
  refine setPt_ready ((TerminalController.Kept.put u h1).trans (.addEntry _ u i _ hu ?_ ?_)) ha
  · rw [hr]
    exact fun h => hw ((h1.watches n).1 h)
  · rw [hr]
    exact he

theorem dropKey (ha : g → s.isReady = true) (u : TermId) : Quiet g s (s.dropKey u) := by
  unfold State.dropKey
  simp only
  split
  · exact setTerm (.tell _ (by rintro _ ⟨⟩)) ha
  split
  · exact setTerm (.tell _ (by rintro _ ⟨⟩)) ha
  rename_i n hn
  split
  · exact setTerm (.tell _ (by rintro _ ⟨⟩)) ha
  rename_i i hi
  split
  · exact setTerm (.tell _ (by rintro _ ⟨⟩)) ha
  let r1 : Terminal := ({ s.term u with entry := [] } : Terminal).respond .empty
  have h1 : (s.term u).Kept s.Used r1 := (Terminal.Kept.clearEntry _).trans (.respond _ _ (fun m hm => by
    rcases hm with hm | hm <;> exact absurd hm (by rintro ⟨⟩)))
  have hr : vget (s.pt.put u r1).terminals u = r1 := vget_vset_self _ _ _
  refine setPt_ready ((TerminalController.Kept.put u h1).trans (.removeEntry _ u i n ?_)) ha
  rw [hr]
  exact Terminal.placeOf_slot hi

theorem takeKey (ha : g → s.isReady = true) (u : TermId) (k : Key) : Quiet g s (s.takeKey u k) := by
  cases k
  · exact setTerm (.entryKey _ _) ha
  · exact setTerm (.quoteKeyOn s _) ha
  · exact setTerm (.recallKey _) ha
  · exact setTerm (.clearKey _) ha
  · exact sendKey ha u
  · exact watchKey ha u
  · exact dropKey ha u
  · exact setTerm (.acknowledge _) ha

theorem keyEvent (u : TermId) (k : Key) : Quiet g s (s.keyEvent u k) := by
  unfold State.keyEvent
  split
  · rename_i h
    exact takeKey (fun _ => h) u k
  · exact refl g s

/-! ### Turns (8.2, 8.5) -/

/-- A change of the loop's turn and pointer alone. -/
theorem setLoop {turn : Option Turn} {pointer : Nat} {frame : Text} (ha : g → s.isReady = true) :
    Quiet g s (s.setPt { s.pt with turn := turn, pointer := pointer, frameOut := frame }) :=
  setPt_ready (.of_terms (fun _ => .refl _)) ha

theorem startTurn (ha : g → s.isReady = true) (u : TermId) : Quiet g s (s.startTurn u) := by
  unfold State.startTurn
  simp only
  split
  · rename_i line bell _
    refine setPt_ready ((TerminalController.Kept.put u (r := { s.term u with
      dirty := leave line (s.term u).dirty, alerts := if bell then (s.term u).alerts.tail else (s.term u).alerts }) ?_).trans
      (.of_terms (fun _ => .refl _))) ha
    refine { bounded := fun ⟨h1, h2, h3, h4⟩ => ⟨h1, h2, ?_, h4⟩, dirty := leave_sorted line }
    cases bell
    · exact h3
    · show (s.term u).alerts.tail.length ≤ 4
      have h3' : (s.term u).alerts.length ≤ 4 := h3
      rw [List.length_tail]
      omega
  · exact setPt_ready (.of_terms (fun _ => .refl _)) ha

theorem turnStart : Quiet g s s.turnStart := by
  unfold State.turnStart
  split
  · rename_i h
    split
    · rename_i i _
      have h1 : Quiet g s (s.setPt { s.pt with pointer := i }) := setPt_ready (.of_terms (fun _ => .refl _)) (fun _ => h.1)
      exact h1.trans (startTurn (s := s.setPt { s.pt with pointer := i }) (fun _ => h.1) _)
    · exact refl g s
  · exact refl g s

theorem turnFrameSent : Quiet g s (s.setPt s.pt.frameSent) := by
  unfold TerminalController.frameSent
  split
  · rename_i u hu
    refine setPt (.of_terms (fun _ => .refl _)) (fun _ _ h => ⟨?_, fun v hv => ?_⟩)
    · have e := h.1
      generalize s.pt = p at e ⊢
      cases p
      simp only [TerminalController.reset, TerminalController.mk.injEq] at e ⊢
      tauto
    · cases hv
      exact h.2 u hu
  · exact setPt (.refl _) (fun _ _ h => h)

theorem turnDiscarded : Quiet g s s.turnDiscarded :=
  setPt (.of_terms (fun _ => .refl _)) (fun _ _ h => ⟨by
    have e := h.1
    generalize s.pt = p at e ⊢
    cases p
    simp only [TerminalController.reset, TerminalController.mk.injEq] at e ⊢
    tauto, (by rintro _ ⟨⟩)⟩)

/-- A turn ends in a part known to be READY. -/
theorem endTurn (ha : g → s.isReady = true) : Quiet g s (s.setPt s.pt.endTurn) := setLoop ha

theorem turnMissed (ha : g → s.isReady = true) (u : Turn) : Quiet g s (s.turnMissed u) := by
  have h1 : Quiet g s (s.setPt s.pt.endTurn) := endTurn ha
  have misses : ∀ (used : Slot → Prop) (r : Terminal) (m : Nat) (b : Bool), m < 3 →
      Terminal.Kept used r { r with misses := m, online := b } := fun used r m b hm =>
    { bounded := fun ⟨h1, h2, h3, h4, _⟩ => ⟨h1, h2, h3, h4, hm⟩ }
  let r0 := (s.setPt s.pt.endTurn).term u.terminal
  obtain ⟨r1, he⟩ : ∃ r1, r1 = match u.line with
      | some line => r0.mark line
      | none => r0 := ⟨_, rfl⟩
  have hk : r0.Kept (s.setPt s.pt.endTurn).Used r1 := by
    rw [he]
    split
    · exact .mark _ _
    · exact .refl _
  have hm : s.turnMissed u =
      if r1.online then
        if r1.misses + 1 < 3 then (s.setPt s.pt.endTurn).setTerm u.terminal { r1 with misses := r1.misses + 1 }
        else ((s.setPt s.pt.endTurn).setTerm u.terminal { r1 with online := false, misses := 0 }).raise flagTerm
      else (s.setPt s.pt.endTurn).setTerm u.terminal { r1 with misses := 0 } := by
    rw [he]
    rfl
  rw [hm]
  split
  · split
    · rename_i hm
      exact h1.trans (setTerm (hk.trans (misses _ r1 _ r1.online hm)) ha)
    · exact (h1.trans (setTerm (hk.trans (misses _ r1 0 false (by decide))) ha)).trans (raise _)
  · exact h1.trans (setTerm (hk.trans (misses _ r1 0 r1.online (by decide))) ha)

/-- A turn in hand of a part at rest is one to be discarded. -/
theorem turn_live {u : Turn} (hg : g → IdleOutsideReady s) (hu : s.pt.turn = some u) (hd : u.discard = false) :
    g → s.isReady = true := fun h => by
  by_contra hr
  have := ((idleOutsideReady_iff s).1 (hg h) (by simpa using hr)).2.loop.2 u hu
  simp [this] at hd

theorem turnMiss (hg : g → IdleOutsideReady s) : Quiet g s s.turnMiss := by
  unfold State.turnMiss
  split
  · rename_i u hu
    split
    · split
      · exact turnDiscarded
      · rename_i hd
        exact turnMissed (turn_live hg hu (by simpa using hd)) u
    · exact refl g s
  · exact refl g s

theorem turnAnswered (ha : g → s.isReady = true) (u : Turn) : Quiet g s (s.turnAnswered u) := by
  unfold State.turnAnswered
  simp only
  have h1 : Quiet g s (s.setPt s.pt.endTurn) := endTurn ha
  have answered : ∀ (used : Slot → Prop) (r : Terminal) (c : Bool),
      Terminal.Kept used r { r with misses := 0, clearPending := c } := fun used r c =>
    { bounded := fun ⟨h1, h2, h3, h4, _⟩ => ⟨h1, h2, h3, h4, by show 0 < 3; decide⟩ }
  have lit : ∀ (used : Slot → Prop) (r : Terminal),
      Terminal.Kept used r { r with online := true, dirty := allLines, clearPending := true } := fun used r =>
    { dirty := fun _ => by show allLines.Pairwise (· < ·); decide }
  split
  · exact h1.trans (setTerm (answered _ _ _) ha)
  · exact (h1.trans (setTerm ((answered _ _ false).trans (lit _ _)) ha)).trans (raise _)

theorem terminalAnswer (hg : g → IdleOutsideReady s) (bytes : Text) : Quiet g s (s.terminalAnswer bytes) := by
  unfold State.terminalAnswer
  split
  · exact refl g s
  rename_i u hu
  split
  · split
    · exact turnDiscarded
    · rename_i hd
      have ha := turn_live hg hu (by simpa using hd)
      split
      · exact turnMissed ha u
      · have h1 := turnAnswered ha u
        simp only
        split
        · exact h1.trans (takeKey (fun h => h1.isReady.trans (ha h)) _ _)
        · exact h1
  · exact refl g s

/-! ### The tape (chapter 6) -/

theorem tapeModeChanged (ha : g → s.isReady = true) (m : TapeMode) (l : Nat) : Quiet g s (s.tapeModeChanged m l) := by
  unfold State.tapeModeChanged
  split
  · exact refl g s
  · exact ((setTc_ready ha).trans (raise _)).trans (markStatusLines ha)

theorem startTrade (ha : g → s.isReady = true) (n : Slot) (p : Word) (z : Option Word) (st : Nat) (om : Bool) :
    Quiet g s (s.startTrade n p z st om) := by
  unfold State.startTrade
  have h1 := tapeModeChanged (g := g) ha (s.tc.modeFor (latenessOf s.cs.clock st)) (latenessOf s.cs.clock st)
  exact h1.trans (setTc_ready (fun h => h1.isReady.trans (ha h)))

/-- An empty tape's timer is stopped outside READY. -/
theorem tapePace (hg : g → IdleOutsideReady s) : Quiet g s s.tapePace := by
  unfold State.tapePace
  split
  · rename_i ht
    have ha : g → s.isReady = true := fun h => by
      by_contra hr
      have := ((idleOutsideReady_iff s).1 (hg h) (by simpa using hr)).2.tape.timer
      simp [this] at ht
    split
    · exact setTc_ready ha
    · split
      · exact setTc_ready ha
      · split
        · exact setTc_ready ha
        · have shorter : ∀ {p : Print} {q : List Print}, s.tc.queue = p :: q → s.tc.queue.length ≤ 96 → q.length ≤ 96 :=
            fun hq h => by
              rw [hq] at h
              exact (Nat.le_succ _).trans h
          split
          · rename_i q hq
            have h1 : Quiet g s (s.setTc { s.tc with queue := q }) := setTc_ready ha (shorter hq)
            exact h1.trans (startTrade (s := s.setTc { s.tc with queue := q }) ha _ _ _ _ _)
          · rename_i hq
            exact setTc_ready ha (shorter hq)
          · exact setTc_ready ha
  · exact refl g s

end Quiet

/-! ### Prints (6.1) -/

theorem mergeYoungest_length {slot : Slot} {price : Word} {size : Option Word} {n : Nat} {ps qs : List Print}
    (h : mergeYoungest slot price size n ps = some qs) : qs.length = ps.length := by
  induction n generalizing ps qs with
  | zero => simp [mergeYoungest] at h
  | succ n ih =>
    cases ps with
    | nil => simp [mergeYoungest] at h
    | cons x xs =>
      cases x with
      | trade sl pr sz st om =>
        simp only [mergeYoungest] at h
        split at h
        · cases h
          rfl
        · obtain ⟨ys, hy, rfl⟩ := Option.map_eq_some_iff.1 h
          simp [ih hy]
      | bulletin t om =>
        obtain ⟨ys, hy, rfl⟩ := Option.map_eq_some_iff.1 h
        simp [ih hy]

theorem TapeController.notice_length (t : TapeController) (n : Notice) (h : t.queue.length ≤ 96) :
    (t.notice n).queue.length ≤ 96 := by
  unfold TapeController.notice
  split
  · unfold TapeController.addTrade
    split
    · simp
      omega
    · split
      · rename_i q hq
        simpa [mergeYoungest_length hq] using h
      · exact h
  · exact h

theorem TapeController.bulletinWrite_length (t : TapeController) (i : Fin 8) (d : Word) (lanes : Lanes)
    (h : t.queue.length ≤ 96) : (t.bulletinWrite i d lanes).queue.length ≤ 96 := by
  unfold TapeController.bulletinWrite
  simp only
  split
  · unfold TapeController.addBulletin
    simp only
    split
    · exact h
    · split
      · simp
        omega
      · exact h
  · exact h

end Sys2Proof.Machine
end

