-- ==== Sys2Proof/Proofs/Calm.lean ====
section
/-!
PROOFS. What the records, the clock and the commands of the owners do is quiet; what opens, closes, dims, darkens or rolls the session is
calm: quiet but for the session, the walk and the running command (chapters 1, 7 and 10).
-/

namespace Sys2Proof.Machine

-- A proof that a field or a hypothesis fills in by default waits for all before it: elaborated at once, each would hold a thread.
set_option Elab.async false

namespace Quiet

variable {g : Prop} {s : State}

/-! ### Records and notices (R17, R44) -/

theorem changeRecord (ha : g → s.isReady = true) (n : Notice) (r : SlotRec) (h : s.Used n.slot → r.state ≠ .unused) :
    Quiet g s (s.changeRecord n r) := by
  unfold State.changeRecord
  have h1 : Quiet g s (s.setSlot n.slot r) := setSlot h
  have h2 := h1.trans (setDue (g := g) (s := s.setSlot n.slot r) ha (dueFor s n.slot (s.slot n.slot) r))
  have h3 := h2.trans (setBc_ready (.notice _ n) ha)
  have h4 := h3.trans (setTc_ready ha (TapeController.notice_length _ n))
  exact h4.trans (setPt_ready (.notice _ n r.close) ha)

theorem feedRestart (ha : g → s.isReady = true) : Quiet g s s.feedRestart := by
  unfold State.feedRestart
  simp only
  have h1 : Quiet g s (s.setCs { s.cs with feedCount := 0, feedStale := false }) := setCs
  split
  · exact h1.trans (markStatusLines ha)
  · exact h1

theorem captureTrade (ha : g → s.isReady = true) (w : Fin 8) (n : Slot) (v : Word) : Quiet g s (s.captureTrade w n v) := by
  unfold State.captureTrade
  have h1 : Quiet g s (s.setPendingSize n none) := setPendingSize n none
  have h2 := h1.trans (changeRecord (s := s.setPendingSize n none) ha
    (tradeNotice n (s.slot n) (captureRec (s.slot n) v (vget s.qe.pendingSize n) s.cs.clock) (vget s.qe.pendingSize n) s.cs.clock)
    (captureRec (s.slot n) v (vget s.qe.pendingSize n) s.cs.clock) id)
  have h3 := h2.trans (countDown w)
  exact h3.trans (feedRestart (fun h => h3.isReady.trans (ha h)))

theorem lastWrite (ha : g → s.isReady = true) (w : Fin 8) (n : Slot) (v : Word) : Quiet g s (s.lastWrite w n v) := by
  unfold State.lastWrite
  split
  · exact captureTrade ha w n v
  · exact anomaly

theorem sizeWrite (n : Slot) (v : Word) : Quiet g s (s.sizeWrite n v) := by
  unfold State.sizeWrite
  split
  · exact anomaly
  · exact setPendingSize _ _

theorem closeTo (ha : g → s.isReady = true) (n : Slot) (v : Word) : Quiet g s (s.closeTo n v) :=
  changeRecord ha _ _ id

theorem closeWrite (ha : g → s.isReady = true) (n : Slot) (v : Word) : Quiet g s (s.closeWrite n v) := by
  unfold State.closeWrite
  split
  · exact anomaly
  · exact closeTo ha n v

theorem quoteWrite (ha : g → s.isReady = true) (w : Fin 8) (n : Slot) (d : Word) (lanes : Lanes) (f : QuoteField) :
    Quiet g s (s.quoteWrite w n d lanes f) := by
  cases f <;> simp only [State.quoteWrite]
  case last =>
    split
    · exact lastWrite ha w n d
    · exact anomaly
  case size =>
    split
    · exact sizeWrite n d
    · exact anomaly
  case close =>
    split
    · exact closeWrite ha n d
    · exact anomaly
  all_goals exact refl g s

theorem textWrite (ha : g → s.isReady = true) (w : Fin 8) (line : Nat) : Quiet g s (s.setBc (s.bc.textWrite w line)) :=
  setBc_ready (.textWrite _ w line) ha

theorem bulletinWrite (ha : g → s.isReady = true) (i : Fin 8) (d : Word) (lanes : Lanes) :
    Quiet g s (s.setTc (s.tc.bulletinWrite i d lanes)) :=
  setTc_ready ha (TapeController.bulletinWrite_length _ i d lanes)

/-! ### Clock, sweep and feed (7.1, 7.4) -/

theorem feedGoesStale : Quiet g s s.feedGoesStale := by
  unfold State.feedGoesStale
  split
  · rename_i h
    have ha : g → s.isReady = true := fun _ => h.1
    have h1 : Quiet g s (s.setCs { s.cs with feedStale := true, feedCount := s.cs.feedTimeout }) := setCs
    have h2 := h1.trans (setTc_ready (t := { s.tc with reserved := some noReportsText }) ha)
    exact (h2.trans (raise flagFeed)).trans (markStatusLines ha)
  · exact refl g s

theorem feedSecond : Quiet g s s.feedSecond := by
  unfold State.feedSecond
  split
  · split
    · exact feedGoesStale
    · exact setCs
  · exact refl g s

theorem sweepSecond : Quiet g s s.sweepSecond := by
  unfold State.sweepSecond
  split
  · rename_i h
    split
    · exact sweepExpiry
    · exact setBc_ready { link := fun _ => .refl _ } (fun _ => h.1)
  · exact refl g s

theorem wholeSecond : Quiet g s s.wholeSecond :=
  ((markAllDirty (by decide)).trans sweepSecond).trans feedSecond

theorem wholeMinute : Quiet g s s.wholeMinute := by
  unfold State.wholeMinute
  split
  · rename_i h
    exact markStatusLines (fun _ => h)
  · exact refl g s

theorem wholeSecondEvent : Quiet g s s.wholeSecondEvent := by
  unfold State.wholeSecondEvent
  split
  · exact setCs
  · exact wholeSecond

end Quiet

theorem ClockSession.trimStep_lt {c : ClockSession} (h : c.trimMagnitude < 32768) (ha : c.trimAccumulator < 1048576) :
    c.trimStep.1 ≤ 2 ∧ c.trimStep.2 < 1048576 := by
  unfold ClockSession.trimStep
  simp only
  split
  · constructor
    · show (if c.trimNegative then 0 else 2) ≤ 2
      split <;> omega
    · show c.trimAccumulator + c.trimMagnitude - 1048576 < 1048576
      omega
  · exact ⟨by show 1 ≤ 2; omega, by show c.trimAccumulator + c.trimMagnitude < 1048576; omega⟩

theorem advanceBy_lt {clock k : Nat} (h : clock < 864000) (hk : k ≤ 2) : advanceBy clock k < 864000 := by
  unfold advanceBy
  split <;> omega

theorem field_lt (w : Word) (top low : Nat) : field w top low < 2 ^ (top + 1 - low) :=
  Nat.mod_lt _ (Nat.two_pow_pos _)

namespace Quiet

variable {g : Prop} {s : State}

theorem baseStep : Quiet g s s.baseStep := by
  unfold State.baseStep
  simp only
  have h1 : Quiet g s (s.setCs { s.cs with
      clock := advanceBy s.cs.clock s.cs.trimStep.1
      trimAccumulator := s.cs.trimStep.2
      secondTaken := decide (s.cs.clock / 10 ≠ advanceBy s.cs.clock s.cs.trimStep.1 / 10) }) :=
    setCs (hc := fun ⟨hc, hm, ha⟩ =>
      ⟨advanceBy_lt hc (ClockSession.trimStep_lt hm ha).1, hm, (ClockSession.trimStep_lt hm ha).2⟩)
  split
  · exact h1
  · have h2 := (h1.trans (lowerBlinks s.cs.trimStep.1)).trans blinkExpiry
    have h3 := h2.trans wholeSecond
    split
    · split
      · exact h3.trans wholeMinute
      · exact h2.trans wholeMinute
    · split
      · exact h3
      · exact h2

/-! ### The commands of the owners -/

theorem cmdSetClock (ha : g → s.isReady = true) (operand : Byte) : Quiet g s (s.cmdSetClock operand) := by
  have time : ∀ {x : State}, (g → x.isReady = true) → x.paramTime < 864000 → Quiet g x x.takeTime := fun {x} hx ht =>
    ((setCs (c := { x.cs with clock := x.paramTime, notSet := false }) (hc := fun ⟨_, h2, h3⟩ => ⟨ht, h2, h3⟩)).trans
      (markAllDirty (os := [15, 16]) (by decide))).trans (markStatusLines hx)
  have trim : ∀ x : State, Quiet g x x.takeTrim := fun x => setCs (hc := fun ⟨h1, _, _⟩ => ⟨h1, field_lt _ 14 0, Nat.two_pow_pos 20⟩)
  have done : ∀ {x : State}, Quiet g s x → Quiet g s ((if operand.getLsbD 1 then x.takeTrim else x).cmdDone 0x09) := fun {x} h => by
    split
    · exact (h.trans (trim x)).trans (cmdDone _)
    · exact h.trans (cmdDone _)
  unfold State.cmdSetClock
  simp only
  split
  · exact cmdRefused _ _
  · rename_i hr
    by_cases h0 : operand.getLsbD 0 = true
    · have ht : s.paramTime < 864000 := by simpa [h0] using hr
      rw [if_pos h0]
      exact done (time ha ht)
    · rw [if_neg h0]
      exact done (refl g s)

theorem cmdSetClose (ha : g → s.isReady = true) : Quiet g s s.cmdSetClose := by
  unfold State.cmdSetClose
  split
  · exact cmdRefused _ _
  · split
    · exact cmdRefused _ _
    · exact (closeTo ha _ _).trans (cmdDone _)

theorem cmdHalt (ha : g → s.isReady = true) : Quiet g s s.cmdHalt := by
  unfold State.cmdHalt
  split
  · exact cmdRefused _ _
  · split
    · exact cmdRefused _ _
    · exact cmdRefused _ _
    · exact (changeRecord ha _ _ (fun _ => SlotState.noConfusion)).trans (cmdDone _)

theorem cmdResume (ha : g → s.isReady = true) : Quiet g s s.cmdResume := by
  unfold State.cmdResume
  split
  · exact cmdRefused _ _
  · split
    · exact cmdRefused _ _
    · exact cmdRefused _ _
    · exact (changeRecord ha _ _ (fun _ => SlotState.noConfusion)).trans (cmdDone _)

theorem cmdWatch (ha : g → s.isReady = true) (operand : Byte) : Quiet g s (s.cmdWatch operand) := by
  unfold State.cmdWatch
  split
  · rename_i u n _ _
    simp only
    split
    · exact cmdRefused _ _
    · rename_i hu
      split
      · rename_i i hi
        exact (setPt_ready (.rewriteEntry s.pt u i (hostEntry n (s.slot n).last (s.param 1) (s.param 2) (s.param 3)) (Terminal.placeOf_slot hi)) ha).trans (cmdDone _)
      · rename_i hn
        split
        · exact cmdRefused _ _
        · rename_i i hi
          have hw := ((s.term u).placeOf_eq_none n).1 hn
          exact (setPt_ready (.addEntry s.pt u i (hostEntry n (s.slot n).last (s.param 1) (s.param 2) (s.param 3)) hu hw (Terminal.emptyPlace_none hi)) ha).trans (cmdDone _)
  · exact cmdRefused _ _
  · exact cmdRefused _ _

theorem cmdUnwatch (ha : g → s.isReady = true) (operand : Byte) : Quiet g s (s.cmdUnwatch operand) := by
  unfold State.cmdUnwatch
  split
  · rename_i u n _ _
    split
    · rename_i i hi
      exact (setPt_ready (.removeEntry s.pt u i n (Terminal.placeOf_slot hi)) ha).trans (cmdDone _)
    · exact cmdRefused _ _
  · exact cmdRefused _ _
  · exact cmdRefused _ _

end Quiet

theorem statusChars_length (v : Vector Word 4) : (statusChars v).length = 8 := by simp [statusChars]

namespace Quiet

variable {g : Prop} {s : State}

theorem cmdStatusText (ha : g → s.isReady = true) (operand : Byte) : Quiet g s (s.cmdStatusText operand) := by
  unfold State.cmdStatusText
  simp only
  have hl := statusChars_length s.cr.shadows
  split
  · exact (setTerm (.setStatus _ hl) ha).trans (cmdDone _)
  · split
    · exact (setPt_ready (.vmap s.pt _ (fun r => .setStatus r hl)) ha).trans (cmdDone _)
    · exact cmdRefused _ _

theorem cmdRepaint (ha : g → s.isReady = true) (operand : Byte) : Quiet g s (s.cmdRepaint operand) :=
  (setBc_ready (.repaint _ operand) ha).trans (cmdDone _)

theorem cmdTapeClear (ha : g → s.isReady = true) : Quiet g s s.cmdTapeClear :=
  (setTc_ready ha (fun _ => Nat.zero_le _)).trans (cmdDone _)

/-- A roll of one slot, in a part known to be READY. -/
theorem rollOne (ha : g → s.isReady = true) (n : Slot) : Quiet g s (s.rollOne n) := by
  unfold State.rollOne
  split
  · exact refl g s
  · have h1 : Quiet g s (s.setPendingSize n none) := setPendingSize n none
    exact h1.trans (changeRecord (s := s.setPendingSize n none) ha (rollNotice n) (rollRec (s.slot n)) id)

end Quiet

/-! ### Changes that are quiet but for the session, the walk and the running command -/

/-- The change from `s` to `t` is quiet but for the session, the ROLL walk and the running command. -/
structure Calm (g : Prop) (s t : State) : Prop where
  pin : t.resetPin = s.resetPin := by rfl
  mem : t.mem = s.mem := by rfl
  bp : t.bp = s.bp := by rfl
  part : t.cr.part = s.cr.part := by rfl
  mask : t.cr.mask = s.cr.mask := by rfl
  marks : ∀ w, s.isMarked w = true → t.isMarked w = true := by exact fun _ h => h
  due : g → s.isReady = false → s.qe.due = [] → t.qe.due = [] := by exact fun _ _ h => h
  clock : ClockInRange s → ClockInRange t := by exact id
  rest : g → s.isReady = false → BlocksRest s → BlocksRest t := by exact fun _ _ h => ⟨h.1, h.2, h.3⟩
  caps : CapacitiesKept s → CapacitiesKept t := by exact id
  sets : SetsOrdered s → SetsOrdered t := by exact id
  queues : RefreshQueuesDistinct s → RefreshQueuesDistinct t := by exact id
  blinks : BlinkListsDistinct s → BlinkListsDistinct t := by exact id
  subs : SubscribersAgree s → SubscribersAgree t := by exact id
  named : NamedSlotsListed s → NamedSlotsListed t := by exact id

theorem Quiet.calm {g : Prop} {s t : State} (h : Quiet g s t) : Calm g s t :=
  ⟨h.pin, h.mem, h.bp, h.part, h.mask, h.marks, h.due, h.clock, h.rest, h.caps, h.sets, h.queues, h.blinks, h.subs, h.named⟩

namespace Calm

variable {g : Prop} {s t u : State}

theorem isReady (h : Calm g s t) : t.isReady = s.isReady := by
  unfold State.isReady
  rw [h.part]

theorem trans (h : Calm g s t) (k : Calm g t u) : Calm g s u where
  pin := k.pin.trans h.pin
  mem := k.mem.trans h.mem
  bp := k.bp.trans h.bp
  part := k.part.trans h.part
  mask := k.mask.trans h.mask
  marks := fun w => k.marks w ∘ h.marks w
  due := fun x hr hd => k.due x (h.isReady.trans hr) (h.due x hr hd)
  clock := k.clock ∘ h.clock
  rest := fun x hr hb => k.rest x (h.isReady.trans hr) (h.rest x hr hb)
  caps := k.caps ∘ h.caps
  sets := k.sets ∘ h.sets
  queues := k.queues ∘ h.queues
  blinks := k.blinks ∘ h.blinks
  subs := k.subs ∘ h.subs
  named := k.named ∘ h.named

/-- A calm change after which the modes agree keeps every invariant. -/
theorem keeps (h : Calm g s t) (hm : ModesAgree s → ModesAgree t) : Keeps g s t where
  pin := h.pin
  mem := fun hs => by rwa [MemoryCanonical, h.mem]
  clock := h.clock
  anchor := fun hs => by rwa [AnchorFits, h.bp]
  modes := hm
  mask := fun hs => by rwa [MaskClearOutsideReady, h.isReady, h.mask]
  idle := fun x _ hi => by
    rw [idleOutsideReady_iff] at hi ⊢
    intro hr
    rw [h.isReady] at hr
    rw [h.bp]
    exact ⟨(hi hr).1, h.rest x hr (hi hr).2⟩
  caps := h.caps
  sets := h.sets
  queues := h.queues
  blinks := h.blinks
  subs := h.subs
  named := fun _ _ _ => h.named
  legal := fun hs => by rwa [SideQueueLegal, h.bp]
  marked := fun x _ _ he => by
    refine ⟨fun w hw => h.marks w (he.1 w (by rwa [h.bp] at hw)), fun hr => ?_⟩
    rw [h.isReady] at hr
    exact h.due x hr (he.2 hr)

theorem setCs {c : ClockSession}
    (hc : ClockInRange s → c.clock < 864000 ∧ c.trimMagnitude < 32768 ∧ c.trimAccumulator < 1048576 := by exact id) :
    Calm g s (s.setCs c) where
  clock := hc

theorem setRunning (x : Option RunningCommand) : Calm g s (s.setCr { s.cr with running := x }) := {}

/-! ### The session (R134 to R140) -/

theorem setSession {x : Session} (ha : g → s.isReady = true) : Calm g s (s.setSession x) :=
  (setCs (g := g) (c := { s.cs with session := x })).trans (Quiet.calm (Quiet.markStatusLines ha))

theorem openMarket (ha : g → s.isReady = true) : Calm g s s.openMarket :=
  (setCs (g := g) (c := { s.cs with feedCount := 0, feedStale := false })).trans (setSession ha)

theorem closeMarket (ha : g → s.isReady = true) : Calm g s s.closeMarket :=
  (setCs (g := g) (c := { s.cs with feedCount := 0, feedStale := false })).trans (setSession ha)

theorem sessionDark : Calm g s s.sessionDark := by
  unfold State.sessionDark
  split
  · rename_i h
    have ha : g → s.isReady = true := fun _ => h.1
    have h1 : Quiet g s (s.setBc { s.bc with links := vmap Link.goDark s.bc.links }) :=
      Quiet.setBc_ready (.vmap _ _ (fun k _ => .goDark k)) ha
    exact ((h1.calm.trans (setRunning none)).trans (setSession ha)).trans (Quiet.cmdDone 0x05).calm
  · exact (Quiet.refl g s).calm

theorem rollAccepted (ha : g → s.isReady = true) : Calm g s s.rollAccepted := by
  unfold State.rollAccepted
  simp only
  have h1 : Quiet g s (s.setBc { s.bc with links := vmap Link.rollAccepted s.bc.links }) :=
    Quiet.setBc_ready (.vmap _ _ (fun k _ => .rollAccepted k)) ha
  have h2 := h1.trans (Quiet.setTc_ready (t := s.tc.rollAccepted) ha (fun _ => Nat.zero_le _))
  have h3 := h2.trans (Quiet.setPt_ready (p := s.pt.rollEntries) (.vmap s.pt _ (fun r => .rollEntries r)) ha)
  split
  · exact (h3.calm.trans setCs).trans (setRunning _)
  · exact ((h3.trans (Quiet.markStatusLines ha)).calm.trans setCs).trans (setRunning _)

theorem rollEnds (ha : g → s.isReady = true) : Calm g s s.rollEnds :=
  (((setCs (g := g) (c := { s.cs with rollNext := none })).trans (setRunning none)).trans (setSession ha)).trans
    (Quiet.cmdDone 0x02).calm

theorem rollSlot (ha : g → s.cs.rollNext.isSome = true → s.isReady = true) : Calm g s s.rollSlot := by
  unfold State.rollSlot
  split
  · exact (Quiet.refl g s).calm
  · rename_i n hn
    have h1 := Quiet.rollOne (g := g) (s := s) (fun h => ha h (by rw [hn]; rfl)) n
    simp only
    split
    · exact h1.calm.trans (rollEnds (fun h => h1.isReady.trans (ha h (by rw [hn]; rfl))))
    · exact h1.calm.trans setCs

theorem dimmed (ha : g → s.isReady = true) : Calm g s s.dimmed := by
  have h0 : Quiet g s (s.setStatus 0x05 .running .none) := Quiet.setStatus _ _ _
  have hb : ∀ x : State, (g → x.isReady = true) → Calm g x (x.setBc { x.bc with links := vmap Link.endPass x.bc.links }) :=
    fun x hx => (Quiet.setBc_ready (.vmap _ _ (fun k _ => .endPass k)) hx).calm
  have hx : g → (s.setStatus 0x05 .running .none).isReady = true := fun h => h0.isReady.trans (ha h)
  exact ((h0.calm.trans (setRunning (some .dark))).trans (hb _ hx)).trans (setSession hx)

theorem lineChange (line : LineId) (level : Bool) : Calm g s (s.lineChange line level) := by
  unfold State.lineChange
  simp only
  have h1 : Calm g s (s.setCs { s.cs with lineLevels := vset s.cs.lineLevels line level }) := setCs
  split
  · rename_i h
    simp only [Bool.and_eq_true] at h
    exact (h1.trans (openMarket (fun _ => h.1.1))).trans (Quiet.raise flagBell).calm
  · split
    · rename_i h
      simp only [Bool.and_eq_true] at h
      exact (h1.trans (closeMarket (fun _ => h.1.1))).trans (Quiet.raise flagBell).calm
    · exact h1

end Calm

end Sys2Proof.Machine
end

