-- ==== Sys2Proof/Proofs/LoadKeeps.lean ====
section
/-!
PROOFS. LOAD and the Bus Path keep every invariant: blocks at rest hold nothing, a configured link holds nothing but stale rows, and a
landing, a host access and a hold touch memory, marks and entries alone (chapters 3 and 10.3).
-/

namespace Sys2Proof.Machine

-- A proof that a field or a hypothesis fills in by default waits for all before it: elaborated at once, each would hold a thread.
set_option Elab.async false

/-! ### Blocks at rest hold nothing -/

theorem TerminalController.Resting.terminal {p : TerminalController} (h : p.Resting) (u : TermId) :
    vget p.terminals u = Terminal.reset := by
  rw [h.1]
  exact vget_replicate _ _

theorem TerminalController.Resting.subscribers {p : TerminalController} (h : p.Resting) (n : Slot) :
    vget p.subscribers n = [] := by
  rw [h.1]
  exact vget_replicate _ _

theorem Terminal.reset_watches (n : Slot) : ¬ Terminal.reset.Watches n := by
  rintro ⟨i, e, he, _⟩
  have : vget Terminal.reset.watch i = none := vget_replicate _ _
  simp [this] at he

theorem Terminal.reset_bounded : Terminal.reset.Bounded := by
  unfold Terminal.Bounded
  decide

theorem Link.Idle.bounded {k : Link} (h : k.Idle) : k.Bounded := by
  rw [h.1]
  exact ⟨Nat.zero_le 32, Nat.zero_le 16, Link.Kept.zero_lt_three⟩

theorem Link.Idle.queue {k : Link} (h : k.Idle) : k.queue = [] := by rw [h.1]; rfl

theorem Link.Idle.stale {k : Link} (h : k.Idle) : k.stale = [] := by rw [h.1]; rfl

/-- With no command running, no walk and the session CLOSED, what is not LOADING is agreed. -/
theorem modesAgree_of_still {s : State} (hc : s.cs.session = .closed) (hp : ∀ run, s.cr.part ≠ .loading run)
    (hr : s.cr.running = none) (hn : s.cs.rollNext = none) : ModesAgree s := by
  refine ⟨fun h => absurd hc h, ?_, ?_, ?_, ?_⟩
  · rw [hr, iff_comm]
    exact ⟨fun h => (hp _ h.choose_spec).elim, by rintro ⟨⟩⟩
  · rw [hr, hc]
    exact ⟨by rintro ⟨⟩, by rintro ⟨⟩⟩
  · rw [hr, hn]
    exact ⟨by rintro ⟨⟩, by rintro ⟨⟩⟩
  · rw [hn]
    rintro ⟨⟩

namespace BlocksRest

variable {s : State} (h : BlocksRest s)

include h

theorem capacitiesKept : CapacitiesKept s := by
  refine ⟨?_, ?_, ?_, fun l => (h.board.2 l).bounded, fun u => ?_⟩
  · rw [h.tape]
    exact Nat.zero_le 96
  · rw [h.loop.keyQueue]
    exact Nat.zero_le 8
  · rw [h.loop.keyQueue]
    exact fun r hr => (by cases hr)
  · show (vget s.pt.terminals u).Bounded
    rw [h.loop.terminal u]
    exact Terminal.reset_bounded

theorem refreshQueuesDistinct : RefreshQueuesDistinct s := fun l => by
  have : (s.link l).queue = [] := (h.board.2 l).queue
  rw [this]
  exact ⟨List.nodup_nil, fun p hp => (by cases hp)⟩

theorem blinkListsDistinct : BlinkListsDistinct s := fun l => by
  have : (s.link l).blink = [] := (h.board.2 l).blink
  rw [this]
  exact ⟨List.nodup_nil, fun p hp => (by cases hp), List.Pairwise.nil, fun _ => rfl⟩

theorem subscribersAgree : SubscribersAgree s := by
  have ht : ∀ u, s.term u = Terminal.reset := h.loop.terminal
  constructor
  · intro u i j e f he
    rw [ht u] at he
    exact absurd ⟨i, e, he, rfl⟩ (Terminal.reset_watches e.slot)
  · intro u n
    rw [h.loop.subscribers n, ht u]
    simpa using Terminal.reset_watches n

theorem namedSlotsListed : NamedSlotsListed s := by
  intro u n hn
  have : s.term u = Terminal.reset := h.loop.terminal u
  rw [this] at hn
  rcases hn with hn | hn | hn | hn
  · exact absurd hn (Terminal.reset_watches n)
  · exact (by cases hn)
  · exact (by cases hn)
  · exact (by cases hn)

/-- The ordered sets of a part whose blocks rest are those of CR and QE. -/
theorem setsOrdered (hd : s.cr.dirty.Pairwise (· < ·)) (hr : ∀ o ∈ s.cr.dirty, o ∈ reportOffsets) (hm : s.qe.due = []) :
    SetsOrdered s := by
  refine ⟨hd, hr, by rw [hm]; exact List.Pairwise.nil, fun l => ?_, fun u => ?_, fun n => ?_⟩
  · have : (s.link l).stale = [] := (h.board.2 l).stale
    rw [this]
    exact List.Pairwise.nil
  · have : s.term u = Terminal.reset := h.loop.terminal u
    rw [this]
    exact List.Pairwise.nil
  · rw [h.loop.subscribers n]
    exact List.Pairwise.nil

end BlocksRest

/-! ### Blocks that a LOAD has taken rest (R106, R128, R152) -/

theorem BoardController.loadAccepted_resting (b : BoardController) : b.loadAccepted.Resting :=
  ⟨rfl, fun l => by
    show Link.Idle (vget (vmap Link.loadAccepted b.links) l)
    rw [vget_vmap]
    exact Link.loadAccepted_idle _⟩

theorem TapeController.loadAccepted_resting (t : TapeController) : t.loadAccepted.Resting := rfl

theorem TerminalController.loadAccepted_resting (p : TerminalController) : p.loadAccepted.Resting := by
  refine ⟨rfl, fun u hu => ?_⟩
  obtain ⟨v, _, rfl⟩ := Option.map_eq_some_iff.1 hu
  rfl

/-- The blocks after a LOAD took them. -/
theorem BlocksRest.of_loadAccepted {s t : State} (hb : t.bc = s.bc.loadAccepted) (ht : t.tc = s.tc.loadAccepted)
    (hp : t.pt = s.pt.loadAccepted) : BlocksRest t where
  board := hb ▸ s.bc.loadAccepted_resting
  tape := ht ▸ s.tc.loadAccepted_resting
  loop := hp ▸ s.pt.loadAccepted_resting

/-- A change to a part outside READY whose blocks rest keeps every invariant. -/
theorem Keeps.of_blocksRest {g : Prop} {s t : State} (hb : BlocksRest t) (hmask : t.cr.mask = 0)
    (hw : t.bp.windows = []) (hdue : t.qe.due = []) (hm : ModesAgree s → ModesAgree t) (hclock : ClockInRange s → ClockInRange t)
    (hsets : SetsOrdered s → t.cr.dirty.Pairwise (· < ·) ∧ ∀ o ∈ t.cr.dirty, o ∈ reportOffsets)
    (hq : t.bp.queue.Sublist s.bp.queue)
    (hmk : SetsOrdered s → EntriesAreMarked s → ∀ w ∈ t.bp.queue, t.isMarked w = true)
    (hp : t.resetPin = s.resetPin := by rfl) (hmem : t.mem = s.mem := by rfl) (ha : t.bp.anchor = s.bp.anchor := by rfl) :
    Keeps g s t where
  pin := hp
  mem := fun hs => by rwa [MemoryCanonical, hmem]
  clock := hclock
  anchor := fun hs => by rwa [AnchorFits, ha]
  modes := hm
  mask := fun _ _ => hmask
  idle := fun _ _ _ => (idleOutsideReady_iff t).2 (fun _ => ⟨hw, hb⟩)
  caps := fun _ => hb.capacitiesKept
  sets := fun hs => hb.setsOrdered (hsets hs).1 (hsets hs).2 hdue
  queues := fun _ => hb.refreshQueuesDistinct
  blinks := fun _ => hb.blinkListsDistinct
  subs := fun _ => hb.subscribersAgree
  named := fun _ _ _ _ => hb.namedSlotsListed
  legal := fun hs => ⟨hq.length_le.trans hs.1, hq.nodup hs.2⟩
  marked := fun _ _ ho he => ⟨hmk ho he, fun _ => hdue⟩

theorem ModesAgree.closed_of_not_ready {s : State} (h : ModesAgree s) (hr : s.isReady = false) : s.cs.session = .closed := by
  by_contra hc
  simp [h.1 hc] at hr

theorem ModesAgree.no_roll {s : State} (h : ModesAgree s) (hr : s.cr.running ≠ some .roll) : s.cs.rollNext = none := by
  obtain ⟨-, -, -, h4, -⟩ := h
  have := mt h4.2 hr
  simpa using this

theorem ModesAgree.ready {s : State} (h : ModesAgree s) (hr : s.cr.running ≠ some .load) (hp : s.cr.part ≠ .unconfigured) :
    s.isReady = true := by
  obtain ⟨-, h2, -⟩ := h
  unfold State.isReady
  cases e : s.cr.part with
  | unconfigured => exact absurd e hp
  | loading run => exact absurd (h2.2 ⟨run, e⟩) hr
  | ready => rfl

theorem State.isReady_false {s : State} {run : LoadRun} (h : s.cr.part = .loading run) : s.isReady = false := by
  simp [State.isReady, h]

/-! ### LOAD (10.3) -/

/-- The entries of report words alone. -/
def reportEntries (q : List SideWord) : List SideWord := q.filter (fun w => match w with
  | .report _ => true
  | .writeBack _ => false)

theorem mem_reportEntries {q : List SideWord} {w : SideWord} (h : w ∈ reportEntries q) : w ∈ q ∧ ∃ o, w = .report o := by
  obtain ⟨h1, h2⟩ := List.mem_filter.1 h
  refine ⟨h1, ?_⟩
  cases w with
  | report o => exact ⟨o, rfl⟩
  | writeBack m => cases h2

/-- What an accepted LOAD leaves, written out (R192). -/
theorem State.loadAccepted_eq (s : State) : s.loadAccepted = { s with
    bp := { s.bp with windows := [], queue := reportEntries s.bp.queue }
    qe := .reset
    bc := s.bc.loadAccepted
    tc := s.tc.loadAccepted
    pt := s.pt.loadAccepted
    cs := { s.cs with lineFunctions := Vector.replicate 4 .none, feedStale := false, feedTimeout := 0, feedCount := 0 }
    cr := { s.cr with
      part := .loading .start
      running := some .load
      status := ⟨0x01, .running, .none⟩
      flags := 0
      mask := 0
      dirty := join 8 s.cr.dirty
      mailbox := none
      sequence := 0
      tagIdle := if s.cr.mailbox.isSome then Config.releasedTagBits s.freeDraws else s.cr.tagIdle
      diagReason := 0
      diagIndex := 0 }
    freeDraws := if s.cr.mailbox.isSome then s.freeDraws + 1 else s.freeDraws } := by
  unfold State.loadAccepted
  simp only
  split <;> rfl

namespace Keeps

variable {g : Prop} {s : State}

/-- LOAD is accepted with no command running, outside READY or in CLOSED (R192). -/
theorem loadAccepted (hn : s.cr.running = none)
    (hc : s.cr.part = .unconfigured ∨ (s.isReady = true ∧ s.cs.session = .closed)) : Keeps g s s.loadAccepted := by
  rw [State.loadAccepted_eq]
  refine Keeps.of_blocksRest (.of_loadAccepted (s := s) rfl rfl rfl) rfl rfl rfl (fun hm => ?_) id
    (fun ⟨h1, h2, _⟩ => ?_) List.filter_sublist (fun _ he w hw => ?_)
  · have hs : s.cs.session = .closed := hc.elim
      (fun h => hm.closed_of_not_ready (by simp [State.isReady, h])) (fun h => h.2)
    have hroll := hm.no_roll (by simp [hn])
    refine ⟨fun h => absurd hs h, ⟨fun _ => ⟨_, rfl⟩, fun _ => rfl⟩, ⟨fun h => ?_, fun h => ?_⟩, ⟨fun h => ?_, fun h => ?_⟩, fun h => ?_⟩
    · cases h
    · exact absurd (hs.symm.trans h) (by rintro ⟨⟩)
    · cases h
    · exact absurd h (by simp [hroll])
    · exact absurd h (by simp [hroll])
  · have hk := DirtyKept.join (o := 8) (by decide) s.cr.dirty
    exact ⟨hk.ordered h1, hk.report h2⟩
  · obtain ⟨hq, o, rfl⟩ := mem_reportEntries hw
    have := of_decide_eq_true (he.1 _ hq)
    exact decide_eq_true ((mem_join o 8 s.cr.dirty).2 (.inr this))

theorem cmdLoad (hn : s.cr.running = none) : Keeps g s s.cmdLoad := by
  unfold State.cmdLoad
  split
  · rename_i h
    exact loadAccepted hn h
  · exact (Quiet.cmdRefused _ _).keeps

/-- A LOAD whose check has failed ends (R197). -/
theorem loadRefused : Keeps g s s.loadRefused := by
  unfold State.loadRefused
  split
  · rename_i run hp
    split
    · have hr := State.isReady_false hp
      refine Keeps.trans (t := State.setCr _ _) ?_ (Quiet.cmdRefused _ _).keeps
      refine Keeps.of_blocksRest (.of_loadAccepted (s := s) rfl rfl rfl) rfl rfl rfl (fun _ => ?_) id (fun _ => ?_)
        (List.Sublist.refl _) (fun ho he w hw => ?_)
      · exact modesAgree_of_still rfl (by rintro _ ⟨⟩) rfl rfl
      · show reportOffsets.Pairwise (· < ·) ∧ ∀ o ∈ reportOffsets, o ∈ reportOffsets
        exact ⟨by decide, fun _ h => h⟩
      · have hm := he.1 w hw
        cases w with
        | report o => exact decide_eq_true (ho.2.1 o (of_decide_eq_true hm))
        | writeBack m =>
          have := of_decide_eq_true hm
          simp [he.2 hr] at this
    · exact .refl g s
  · exact .refl g s
  · exact .refl g s

end Keeps

/-! ### A LOAD that completes (R196) -/

theorem configuredLink_holds_nothing (u : Setup) (kinds : List RowKind) (l : LinkId) (k : Link) :
    (configuredLink u kinds l k).queue = [] ∧ (configuredLink u kinds l k).blink = [] ∧
      (configuredLink u kinds l k).Bounded ∧ (configuredLink u kinds l k).stale.Pairwise (· < ·) := by
  unfold configuredLink
  simp only
  split
  · exact ⟨rfl, rfl, (k.loadAccepted_idle).bounded, List.Pairwise.nil⟩
  · exact ⟨rfl, rfl, ⟨Nat.zero_le 32, Nat.zero_le 16, Link.Kept.zero_lt_three⟩, Link.Kept.range_sorted _⟩

theorem allSlots_sorted : allSlots.Pairwise (· < ·) := List.pairwise_lt_finRange 256

theorem allWbFields_sorted : allWbFields.Pairwise (fun f h => f.index < h.index) := by decide

theorem allDue_ordered (s : State) : DueOrdered (allDue s) := by
  unfold allDue DueOrdered
  rw [List.pairwise_flatMap]
  constructor
  · intro n _
    refine List.Pairwise.filter _ (List.pairwise_map.2 (allWbFields_sorted.imp (fun h => .inr ⟨rfl, h⟩)))
  · refine (allSlots_sorted.filter _).imp (fun {n m} hlt a ha b hb => ?_)
    obtain ⟨f, _, rfl⟩ := List.mem_map.1 (List.mem_of_mem_filter ha)
    obtain ⟨f', _, rfl⟩ := List.mem_map.1 (List.mem_of_mem_filter hb)
    exact .inl hlt

/-- The links of a table of four, one by one. -/
theorem forall_link {P : LinkId → Prop} (h : P 0 ∧ P 1 ∧ P 2 ∧ P 3) (l : LinkId) : P l := by
  obtain ⟨h0, h1, h2, h3⟩ := h
  exact Fin.forall_fin_succ.2 ⟨h0, Fin.forall_fin_succ.2 ⟨h1, Fin.forall_fin_succ.2 ⟨h2, Fin.forall_fin_one.2 h3⟩⟩⟩ l

theorem vget_four {α : Type} (f : LinkId → α) (l : LinkId) : vget #v[f 0, f 1, f 2, f 3] l = f l :=
  forall_link (P := fun l => vget _ l = f l) ⟨rfl, rfl, rfl, rfl⟩ l

theorem State.configure_link (s : State) (run : LoadRun) (u : Setup) (l : LinkId) :
    (s.configure run u).link l = configuredLink u run.rowKinds l (s.link l) :=
  vget_four (fun l => configuredLink u run.rowKinds l (s.link l)) l

namespace Keeps

variable {g : Prop} {s : State}

theorem loadComplete : Keeps g s s.loadComplete := by
  unfold State.loadComplete
  split
  · rename_i run hp
    split
    · rename_i u hu
      have hr := State.isReady_false hp
      refine Keeps.trans (t := (s.configure run u).setCr
        { (s.configure run u).cr with part := .ready, running := none, mask := u.mask }) ?_ (Quiet.cmdDone _).keeps
      have hl : ∀ l, ((s.configure run u).setCr
          { (s.configure run u).cr with part := .ready, running := none, mask := u.mask }).link l =
            configuredLink u run.rowKinds l (s.link l) := s.configure_link run u
      exact {
        modes := fun hm => by
          have hc := hm.closed_of_not_ready hr
          have hload : s.cr.running = some .load := hm.2.1.2 ⟨run, hp⟩
          have hroll := hm.no_roll (by simp [hload])
          refine ⟨fun _ => rfl, ⟨fun h => (by cases h), fun ⟨_, h⟩ => (by cases h)⟩, ⟨fun h => (by cases h), fun h => ?_⟩,
            ⟨fun h => (by cases h), fun h => ?_⟩, fun h => ?_⟩
          · exact absurd (hc.symm.trans h) (by rintro ⟨⟩)
          · have h' : s.cs.rollNext.isSome = true := h
            simp [hroll] at h'
          · have h' : s.cs.rollNext.isSome = true := h
            simp [hroll] at h'
        mask := fun _ h => (by cases h)
        idle := fun _ _ _ h => (by cases h)
        caps := fun ⟨h1, h2, h3, _, h5⟩ => ⟨h1, h2, h3, fun l => by
          rw [hl]
          exact (configuredLink_holds_nothing u run.rowKinds l _).2.2.1, h5⟩
        sets := fun ⟨h1, h2, _, _, h5, h6⟩ => ⟨h1, h2, allDue_ordered _, fun l => by
          rw [hl]
          exact (configuredLink_holds_nothing u run.rowKinds l _).2.2.2, h5, h6⟩
        queues := fun _ l => by
          rw [hl, (configuredLink_holds_nothing u run.rowKinds l _).1]
          exact ⟨List.nodup_nil, fun p hp => (by cases hp)⟩
        blinks := fun _ l => by
          rw [hl, (configuredLink_holds_nothing u run.rowKinds l _).2.1]
          exact ⟨List.nodup_nil, fun p hp => (by cases hp), List.Pairwise.nil, fun _ => rfl⟩
        marked := fun _ _ _ he => ⟨fun w hw => by
          have hm := he.1 w hw
          cases w with
          | report o => exact hm
          | writeBack m =>
            have := of_decide_eq_true hm
            simp [he.2 hr] at this, fun h => (by cases h)⟩ }
    · exact .refl g s
  · exact .refl g s
  · exact .refl g s

/-! ### The reads of a LOAD (R193) -/

/-- The LOAD goes on. -/
theorem setRun {run : LoadRun} (h : s.cr.part = .loading run) (r : LoadRun) : Keeps g s (s.setRun r) := by
  have hr := State.isReady_false h
  exact {
    modes := fun ⟨h1, h2, h3, h4, h5⟩ => ⟨fun hc => by simp [h1 hc] at hr, ⟨fun _ => ⟨r, rfl⟩, fun _ => h2.2 ⟨run, h⟩⟩, h3, h4,
      fun hc => by simp [(h5 hc).1] at hr⟩
    mask := fun hm _ => hm hr
    idle := fun _ _ hi => (idleOutsideReady_iff _).2 (fun _ => by
      obtain ⟨hw, hb⟩ := (idleOutsideReady_iff s).1 hi hr
      exact ⟨hw, hb.1, hb.2, hb.3⟩)
    marked := fun _ _ _ he => ⟨he.1, fun _ => he.2 hr⟩ }

/-- The directory takes a slot: outside READY no terminal names one. -/
theorem setSlot_idle (hr : s.isReady = false) (n : Slot) (r : SlotRec) : Keeps g s (s.setSlot n r) where
  named := fun _ _ hi hn => by
    have hp := ((idleOutsideReady_iff s).1 hi hr).2.loop
    intro u m hm
    have : s.term u = Terminal.reset := hp.terminal u
    have hm' : (s.term u).Names m := hm
    rw [this] at hm'
    rcases hm' with hm' | hm' | hm' | hm'
    · exact absurd hm' (Terminal.reset_watches m)
    · exact (by cases hm')
    · exact (by cases hm')
    · exact (by cases hm')

theorem takeLoadWord {run : LoadRun} (h : s.cr.part = .loading run) (w : Word) : Keeps g s (s.takeLoadWord run w) := by
  obtain e | ⟨r, e⟩ | ⟨k, r, e⟩ := s.takeLoadWord_cases run w <;> rw [e]
  · exact refl g s
  · exact setRun h r
  · exact (setSlot_idle (State.isReady_false h) _ k).trans (setRun (s := s.setSlot _ k) h r)

theorem loadReadAnswered : Keeps g s s.loadReadAnswered := by
  unfold State.loadReadAnswered
  split
  · rename_i run h
    split
    · exact ((takeLoadWord h _).trans loadRefused).trans loadComplete
    · exact refl g s
  · exact refl g s
  · exact refl g s

end Keeps

end Sys2Proof.Machine
end

