-- ==== Sys2Proof/Proofs/Events.lean ====
section
/-!
PROOFS. Every event keeps the invariants: the modes through the session's changes, the Bus Path's own operations, the granted access, and
the end of an event (chapters 3, 7 and 10).
-/

namespace Sys2Proof.Machine

-- A proof that a field or a hypothesis fills in by default waits for all before it: elaborated at once, each would hold a thread.
set_option Elab.async false

/-! ### The modes through the session's changes (Table 7-2) -/

/-- In a READY part with no command running and no walk, every session but DIMMING agrees. -/
theorem ModesAgree.of_quiet {t : State} (hr : t.isReady = true) (hn : t.cr.running = none) (hw : t.cs.rollNext = none)
    (hs : t.cs.session ≠ .dimming) : ModesAgree t := by
  have hp : t.cr.part = .ready := of_decide_eq_true hr
  simp [ModesAgree, hr, hn, hw, hs, hp]

/-- While the market is to open or open, nothing runs. -/
theorem ModesAgree.nothing_runs {s : State} (h : ModesAgree s) (hs : s.cs.session = .preOpen ∨ s.cs.session = .opened) :
    s.isReady = true ∧ s.cr.running = none ∧ s.cs.rollNext = none := by
  obtain ⟨h1, h2, h3, h4, h5⟩ := h
  have hc : s.cs.session ≠ .closed := by rcases hs with e | e <;> simp [e]
  have hk : s.cs.session ≠ .dark := by rcases hs with e | e <;> simp [e]
  have hd : s.cs.session ≠ .dimming := by rcases hs with e | e <;> simp [e]
  have hr := h1 hc
  have hp : s.cr.part = .ready := of_decide_eq_true hr
  have hw : s.cs.rollNext = none := by
    by_contra e
    have e' : s.cs.rollNext.isSome = true := Option.isSome_iff_ne_none.2 e
    exact ((h5 e').2).elim hc hk
  refine ⟨hr, ?_, hw⟩
  cases e : s.cr.running with
  | none => rfl
  | some c =>
    cases c with
    | load =>
      obtain ⟨run, hrun⟩ := h2.1 e
      simp [hrun] at hp
    | roll => simp [hw] at h4; exact absurd e h4
    | dark => exact absurd (h3.1 e) hd

/-- A session opened or closed by the bell or by command, with nothing running. -/
theorem ModesAgree.of_market {s t : State} (h : s.isReady = true ∧ s.cr.running = none ∧ s.cs.rollNext = none)
    (hs : t.cs.session ≠ .dimming) (hp : t.cr.part = s.cr.part := by rfl) (hn : t.cr.running = s.cr.running := by rfl)
    (hw : t.cs.rollNext = s.cs.rollNext := by rfl) : ModesAgree t := by
  obtain ⟨h1, h2, h3⟩ := h
  refine .of_quiet ?_ (hn.trans h2) (hw.trans h3) hs
  unfold State.isReady at h1 ⊢
  rwa [hp]

theorem State.setStatus_cs (s : State) (op : Byte) (out : CmdOutcome) (r : Reason) : (s.setStatus op out r).cs = s.cs :=
  (s.setStatus_frame op out r).2.2.2.2.2.1

theorem State.setStatus_part (s : State) (op : Byte) (out : CmdOutcome) (r : Reason) :
    (s.setStatus op out r).cr.part = s.cr.part := (s.setStatus_frame op out r).2.2.2.2.2.2.2.1

/-- What an accepted ROLL changes. -/
theorem State.rollAccepted_frame (s : State) :
    s.rollAccepted = { s with
      bc := { s.bc with links := s.rollAccepted.bc.links }
      tc := s.tc.rollAccepted
      pt := { s.pt with terminals := s.rollAccepted.pt.terminals }
      cs := { s.cs with rollNext := some 0 }
      cr := { s.cr with running := some .roll } } := by
  unfold State.rollAccepted
  simp only
  split <;> rfl

theorem State.rollAccepted_cs (s : State) : s.rollAccepted.cs = { s.cs with rollNext := some 0 } :=
  congrArg State.cs s.rollAccepted_frame

theorem State.rollAccepted_cr (s : State) : s.rollAccepted.cr = { s.cr with running := some .roll } :=
  congrArg State.cr s.rollAccepted_frame

theorem State.dimmed_cs (s : State) : s.dimmed.cs = { s.cs with session := .dimming } := by
  show { (s.setStatus 0x05 .running .none).cs with session := .dimming } = _
  rw [State.setStatus_cs]

theorem State.dimmed_running (s : State) : s.dimmed.cr.running = some .dark := rfl

theorem State.dimmed_part (s : State) : s.dimmed.cr.part = s.cr.part := rfl

theorem State.rollEnds_cs (s : State) : s.rollEnds.cs = { s.cs with rollNext := none, session := .preOpen } := by
  unfold State.rollEnds
  rw [State.cmdDone_cs]
  rfl

theorem State.rollEnds_running (s : State) : s.rollEnds.cr.running = none := by
  unfold State.rollEnds
  rw [State.cmdDone_running]
  rfl

theorem State.rollEnds_part (s : State) : s.rollEnds.cr.part = s.cr.part := by
  unfold State.rollEnds
  rw [State.cmdDone_part]
  rfl

/-- What going to DARK leaves of the modes. -/
theorem State.sessionDark_cases (s : State) : s.sessionDark = s ∨
    (s.isReady = true ∧ s.cs.session = .dimming ∧ s.sessionDark.cs = { s.cs with session := .dark } ∧
      s.sessionDark.cr.running = none ∧ s.sessionDark.isReady = true) := by
  unfold State.sessionDark
  split
  · rename_i h
    refine .inr ⟨h.1, h.2.1, ?_, ?_, ?_⟩
    · rw [State.cmdDone_cs]
      rfl
    · rw [State.cmdDone_running]
      rfl
    · unfold State.isReady
      rw [State.cmdDone_part]
      exact h.1
  · exact .inl rfl

namespace Keeps

variable {g : Prop} {s : State}

theorem sessionDark : Keeps g s s.sessionDark := Calm.sessionDark.keeps (fun hm => by
  rcases s.sessionDark_cases with e | ⟨hr, hd, hcs, hn, hr'⟩
  · rwa [e]
  · refine .of_quiet hr' hn ?_ (by rw [hcs]; rintro ⟨⟩)
    rw [hcs]
    obtain ⟨-, -, -, -, h5⟩ := hm
    by_contra e
    have := (h5 (Option.isSome_iff_ne_none.2 e)).2
    simp [hd] at this)

theorem openMarket (hg : g → ModesAgree s) (hs : s.cs.session = .preOpen) : Keeps g s s.openMarket :=
  (Calm.openMarket (fun h => ((hg h).nothing_runs (.inl hs)).1)).keeps (fun hm => by
    exact .of_market (hm.nothing_runs (.inl hs)) (show Session.opened ≠ .dimming from (by rintro ⟨⟩)))

theorem closeMarket (hg : g → ModesAgree s) (hs : s.cs.session = .opened) : Keeps g s s.closeMarket :=
  (Calm.closeMarket (fun h => ((hg h).nothing_runs (.inr hs)).1)).keeps (fun hm => by
    exact .of_market (hm.nothing_runs (.inr hs)) (show Session.closed ≠ .dimming from (by rintro ⟨⟩)))

theorem cmdOpen (hg : g → ModesAgree s) : Keeps g s s.cmdOpen := by
  unfold State.cmdOpen
  split
  · rename_i hs
    exact (openMarket hg hs).trans (Quiet.cmdDone _).keeps
  · exact (Quiet.cmdRefused _ _).keeps

theorem cmdClose (hg : g → ModesAgree s) : Keeps g s s.cmdClose := by
  unfold State.cmdClose
  split
  · rename_i hs
    exact (closeMarket hg hs).trans (Quiet.cmdDone _).keeps
  · exact (Quiet.cmdRefused _ _).keeps

theorem lineChange (line : LineId) (level : Bool) : Keeps g s (s.lineChange line level) := by
  refine (Calm.lineChange line level).keeps (fun hm => ?_)
  unfold State.lineChange
  simp only
  split
  · rename_i h
    simp only [Bool.and_eq_true, decide_eq_true_eq] at h
    have hq := hm.nothing_runs (.inl h.2)
    exact .of_market hq (show Session.opened ≠ .dimming from (by rintro ⟨⟩))
  · split
    · rename_i h
      simp only [Bool.and_eq_true, decide_eq_true_eq] at h
      have hq := hm.nothing_runs (.inr h.2)
      exact .of_market hq (show Session.closed ≠ .dimming from (by rintro ⟨⟩))
    · exact hm

/-- A command of CS taken with none running, in a part that is not UNCONFIGURED. -/
theorem cmdRoll (hg : g → ModesAgree s) (hn : s.cr.running = none) (hp : s.cr.part ≠ .unconfigured) : Keeps g s s.cmdRoll := by
  unfold State.cmdRoll
  have h0 : Quiet g s (s.setStatus 0x02 .running .none) := Quiet.setStatus _ _ _
  split
  · rename_i hs
    have ready : ModesAgree s → s.isReady = true := fun hm => hm.ready (by simp [hn]) hp
    refine (h0.calm.trans (Calm.rollAccepted (fun h => h0.isReady.trans (ready (hg h))))).keeps (fun hm => ?_)
    have hpart : s.cr.part = .ready := of_decide_eq_true (ready hm)
    have e1 : ((s.setStatus 0x02 .running .none).rollAccepted).cs = { s.cs with rollNext := some 0 } := by
      rw [State.rollAccepted_cs, State.setStatus_cs]
    have e2 : ((s.setStatus 0x02 .running .none).rollAccepted).cr.running = some .roll := by rw [State.rollAccepted_cr]
    have e3 : ((s.setStatus 0x02 .running .none).rollAccepted).cr.part = .ready := by
      rw [State.rollAccepted_cr]
      exact (s.setStatus_part _ _ _).trans hpart
    have e4 : s.cs.session ≠ .dimming := by rcases hs with e | e <;> simp [e]
    generalize (s.setStatus 0x02 .running .none).rollAccepted = t at e1 e2 e3
    simp [ModesAgree, State.isReady, e1, e2, e3, e4, hs]
  · exact (Quiet.cmdRefused _ _).keeps

theorem cmdDark (hg : g → ModesAgree s) (hn : s.cr.running = none) (hp : s.cr.part ≠ .unconfigured) : Keeps g s s.cmdDark := by
  unfold State.cmdDark
  split
  · have ready : ModesAgree s → s.isReady = true := fun hm => hm.ready (by simp [hn]) hp
    refine Keeps.trans ((Calm.dimmed (fun h => ready (hg h))).keeps (fun hm => ?_)) sessionDark
    have hpart : s.cr.part = .ready := of_decide_eq_true (ready hm)
    have hw := hm.no_roll (by simp [hn])
    simp [ModesAgree, State.isReady, State.dimmed_cs, State.dimmed_running, State.dimmed_part, hpart, hw]
  · exact (Quiet.cmdRefused _ _).keeps

/-- A known command is taken by its owner. -/
theorem owner (hg : g → ModesAgree s) (hn : s.cr.running = none) {op : Byte} (hp : s.cr.part = .unconfigured → op = 0x01)
    (x : Byte) : Keeps g s (s.owner op x) := by
  have loaded : ∀ k : Nat, op.toNat = k → k ≠ 1 → s.cr.part ≠ .unconfigured := fun k hk hk1 hu => hk1 (by
    rw [← hk, hp hu]
    rfl)
  have ready : ∀ k : Nat, op.toNat = k → k ≠ 1 → g → s.isReady = true := fun k hk hk1 h =>
    (hg h).ready (by simp [hn]) (loaded k hk hk1)
  unfold State.owner
  split
  next => exact cmdLoad hn
  next h => exact cmdRoll hg hn (loaded _ h (by decide))
  next => exact cmdOpen hg
  next => exact cmdClose hg
  next h => exact cmdDark hg hn (loaded _ h (by decide))
  next h => exact (Quiet.cmdSetClose (ready _ h (by decide))).keeps
  next h => exact (Quiet.cmdHalt (ready _ h (by decide))).keeps
  next h => exact (Quiet.cmdResume (ready _ h (by decide))).keeps
  next h => exact (Quiet.cmdSetClock (ready _ h (by decide)) x).keeps
  next h => exact (Quiet.cmdWatch (ready _ h (by decide)) x).keeps
  next h => exact (Quiet.cmdUnwatch (ready _ h (by decide)) x).keeps
  next h => exact (Quiet.cmdStatusText (ready _ h (by decide)) x).keeps
  next h => exact (Quiet.cmdRepaint (ready _ h (by decide)) x).keeps
  next h => exact (Quiet.cmdTapeClear (ready _ h (by decide))).keeps
  next => exact (Quiet.cmdRefused _ _).keeps

theorem commandWrite (hg : g → ModesAgree s) (w : Word) : Keeps g s (s.commandWrite w) := by
  unfold State.commandWrite
  simp only
  split
  · exact (Quiet.cmdRefused _ _).keeps
  rename_i hn
  split
  · exact (Quiet.cmdRefused _ _).keeps
  split
  · exact (Quiet.cmdRefused _ _).keeps
  rename_i hu
  exact owner hg (by simpa using hn) (fun hp => by
    by_contra hop
    exact hu ⟨hp, hop⟩) _

/-- The walk takes its next slot: it ends with slot 255. -/
theorem rollSlot (hg : g → ModesAgree s) : Keeps g s s.rollSlot := by
  refine (Calm.rollSlot (fun h hw => ((hg h).2.2.2.2 hw).1)).keeps (fun hm => ?_)
  unfold State.rollSlot
  split
  · exact hm
  rename_i n hw
  obtain ⟨hr, hs⟩ := hm.2.2.2.2 (by rw [hw]; rfl)
  have h1 : Quiet True s (s.rollOne n) := Quiet.rollOne (fun _ => hr) n
  have hm1 := h1.modesAgree hm
  simp only
  split
  · refine .of_quiet ?_ (State.rollEnds_running _) ?_ ?_
    · unfold State.isReady
      rw [State.rollEnds_part]
      exact h1.isReady.trans hr
    · rw [State.rollEnds_cs]
    · rw [State.rollEnds_cs]
      rintro ⟨⟩
  · obtain ⟨m1, m2, m3, m4, m5⟩ := hm1
    have hroll : (s.rollOne n).cs.rollNext.isSome = true := h1.roll.trans (by rw [hw]; rfl)
    exact ⟨m1, m2, m3, ⟨fun _ => rfl, fun _ => m4.2 hroll⟩, fun _ => m5 hroll⟩

end Keeps

/-! ### The Bus Path (chapter 3) -/

/-- An address that names a window's word is one of a READY part. -/
theorem target_ready {s : State} {a : Addr} (hr : s.isReady = false) :
    target s a = .command ∨ (∃ p, target s a = .parameter p) ∨ target s a = .acknowledge ∨ (∃ o, target s a = .report o) ∨
      target s a = .plain := by
  unfold target
  split
  · unfold setupTarget
    split
    · exact .inl rfl
    · split
      · exact .inr (.inl ⟨_, rfl⟩)
      · split
        · exact .inr (.inr (.inl rfl))
        · split
          · exact .inr (.inr (.inr (.inl ⟨_, rfl⟩)))
          · exact .inr (.inr (.inr (.inr rfl)))
  · rw [if_neg (by simp [hr])]
    exact .inr (.inr (.inr (.inr rfl)))

namespace Keeps

variable {g : Prop} {s : State}

theorem memoryAccess (acc : HostAccess) : Keeps g s (s.memoryAccess acc) := by
  cases acc with
  | read a => exact {}
  | write a d lanes => exact { mem := fun h => Memory.wf_writeWord _ _ _ _ h }

theorem setHeld (h : Option Held) : Keeps g s (s.setHeld h) := {}

theorem freePort : Keeps g s s.freePort := {}

/-- A word's entry leaves the queue and its mark is cleared. -/
theorem endMark {w : SideWord} {q : List SideWord} (hq : q.Sublist s.bp.queue) (hn : s.bp.queue.Nodup → w ∉ q) :
    Keeps g s ((s.setBp { s.bp with queue := q }).clearMark w) := by
  have legal : SideQueueLegal s → q.length ≤ 8 ∧ q.Nodup := fun ⟨h1, h2⟩ => ⟨hq.length_le.trans h1, hq.nodup h2⟩
  cases w with
  | report o => exact {
      sets := fun ⟨h1, h2, h3⟩ => ⟨leave_sorted o h1, fun x hx => h2 x ((mem_leave o x _).1 hx).1, h3⟩
      legal := legal
      marked := fun _ hl _ he => ⟨fun v hv => by
        have hm := he.1 v (hq.subset hv)
        cases v with
        | report p => exact decide_eq_true ((mem_leave o p _).2 ⟨of_decide_eq_true hm, fun e => hn hl.2 (e ▸ hv)⟩)
        | writeBack m => exact hm, he.2⟩ }
  | writeBack m => exact {
      sets := fun ⟨h1, h2, h3, h4⟩ => ⟨h1, h2, leave_sorted m h3, h4⟩
      named := fun _ _ _ h => h
      legal := legal
      marked := fun _ hl _ he => ⟨fun v hv => by
        have hm := he.1 v (hq.subset hv)
        cases v with
        | report p => exact hm
        | writeBack k => exact decide_eq_true ((mem_leave m k _).2 ⟨of_decide_eq_true hm, fun e => hn hl.2 (e ▸ hv)⟩),
        fun hr => by
          have := he.2 hr
          show leave m s.qe.due = []
          rw [this]
          rfl⟩ }

theorem overrideMark (a : Addr) : Keeps g s (s.overrideMark a) := by
  unfold State.overrideMark
  split
  · rename_i w _
    split
    · exact endMark List.filter_sublist (fun _ hw => ((mem_leave w w _).1 hw).2 rfl)
    · exact refl g s
  · exact refl g s

theorem landHead : Keeps g s s.landHead := by
  unfold State.landHead
  split
  · exact refl g s
  · rename_i w q hq
    have sub : q.Sublist s.bp.queue := by rw [hq]; exact List.sublist_cons_self w q
    have head : s.bp.queue.Nodup → w ∉ q := fun h => by
      rw [hq] at h
      exact (List.nodup_cons.1 h).1
    simp only
    split
    · rename_i a _
      have h1 : Keeps g s (s.setMem (s.mem.writeWord a (sideWordValue s w) .both)) :=
        { mem := fun h => show (s.mem.writeWord a (sideWordValue s w) .both).wf = true from Memory.wf_writeWord _ _ _ _ h }
      exact h1.trans (endMark (s := s.setMem (s.mem.writeWord a (sideWordValue s w) .both)) sub head)
    · exact endMark sub head

theorem handWrite (hg : g → ModesAgree s) (a : Addr) (d : Word) (lanes : Lanes) : Keeps g s (s.handWrite a d lanes) := by
  have ready : ∀ {x : Target}, target s a = x → (x ≠ .command ∧ (∀ p, x ≠ .parameter p) ∧ x ≠ .acknowledge ∧
      (∀ o, x ≠ .report o) ∧ x ≠ .plain) → g → s.isReady = true := by
    intro x hx ⟨h1, h2, h3, h4, h5⟩ _
    by_contra hr
    rcases target_ready (s := s) (a := a) (by simpa using hr) with e | ⟨p, e⟩ | e | ⟨o, e⟩ | e
    · exact h1 (hx.symm.trans e)
    · exact h2 p (hx.symm.trans e)
    · exact h3 (hx.symm.trans e)
    · exact h4 o (hx.symm.trans e)
    · exact h5 (hx.symm.trans e)
  unfold State.handWrite
  split
  · split
    · exact commandWrite hg d
    · exact Quiet.anomaly.keeps
  · exact (Quiet.parameterTaken _ _ _).keeps
  · exact (Quiet.acknowledge _ _).keeps
  · exact refl g s
  · rename_i h
    exact (Quiet.quoteWrite (ready h (by simp)) _ _ _ _ _).keeps
  · rename_i h
    exact (Quiet.textWrite (ready h (by simp)) _ _).keeps
  · rename_i h
    exact (Quiet.bulletinWrite (ready h (by simp)) _ _ _).keeps
  · exact refl g s

theorem performAccess (hg : g → ModesAgree s) (acc : HostAccess) : Keeps g s (State.performAccess acc s) := by
  cases acc with
  | read a => exact (memoryAccess _).trans (Quiet.handRead a).keeps
  | write a d lanes =>
    have h1 : Keeps g s ((s.memoryAccess (.write a d lanes)).overrideMark a) := (memoryAccess _).trans (overrideMark a)
    exact h1.trans (handWrite (fun h => h1.modes (hg h)) a d lanes)

theorem cycleEffect (x : SideAccess) : Keeps g s (cycleEffect x s) := by
  cases x
  · exact landHead
  · exact Quiet.textReadAnswered.keeps
  · exact loadReadAnswered

/-- An event of the part keeps every invariant. -/
theorem partEffect (hm : g → ModesAgree s) (hi : g → IdleOutsideReady s) (c : Instr) : Keeps g s (partEffect c s) := by
  cases c
  case loadComplete => exact loadComplete
  case loadRefused => exact loadRefused
  case rollSlot => exact rollSlot hm
  case sessionDark => exact sessionDark
  case baseStep => exact Quiet.baseStep.keeps
  case wholeSecond => exact Quiet.wholeSecondEvent.keeps
  case wholeMinute => exact Quiet.wholeMinute.keeps
  case feedGoesStale => exact Quiet.feedGoesStale.keeps
  case floorLineChange line level => exact lineChange line level
  case blinkExpiry => exact Quiet.blinkExpiry.keeps
  case sweepExpiry => exact Quiet.sweepExpiry.keeps
  case takeWork l => exact (Quiet.takeWork l).keeps
  case frameSent l => exact (Quiet.frameSent l).keeps
  case boardAck l bytes =>
    show Keeps g s (if isGoodAck bytes then (s.boardAcked l).sessionDark else s)
    split
    · exact (Quiet.boardAcked l).keeps.trans sessionDark
    · exact refl g s
  case answerWaitExpiry l => exact (Quiet.answerWaitEnds l).keeps.trans sessionDark
  case probeIntervalExpiry l => exact (Quiet.probeIntervalEnds l).keeps
  case tapePaceExpiry => exact (Quiet.tapePace hi).keeps.trans sessionDark
  case mailboxMoveIn => exact Quiet.mailboxMoveIn.keeps
  case turnStart => exact Quiet.turnStart.keeps
  case terminalFrameSent => exact Quiet.turnFrameSent.keeps
  case terminalAnswer bytes => exact (Quiet.terminalAnswer hi bytes).keeps
  case turnMiss => exact (Quiet.turnMiss hi).keeps
  case entryKey u code =>
    show Keeps g s (if isEntryKeyCode code then s.keyEvent u (.entry code) else s)
    split
    · exact (Quiet.keyEvent u _).keeps
    · exact refl g s
  case quoteKey u => exact (Quiet.keyEvent u _).keeps
  case recallKey u => exact (Quiet.keyEvent u _).keeps
  case clearKey u => exact (Quiet.keyEvent u _).keeps
  case sendKey u => exact (Quiet.keyEvent u _).keeps
  case watchKey u => exact (Quiet.keyEvent u _).keeps
  case dropKey u => exact (Quiet.keyEvent u _).keeps
  case ackKey u => exact (Quiet.keyEvent u _).keeps
  all_goals exact refl g s

end Keeps

/-! ### The end of an event -/

/-- What the invariants of the boards, the tape, the terminals and CS say of a state rests on those blocks alone. -/
theorem Keeps.of_sameButMarks {g : Prop} {s t : State} (h : SameButMarks s t) (hd : DirtyKept s.cr.dirty t.cr.dirty)
    (hl : SideQueueLegal s → SideQueueLegal t)
    (hm : EntriesAreMarked s → ∀ w ∈ t.bp.queue, t.isMarked w = true) : Keeps g s t := by
  unfold SameButMarks at h
  generalize t.cr.dirty = d at h hd
  generalize hq : t.bp.queue = q at h hm
  generalize t.bp.port = p at h
  subst h
  exact {
    sets := fun hs => SetsOrdered.of_cr (c := { s.cr with dirty := d }) hd hs
    legal := hl
    marked := fun _ _ _ he => ⟨fun w hw => hm he w hw, he.2⟩ }

/-- The end of an event keeps every invariant. -/
theorem Keeps.finish {g : Prop} {s : State} (u : State) : Keeps g u (s.finish u) := by
  have hd : DirtyKept u.cr.dirty (s.finish u).cr.dirty := by
    have e : (s.finish u).cr.dirty = (changedWords s u).foldl (fun d o => join o d) u.cr.dirty := by
      show (s.markChanged u).cr.dirty = _
      rw [State.markChanged, State.markAllDirty_eq]
      rfl
    rw [e]
    have hc : ∀ o ∈ changedWords s u, o ∈ reportOffsets := fun o ho => List.mem_of_mem_filter ho
    generalize changedWords s u = os at hc
    generalize u.cr.dirty = d
    induction os generalizing d with
    | nil => exact {}
    | cons o os ih =>
      have h1 := DirtyKept.join (hc o (by simp)) d
      have h2 := ih (fun x hx => hc x (List.mem_cons_of_mem _ hx)) (Sys2Proof.Machine.join o d)
      exact ⟨fun x hx => h2.sub x (h1.sub x hx), h2.ordered ∘ h1.ordered, h2.report ∘ h1.report⟩
  have hmarks : ∀ w, u.isMarked w = true → (s.finish u).isMarked w = true := fun w hw => by
    cases w with
    | report o => exact decide_eq_true (hd.sub o (of_decide_eq_true hw))
    | writeBack m =>
      show decide (m ∈ (s.finish u).qe.due) = true
      rw [State.finish_qe]
      exact hw
  refine .of_sameButMarks (State.finish_same s u) hd (fun hl => s.event_queueLegal (fun _ => u) hl) (fun he w hw => ?_)
  have hw' : w ∈ (s.event (fun _ => u)).bp.queue := hw
  rw [State.event_queue_eq] at hw'
  rcases mem_of_foldl_enterMark _ _ _ hw' with h | h
  · exact hmarks w (he.1 w h)
  · have := (mem_markOrder _ w).1 h
    cases w <;> exact this

end Sys2Proof.Machine
end

