-- ==== Sys2Proof/Proofs/Invariants.lean ====
section
/-!
PROOFS. Every step keeps every invariant of the model: events kept one by one, along the side accesses that complete a held access.
-/

namespace Sys2Proof.Machine

-- A proof that a field or a hypothesis fills in by default waits for all before it: elaborated at once, each would hold a thread.
set_option Elab.async false

/-! ### What a command keeps -/

/-- A command that takes `s` to `t` keeps each invariant of the model, from whole event to whole event. -/
structure Kept (s t : State) : Prop where
  mem : MemoryCanonical s → MemoryCanonical t := by exact id
  clock : ClockInRange s → ClockInRange t := by exact id
  anchor : AnchorFits s → AnchorFits t := by exact id
  modes : ModesAgree s → ModesAgree t := by exact id
  mask : MaskClearOutsideReady s → MaskClearOutsideReady t := by exact id
  idle : ModesAgree s → IdleOutsideReady s → IdleOutsideReady t := by exact fun _ h => h
  caps : CapacitiesKept s → CapacitiesKept t := by exact id
  sets : SetsOrdered s → SetsOrdered t := by exact id
  queues : RefreshQueuesDistinct s → RefreshQueuesDistinct t := by exact id
  blinks : BlinkListsDistinct s → BlinkListsDistinct t := by exact id
  subs : SubscribersAgree s → SubscribersAgree t := by exact id
  named : ModesAgree s → IdleOutsideReady s → NamedSlotsListed s → NamedSlotsListed t := by exact fun _ _ h => h
  legal : SideQueueLegal s → SideQueueLegal t := by exact id
  entered : MarksEntered s → MarksEntered t := by exact id
  port : PortKept s → PortKept t := by exact id
  marked : ModesAgree s → IdleOutsideReady s → SideQueueLegal s → SetsOrdered s → EntriesAreMarked s → EntriesAreMarked t :=
    by exact fun _ _ _ _ h => h

namespace Kept

theorem refl (s : State) : Kept s s := {}

theorem trans {s t u : State} (h : Kept s t) (k : Kept t u) : Kept s u where
  mem := k.mem ∘ h.mem
  clock := k.clock ∘ h.clock
  anchor := k.anchor ∘ h.anchor
  modes := k.modes ∘ h.modes
  mask := k.mask ∘ h.mask
  idle := fun hm hi => k.idle (h.modes hm) (h.idle hm hi)
  caps := k.caps ∘ h.caps
  sets := k.sets ∘ h.sets
  queues := k.queues ∘ h.queues
  blinks := k.blinks ∘ h.blinks
  subs := k.subs ∘ h.subs
  named := fun hm hi hn => k.named (h.modes hm) (h.idle hm hi) (h.named hm hi hn)
  legal := k.legal ∘ h.legal
  entered := k.entered ∘ h.entered
  port := k.port ∘ h.port
  marked := fun hm hi hl ho he => k.marked (h.modes hm) (h.idle hm hi) (h.legal hl) (h.sets ho) (h.marked hm hi hl ho he)

end Kept

/-! ### One event -/

/-- What is known of the state that an event finds. -/
def Sound (s : State) : Prop := ModesAgree s ∧ IdleOutsideReady s

/-- After an event with RESET released the port is granted exactly while a side access waits (R51). -/
theorem portKept_finish (s : State) {u : State} (hp : u.resetPin = false) : PortKept (s.finish u) := by
  have hw : ∀ x, (s.finish u).sideWaits x = ((s.markChanged u).fill).sideWaits x := fun x => State.arbitrate_sideWaits _ x
  refine ⟨fun h => by simp [hp] at h, fun _ => ⟨fun x hx => ?_, fun hn x => ?_⟩⟩
  · rw [hw]
    exact State.portChoice_waits _ x hx
  · rw [hw]
    exact State.portChoice_none _ hn x

/-- An event whose effect keeps the invariants keeps them, with RESET released. -/
theorem Kept.of_finish {s u : State} (hp : s.resetPin = false) (h : Keeps (Sound s) s u) : Kept s (s.finish u) := by
  have k : Keeps (Sound s) s (s.finish u) := h.trans (.finish u)
  exact {
    mem := k.mem
    clock := k.clock
    anchor := k.anchor
    modes := k.modes
    mask := k.mask
    idle := fun hm hi => k.idle ⟨hm, hi⟩ hm hi
    caps := k.caps
    sets := k.sets
    queues := k.queues
    blinks := k.blinks
    subs := k.subs
    named := fun hm hi => k.named ⟨hm, hi⟩ hm hi
    legal := k.legal
    entered := fun _ => s.event_marksEntered (fun _ => u)
    port := fun _ => portKept_finish s (h.pin.trans hp)
    marked := fun hm hi => k.marked ⟨hm, hi⟩ }

/-- With RESET released an effect that keeps the invariants makes an event that keeps them and leaves RESET released. -/
structure Steps (s t : State) : Prop where
  kept : Kept s t
  pin : t.resetPin = false

namespace Steps

theorem refl {s : State} (hp : s.resetPin = false) : Steps s s := ⟨.refl s, hp⟩

theorem trans {s t u : State} (h : Steps s t) (k : Steps t u) : Steps s u := ⟨h.kept.trans k.kept, k.pin⟩

theorem event {s : State} (hp : s.resetPin = false) {f : State → State} (h : Keeps (Sound s) s (f s)) : Steps s (s.event f) :=
  ⟨.of_finish hp h, by rw [State.event, State.finish_resetPin, h.pin, hp]⟩

theorem portEvent {s : State} (hp : s.resetPin = false) {f : State → State} (h : Keeps (Sound s) s (f s)) :
    Steps s (s.portEvent f) :=
  event hp (f := fun x => (f x).freePort) (h.trans .freePort)

theorem setHeld {s : State} (hp : s.resetPin = false) (h : Option Held) : Steps s (s.portEvent (State.setHeld h)) :=
  portEvent hp (.setHeld h)

theorem performAccess {s : State} (hp : s.resetPin = false) (acc : HostAccess) :
    Steps s (s.portEvent (State.performAccess acc)) :=
  portEvent hp (.performAccess And.left acc)

theorem grantHeld {s : State} (hp : s.resetPin = false) : Steps s s.grantHeld := by
  unfold State.grantHeld
  split
  · exact refl hp
  · rename_i h _
    split
    · exact setHeld hp _
    · refine portEvent hp ?_
      have h1 : Keeps (Sound s) s (s.setHeld none) := .setHeld none
      exact h1.trans (.performAccess (s := s.setHeld none) (fun hg => h1.modes hg.1) h.access)

theorem afterCycle {s : State} (hp : s.resetPin = false) (x : SideAccess) : Steps s (afterCycle x s) := by
  rcases afterCycle_cases x s with e | e
  · rw [e]
    exact grantHeld hp
  · rw [e]
    exact refl hp

theorem endCycle {s : State} (hp : s.resetPin = false) (x : SideAccess) : Steps s (s.endCycle x) := by
  by_cases hx : s.bp.port = some x
  · rw [State.endCycle_eq hx]
    have h1 : Steps s (s.portEvent (cycleEffect x)) := portEvent hp (.cycleEffect x)
    exact h1.trans (afterCycle h1.pin x)
  · rw [State.endCycle_other s x hx]
    exact refl hp

theorem releaseHeld (fuel : Nat) {s : State} (hp : s.resetPin = false) : Steps s (s.releaseHeld fuel) := by
  induction fuel generalizing s with
  | zero => exact refl hp
  | succ fuel ih =>
    unfold State.releaseHeld
    split
    · exact refl hp
    · split
      · rename_i x _
        exact (endCycle hp x).trans (ih (endCycle hp x).pin)
      · exact grantHeld hp

theorem finishHeld {s : State} (hp : s.resetPin = false) : Steps s s.finishHeld := releaseHeld _ hp

theorem admitAccess {s : State} (hp : s.resetPin = false) (acc : HostAccess) : Steps s (s.admitAccess acc) := by
  unfold State.admitAccess
  split
  · exact setHeld hp _
  · split
    · exact setHeld hp _
    · exact performAccess hp acc

theorem admitBehind {s : State} (hp : s.resetPin = false) (acc : HostAccess) : Steps s (s.admitBehind acc) := by
  unfold State.admitBehind
  split
  · exact event hp (.setHeld _)
  · exact event hp (.setHeld _)
  · exact admitAccess hp acc

end Steps

/-! ### A command -/

/-- While RESET is asserted an access reaches memory alone. -/
theorem Kept.memoryAccess (s : State) (acc : HostAccess) : Kept s (s.memoryAccess acc) := by
  have k : Keeps True s (s.memoryAccess acc) := .memoryAccess acc
  refine { mem := k.mem, clock := k.clock, anchor := k.anchor, modes := k.modes, mask := k.mask, idle := k.idle trivial,
           caps := k.caps, sets := k.sets, queues := k.queues, blinks := k.blinks, subs := k.subs, named := k.named trivial,
           legal := k.legal, entered := fun h => ?_, port := fun h => ?_, marked := fun _ _ => k.marked trivial }
  · cases acc <;> exact h
  · cases acc <;> exact h

/-- RESET is asserted: every block stands at its reset values (R61). -/
theorem Kept.assertReset (s : State) (landing : Bool) : Kept s (s.assertReset landing) := by
  obtain ⟨u, hu, hk⟩ : ∃ u : State, u.blocksReset = s.assertReset landing ∧ Keeps False s u := by
    refine ⟨_, rfl, ?_⟩
    have h1 : Keeps False s (if s.landingBegun landing then s.landHead else s) := by
      split
      · exact .landHead
      · exact .refl _ s
    have h2 : ∀ x : State, Keeps False x x.releaseToMemory := fun x => by
      unfold State.releaseToMemory
      split
      · exact .memoryAccess _
      · exact .refl _ _
    exact h1.trans (h2 _)
  rw [← hu]
  have hb : BlocksRest u.blocksReset := ⟨⟨rfl, fun l => by
    show Link.Idle (vget (Vector.replicate 4 Link.reset) l)
    rw [vget_replicate]
    exact ⟨rfl, (by rintro _ ⟨⟩)⟩⟩, rfl, ⟨rfl, (by rintro _ ⟨⟩)⟩⟩
  exact {
    mem := hk.mem
    clock := fun _ => ⟨by show 0 < 864000; decide, by show 0 < 32768; decide, by show 0 < 1048576; decide⟩
    anchor := hk.anchor
    modes := fun _ => modesAgree_of_still rfl (by rintro _ ⟨⟩) rfl rfl
    mask := fun _ _ => rfl
    idle := fun _ _ => (idleOutsideReady_iff _).2 (fun _ => ⟨rfl, hb⟩)
    caps := fun _ => hb.capacitiesKept
    sets := fun _ => hb.setsOrdered List.Pairwise.nil (fun _ h => (by cases h)) rfl
    queues := fun _ => hb.refreshQueuesDistinct
    blinks := fun _ => hb.blinkListsDistinct
    subs := fun _ => hb.subscribersAgree
    named := fun _ _ _ => hb.namedSlotsListed
    legal := fun _ => ⟨Nat.zero_le 8, List.nodup_nil⟩
    entered := fun _ _ w hw => by
      have hn : u.blocksReset.isMarked w = false := by cases w <;> rfl
      rw [hn] at hw
      exact (by cases hw)
    port := fun _ => ⟨fun _ => rfl, fun h => (by cases h)⟩
    marked := fun _ _ _ _ _ => ⟨fun w hw => (by cases hw), fun _ => rfl⟩ }

theorem anchorOf_fits (straps : BitVec 4) : (anchorOf straps).toNat + 123 < 0x40000 := by
  have := straps.isLt
  simp only [anchorOf, BitVec.toNat_ofNat]
  omega

/-- RESET is released: every report word is marked (R62). -/
theorem Kept.releaseReset (s : State) (straps levels : BitVec 4) : Kept s (s.releaseReset straps levels) := by
  let b : State := { s with
    resetPin := false
    bp := { s.bp with anchor := anchorOf straps }
    cs := { s.cs with lineLevels := #v[levels.getLsbD 0, levels.getLsbD 1, levels.getLsbD 2, levels.getLsbD 3] }
    cr := { s.cr with dirty := reportOffsets } }
  have e : s.releaseReset straps levels = b.fill.arbitrate := rfl
  have hq : (s.releaseReset straps levels).bp.queue = (markOrder b).foldl enterMark s.bp.queue := rfl
  have hm : ∀ w, (s.releaseReset straps levels).isMarked w = b.isMarked w := fun w => by cases w <;> rfl
  exact {
    anchor := fun _ => anchorOf_fits straps
    sets := fun ⟨_, _, h3⟩ => ⟨show reportOffsets.Pairwise (· < ·) by decide, fun _ h => h, h3⟩
    legal := fun ⟨h1, h2⟩ => by
      rw [SideQueueLegal, hq]
      exact ⟨foldl_enterMark_length _ _ h1, foldl_enterMark_nodup _ _ h2⟩
    entered := fun _ hl w hw => by
      rw [hq] at hl ⊢
      rw [hm] at hw
      exact mem_foldl_enterMark _ _ hl w ((mem_markOrder b w).2 hw)
    port := fun _ => ⟨fun h => (by cases h), fun _ => ⟨fun x hx => by
      rw [e, State.arbitrate_sideWaits]
      exact State.portChoice_waits b.fill x hx, fun hn x => by
      rw [e, State.arbitrate_sideWaits]
      exact State.portChoice_none b.fill hn x⟩⟩
    marked := fun _ _ _ ho he => ⟨fun w hw => by
      rw [hm]
      rw [hq] at hw
      rcases mem_of_foldl_enterMark _ _ _ hw with h | h
      · have := he.1 w h
        cases w with
        | report o => exact decide_eq_true (ho.2.1 o (of_decide_eq_true this))
        | writeBack m => exact this
      · exact (mem_markOrder b w).1 h, he.2⟩ }

/-- Every command keeps every invariant. -/
theorem Kept.of_exec {c : Instr} {s t : State} (h : exec c s = .next t) : Kept s t := by
  cases commandIs s c with
  | resetAssert b hc =>
    subst hc
    obtain rfl := Host.Outcome.next.inj h
    exact .assertReset s b
  | resetRelease x y hc =>
    subst hc
    obtain rfl := Host.Outcome.next.inj h
    split
    · exact .releaseReset s x y
    · exact .refl s
  | behind acc hc =>
    subst hc
    obtain rfl := Host.Outcome.next.inj h
    unfold State.presentBehind
    split
    · exact .memoryAccess s acc
    · rename_i hp
      have h1 := Steps.finishHeld (s := s) (by simpa using hp)
      exact (h1.trans (.admitBehind h1.pin acc)).kept
  | access acc _ _ hx =>
    rw [hx] at h
    obtain rfl := Host.Outcome.next.inj h
    unfold State.present
    split
    · exact .memoryAccess s acc
    · rename_i hp
      have h1 := Steps.finishHeld (s := s) (by simpa using hp)
      exact (h1.trans (.admitAccess h1.pin acc)).kept
  | cycle x _ hx =>
    rw [hx] at h
    obtain rfl := Host.Outcome.next.inj h
    split
    · exact .refl s
    · rename_i hp
      exact (Steps.endCycle (by simpa using hp) x).kept
  | part _ _ _ hx =>
    rw [hx] at h
    obtain rfl := Host.Outcome.next.inj h
    split
    · exact .refl s
    · rename_i hp
      exact (Steps.event (by simpa using hp) (.partEffect And.left And.right c)).kept

/-- Every step keeps every invariant. -/
theorem Kept.of_step {s t : State} (h : step s = .next t) : Kept s t := by
  unfold step at h
  split at h
  · obtain rfl := Host.Outcome.next.inj h
    exact .refl s
  · rename_i c rest _
    have h1 : Kept s (s.setPending rest) := {}
    exact h1.trans (.of_exec h)

/-! ### The invariants settled -/

/-- Settles O4, from the invariants that every step keeps. -/
theorem memoryStaysCanonical : Obligations.MemoryStaysCanonical := fun _ _ h hs => (Kept.of_step hs).mem h

/-- Settles O6, from the invariants that every step keeps. -/
theorem clockAndAnchorStayInRange : Obligations.ClockAndAnchorStayInRange :=
  fun _ _ hc ha hs => ⟨(Kept.of_step hs).clock hc, (Kept.of_step hs).anchor ha⟩

/-- Settles O7, from the invariants that every step keeps: a mask of 0 enables no flag. -/
theorem modesStayAgreed : Obligations.ModesStayAgreed := by
  refine ⟨fun _ _ h hs => (Kept.of_step hs).modes h, fun _ _ h hs => (Kept.of_step hs).mask h, fun s h hr => ?_⟩
  have hm : s.cr.mask = 0 := h hr
  simp [State.attn, hm]

/-- Settles O8, from the invariants that every step keeps. -/
theorem staysIdleOutsideReady : Obligations.StaysIdleOutsideReady := by
  refine ⟨fun _ _ hm hi hs => (Kept.of_step hs).idle hm hi, fun s t hm hi hl ho he hs => ?_⟩
  have ht := (Kept.of_step hs).marked hm hi hl ho he
  refine ⟨ht, fun hr m hq => ?_⟩
  have hd : m ∈ t.qe.due := of_decide_eq_true (ht.1 _ hq)
  simp [ht.2 hr] at hd

/-- Settles O9, from the invariants that every step keeps. -/
theorem capacitiesStayKept : Obligations.CapacitiesStayKept :=
  ⟨fun _ _ h hs => (Kept.of_step hs).caps h, fun _ _ h hs => (Kept.of_step hs).sets h,
    fun _ _ h hs => (Kept.of_step hs).queues h, fun _ _ h hs => (Kept.of_step hs).blinks h⟩

/-- Settles O10, from the invariants that every step keeps. -/
theorem subscribersStayAgreed : Obligations.SubscribersStayAgreed :=
  ⟨fun _ _ h hs => (Kept.of_step hs).subs h, fun _ _ hm hi hn hs => (Kept.of_step hs).named hm hi hn⟩

end Sys2Proof.Machine
end

