-- ==== Sys2Proof/Proofs/Moves.lean ====
section
/-!
PROOFS. What one command may change: the session as Table 7-2 gives, memory at its own keys, the marks and entries that end, and the port
(chapters 3 and 7).
-/

namespace Sys2Proof.Machine

-- A proof that a field or a hypothesis fills in by default waits for all before it: elaborated at once, each would hold a thread.
set_option Elab.async false

/-! ### A calm change with the session as Table 7-2 lets it go -/

/-- The change is calm, and the session stays or goes on as Table 7-2 gives. -/
structure Moves (s t : State) : Prop where
  calm : Calm False s t
  session : ModesAgree s → t.cs.session = s.cs.session ∨ sessionChange s.cs.session t.cs.session = true

namespace Moves

variable {s t u : State}

theorem of_quiet (h : Quiet False s t) : Moves s t := ⟨h.calm, fun _ => .inl h.session⟩

theorem refl (s : State) : Moves s s := of_quiet (.refl _ s)

theorem after_quiet (h : Quiet False s t) (k : Moves t u) : Moves s u :=
  ⟨h.calm.trans k.calm, fun hm => by
    rw [← h.session]
    exact k.session (h.modesAgree hm)⟩

theorem before_quiet (h : Moves s t) (k : Quiet False t u) : Moves s u :=
  ⟨h.calm.trans k.calm, fun hm => by
    rw [k.session]
    exact h.session hm⟩

theorem refused (op : Byte) (r : Reason) : Moves s (s.cmdRefused op r) := of_quiet (.cmdRefused op r)

theorem sessionDark : Moves s s.sessionDark := ⟨.sessionDark, fun _ => by
  rcases s.sessionDark_cases with e | ⟨_, hd, hcs, _⟩
  · exact .inl (by rw [e])
  · refine .inr ?_
    rw [hcs, hd]
    rfl⟩

theorem openMarket (h : s.cs.session = .preOpen) : Moves s s.openMarket :=
  ⟨.openMarket False.elim, fun _ => .inr (by rw [h]; rfl)⟩

theorem closeMarket (h : s.cs.session = .opened) : Moves s s.closeMarket :=
  ⟨.closeMarket False.elim, fun _ => .inr (by rw [h]; rfl)⟩

theorem lineChange (line : LineId) (level : Bool) : Moves s (s.lineChange line level) := by
  refine ⟨.lineChange line level, fun _ => ?_⟩
  unfold State.lineChange
  simp only
  split
  · rename_i h
    simp only [Bool.and_eq_true, decide_eq_true_eq] at h
    refine .inr ?_
    rw [h.2]
    rfl
  · split
    · rename_i h
      simp only [Bool.and_eq_true, decide_eq_true_eq] at h
      refine .inr ?_
      rw [h.2]
      rfl
    · exact .inl rfl

theorem rollSlot : Moves s s.rollSlot := by
  refine ⟨.rollSlot (fun h => h.elim), fun hm => ?_⟩
  unfold State.rollSlot
  split
  · exact .inl rfl
  rename_i n hw
  have h1 : Quiet False s (s.rollOne n) := .rollOne False.elim n
  simp only
  split
  · refine .inr ?_
    rw [State.rollEnds_cs]
    rcases (hm.2.2.2.2 (by rw [hw]; rfl)).2 with e | e <;> rw [e] <;> rfl
  · exact .inl h1.session

/-- DARK goes through DIMMING, and on to DARK when nothing is left to send (R139, R140). -/
theorem cmdDark : Moves s s.cmdDark := by
  unfold State.cmdDark
  split
  · rename_i hc
    refine ⟨(Calm.dimmed False.elim).trans .sessionDark, fun _ => .inr ?_⟩
    rw [hc]
    rcases s.dimmed.sessionDark_cases with e | ⟨_, _, hcs, _⟩
    · rw [e, State.dimmed_cs]
      rfl
    · rw [hcs]
      rfl
  · exact refused _ _

theorem cmdRoll : Moves s s.cmdRoll := by
  unfold State.cmdRoll
  split
  · refine ⟨(Quiet.setStatus _ _ _).calm.trans (Calm.rollAccepted False.elim), fun _ => .inl ?_⟩
    rw [State.rollAccepted_cs, State.setStatus_cs]
  · exact refused _ _

theorem cmdOpen : Moves s s.cmdOpen := by
  unfold State.cmdOpen
  split
  · rename_i h
    exact (openMarket h).before_quiet (.cmdDone _)
  · exact refused _ _

theorem cmdClose : Moves s s.cmdClose := by
  unfold State.cmdClose
  split
  · rename_i h
    exact (closeMarket h).before_quiet (.cmdDone _)
  · exact refused _ _

/-- A command moves the part calmly, or it is a LOAD that is accepted. -/
theorem owner (op x : Byte) : Moves s (s.owner op x) ∨ s.owner op x = s.loadAccepted := by
  unfold State.owner
  split
  next =>
    unfold State.cmdLoad
    split
    · exact .inr rfl
    · exact .inl (refused _ _)
  next => exact .inl cmdRoll
  next => exact .inl cmdOpen
  next => exact .inl cmdClose
  next => exact .inl cmdDark
  next => exact .inl (of_quiet (.cmdSetClose False.elim))
  next => exact .inl (of_quiet (.cmdHalt False.elim))
  next => exact .inl (of_quiet (.cmdResume False.elim))
  next => exact .inl (of_quiet (.cmdSetClock False.elim x))
  next => exact .inl (of_quiet (.cmdWatch False.elim x))
  next => exact .inl (of_quiet (.cmdUnwatch False.elim x))
  next => exact .inl (of_quiet (.cmdStatusText False.elim x))
  next => exact .inl (of_quiet (.cmdRepaint False.elim x))
  next => exact .inl (of_quiet (.cmdTapeClear False.elim))
  next => exact .inl (refused _ _)

theorem commandWrite (w : Word) : Moves s (s.commandWrite w) ∨ s.commandWrite w = s.loadAccepted := by
  unfold State.commandWrite
  simp only
  split
  · exact .inl (refused _ _)
  split
  · exact .inl (refused _ _)
  split
  · exact .inl (refused _ _)
  · exact owner _ _

theorem handWrite (a : Addr) (d : Word) (lanes : Lanes) :
    Moves s (s.handWrite a d lanes) ∨ s.handWrite a d lanes = s.loadAccepted := by
  unfold State.handWrite
  split
  · split
    · exact commandWrite d
    · exact .inl (of_quiet .anomaly)
  · exact .inl (of_quiet (.parameterTaken _ _ _))
  · exact .inl (of_quiet (.acknowledge _ _))
  · exact .inl (refl s)
  · exact .inl (of_quiet (.quoteWrite False.elim _ _ _ _ _))
  · exact .inl (of_quiet (.textWrite False.elim _ _))
  · exact .inl (of_quiet (.bulletinWrite False.elim _ _ _))
  · exact .inl (refl s)

/-- An event of the part that does not end a LOAD. -/
theorem partEffect {c : Instr} (hc : c ≠ .loadComplete) (hr : c ≠ .loadRefused) : Moves s (partEffect c s) := by
  cases c
  case loadComplete => exact absurd rfl hc
  case loadRefused => exact absurd rfl hr
  case rollSlot => exact rollSlot
  case sessionDark => exact sessionDark
  case baseStep => exact of_quiet .baseStep
  case wholeSecond => exact of_quiet .wholeSecondEvent
  case wholeMinute => exact of_quiet .wholeMinute
  case feedGoesStale => exact of_quiet .feedGoesStale
  case floorLineChange line level => exact lineChange line level
  case blinkExpiry => exact of_quiet .blinkExpiry
  case sweepExpiry => exact of_quiet .sweepExpiry
  case takeWork l => exact of_quiet (.takeWork l)
  case frameSent l => exact of_quiet (.frameSent l)
  case boardAck l bytes =>
    show Moves s (if isGoodAck bytes then (s.boardAcked l).sessionDark else s)
    split
    · exact after_quiet (.boardAcked l) sessionDark
    · exact refl s
  case answerWaitExpiry l => exact after_quiet (.answerWaitEnds l) sessionDark
  case probeIntervalExpiry l => exact of_quiet (.probeIntervalEnds l)
  case tapePaceExpiry => exact after_quiet (.tapePace False.elim) sessionDark
  case mailboxMoveIn => exact of_quiet .mailboxMoveIn
  case turnStart => exact of_quiet .turnStart
  case terminalFrameSent => exact of_quiet .turnFrameSent
  case terminalAnswer bytes => exact of_quiet (.terminalAnswer False.elim bytes)
  case turnMiss => exact of_quiet (.turnMiss False.elim)
  case entryKey u code =>
    show Moves s (if isEntryKeyCode code then s.keyEvent u (.entry code) else s)
    split
    · exact of_quiet (.keyEvent u _)
    · exact refl s
  case quoteKey u => exact of_quiet (.keyEvent u _)
  case recallKey u => exact of_quiet (.keyEvent u _)
  case clearKey u => exact of_quiet (.keyEvent u _)
  case sendKey u => exact of_quiet (.keyEvent u _)
  case watchKey u => exact of_quiet (.keyEvent u _)
  case dropKey u => exact of_quiet (.keyEvent u _)
  case ackKey u => exact of_quiet (.keyEvent u _)
  all_goals exact refl s

end Moves

/-! ### What LOAD leaves of memory, the session and the port -/

/-- A LOAD goes on or ends: memory, the session, the queue and the dirty marks stand. -/
structure LoadMoves (s t : State) : Prop where
  keeps : Keeps True s t
  mem : t.mem = s.mem
  bp : t.bp = { s.bp with windows := t.bp.windows }
  session : ModesAgree s → t.cs.session = s.cs.session
  dirty : SetsOrdered s → ∀ o ∈ s.cr.dirty, o ∈ t.cr.dirty

namespace LoadMoves

variable {s t u : State}

theorem refl (s : State) : LoadMoves s s := ⟨.refl _ s, rfl, rfl, fun _ => rfl, fun _ _ h => h⟩

theorem trans (h : LoadMoves s t) (k : LoadMoves t u) : LoadMoves s u where
  keeps := h.keeps.trans k.keeps
  mem := k.mem.trans h.mem
  bp := by rw [k.bp, h.bp]
  session := fun hm => (k.session (h.keeps.modes hm)).trans (h.session hm)
  dirty := fun hs o ho => k.dirty (h.keeps.sets hs) o (h.dirty hs o ho)

/-- What taking a word leaves as it was. -/
theorem takeLoadWord_frame (s : State) (run : LoadRun) (w : Word) :
    (s.takeLoadWord run w).mem = s.mem ∧ (s.takeLoadWord run w).cs = s.cs ∧
      (s.takeLoadWord run w).cr.dirty = s.cr.dirty := by
  obtain h | ⟨r, h⟩ | ⟨k, r, h⟩ := s.takeLoadWord_cases run w <;> rw [h] <;> exact ⟨rfl, rfl, rfl⟩

theorem takeLoadWord {run : LoadRun} (h : s.cr.part = .loading run) (w : Word) : LoadMoves s (s.takeLoadWord run w) := by
  obtain ⟨hm, hc, hd⟩ := takeLoadWord_frame s run w
  refine ⟨.takeLoadWord h w, hm, ?_, fun _ => by rw [hc], fun _ o ho => by rwa [hd]⟩
  rw [State.takeLoadWord_bp]

theorem loadRefused : LoadMoves s s.loadRefused := by
  refine ⟨.loadRefused, ?_, s.loadRefused_bp, fun hm => ?_, fun hs o ho => ?_⟩ <;> unfold State.loadRefused
  · split
    · split <;> rfl
    · rfl
    · rfl
  · split
    · rename_i run hp
      split
      · exact (hm.closed_of_not_ready (State.isReady_false hp)).symm
      · rfl
    · rfl
    · rfl
  · split
    · split
      · rename_i hf
        exact (mem_join o 8 reportOffsets).2 (.inr (hs.2.1 o ho))
      · exact ho
    · exact ho
    · exact ho

theorem loadComplete : LoadMoves s s.loadComplete := by
  refine ⟨.loadComplete, ?_, s.loadComplete_bp, fun _ => ?_, fun _ o ho => ?_⟩ <;> unfold State.loadComplete
  · split
    · split <;> rfl
    · rfl
    · rfl
  · split
    · split <;> rfl
    · rfl
    · rfl
  · split
    · split
      · exact (mem_join o 8 _).2 (.inr ho)
      · exact ho
    · exact ho
    · exact ho

theorem loadReadAnswered : LoadMoves s s.loadReadAnswered := by
  unfold State.loadReadAnswered
  split
  · rename_i run h
    split
    · exact ((takeLoadWord h _).trans loadRefused).trans loadComplete
    · exact refl s
  · exact refl s
  · exact refl s

end LoadMoves

/-- What is not LOADING has no LOAD to end or to go on with. -/
theorem State.load_idle {s : State} (h : ¬ Loads s) :
    s.loadRefused = s ∧ s.loadComplete = s ∧ s.loadReadAnswered = s := by
  have hp : ∀ run, s.cr.part ≠ .loading run := fun run e => h ⟨run, e⟩
  refine ⟨?_, ?_, ?_⟩
  · unfold State.loadRefused
    split
    · rename_i run e
      exact absurd e (hp run)
    · rfl
    · rfl
  · unfold State.loadComplete
    split
    · rename_i run e
      exact absurd e (hp run)
    · rfl
    · rfl
  · unfold State.loadReadAnswered
    split
    · rename_i run e
      exact absurd e (hp run)
    · rfl
    · rfl

/-- An event of the part moves it calmly, or it is that of a LOAD. -/
theorem partEffect_cases (c : Instr) (s : State) : Moves s (partEffect c s) ∨ LoadMoves s (partEffect c s) := by
  by_cases hc : c = .loadComplete
  · subst hc
    exact .inr .loadComplete
  · by_cases hr : c = .loadRefused
    · subst hr
      exact .inr .loadRefused
    · exact .inl (.partEffect hc hr)

/-- The end of a side access's cycle moves the part calmly, is that of a LOAD, or is a landing. -/
theorem cycleEffect_cases (x : SideAccess) (s : State) :
    Moves s (cycleEffect x s) ∨ LoadMoves s (cycleEffect x s) ∨ (x = .landing ∧ cycleEffect x s = s.landHead) := by
  cases x
  · exact .inr (.inr ⟨rfl, rfl⟩)
  · exact .inl (.of_quiet .textReadAnswered)
  · exact .inr (.inl .loadReadAnswered)

/-! ### What a granted access does -/

/-- Memory after the landing of an entry. -/
def landedMemory (s : State) (w : SideWord) : Memory :=
  match sideWordAddr s w with
  | some a => s.mem.writeWord a (sideWordValue s w) .both
  | none => s.mem

theorem State.landHead_nil {s : State} (h : s.bp.queue = []) : s.landHead = s := by
  unfold State.landHead
  rw [h]

/-- A landing changes memory at its word, the queue's head and that entry's mark alone. -/
theorem State.landHead_cons {s : State} {w : SideWord} {q : List SideWord} (h : s.bp.queue = w :: q) :
    s.landHead = ((s.setMem (landedMemory s w)).setBp { s.bp with queue := q }).clearMark w := by
  unfold State.landHead landedMemory
  rw [h]
  cases ha : sideWordAddr s w <;> simp only [ha] <;> rfl

theorem State.landHead_cs (s : State) : s.landHead.cs = s.cs := by
  cases h : s.bp.queue with
  | nil => rw [State.landHead_nil h]
  | cons w q =>
    rw [State.landHead_cons h]
    cases w <;> rfl

/-- Taking the mark of a written word leaves all but the marks and the queue. -/
theorem State.overrideMark_frame (s : State) (a : Addr) :
    (s.overrideMark a).mem = s.mem ∧ (s.overrideMark a).cs = s.cs ∧ (s.overrideMark a).cr.part = s.cr.part ∧
      (s.overrideMark a).bp = { s.bp with queue := (s.overrideMark a).bp.queue } := by
  unfold State.overrideMark
  split
  · rename_i w _
    split
    · cases w <;> exact ⟨rfl, rfl, rfl, rfl⟩
    · exact ⟨rfl, rfl, rfl, rfl⟩
  · exact ⟨rfl, rfl, rfl, rfl⟩

/-- A write to a word with a mark is handed to no block that acts on it. -/
theorem State.handWrite_sideWord {s : State} {a : Addr} {w : SideWord} (h : sideWordAt s a = some w) (d : Word) (lanes : Lanes) :
    s.handWrite a d lanes = s := by
  unfold sideWordAt at h
  unfold State.handWrite
  split at h
  · rename_i o ho
    rw [ho]
  · rename_i ho
    rw [ho]
    rfl
  · cases h

/-- A granted write is a write of a word with a mark, which its mark and entry leave, or it moves the part calmly, or it is that of a
LOAD that is accepted. -/
theorem State.write_cases (s : State) (a : Addr) (d : Word) (lanes : Lanes) :
    (∃ w, sideWordAt s a = some w ∧
      State.performAccess (.write a d lanes) s = (s.setMem (s.mem.writeWord a.toNat d lanes)).overrideMark a) ∨
    (sideWordAt s a = none ∧ Moves (s.setMem (s.mem.writeWord a.toNat d lanes)) (State.performAccess (.write a d lanes) s)) ∨
    (sideWordAt s a = none ∧
      State.performAccess (.write a d lanes) s = (s.setMem (s.mem.writeWord a.toNat d lanes)).loadAccepted) := by
  cases h : sideWordAt s a with
  | some w =>
    refine .inl ⟨w, rfl, ?_⟩
    obtain ⟨-, -, hp, hb⟩ := (s.setMem (s.mem.writeWord a.toNat d lanes)).overrideMark_frame a
    refine State.handWrite_sideWord (w := w) ?_ d lanes
    refine (sideWordAt_congr s _ a ?_ hp ?_).trans h
    · show ((s.setMem (s.mem.writeWord a.toNat d lanes)).overrideMark a).bp.anchor = _
      rw [hb]
      rfl
    · show ((s.setMem (s.mem.writeWord a.toNat d lanes)).overrideMark a).bp.windows = _
      rw [hb]
      rfl
  | none =>
    rw [State.performAccess_write s a d lanes h]
    exact (Moves.handWrite a d lanes).elim (fun h => .inr (.inl ⟨rfl, h⟩)) (fun h => .inr (.inr ⟨rfl, h⟩))

/-- A granted read moves the part calmly once its word is out. -/
theorem State.read_moves (s : State) (a : Addr) :
    Moves (s.memoryAccess (.read a)) (State.performAccess (.read a) s) := .of_quiet (.handRead a)

theorem State.loadAccepted_mem (s : State) : s.loadAccepted.mem = s.mem := by rw [State.loadAccepted_eq]

theorem State.loadAccepted_session (s : State) : s.loadAccepted.cs.session = s.cs.session := by rw [State.loadAccepted_eq]

/-! ### Memory at its own keys (R49, R54) -/

theorem Memory.readByte_writeWord_ne (m : Memory) (a : Nat) (d : Word) (lanes : Lanes) {k : Nat} (h : k ∉ laneKeys a lanes) :
    (m.writeWord a d lanes).readByte k = m.readByte k := by
  cases lanes <;> simp only [laneKeys, List.mem_cons, List.not_mem_nil, or_false, not_or] at h
  · rw [Memory.writeWord, Memory.readByte_writeByte_ne _ _ _ _ h.2, Memory.readByte_writeByte_ne _ _ _ _ h.1]
  · exact Memory.readByte_writeByte_ne _ _ _ _ h
  · exact Memory.readByte_writeByte_ne _ _ _ _ h

theorem State.memoryAccess_readByte (s : State) (acc : HostAccess) {k : Nat} (h : k ∉ accessKeys acc) :
    (s.memoryAccess acc).mem.readByte k = s.mem.readByte k := by
  cases acc with
  | read a => rfl
  | write a d lanes => exact Memory.readByte_writeWord_ne _ _ _ _ h

theorem State.performAccess_mem (s : State) (acc : HostAccess) : (State.performAccess acc s).mem = (s.memoryAccess acc).mem := by
  cases acc with
  | read a => exact (s.read_moves a).calm.mem
  | write a d lanes =>
    rcases s.write_cases a d lanes with ⟨w, _, e⟩ | ⟨_, h⟩ | ⟨_, e⟩
    · rw [e]
      exact (State.overrideMark_frame _ a).1
    · exact h.calm.mem
    · rw [e, State.loadAccepted_mem]
      rfl

theorem State.landHead_mem {s : State} {w : SideWord} {q : List SideWord} (h : s.bp.queue = w :: q) :
    s.landHead.mem = landedMemory s w := by
  rw [State.landHead_cons h]
  cases w <;> rfl

theorem State.landHead_readByte (s : State) {k : Nat} (h : k ∉ headKeys s) : s.landHead.mem.readByte k = s.mem.readByte k := by
  unfold headKeys at h
  cases hq : s.bp.queue with
  | nil => rw [State.landHead_nil hq]
  | cons w q =>
    rw [State.landHead_mem hq]
    simp only [hq] at h
    unfold landedMemory
    split
    · rename_i a ha
      rw [ha] at h
      exact Memory.readByte_writeWord_ne _ _ _ _ h
    · rfl

/-- The bytes an event leaves alone. -/
theorem Effect.readByte {s u : State} {c : Instr} (h : Effect s c u) {k : Nat} (hk : k ∉ storedKeys s c) :
    u.mem.readByte k = s.mem.readByte k := by
  unfold storedKeys at hk
  cases h with
  | part ha hn =>
    rcases partEffect_cases c s with h | h
    · rw [h.calm.mem]
    · rw [h.mem]
  | cycle x hc hp =>
    rw [State.freePort_mem]
    rcases cycleEffect_cases x s with h | h | ⟨hx, h⟩
    · rw [h.calm.mem]
    · rw [h.mem]
    · subst hx hc
      rw [h]
      exact s.landHead_readByte (by simpa [accessOf, cycleRow] using hk)
  | hold acc cause ha => rfl
  | behind acc cause ha => rfl
  | access acc ha =>
    rw [ha] at hk
    rw [State.freePort_mem, State.performAccess_mem]
    exact s.memoryAccess_readByte acc hk

/-- With RESET asserted a command other than the two of the RESET pin reaches memory and no block (R61). -/
theorem exec_reset {s t : State} {c : Instr} (hp : s.resetPin = true) (hr : ∀ b, c ≠ .resetAssert b)
    (hl : ∀ x y, c ≠ .resetRelease x y) (hx : exec c s = .next t) :
    t = match accessOf s c with
      | some acc => s.memoryAccess acc
      | none => s := by
  cases commandIs s c with
  | resetAssert b hc => exact absurd hc (hr b)
  | resetRelease x y hc => exact absurd hc (hl x y)
  | behind acc hc =>
    subst hc
    rw [exec_arbitration] at hx
    simpa [State.presentBehind, hp, accessOf] using hx.symm
  | access acc ha hn hx' =>
    rw [ha]
    simpa [hx', State.present, hp] using hx.symm
  | cycle x hc hx' =>
    rw [hc, accessOf_cycleRow]
    simpa [hx', hp] using hx.symm
  | part ha hn hr hx' =>
    rw [ha]
    simpa [hx', partEvent, hp] using hx.symm

end Sys2Proof.Machine
end

