-- ==== Sys2Proof/Proofs/SideQueue.lean ====
section
/-!
PROOFS. The Side Write Queue and the port across one command (3.2 to 3.6), and the rules of memory, session and report words that follow
from the kinds of event.
-/

namespace Sys2Proof.Machine

-- Elaborated one after the other, the proofs hold less memory at once.
set_option Elab.async false

/-! ### Memory and session across a command -/

/-- RESET asserted with no access held stores at most the landing that had begun. -/
theorem State.assertReset_readByte {s : State} {landing : Bool} (hh : s.bp.held = none) {k : Nat}
    (hk : k ∉ storedKeys s (.resetAssert landing)) : (s.assertReset landing).mem.readByte k = s.mem.readByte k := by
  have hm : (s.assertReset landing).mem = (if s.landingBegun landing then s.landHead else s).releaseToMemory.mem := rfl
  rw [hm]
  split
  · rename_i hb
    have hl : landing = true := by
      unfold State.landingBegun at hb
      simp only [hh, Bool.or_false, Bool.and_eq_true] at hb
      exact hb.2
    have hr : s.landHead.releaseToMemory = s.landHead := by
      unfold State.releaseToMemory
      rw [State.landHead_held, hh]
    rw [hr]
    exact s.landHead_readByte (by simpa [storedKeys, accessOf, hl] using hk)
  · have hr : s.releaseToMemory = s := by
      unfold State.releaseToMemory
      rw [hh]
    rw [hr]

/-- Settles O14, by the kinds of event: memory changes where an access or a landing writes it. -/
theorem memoryFrame : Obligations.MemoryFrame := by
  intro c s t k hh hx hk
  by_cases ha : ∃ b, c = .resetAssert b
  · obtain ⟨b, rfl⟩ := ha
    obtain rfl := Host.Outcome.next.inj hx
    exact State.assertReset_readByte hh hk
  have ha' : ∀ b, c ≠ .resetAssert b := fun b e => ha ⟨b, e⟩
  cases hp : s.resetPin with
  | false =>
    rcases exec_single hp (.inl hh) ha' hx with rfl | ⟨u, hu, rfl⟩
    · rfl
    · rw [State.finish_mem]
      exact hu.readByte hk
  | true =>
    by_cases hl : ∃ x y, c = .resetRelease x y
    · obtain ⟨x, y, rfl⟩ := hl
      obtain rfl := Host.Outcome.next.inj hx
      rw [if_pos hp]
      rfl
    · obtain rfl := exec_reset hp ha' (fun x y e => hl ⟨x, y, e⟩) hx
      unfold storedKeys at hk
      split
      · rename_i acc hacc
        rw [hacc] at hk
        exact s.memoryAccess_readByte acc hk
      · rfl

/-- The session after an event stays or goes on as Table 7-2 gives. -/
theorem Effect.session {s u : State} {c : Instr} (h : Effect s c u) (hm : ModesAgree s) :
    u.cs.session = s.cs.session ∨ sessionChange s.cs.session u.cs.session = true := by
  cases h with
  | part ha hn =>
    rcases partEffect_cases c s with h | h
    · exact h.session hm
    · exact .inl (h.session hm)
  | cycle x hc hp =>
    rw [State.freePort_cs]
    rcases cycleEffect_cases x s with h | h | ⟨_, h⟩
    · exact h.session hm
    · exact .inl (h.session hm)
    · rw [h, State.landHead_cs]
      exact .inl rfl
  | hold acc cause ha => exact .inl rfl
  | behind acc cause ha => exact .inl rfl
  | access acc ha =>
    rw [State.freePort_cs]
    cases acc with
    | read a => exact (s.read_moves a).session hm
    | write a d lanes =>
      rcases s.write_cases a d lanes with ⟨w, _, e⟩ | ⟨_, h⟩ | ⟨_, e⟩
      · rw [e, (State.overrideMark_frame _ a).2.1]
        exact .inl rfl
      · exact h.session hm
      · rw [e, State.loadAccepted_session]
        exact .inl rfl

/-- Settles O11, by the kinds of event: RESET, the boards, the tape and the host move the session as Table 7-2 gives. -/
theorem sessionFollowsTable : Obligations.SessionFollowsTable := by
  intro c s t hm hh hx hne
  by_cases ha : ∃ b, c = .resetAssert b
  · obtain ⟨b, rfl⟩ := ha
    obtain rfl := Host.Outcome.next.inj hx
    exact .inr ⟨⟨b, rfl⟩, rfl⟩
  have ha' : ∀ b, c ≠ .resetAssert b := fun b e => ha ⟨b, e⟩
  left
  cases hp : s.resetPin with
  | false =>
    rcases exec_single hp (.inl hh) ha' hx with rfl | ⟨u, hu, rfl⟩
    · exact absurd rfl hne
    · rw [State.finish_cs] at hne ⊢
      exact (hu.session hm).resolve_left hne
  | true =>
    by_cases hl : ∃ x y, c = .resetRelease x y
    · obtain ⟨x, y, rfl⟩ := hl
      obtain rfl := Host.Outcome.next.inj hx
      rw [if_pos hp] at hne
      exact absurd rfl hne
    · obtain rfl := exec_reset hp ha' (fun x y e => hl ⟨x, y, e⟩) hx
      refine absurd ?_ hne
      split
      · rename_i acc _
        cases acc <;> rfl
      · rfl

/-- A report word whose value a command changes, RESET_ASSERT apart, is dirty after it (R202). -/
theorem changed_reportWord_dirty {c : Instr} {s t : State} {o : Nat} (hp : s.resetPin = false) (hh : s.bp.held = none)
    (hr : ∀ b, c ≠ .resetAssert b) (hx : exec c s = .next t) (ho : o ∈ reportOffsets)
    (hne : reportValue t o ≠ reportValue s o) : o ∈ t.cr.dirty := by
  rcases exec_single hp (.inl hh) hr hx with rfl | ⟨u, _, rfl⟩
  · exact absurd rfl hne
  · rw [(State.finish_same s u).reportValue] at hne
    exact State.mem_finish_of_ne ho hne.symm

/-! ### Marks and entries across one event (R52, R53) -/

/-- What an event, before its end, leaves of marks and entries: those that `ends` does not pick stand, and a word whose entry left has no
mark and, a report word, its value. -/
structure Passes (ends : SideWord → Prop) (s u : State) : Prop where
  marks : ∀ w, s.isMarked w = true → u.isMarked w = true ∨ ends w
  queue : ∃ p : SideWord → Bool, u.bp.queue = s.bp.queue.filter p
  left : ∀ w ∈ s.bp.queue, w ∉ u.bp.queue →
    ends w ∧ u.isMarked w = false ∧ ∀ o, w = .report o → reportValue u o = reportValue s o

namespace Passes

variable {ends : SideWord → Prop} {s u : State}

/-- An event that leaves the queue as it was. -/
theorem of_queue (hq : u.bp.queue = s.bp.queue) (hm : ∀ w, s.isMarked w = true → u.isMarked w = true ∨ ends w) :
    Passes ends s u := by
  refine ⟨hm, ⟨fun _ => true, by rw [hq, List.filter_true]⟩, fun w hw hn => ?_⟩
  rw [hq] at hn
  exact absurd hw hn

theorem of_calm {g : Prop} (h : Calm g s u) : Passes ends s u :=
  of_queue (congrArg BusPath.queue h.bp) (fun w hw => .inl (h.marks w hw))

/-- Memory and the port are no marks. -/
theorem congr {v : State} (h : Passes ends s u) (hm : ∀ w, v.isMarked w = u.isMarked w) (hq : v.bp.queue = u.bp.queue)
    (hv : ∀ o, reportValue v o = reportValue u o) : Passes ends s v := by
  refine ⟨fun w hw => by rw [hm]; exact h.marks w hw, by rw [hq]; exact h.queue, fun w hw hn => ?_⟩
  rw [hq] at hn
  obtain ⟨h1, h2, h3⟩ := h.left w hw hn
  exact ⟨h1, by rw [hm]; exact h2, fun o ho => by rw [hv]; exact h3 o ho⟩

theorem freePort (h : Passes ends s u) : Passes ends s u.freePort :=
  h.congr (fun w => by cases w <;> rfl) rfl (fun o => rfl)

end Passes

/-- A cleared mark is not set, and every other stands. -/
theorem State.isMarked_clearMark (s : State) (v w : SideWord) : (s.clearMark v).isMarked w = (decide (w ≠ v) && s.isMarked w) := by
  cases v <;> cases w <;> simp [State.clearMark, State.isMarked, leave, and_comm]

namespace Passes

variable {s : State}

/-- A landing: the head's entry and mark end (R54). -/
theorem landHead (hl : s.bp.queue.Nodup) : Passes (fun w => s.bp.queue.head? = some w) s s.landHead := by
  cases hq : s.bp.queue with
  | nil =>
    rw [State.landHead_nil hq]
    exact of_queue rfl (fun w hw => .inl hw)
  | cons w q =>
    rw [hq] at hl
    obtain ⟨hw, _⟩ := List.nodup_cons.1 hl
    have hm : ∀ v, s.landHead.isMarked v = (decide (v ≠ w) && s.isMarked v) := fun v => by
      rw [State.landHead_cons hq, State.isMarked_clearMark]
      cases v <;> rfl
    have hb : s.landHead.bp.queue = q := by
      rw [State.landHead_cons hq, State.clearMark_bp]
      rfl
    refine ⟨fun v hv => ?_, ⟨fun v => decide (v ≠ w), ?_⟩, fun v hv hn => ?_⟩
    · by_cases e : v = w
      · exact .inr (by simp [e])
      · exact .inl (by rw [hm, hv]; simp [e])
    · rw [hb, hq]
      simp only [ne_eq, List.filter_cons, not_true_eq_false, decide_false, Bool.false_eq_true, if_false]
      exact (List.filter_eq_self.2 (fun v hv => by
        have : v ≠ w := fun e => hw (e ▸ hv)
        simpa using this)).symm
    · rw [hb] at hn
      rw [hq] at hv
      obtain rfl : v = w := (List.mem_cons.1 hv).resolve_right hn
      refine ⟨rfl, by rw [hm]; simp, fun o _ => ?_⟩
      rw [State.landHead_cons hq, State.clearMark_reportValue]
      rfl

/-- A host write to a word with a mark: its entry and mark end (R58). -/
theorem overrideMark {a : Addr} {v : SideWord} (h : sideWordAt s a = some v) :
    Passes (fun w => sideWordAt s a = some w) s (s.overrideMark a) := by
  unfold State.overrideMark
  rw [h]
  simp only
  split
  · have hq : ((s.setBp { s.bp with queue := leave v s.bp.queue }).clearMark v).bp.queue = leave v s.bp.queue := by
      rw [State.clearMark_bp]
      rfl
    have hm : ∀ w, ((s.setBp { s.bp with queue := leave v s.bp.queue }).clearMark v).isMarked w =
        (decide (w ≠ v) && s.isMarked w) := fun w => by
      rw [State.isMarked_clearMark]
      cases w <;> rfl
    refine ⟨fun w hw => ?_, ⟨fun w => decide (w ≠ v), hq⟩, fun w hw hn => ?_⟩
    · by_cases e : w = v
      · exact .inr (by rw [e])
      · exact .inl (by rw [hm, hw]; simp [e])
    · rw [hq, mem_leave] at hn
      obtain rfl : w = v := by
        by_contra e
        exact hn ⟨hw, e⟩
      exact ⟨rfl, by rw [hm]; simp, fun o _ => State.clearMark_reportValue _ _ o⟩
  · exact of_queue rfl (fun w hw => .inl hw)

/-- An accepted LOAD: the write-back words' entries and marks end (R63). -/
theorem loadAccepted : Passes (fun w => ∃ m, w = .writeBack m) s s.loadAccepted := by
  rw [State.loadAccepted_eq]
  refine ⟨fun w hw => ?_, ⟨_, rfl⟩, fun w hw hn => ?_⟩
  · cases w with
    | report o => exact .inl (decide_eq_true ((mem_join o 8 _).2 (.inr (of_decide_eq_true hw))))
    | writeBack m => exact .inr ⟨m, rfl⟩
  · cases w with
    | report o => exact absurd (List.mem_filter.2 ⟨hw, rfl⟩) hn
    | writeBack m => exact ⟨⟨m, rfl⟩, rfl, fun o => (by rintro ⟨⟩)⟩

/-- An event of a LOAD: write-back marks may end (R54, R63). -/
theorem of_load {u : State} (h : LoadMoves s u) (ho : SetsOrdered s) : Passes (fun w => ∃ m, w = .writeBack m) s u := by
  refine of_queue (by rw [h.bp]) (fun w hw => ?_)
  cases w with
  | report o => exact .inl (decide_eq_true (h.dirty ho o (of_decide_eq_true hw)))
  | writeBack m => exact .inr ⟨m, rfl⟩

end Passes

theorem EntersBefore.congr {s t : State} (hb : ∀ w, ReadIsHeld t w ↔ ReadIsHeld s w) {v w : SideWord} (h : EntersBefore s v w) :
    EntersBefore t v w := by
  unfold EntersBefore at *
  rwa [hb v, hb w]

/-- The end of the event enters marks behind what the event left of the queue, in the order of R53. -/
theorem Passes.marksMove {ends : SideWord → Prop} {s u : State} {c : Instr} (h : Passes ends s u)
    (he : ∀ w, ends w → MarkMayEnd s c (s.finish u) w) (ho : SetsOrdered u) : MarksMove s c (s.finish u) := by
  let m := s.markChanged u
  have hmo : SetsOrdered m := by
    obtain ⟨h1, h2, h3, h4, h5, h6⟩ := (Keeps.finish (g := True) (s := s) u).sets ho
    exact ⟨h1, h2, h3, h4, h5, h6⟩
  obtain ⟨new, hq, hn, hp, hl⟩ := m.fill_new hmo
  have hmq : m.bp.queue = u.bp.queue := congrArg BusPath.queue (State.markChanged_bp s u)
  have hqt : (s.finish u).bp.queue = u.bp.queue ++ new := by
    rw [← hmq]
    exact hq
  have hmark : ∀ w, (s.finish u).isMarked w = m.isMarked w := fun w => by cases w <;> rfl
  have hread : ∀ w, ReadIsHeld (s.finish u) w ↔ ReadIsHeld m w := fun w => Iff.rfl
  have rises : ∀ w, u.isMarked w = true → (s.finish u).isMarked w = true := fun w hw => by
    cases w with
    | report o => exact decide_eq_true (State.mem_finish_of_mem (of_decide_eq_true hw))
    | writeBack d =>
      show decide (d ∈ (s.finish u).qe.due) = true
      rw [State.finish_qe]
      exact hw
  -- A word whose entry left in the event is not entered at its end: its mark is cleared and its value has not changed.
  have fresh : ∀ w ∈ new, w ∉ s.bp.queue := fun w hw hs => by
    obtain ⟨hm, hnu⟩ := hn w hw
    rw [hmq] at hnu
    obtain ⟨_, hu, hv⟩ := h.left w hs hnu
    cases w with
    | report o =>
      have hd : o ∈ (s.event (fun _ => u)).cr.dirty := of_decide_eq_true hm
      rw [State.event_dirty] at hd
      rcases hd with ⟨_, hne⟩ | hd
      · exact hne (hv o rfl).symm
      · have : u.isMarked (.report o) = true := decide_eq_true hd
        simp [hu] at this
    | writeBack d =>
      have hd : (s.finish u).isMarked (.writeBack d) = true := (hmark _).trans hm
      have hd' : decide (d ∈ (s.finish u).qe.due) = true := hd
      rw [State.finish_qe] at hd'
      have : u.isMarked (.writeBack d) = true := hd'
      simp [hu] at this
  obtain ⟨p, hpu⟩ := h.queue
  have stays : ∀ w ∈ s.bp.queue, (w ∈ (s.finish u).bp.queue ↔ p w = true) := fun w hw => by
    rw [hqt, List.mem_append, hpu, List.mem_filter]
    exact ⟨fun hx => hx.elim And.right (fun hx => absurd hw (fresh w hx)), fun hx => .inl ⟨hw, hx⟩⟩
  refine ⟨fun w hw => (h.marks w hw).imp (rises w) (he w), fun w hw => ?_, new, ?_, fun w hw => ⟨?_, fresh w hw⟩, ?_, ?_⟩
  · by_cases hu : w ∈ u.bp.queue
    · left
      rw [hqt]
      exact List.mem_append_left _ hu
    · exact .inr (he w (h.left w hw hu).1)
  · have hf : s.bp.queue.filter (fun w => decide (w ∈ (s.finish u).bp.queue)) = u.bp.queue := by
      rw [hpu]
      refine List.filter_congr (fun w hw => ?_)
      rw [Bool.eq_iff_iff, decide_eq_true_iff]
      exact stays w hw
    rw [hf]
    exact hqt
  · rw [hmark]
    exact (hn w hw).1
  · exact hp.imp (EntersBefore.congr hread)
  · intro v hv w hw hnw
    rw [hmark] at hw
    exact EntersBefore.congr hread (hl v hv w hw hnw)

/-! ### The port across one event (R51) -/

/-- A port granted to a read was its own already, or nothing that R51 ranks before it waits. -/
theorem State.finish_port_read (s u : State) {x : SideAccess} (h : (s.finish u).bp.port = some x) :
    u.bp.port = some x ∨ (s.finish u).nextSide = some x := by
  have hp : ((s.markChanged u).fill).portChoice = some x := h
  have hport : ((s.markChanged u).fill).bp.port = u.bp.port := by
    show (s.markChanged u).bp.port = u.bp.port
    rw [State.markChanged_bp]
  have hnext : (s.finish u).nextSide = ((s.markChanged u).fill).nextSide := rfl
  unfold State.portChoice at hp
  rw [hnext]
  split at hp
  · rename_i y hy
    split at hp
    · left
      rw [← hport, hy]
      exact hp
    · exact .inr hp
  · exact .inr hp

theorem State.nextSide_textRead {s : State} (h : s.nextSide = some .textRead) : s.bp.queue = [] := by
  by_contra hq
  simp [State.nextSide, State.sideWaits, hq] at h

theorem State.nextSide_loadRead {s : State} (h : s.nextSide = some .loadRead) : s.bp.queue = [] ∧ s.bc.textRequest = none := by
  by_cases hq : s.bp.queue = []
  · refine ⟨hq, ?_⟩
    cases ht : s.bc.textRequest with
    | none => rfl
    | some l => simp [State.nextSide, State.sideWaits, hq, ht] at h
  · simp [State.nextSide, State.sideWaits, hq] at h

/-- The port after an event that leaves it as it was or frees it. -/
theorem portMoves_finish {s u : State} {c : Instr} (hu : u.bp.port = s.bp.port ∨ u.bp.port = none)
    (hk : accessOf s c = none → c ≠ .landing → c ≠ .textLineReadAnswer → c ≠ .loadReadAnswer → u.bp.port = s.bp.port) :
    PortMoves s c (s.finish u) := by
  have was : ∀ {x}, u.bp.port = some x → s.bp.port = some x := fun {x} hx => by
    rcases hu with e | e
    · rw [← e, hx]
    · simp [e] at hx
  refine ⟨fun x hx hw ha h1 h2 h3 => ?_, fun ht => ?_, fun ht => ?_⟩
  · have hport : ((s.markChanged u).fill).bp.port = some x :=
      (congrArg BusPath.port (State.markChanged_bp s u)).trans ((hk ha h1 h2 h3).trans hx)
    have hw' : ((s.markChanged u).fill).sideWaits x = true := (State.arbitrate_sideWaits _ x).symm.trans hw
    exact State.portChoice_kept _ x hport hw'
  · exact (s.finish_port_read u ht).imp was State.nextSide_textRead
  · exact (s.finish_port_read u ht).imp was State.nextSide_loadRead

/-! ### O5 -/

/-- A command that changes nothing moves no mark and no port. -/
theorem moves_refl (s : State) (c : Instr) : MarksMove s c s ∧ PortMoves s c s :=
  ⟨⟨fun _ h => .inl h, fun _ h => .inl h, [], by
      rw [List.append_nil]
      exact (List.filter_eq_self.2 (fun w hw => decide_eq_true hw)).symm, by simp, List.Pairwise.nil, by simp⟩,
    fun _ h _ _ _ _ _ => h, .inl, .inl⟩

theorem Passes.imp {p q : SideWord → Prop} {s u : State} (h : Passes p s u) (hpq : ∀ w, p w → q w) : Passes q s u :=
  ⟨fun w hw => (h.marks w hw).imp id (hpq w), h.queue, fun w hw hn => ⟨hpq w (h.left w hw hn).1, (h.left w hw hn).2⟩⟩

/-- What an event may end: the head at its landing, the word of a host write, the write-back words of a LOAD that begins or ends. -/
theorem Effect.passes {s u : State} {c : Instr} (h : Effect s c u) (hl : SideQueueLegal s) (ho : SetsOrdered s) :
    Passes (MarkMayEnd s c (s.finish u)) s u := by
  -- An event of a LOAD outside LOADING changes nothing.
  have load : ∀ {v : State}, LoadMoves s v → (¬ Loads s → v = s) → (∀ t, Passes (MarkMayEnd s c t) s v) := fun {v} hv hn t => by
    by_cases hs : Loads s
    · exact (Passes.of_load hv ho).imp (fun w ⟨m, hm⟩ => .inr (.inr ⟨m, hm, .inl hs⟩))
    · rw [hn hs]
      exact .of_calm (Quiet.refl True s).calm
  cases h with
  | part ha hn =>
    by_cases hc : c = .loadComplete
    · subst hc
      exact load .loadComplete (fun h => (State.load_idle h).2.1) _
    · by_cases hr : c = .loadRefused
      · subst hr
        exact load .loadRefused (fun h => (State.load_idle h).1) _
      · exact .of_calm (Moves.partEffect hc hr).calm
  | cycle x hc hp =>
    cases x with
    | landing => exact ((Passes.landHead hl.2).imp (fun w hw => .inl ⟨hc, hw⟩)).freePort
    | textRead => exact (Passes.of_calm (Quiet.textReadAnswered (g := True)).calm).freePort
    | loadRead => exact (load .loadReadAnswered (fun h => (State.load_idle h).2.2) _).freePort
  | hold acc cause ha => exact .of_queue rfl (fun w hw => .inl (by cases w <;> exact hw))
  | behind acc cause ha => exact .of_queue rfl (fun w hw => .inl (by cases w <;> exact hw))
  | access acc ha =>
    refine Passes.freePort ?_
    cases acc with
    | read a =>
      have hq := congrArg BusPath.queue (s.read_moves a).calm.bp
      exact .of_queue hq (fun w hw => .inl ((s.read_moves a).calm.marks w (by cases w <;> exact hw)))
    | write a d lanes =>
      have base : ∀ w, (s.setMem (s.mem.writeWord a.toNat d lanes)).isMarked w = s.isMarked w := fun w => by cases w <;> rfl
      have from_mem : ∀ {p : SideWord → Prop} {v : State}, Passes p (s.setMem (s.mem.writeWord a.toNat d lanes)) v → Passes p s v :=
        fun {p v} k => ⟨fun w hw => k.marks w ((base w).trans hw), k.queue, k.left⟩
      rcases s.write_cases a d lanes with ⟨w, hw, e⟩ | ⟨_, k⟩ | ⟨_, e⟩
      · rw [e]
        have hw' : sideWordAt (s.setMem (s.mem.writeWord a.toNat d lanes)) a = some w :=
          (sideWordAt_congr s (s.setMem (s.mem.writeWord a.toNat d lanes)) a rfl rfl rfl).trans hw
        refine from_mem ((Passes.overrideMark hw').imp (fun v hv => .inr (.inl ⟨a, d, lanes, ha, ?_⟩)))
        rw [hw, ← hw', hv]
      · exact from_mem (.of_calm k.calm)
      · rw [e]
        refine from_mem (Passes.loadAccepted.imp (fun w ⟨m, hm⟩ => .inr (.inr ⟨m, hm, .inr ⟨.start, ?_⟩⟩)))
        rw [State.finish_part, State.freePort_cr, State.loadAccepted_eq]

/-- An event leaves the ordered sets ordered. -/
theorem Effect.sets {s u : State} {c : Instr} (h : Effect s c u) (ho : SetsOrdered s) : SetsOrdered u := by
  cases h with
  | part ha hn => exact (Keeps.partEffect (g := False) False.elim False.elim c).sets ho
  | cycle x hc hp => exact (Keeps.cycleEffect (g := False) x).sets ho
  | hold acc cause ha => exact ho
  | behind acc cause ha => exact ho
  | access acc ha => exact (Keeps.performAccess (g := False) False.elim acc).sets ho

/-- An event of the part, or an access that waits behind a side access, leaves the port as it was; any other frees it. -/
theorem Effect.port {s u : State} {c : Instr} (h : Effect s c u) :
    (u.bp.port = s.bp.port ∨ u.bp.port = none) ∧ (accessOf s c = none → (∀ x, c ≠ cycleRow x) → u.bp.port = s.bp.port) := by
  cases h with
  | part ha hn =>
    have hp : (partEffect c s).bp.port = s.bp.port := by
      rcases partEffect_cases c s with h | h
      · rw [h.calm.bp]
      · rw [h.bp]
    exact ⟨.inl hp, fun _ _ => hp⟩
  | cycle x hc hp => exact ⟨.inr rfl, fun _ hn => absurd hc (hn x)⟩
  | hold acc cause ha => exact ⟨.inr rfl, fun hn => by simp [ha] at hn⟩
  | behind acc cause ha => exact ⟨.inl rfl, fun _ _ => rfl⟩
  | access acc ha => exact ⟨.inr rfl, fun hn => by simp [ha] at hn⟩

/-- Settles O5: the queue's bounds are among the invariants of every step, and across one event its marks and entries move as R53 lets
them and the port as R51 does. -/
theorem sideQueueStaysLegal : Obligations.SideQueueStaysLegal := by
  refine ⟨fun _ _ hl hm hs => ⟨(Kept.of_step hs).legal hl, (Kept.of_step hs).entered hm⟩, fun _ _ hp hs => (Kept.of_step hs).port hp,
    fun c s t hp hh hl ho hr hx => ?_⟩
  have hh' : s.bp.held = none ∨ (accessOf s c = none ∧ ∀ x, c ≠ cycleRow x) :=
    hh.imp_right (fun ⟨ha, h1, h2, h3⟩ => ⟨ha, fun x => by cases x <;> assumption⟩)
  rcases exec_single hp hh' hr hx with rfl | ⟨u, hu, rfl⟩
  · exact moves_refl _ c
  · refine ⟨(hu.passes hl ho).marksMove (fun _ h => h) (hu.sets ho), portMoves_finish hu.port.1 (fun ha h1 h2 h3 => ?_)⟩
    exact hu.port.2 ha (fun x => by cases x <;> assumption)

end Sys2Proof.Machine
end

