-- ==== Sys2Proof/Proofs/Reset.lean ====
section
/-!
PROOFS. The queue of commands, the reset state and its invariants, RESET asserted and released, and a host access granted at once
(chapter 3).
-/

namespace Sys2Proof.Machine

-- Elaborated one after the other, the proofs hold less memory at once.
set_option Elab.async false

/-- Settles O1: both are the defining branches of `step`. -/
theorem stepTakesFront : Obligations.StepTakesFront :=
  ⟨fun _ _ _ => rfl, fun s h => by rw [step, h]⟩

/-- No command faults or is refused by the model itself: each leaves a state. -/
theorem exec_next (c : Instr) (s : State) : ∃ t, exec c s = .next t := by
  cases commandIs s c with
  | resetAssert b hc => exact ⟨_, by rw [hc]; rfl⟩
  | resetRelease x y hc => exact ⟨_, by rw [hc]; rfl⟩
  | behind acc hc => exact ⟨_, by rw [hc]; rfl⟩
  | access acc ha hn hx => exact ⟨_, hx⟩
  | cycle x hc hx => exact ⟨_, hx⟩
  | part ha hn hr hx => exact ⟨_, hx⟩

/-- Settles O13: every command but the two of the RESET pin is in the cases of `exec_reset`. -/
theorem resetHoldsThePart : Obligations.ResetHoldsThePart := by
  intro c s hp hr hl
  obtain ⟨t, hx⟩ := exec_next c s
  rw [hx, exec_reset hp hr hl hx]
  cases accessOf s c with
  | none => rfl
  | some acc => cases acc <;> rfl

/-! ### Right after reset -/

theorem State.reset_slot (n : Slot) : State.reset.slot n = SlotRec.reset := vget_replicate _ _

theorem Link.reset_idle : Link.reset.Idle := ⟨rfl, (by rintro _ ⟨⟩)⟩

theorem BlocksRest.reset : BlocksRest State.reset where
  board := ⟨rfl, fun l => by
    have : vget State.reset.bc.links l = Link.reset := vget_replicate _ _
    rw [this]
    exact Link.reset_idle⟩
  tape := rfl
  loop := ⟨rfl, (by rintro _ ⟨⟩)⟩

/-- While no side access but the landing waits, that alone has the port. -/
theorem State.reset_portKept : PortKept State.reset := by
  refine ⟨(by rintro ⟨⟩), fun _ => ⟨fun x hx => ?_, (by rintro ⟨⟩)⟩⟩
  obtain rfl : SideAccess.landing = x := Option.some.inj hx
  rfl

/-- Settles O3: the queue is full, the blocks rest, and the rest is read off the reset values. -/
theorem resetMeetsInvariants : Obligations.ResetMeetsInvariants := by
  have rest := BlocksRest.reset
  have marked : ∀ w ∈ State.reset.bp.queue, State.reset.isMarked w = true := by decide
  exact ⟨rfl, ⟨by decide, by decide⟩, fun h => absurd h (by decide), ⟨by decide, by decide, by decide⟩,
    modesAgree_of_still rfl (by rintro _ ⟨⟩) rfl rfl, (idleOutsideReady_iff _).2 fun _ => ⟨rfl, rest⟩,
    rest.capacitiesKept, rest.subscribersAgree, by unfold AnchorFits; decide, rest.setsOrdered (by decide) (by decide) rfl, State.reset_portKept,
    rest.refreshQueuesDistinct, rest.blinkListsDistinct, ⟨marked, fun _ => rfl⟩, rest.namedSlotsListed, fun _ => rfl⟩

/-! ### RESET_RELEASE (R51, R62) -/

/-- The marks of the report words enter an empty queue: the first eight of them. -/
theorem enter_reportWords :
    (reportOffsets.map SideWord.report).foldl enterMark [] = [6, 7, 8, 9, 10, 11, 12, 13].map SideWord.report := by decide

/-- With no access held and no write-back mark, the marks are those of the dirty report words. -/
theorem markOrder_report {s : State} (hh : s.bp.held = none) (hd : s.qe.due = []) :
    markOrder s = s.cr.dirty.map SideWord.report := by
  simp [markOrder, heldReportWord, hh, hd]

/-- Settles O2: the values are those of `State.reset`, and at the release the first eight report words enter the empty queue. -/
theorem resetValues : Obligations.ResetValues := by
  refine ⟨⟨by decide, rfl, rfl, rfl, fun n => ⟨vget_replicate _ _, State.reset_slot n⟩⟩, ?_⟩
  intro s straps levels hp hq hh hport hd
  let u : State := { s with
    resetPin := false
    bp := { s.bp with anchor := anchorOf straps }
    cs := { s.cs with lineLevels := #v[levels.getLsbD 0, levels.getLsbD 1, levels.getLsbD 2, levels.getLsbD 3] }
    cr := { s.cr with dirty := reportOffsets } }
  have hfill : u.fill.bp.queue = [6, 7, 8, 9, 10, 11, 12, 13].map SideWord.report := by
    show (markOrder u).foldl enterMark s.bp.queue = _
    rw [markOrder_report (s := u) hh hd, hq]
    exact enter_reportWords
  have hchoice : u.fill.portChoice = some .landing := u.fill.portChoice_landing hport (by rw [hfill]; rintro ⟨⟩)
  have hx : exec (.resetRelease straps levels) s = .next u.fill.arbitrate := by
    rw [exec_resetRelease, hp]
    rfl
  rw [hx]
  have : u.fill.arbitrate = { u with bp := { u.bp with queue := u.fill.bp.queue, port := u.fill.portChoice } } := rfl
  rw [this, hfill, hchoice]
  rfl

/-! ### RESET_ASSERT (R61) -/

/-- The landing at the head of the queue changes memory, the marks and the queue alone. -/
theorem State.landHead_frame (s : State) :
    s.landHead = { s with
      mem := s.landHead.mem, qe := s.landHead.qe, cr := s.landHead.cr
      bp := { s.bp with queue := s.landHead.bp.queue } } := by
  cases hq : s.bp.queue with
  | nil => rw [State.landHead_nil hq]
  | cons w q =>
    rw [State.landHead_cons hq]
    cases w <;> rfl

/-- Whether a landing's cycle had begun. -/
theorem State.landingBegun_iff (s : State) (landing : Bool) :
    s.landingBegun landing = true ↔
      s.bp.port = some .landing ∧ (landing = true ∨ ∃ acc, s.bp.held = some ⟨acc, .arbitration⟩) := by
  unfold State.landingBegun
  cases h : s.bp.held with
  | none => simp
  | some k =>
    obtain ⟨acc, cause⟩ := k
    simp

/-- What RESET finds when a landing's cycle that had begun has completed. -/
def State.landedForReset (s : State) (landing : Bool) : State := if s.landingBegun landing then s.landHead else s

theorem State.assertReset_eq (s : State) (landing : Bool) :
    s.assertReset landing = (s.landedForReset landing).releaseToMemory.blocksReset := rfl

theorem State.landedForReset_frame (s : State) (landing : Bool) :
    s.landedForReset landing = { s with
      mem := (s.landedForReset landing).mem, qe := (s.landedForReset landing).qe, cr := (s.landedForReset landing).cr
      bp := { s.bp with queue := (s.landedForReset landing).bp.queue } } := by
  unfold State.landedForReset
  split
  · exact s.landHead_frame
  · rfl

theorem State.releaseToMemory_frame (s : State) :
    s.releaseToMemory = { s with
      mem := s.releaseToMemory.mem, bp := { s.bp with hostData := s.releaseToMemory.bp.hostData } } := by
  unfold State.releaseToMemory
  split
  · rename_i h _
    cases h.access <;> rfl
  · rfl

/-- RESET_ASSERT leaves memory, the straps, the host's data lines and the line levels; every block takes its reset values. -/
theorem State.assertReset_frame (s : State) (landing : Bool) :
    s.assertReset landing = { s with
      resetPin := true
      mem := (s.assertReset landing).mem
      bp := { s.bp with
        windows := [], queue := [], held := none, port := none, hostData := (s.assertReset landing).bp.hostData }
      qe := .reset
      bc := .reset
      tc := .reset
      cs := { ClockSession.reset with lineLevels := s.cs.lineLevels }
      pt := .reset
      cr := .reset } := by
  rw [State.assertReset_eq, State.releaseToMemory_frame, State.landedForReset_frame]
  rfl

/-- Memory once a landing's cycle that had begun has completed. -/
theorem State.landedForReset_mem {s : State} {landing : Bool} {m : Memory} {begun : Prop}
    (hb : s.landingBegun landing = true ↔ begun) (hn : ¬ begun → m = s.mem)
    (hm : begun → ∃ w q a, s.bp.queue = w :: q ∧ sideWordAddr s w = some a ∧ m = s.mem.writeWord a (sideWordValue s w) .both) :
    (s.landedForReset landing).mem = m := by
  unfold State.landedForReset
  split
  · rename_i h
    obtain ⟨w, q, a, hq, ha, e⟩ := hm (hb.1 h)
    rw [State.landHead_mem hq, landedMemory, ha, e]
  · rename_i h
    exact (hn (fun hbeg => h (hb.2 hbeg))).symm

/-- Settles O16: the frame is that of `State.assertReset_frame`; memory is told by cases on the access held. -/
theorem resetAssertClearsThePart : Obligations.ResetAssertClearsThePart := by
  intro s landing
  refine ⟨s.assertReset landing, rfl, s.assertReset_frame landing, rfl, rfl, fun m hn hm => ?_⟩
  have hmem := State.landedForReset_mem (s.landingBegun_iff landing) hn hm
  have hheld : (s.landedForReset landing).bp.held = s.bp.held := by rw [State.landedForReset_frame]
  have hdata : (s.landedForReset landing).bp.hostData = s.bp.hostData := by rw [State.landedForReset_frame]
  have hrel : ∀ k, s.bp.held = some k → (s.landedForReset landing).releaseToMemory =
      (s.landedForReset landing).memoryAccess k.access := fun k hk => by rw [State.releaseToMemory, hheld, hk]
  refine ⟨fun h => ?_, fun a d lanes cause h => ?_, fun a cause h => ?_⟩
  · have e : (s.landedForReset landing).releaseToMemory = s.landedForReset landing := by
      rw [State.releaseToMemory, hheld, h]
    rw [State.assertReset_eq, e]
    exact ⟨hmem, hdata⟩
  · rw [State.assertReset_eq, hrel _ h, ← hmem]
    exact ⟨rfl, hdata⟩
  · rw [State.assertReset_eq, hrel _ h, ← hmem]
    exact ⟨rfl, rfl⟩

/-! ### A host access granted at once (R49) -/

/-- A row that presents an access to a free port has it granted at once, unless it reads a word owed a landing. -/
theorem exec_access {c : Instr} {s : State} {acc : HostAccess} (hc : accessOf s c = some acc)
    (hn : ∀ wait, c ≠ .arbitrationWait wait) (hp : PortFree s) (ho : s.readOwed acc = false) :
    exec c s = .next (s.finish (State.performAccess acc s).freePort) := by
  rw [← State.present_free s acc hp ho]
  cases commandIs s c with
  | resetAssert b h => subst h; cases hc
  | resetRelease x y h => subst h; cases hc
  | behind acc h => exact absurd h (hn acc)
  | access acc' ha _ hx =>
    obtain rfl : acc' = acc := Option.some.inj (ha.symm.trans hc)
    exact hx
  | cycle x h => rw [h, accessOf_cycleRow] at hc; cases hc
  | part ha => rw [ha] at hc; cases hc

/-- The lanes a write carries hold its bytes afterwards. -/
theorem Memory.readByte_writeWord (m : Memory) (a : Nat) (d : Word) (lanes : Lanes) (h : m.wf = true) :
    (lanes ≠ .low → (m.writeWord a d lanes).readByte (2 * a) = hiByte d) ∧
    (lanes ≠ .high → (m.writeWord a d lanes).readByte (2 * a + 1) = loByte d) := by
  cases lanes with
  | both =>
    refine ⟨fun _ => ?_, fun _ => Memory.readByte_writeByte_self _ _ _ (Memory.wf_writeByte _ _ _ h)⟩
    rw [Memory.writeWord, Memory.readByte_writeByte_ne _ _ _ _ (by omega), Memory.readByte_writeByte_self _ _ _ h]
  | high => exact ⟨fun _ => Memory.readByte_writeByte_self _ _ _ h, fun hn => absurd rfl hn⟩
  | low => exact ⟨fun hn => absurd rfl hn, fun _ => Memory.readByte_writeByte_self _ _ _ h⟩

/-- Settles O15: a granted access leaves memory as `State.memoryAccess` does. -/
theorem hostAccessReachesMemory : Obligations.HostAccessReachesMemory := by
  constructor
  · intro c s a d lanes hc hn hp hw
    have hm : (s.finish (State.performAccess (.write a d lanes) s).freePort).mem = s.mem.writeWord a.toNat d lanes := by
      rw [State.finish_mem, State.freePort_mem, State.performAccess_mem]
      rfl
    obtain ⟨hhi, hlo⟩ := Memory.readByte_writeWord s.mem a.toNat d lanes hw
    refine ⟨_, exec_access hc hn hp rfl, hm, ?_⟩
    rw [hm]
    exact ⟨hhi, hlo, fun k hk => Memory.readByte_writeWord_ne _ _ _ _ hk⟩
  · intro c s a hc hn hp ho
    refine ⟨_, exec_access hc hn hp ho, ?_, ?_⟩
    · rw [State.finish_mem, State.freePort_mem, State.performAccess_mem]
      rfl
    · rw [State.finish_hostData, State.freePort_hostData, (s.read_moves a).calm.bp]
      rfl

end Sys2Proof.Machine
end

