-- ==== Sys2Proof/Proofs/SlotCommands.lean ====
section
/-!
PROOFS. The writes and commands that change a slot's record: CLOSE_WRITE, SET CLOSE, HALT and RESUME (chapters 1 and 2).
-/

namespace Sys2Proof.Machine

-- Elaborated one after the other, the proofs hold less memory at once.
set_option Elab.async false

/-! ### A record changed without a trade (R17, R42) -/

/-- A notice that is no trade leaves the tape alone. -/
theorem State.changeRecord_frame {s : State} {n : Notice} (h : n.trade = none) (after : SlotRec) :
    s.changeRecord n after = { s with
      qe := { s.qe with slots := vset s.qe.slots n.slot after, due := (s.changeRecord n after).qe.due }
      bc := s.bc.notice n
      pt := s.pt.notice n after.close } := by
  rw [State.changeRecord_eq, TapeController.notice_none _ _ h]

/-- The due marks a changed record leaves, told from a state whose windows, marks and record are the same. -/
theorem dueMarked_changeRecord {s b t : State} {n : Notice} {after : SlotRec} (hb : b.bp = s.bp) (hd : b.qe.due = s.qe.due)
    (hs : b.slot n.slot = s.slot n.slot) (ht : t.qe.due = (b.changeRecord n after).qe.due) :
    DueMarked s n.slot (s.slot n.slot) after t := by
  intro m
  have hw : writeBackAddr b m = writeBackAddr s m := by simp only [writeBackAddr, coveringWindow, hb]
  rw [ht, State.mem_changeRecord_due, hd, hs, hw]

/-- A command whose effect is a changed record leaves the record, its due marks, the notice at the boards and the terminals, and is
DONE. -/
theorem changeRecord_done (s : State) (op x : Byte) {n : Notice} (h : n.trade = none) (after : SlotRec) {t : State}
    (ht : t = s.finish (((withCommandWord s op x).changeRecord n after).cmdDone op).freePort) :
    8 ∈ t.cr.dirty ∧ DueMarked s n.slot (s.slot n.slot) after t ∧
      (let b := withCommandWord s op x
       SameButMarks (answered { b with
         qe := { b.qe with slots := vset b.qe.slots n.slot after, due := t.qe.due }
         bc := b.bc.notice n
         pt := b.pt.notice n after.close } op .done .none) t) := by
  obtain ⟨hsame, hdirty⟩ := done_finish s ((withCommandWord s op x).changeRecord n after) op
  rw [← ht] at hsame hdirty
  have hqe : t.qe = ((withCommandWord s op x).changeRecord n after).qe := hsame.qe
  refine ⟨hdirty, dueMarked_changeRecord (b := withCommandWord s op x) rfl rfl rfl (by rw [hqe]), ?_⟩
  rw [State.changeRecord_frame h] at hsame
  rw [hqe]
  exact hsame

/-- A known command taken by its owner, when the owner's effect is known. -/
theorem exec_owner {s : State} {op x : Byte} {u : State} (h : TakesCommands s) (hk : isKnownOpcode op = true)
    (ho : (withCommandWord s op x).owner op x = u) : s.giveCommand op x = s.finish u.freePort := by
  rw [State.giveCommand_owner s op x h hk, ho]

/-! ### CLOSE_WRITE and SET CLOSE (R12, R35) -/

/-- The close of a used slot is set by a full write of its field. -/
theorem State.closeWrite_used {s : State} {n : Slot} (h : (s.slot n).state ≠ .unused) (v : Word) :
    s.closeWrite n v = s.closeTo n v := if_neg h

/-- The parameter shadows are not the command word's. -/
theorem withCommandWord_paramSlot {s : State} {n : Slot} (h : (s.param 0).toNat = n.val) (op x : Byte) :
    (withCommandWord s op x).paramSlot = some n := State.paramSlot_some _ n h

/-- SET CLOSE of a used slot. -/
theorem State.cmdSetClose_used {s : State} {n : Slot} (hp : s.paramSlot = some n) (h : (s.slot n).state ≠ .unused) :
    s.cmdSetClose = (s.closeTo n (s.param 1)).cmdDone 0x06 := by
  rw [State.cmdSetClose, hp]
  exact if_neg h

/-- HALT of a LISTED slot. -/
theorem State.cmdHalt_listed {s : State} {n : Slot} (hp : s.paramSlot = some n) (h : (s.slot n).state = .listed) :
    s.cmdHalt = (s.changeRecord (haltNotice n) (haltRec (s.slot n))).cmdDone 0x07 := by
  simp only [State.cmdHalt, hp, h]

/-- RESUME of a HALTED slot. -/
theorem State.cmdResume_halted {s : State} {n : Slot} (hp : s.paramSlot = some n) (h : (s.slot n).state = .halted) :
    s.cmdResume = (s.changeRecord (resumeNotice n) (resumeRec (s.slot n))).cmdDone 0x08 := by
  simp only [State.cmdResume, hp, h]

/-- Settles O27: both set the record to `closeRec` with the notice of `closeNotice`. -/
theorem closeIsSet : Obligations.CloseIsSet := by
  constructor
  · intro s a v w n hp ht hu
    let b := s.setMem (s.mem.writeWord a.toNat v .both)
    have hx := exec_write (c := .closeWrite a v) rfl (by rintro _ ⟨⟩) hp
    have hw : sideWordAt s a = none := by simp [sideWordAt, ht]
    have he : b.quoteWrite w n v .both .close = b.closeTo n v := State.closeWrite_used (s := b) hu v
    rw [State.performAccess_write s a v .both hw, State.handWrite_quote ht, he] at hx
    refine ⟨_, hx, dueMarked_changeRecord (b := b) (n := closeNotice n (closeRec (b.slot n) v)) rfl rfl rfl ?_, ?_⟩
    · rw [State.finish_qe]
      rfl
    · rw [State.finish_qe]
      refine State.finish_freePort_sameAs s ?_
      rw [State.closeTo, State.changeRecord_frame rfl]
      rfl
  · intro s x n h hn hu
    have ho := State.cmdSetClose_used (withCommandWord_paramSlot hn 0x06 x) hu
    have hx : exec (.setClose x) s = .next _ := congrArg Host.Outcome.next (exec_owner h rfl ho)
    exact ⟨_, hx, changeRecord_done s 0x06 x (n := closeNotice n (closeRec (s.slot n) (s.param 1))) rfl _ rfl⟩

/-- Settles O28: each is a changed record, `haltRec` or `resumeRec`, with its notice. -/
theorem haltAndResumeChangeState : Obligations.HaltAndResumeChangeState := by
  constructor
  · intro s x n h hn hl
    have ho := State.cmdHalt_listed (withCommandWord_paramSlot hn 0x07 x) hl
    have hx : exec (.halt x) s = .next _ := congrArg Host.Outcome.next (exec_owner h rfl ho)
    exact ⟨_, hx, changeRecord_done s 0x07 x (n := haltNotice n) rfl (haltRec (s.slot n)) rfl⟩
  · intro s x n h hn hl
    have ho := State.cmdResume_halted (withCommandWord_paramSlot hn 0x08 x) hl
    have hx : exec (.resume x) s = .next _ := congrArg Host.Outcome.next (exec_owner h rfl ho)
    exact ⟨_, hx, changeRecord_done s 0x08 x (n := resumeNotice n) rfl (resumeRec (s.slot n)) rfl⟩

end Sys2Proof.Machine
end

