-- ==== Sys2Proof/Proofs/CaptureTrade.lean ====
section
/-!
PROOFS. What an address names, and a capture: the record it leaves, the countdown, the due marks and the notice (chapters 1 and 2).
-/

namespace Sys2Proof.Machine

-- Elaborated one after the other, the proofs hold less memory at once.
set_option Elab.async false

/-! ### What an address names (R28, R30 to R32, R50) -/

/-- The offset of an address in the setup block. -/
theorem setupOffset_eq_some {s : State} {a : Addr} {o : Nat} (h : setupOffset s a = some o) :
    a.toNat = s.bp.anchor.toNat + o ∧ o ≤ 123 := by
  unfold setupOffset at h
  split at h
  · rename_i hin
    obtain rfl : a.toNat - s.bp.anchor.toNat = o := Option.some.inj h
    exact ⟨(Nat.add_sub_of_le hin.1).symm, Nat.sub_le_iff_le_add'.2 hin.2⟩
  · cases h

/-- An address outside the setup block. -/
theorem setupOffset_eq_none {s : State} {a : Addr} (h : setupOffset s a = none) :
    a.toNat < s.bp.anchor.toNat ∨ s.bp.anchor.toNat + 123 < a.toNat := by
  unfold setupOffset at h
  split at h
  · cases h
  · omega

/-- No address of the setup block lies in a window. -/
theorem not_liesIn_of_setupOffset {s : State} {a : Addr} {o : Nat} (h : setupOffset s a = some o) (w : Window) (k : WindowKind) :
    ¬ LiesIn s a w k := by
  have := setupOffset_eq_some h
  rintro ⟨_, _, _, _, _, hl⟩
  omega

/-- What a word of the setup block is called. -/
theorem addressNames_setupTarget {s : State} {a : Addr} {o : Nat} (h : setupOffset s a = some o) :
    AddressNames s a (setupTarget o) := by
  obtain ⟨ha, _⟩ := setupOffset_eq_some h
  unfold setupTarget
  split
  · rename_i h0
    exact ha.trans (congrArg (s.bp.anchor.toNat + ·) h0)
  split
  · show a.toNat = s.bp.anchor.toNat + 1 + (o - 1) % 4
    omega
  split
  · rename_i h5
    exact ha.trans (congrArg (s.bp.anchor.toNat + ·) h5)
  split
  · exact ⟨by omega, by omega, ha⟩
  · exact ⟨by omega, not_liesIn_of_setupOffset h⟩

/-- What a word of a window is called. -/
theorem addressNames_decode {s : State} {a : Addr} {w : Window} (h : LiesIn s a w w.kind) : AddressNames s a (w.decode a) := by
  unfold Window.decode
  split
  · rename_i hk
    rw [hk] at h
    exact ⟨w, h, rfl, rfl, FieldOffsets.lookup_named _ _⟩
  · rename_i hk
    rw [hk] at h
    exact ⟨w, h, rfl, rfl⟩
  · rename_i hk
    rw [hk] at h
    exact ⟨w, h, rfl⟩

/-- The decoding of an address is what it names. -/
theorem addressNames_target (s : State) (a : Addr) : AddressNames s a (target s a) := by
  unfold target
  split
  · rename_i o ho
    exact addressNames_setupTarget ho
  · rename_i ho
    have hout := setupOffset_eq_none ho
    have plain (h : ∀ w k, ¬ LiesIn s a w k) : AddressNames s a .plain := ⟨by omega, h⟩
    split
    · rename_i hr
      split
      · rename_i w hw
        have hc := List.find?_some hw
        simp only [Window.contains, Bool.and_eq_true, decide_eq_true_eq] at hc
        exact addressNames_decode ⟨hr, List.mem_of_find?_eq_some hw, rfl, hc.1, hc.2, hout⟩
      · rename_i hn
        refine plain (fun w k ⟨_, hm, _, hl, hu, _⟩ => ?_)
        have := List.find?_eq_none.1 hn w hm
        simp [Window.contains, hl, hu] at this
    · rename_i hr
      exact plain (fun w k h => hr h.1)

/-- The word with a mark that an address names. -/
theorem sideWordAt_eq_some {s : State} {a : Addr} {w : SideWord} :
    sideWordAt s a = some w ↔ (∃ o, w = .report o ∧ target s a = .report o) ∨
      ∃ i n f, w = .writeBack ⟨n, f⟩ ∧ target s a = .quote i n (.writeBack f) := by
  unfold sideWordAt
  split
  · rename_i o ht
    simp [ht, eq_comm]
  · rename_i i n f ht
    simp [ht, eq_comm]
  · rename_i h1 h2
    refine ⟨(by rintro ⟨⟩), ?_⟩
    rintro (⟨o, _, h⟩ | ⟨i, n, f, _, h⟩)
    · exact absurd h (h1 o)
    · exact absurd h (h2 i n f)

/-! ### The record after a capture (R7 to R10) -/

/-- The direction after a capture that follows an earlier price (R8, Table 1-3). -/
theorem directionAfter_priced {prior v : Word} (h : prior ≠ 0) (close : Word) (before : Direction) :
    (prior < v → directionAfter prior close v before = .up) ∧
    (v < prior → directionAfter prior close v before = .down) ∧
    (prior = v → (before = .up ∨ before = .zeroUp) → directionAfter prior close v before = .zeroUp) ∧
    (prior = v → (before = .down ∨ before = .zeroDown) → directionAfter prior close v before = .zeroDown) ∧
    (prior = v → before = .none → directionAfter prior close v before = .none) := by
  unfold directionAfter
  rw [if_neg h]
  refine ⟨fun hl => if_pos hl, fun hl => ?_, ?_, ?_, ?_⟩
  · rw [if_neg (by bv_omega), if_pos hl]
  all_goals
    rintro rfl
    rw [if_neg (by bv_omega), if_neg (by bv_omega)]
  · rintro (rfl | rfl) <;> rfl
  · rintro (rfl | rfl) <;> rfl
  · rintro rfl
    rfl

/-- The direction after the first capture of a day, told against the close (R8, Table 1-3). -/
theorem directionAfter_first (close v : Word) (before : Direction) :
    (close ≠ 0 → close < v → directionAfter 0 close v before = .up) ∧
    (close ≠ 0 → v < close → directionAfter 0 close v before = .down) ∧
    (close = 0 ∨ close = v → directionAfter 0 close v before = .none) := by
  unfold directionAfter
  rw [if_pos rfl]
  refine ⟨fun hc hl => if_pos ⟨hc, hl⟩, fun hc hl => ?_, fun h => ?_⟩
  · rw [if_neg (fun h => absurd h.2 (by bv_omega)), if_pos ⟨hc, hl⟩]
  · have hn : ¬ (close ≠ 0 ∧ close < v) ∧ ¬ (close ≠ 0 ∧ v < close) := by
      rcases h with rfl | rfl
      · simp
      · constructor <;> rintro ⟨_, hl⟩ <;> bv_omega
    rw [if_neg hn.1, if_neg hn.2]

/-- The high and the low after a capture (R9). -/
theorem captureRec_range (r : SlotRec) (v : Word) (size : Option Word) (clock : Nat) :
    (r.high = 0 → (captureRec r v size clock).high = v ∧ (captureRec r v size clock).low = v) ∧
    (r.high ≠ 0 → (captureRec r v size clock).high.toNat = max r.high.toNat v.toNat ∧
      (captureRec r v size clock).low.toNat = min r.low.toNat v.toNat) := by
  constructor
  · intro h
    exact ⟨if_pos h, if_pos h⟩
  · intro h
    have hh : (captureRec r v size clock).high = if r.high < v then v else r.high := if_neg h
    have hl : (captureRec r v size clock).low = if v < r.low then v else r.low := if_neg h
    rw [hh, hl]
    constructor <;> split <;> bv_omega

/-- The volume after a trade, held to 4,294,967,295 (R10). -/
theorem volumeAfter_toNat (volume : BitVec 32) (size : Option Word) :
    (volumeAfter volume size).toNat = min 4294967295 (volume.toNat + (size.map BitVec.toNat).getD 0) := by
  cases size with
  | none =>
    exact (Nat.min_eq_right (Nat.le_of_lt_succ volume.isLt)).symm
  | some z =>
    simp only [volumeAfter, Option.map_some, Option.getD_some, BitVec.toNat_ofNat]
    exact Nat.mod_eq_of_lt ((Nat.min_le_left _ _).trans_lt (by decide))

/-! ### The countdown and the feed monitor (R39, R40) -/

/-- A countdown changes the countdowns and the flags alone. -/
theorem State.countDown_frame (s : State) (w : Fin 8) :
    s.countDown w = { s with
      qe := { s.qe with countdowns := (s.countDown w).qe.countdowns }
      cr := { s.cr with flags := (s.countDown w).cr.flags } } := by
  unfold State.countDown
  simp only
  split
  · rfl
  · split <;> rfl

/-- A countdown that is off. -/
theorem State.countDown_off {s : State} {w : Fin 8} (h : (vget s.qe.countdowns w).reload = 0) : s.countDown w = s := if_pos h

/-- A countdown that does not reach 0. -/
theorem State.countDown_runs {s : State} {w : Fin 8} (h : (vget s.qe.countdowns w).reload ≠ 0)
    (hc : 1 < (vget s.qe.countdowns w).counter) :
    s.countDown w = s.setQe { s.qe with
      countdowns := vset s.qe.countdowns w
        { vget s.qe.countdowns w with counter := (vget s.qe.countdowns w).counter - 1 } } := by
  unfold State.countDown
  simp only
  rw [if_neg h, if_neg (by omega)]

/-- A countdown that reaches 0 sets WINn and reloads. -/
theorem State.countDown_ends {s : State} {w : Fin 8} (h : (vget s.qe.countdowns w).reload ≠ 0)
    (hc : (vget s.qe.countdowns w).counter = 1) :
    s.countDown w = (s.setQe { s.qe with
      countdowns := vset s.qe.countdowns w
        { vget s.qe.countdowns w with counter := (vget s.qe.countdowns w).reload } }).raise (flagWin w) := by
  unfold State.countDown
  simp only
  rw [if_neg h, if_pos (by omega)]

theorem State.countDown_other (s : State) {w i : Fin 8} (h : i ≠ w) :
    vget (s.countDown w).qe.countdowns i = vget s.qe.countdowns i := by
  unfold State.countDown
  simp only
  split
  · rfl
  · split <;> exact vget_vset_ne _ _ _ _ h.symm

/-- A capture restarts the feed monitor; it changes the status lines only when the feed was STALE. -/
theorem State.feedRestart_eq (s : State) :
    s.feedRestart = { s with
      cs := { s.cs with feedCount := 0, feedStale := false }
      pt := if s.cs.feedStale then s.pt.markStatusLines else s.pt } := by
  unfold State.feedRestart
  simp only
  split <;> rfl

/-! ### The capture -/

/-- What a capture of `v` on slot `n` through window `w` leaves, but for the countdown. -/
theorem State.captureTrade_frame (s : State) (w : Fin 8) (n : Slot) (v : Word) :
    (let z := vget s.qe.pendingSize n
     let after := captureRec (s.slot n) v z s.cs.clock
     let notice := tradeNotice n (s.slot n) after z s.cs.clock
     s.captureTrade w n v = { s with
       qe := { s.qe with
         slots := vset s.qe.slots n after
         due := ((s.setPendingSize n none).changeRecord notice after).qe.due
         countdowns := (s.countDown w).qe.countdowns
         pendingSize := vset s.qe.pendingSize n none }
       bc := s.bc.notice notice
       tc := s.tc.notice notice
       pt := if s.cs.feedStale then (s.pt.notice notice after.close).markStatusLines else s.pt.notice notice after.close
       cs := { s.cs with feedCount := 0, feedStale := false }
       cr := { s.cr with flags := (s.countDown w).cr.flags } }) := by
  intro z after notice
  let u := (s.setPendingSize n none).changeRecord notice after
  have hq : (u.countDown w).qe.countdowns = (s.countDown w).qe.countdowns := by
    have hu : u.qe.countdowns = s.qe.countdowns := rfl
    simp only [State.countDown, hu]
    split
    · exact hu
    · split <;> rfl
  have hc : (u.countDown w).cr.flags = (s.countDown w).cr.flags := by
    have hu : u.qe.countdowns = s.qe.countdowns := rfl
    simp only [State.countDown, hu]
    split
    · rfl
    · split <;> rfl
  have e : s.captureTrade w n v = (u.countDown w).feedRestart := rfl
  rw [e, State.feedRestart_eq, State.countDown_frame, hq, hc]
  rfl

/-- A capture is what the owner of the LAST field of a LISTED slot makes of a write in OPEN (R33). -/
theorem State.lastWrite_capture {s : State} {n : Slot} {v : Word} (hl : (s.slot n).state = .listed)
    (ho : s.cs.session = .opened) (hv : v ≠ 0) (w : Fin 8) : s.lastWrite w n v = s.captureTrade w n v := if_pos ⟨hl, ho, hv⟩

/-- Settles O24: what an address names is its decoding, and the write is a capture, whose record is `captureRec`. -/
theorem captureTakesTrade : Obligations.CaptureTakesTrade := by
  refine ⟨addressNames_target, fun s a w => sideWordAt_eq_some, ?_⟩
  intro s a v w n hp ht hl ho hv
  let b := s.setMem (s.mem.writeWord a.toNat v .both)
  have hx := exec_write (c := .capture a v) rfl (by rintro _ ⟨⟩) hp
  have hw : sideWordAt s a = none := by simp [sideWordAt, ht]
  have he : b.quoteWrite w n v .both .last = b.captureTrade w n v := State.lastWrite_capture (s := b) hl ho hv w
  rw [State.performAccess_write s a v .both hw, State.handWrite_quote ht, he] at hx
  refine ⟨_, hx, ?_⟩
  generalize hT : s.finish (b.captureTrade w n v).freePort = t
  have hsame : SameButMarks (b.captureTrade w n v) t := hT ▸ State.finish_freePort_sameAs s (SameButMarks.refl _)
  rw [State.captureTrade_frame] at hsame
  have hqe := hsame.qe
  have hflags : t.cr.flags = (b.countDown w).cr.flags := by rw [hsame.cr]
  have hcount : t.qe.countdowns = (b.countDown w).qe.countdowns := by rw [hqe]
  intro r z u c
  have hslots : t.qe.slots = vset s.qe.slots n (captureRec r v z s.cs.clock) := by rw [hqe]; rfl
  have hu : u = captureRec r v z s.cs.clock := by
    show vget t.qe.slots n = _
    rw [hslots, vget_vset_self]
  clear_value u
  subst hu
  have hprice : r.last = v → r.last ≠ 0 := fun h => h ▸ hv
  have hfirst : r.last = 0 → directionAfter r.last r.close v r.direction = directionAfter 0 r.close v r.direction := fun h => by rw [h]
  have first := directionAfter_first r.close v r.direction
  refine ⟨rfl, rfl, rfl, rfl, rfl, rfl, rfl, rfl, fun h => (directionAfter_priced h _ _).1, fun h => (directionAfter_priced h _ _).2.1,
    fun h => (directionAfter_priced (hprice h) _ _).2.2.1 h, fun h => (directionAfter_priced (hprice h) _ _).2.2.2.1 h,
    fun h => (directionAfter_priced (hprice h) _ _).2.2.2.2 h, fun h hc hlt => (hfirst h).trans (first.1 hc hlt),
    fun h hc hlt => (hfirst h).trans (first.2.1 hc hlt), fun h hc => (hfirst h).trans (first.2.2 hc), decide_eq_true_iff, decide_eq_true_iff,
    (captureRec_range r v z _).1, (captureRec_range r v z _).2, volumeAfter_toNat _ _, ?_, ?_, ?_, ?_, ?_, ?_, ?_⟩
  · intro m hm
    show vget t.qe.slots m = _
    rw [hslots, vget_vset_ne _ _ _ _ (Ne.symm hm)]
    rfl
  · exact dueMarked_changeRecord (b := b.setPendingSize n none) (n := tradeNotice n r (captureRec r v z s.cs.clock) z s.cs.clock)
      rfl rfl rfl (by rw [hqe]; rfl)
  · intro h
    rw [hcount, hflags, State.countDown_off (s := b) h]
    exact ⟨rfl, rfl⟩
  · intro h hc
    rw [hcount, hflags, State.countDown_runs (s := b) h hc]
    exact ⟨vget_vset_self _ _ _, rfl⟩
  · intro h hc
    rw [hcount, hflags, State.countDown_ends (s := b) h hc]
    exact ⟨vget_vset_self _ _ _, rfl⟩
  · intro i hi
    rw [hcount]
    exact State.countDown_other b hi
  · intro notice p
    rw [hqe, hflags]
    exact hsame

end Sys2Proof.Machine
end

