-- ==== Sys2Proof/Proofs/Landing.lean ====
section
/-!
PROOFS. The landing: where an entry's word lies, the value written, and what a landing leaves (3.3, 3.4).
-/

namespace Sys2Proof.Machine

-- Elaborated one after the other, the proofs hold less memory at once.
set_option Elab.async false

/-! ### Where the word of an entry lies (R30, R50) -/

theorem Window.covers_iff (w : Window) (n : Slot) :
    w.covers n = true ↔ w.kind = .quote ∧ w.firstSlot ≤ n.val ∧ n.val < w.firstSlot + w.length / w.stride := by
  simp [Window.covers, and_assoc]

/-- The window looked up for a slot is one of those in use that covers it. -/
theorem covers_of_coveringWindow {s : State} {n : Slot} {w : Window} (h : coveringWindow s n = some w) : Covers s w n :=
  ⟨List.mem_of_find?_eq_some h, (w.covers_iff n).1 (List.find?_some (p := fun w : Window => w.covers n) h)⟩

theorem not_covers_of_coveringWindow {s : State} {n : Slot} (h : coveringWindow s n = none) (w : Window) : ¬ Covers s w n :=
  fun ⟨hm, hc⟩ => List.find?_eq_none.1 h w hm ((w.covers_iff n).2 hc)

theorem entryLies_sideWordAddr (s : State) (w : SideWord) : EntryLies s w (sideWordAddr s w) := by
  cases w with
  | report o => rfl
  | writeBack m =>
    cases hw : coveringWindow s m.slot with
    | none =>
      have e : sideWordAddr s (.writeBack m) = none := by simp [sideWordAddr, writeBackAddr, hw]
      rw [e]
      exact .inl (not_covers_of_coveringWindow hw)
    | some w =>
      have hc := covers_of_coveringWindow hw
      cases hf : w.offsets.writeBack m.field with
      | none =>
        have e : sideWordAddr s (.writeBack m) = none := by simp [sideWordAddr, writeBackAddr, hw, hf]
        rw [e]
        exact .inr ⟨w, hc, fun i hi => by simp [(FieldOffsets.writeBack_named _ _ _).2 hi] at hf⟩
      | some i =>
        have e : sideWordAddr s (.writeBack m) = some (w.base + (m.slot.val - w.firstSlot) * w.stride + i) := by
          simp [sideWordAddr, writeBackAddr, hw, hf]
        rw [e]
        exact ⟨w, i, hc, (FieldOffsets.writeBack_named _ _ _).1 hf, rfl⟩

/-! ### The value of a write-back word (R18, R19, Table 2-5) -/

/-- The CHG word holds the change, held to −32767 to +32767, and 8000H when it is absent (R18, R19). -/
theorem changeWord_change (r : SlotRec) :
    (r.last = 0 ∨ r.close = 0 → changeWord r.change = 0x8000) ∧
    (r.last ≠ 0 → r.close ≠ 0 →
      (changeWord r.change).toInt = max (-32767) (min 32767 ((r.last.toNat : Int) - r.close.toNat))) := by
  constructor
  · intro h
    have : r.change = none := if_neg (by tauto)
    rw [this]
    rfl
  · intro hl hc
    have : r.change = some ((r.last.toNat : Int) - r.close.toNat) := if_pos ⟨hl, hc⟩
    rw [this]
    exact BitVec.toInt_ofInt_eq_self (by decide) (by simp) (by simp)

/-- The FLAGS word: the direction in bits 2 to 0, HALTED in bit 3, the size present in bit 4 (Table 2-5). -/
theorem writeBackIs_flags (r : SlotRec) : WriteBackIs r (r.writeBack .flags) .flags := by
  have key : ∀ (d : Direction) (h z : Bool),
      (let v : Word := BitVec.ofNat 16 (d.code + 8 * flagBit h + 16 * flagBit z)
       (d, v.toNat % 8) ∈ [(Direction.none, 0), (.up, 1), (.down, 2), (.zeroUp, 3), (.zeroDown, 4)] ∧
       v.getLsbD 3 = h ∧ v.getLsbD 4 = z ∧ v.toNat < 32) := by
    intro d h z
    cases d <;> cases h <;> cases z <;> decide
  obtain ⟨hd, hh, hz, hv⟩ := key r.direction (decide (r.state = .halted)) r.lastSize.isSome
  refine ⟨hd, ?_, ?_, hv⟩
  · show BitVec.getLsbD (BitVec.ofNat 16 _) 3 = true ↔ _
    rw [hh]
    exact decide_eq_true_iff
  · show BitVec.getLsbD (BitVec.ofNat 16 _) 4 = true ↔ _
    rw [hz]
    exact Option.isSome_iff_ne_none

/-- The write-back value of each field is that of Table 2-5. -/
theorem writeBackIs_writeBack (r : SlotRec) (f : WbField) : WriteBackIs r (r.writeBack f) f := by
  cases f with
  | chg => exact changeWord_change r
  | high => rfl
  | low => rfl
  | flags => exact writeBackIs_flags r
  | volHigh =>
    show (r.volume.extractLsb' 16 16).toNat = _
    have := r.volume.isLt
    rw [BitVec.extractLsb'_toNat, Nat.shiftRight_eq_div_pow]
    omega
  | volLow =>
    show (r.volume.extractLsb' 0 16).toNat = _
    rw [BitVec.extractLsb'_toNat]
    rfl

/-! ### A landing (R54) -/

/-- LANDING, with RESET released. -/
theorem exec_landing {s : State} (h : s.resetPin = false) : exec .landing s = .next s.landing :=
  exec_endCycle .landing h

/-- What the landing of an entry leaves of the report words' values. -/
theorem State.landHead_reportValue (s : State) (o : Nat) : reportValue s.landHead o = reportValue s o := by
  cases h : s.bp.queue with
  | nil => rw [State.landHead_nil h]
  | cons w q =>
    rw [State.landHead_cons h, State.clearMark_reportValue]
    rfl

theorem State.landHead_queue {s : State} {w : SideWord} {q : List SideWord} (h : s.bp.queue = w :: q) :
    s.landHead.bp.queue = q := by
  rw [State.landHead_cons h, State.clearMark_bp]
  rfl

/-- The landing of an entry clears its mark alone. -/
theorem State.landHead_isMarked {s : State} {w : SideWord} {q : List SideWord} (h : s.bp.queue = w :: q) (v : SideWord) :
    s.landHead.isMarked v = (decide (v ≠ w) && s.isMarked v) := by
  rw [State.landHead_cons h, State.isMarked_clearMark]
  rfl

theorem State.freePort_isMarked (s : State) (w : SideWord) : s.freePort.isMarked w = s.isMarked w := State.isMarked_congr rfl rfl w

/-- Settles O22: the entry's word and value are those of `sideWordAddr` and `sideWordValue`, and as a landing changes no report word's
value, the end of its event sets no mark. -/
theorem landingWritesHead : Obligations.LandingWritesHead := by
  refine ⟨entryLies_sideWordAddr, fun s o => rfl, fun s m => writeBackIs_writeBack _ _, ?_⟩
  intro s w q a hp hh hport hq hn ha
  have hx : exec .landing s = .next (s.finish s.landHead.freePort) := by
    rw [exec_landing hp, State.landing_free s hport hh]
    rfl
  have hr : ∀ o, reportValue s o = reportValue s.landHead.freePort o := fun o => (s.landHead_reportValue o).symm
  have hmark : ∀ v, (s.finish s.landHead.freePort).isMarked v = (decide (v ≠ w) && s.isMarked v) := fun v => by
    rw [State.finish_isMarked_of_reportValue hr, State.freePort_isMarked, State.landHead_isMarked hq]
  have hmem : (s.finish s.landHead.freePort).mem = s.mem.writeWord a (sideWordValue s w) .both := by
    rw [State.finish_mem, State.freePort_mem, State.landHead_mem hq, landedMemory, ha]
  refine ⟨_, hx, hmem, ?_, ?_, ?_, by simp [hmark], fun v hv => by simp [hmark, hv],
    State.event_marksEntered (fun x => x.landHead.freePort) s, ?_⟩
  · intro hc
    rw [hmem]
    exact Memory.readWord_writeWord_self _ _ _ hc
  · have := State.finish_queue_prefix s s.landHead.freePort
    rwa [State.freePort_queue, State.landHead_queue hq] at this
  · refine State.not_mem_finish_queue hr ?_ ?_
    · rwa [State.freePort_queue, State.landHead_queue hq]
    · rw [State.freePort_isMarked, State.landHead_isMarked hq]
      simp
  · rw [State.finish_mem, State.finish_qe]
    refine State.finish_freePort_sameAs s ?_
    rw [State.landHead_cons hq]
    cases w <;> rfl

end Sys2Proof.Machine
end

