-- ==== Sys2Proof/Proofs/Holds.lean ====
section
/-!
PROOFS. Held accesses: an access presented to a full queue, a read of a word owed a landing, and what the end of a side access's cycle
grants (3.5).
-/

namespace Sys2Proof.Machine

-- Elaborated one after the other, the proofs hold less memory at once.
set_option Elab.async false

/-! ### A word owed a landing (R56) -/

/-- The word `v` that a read of address `a` reads is owed a landing: it has an entry, or it is a dirty report word. -/
structure State.Owes (s : State) (a : Addr) (v : SideWord) : Prop where
  word : sideWordAt s a = some v
  waits : v ∈ s.bp.queue ∨ ∃ o, v = .report o ∧ o ∈ s.cr.dirty

/-- No word that a read of address `a` reads is owed a landing. -/
def State.OwesNone (s : State) (a : Addr) : Prop := ∀ v, sideWordAt s a = some v → v ∉ s.bp.queue ∧ s.isMarked v = false

theorem State.Owes.readOwed {s : State} {a : Addr} {v : SideWord} (h : s.Owes a v) : s.readOwed (.read a) = true := by
  obtain ⟨hv, hw⟩ := h
  cases v with
  | report o =>
    simp only [State.readOwed, hv, Bool.or_eq_true, decide_eq_true_eq]
    exact hw.imp_right (fun ⟨p, e, hp⟩ => SideWord.report.inj e ▸ hp)
  | writeBack m =>
    simp only [State.readOwed, hv, decide_eq_true_eq]
    exact hw.resolve_right (fun ⟨p, e, _⟩ => (by cases e))

theorem State.owes_of_readOwed {s : State} {a : Addr} (h : s.readOwed (.read a) = true) : ∃ v, s.Owes a v := by
  simp only [State.readOwed] at h
  split at h
  · rename_i o ho
    simp only [Bool.or_eq_true, decide_eq_true_eq] at h
    exact ⟨_, ho, h.imp_right (fun hd => ⟨o, rfl, hd⟩)⟩
  · rename_i m hm
    exact ⟨_, hm, by simpa using h⟩
  · cases h

theorem State.OwesNone.readOwed {s : State} {a : Addr} (h : s.OwesNone a) : s.readOwed (.read a) = false := by
  simp only [State.readOwed]
  split
  · rename_i o ho
    simpa [State.isMarked] using h _ ho
  · rename_i m hm
    simpa using (h _ hm).1
  · rfl

/-- While a word is owed a landing, an entry stands in the queue at the end of every event. -/
theorem State.Owes.queue_ne_nil {s : State} {a : Addr} {v : SideWord} (h : s.Owes a v) (hm : MarksEntered s) : s.bp.queue ≠ [] := by
  intro hq
  rcases h.waits with hv | ⟨o, rfl, ho⟩
  · simp [hq] at hv
  · have := hm (by simp [hq]) (.report o) (by simpa [State.isMarked] using ho)
    simp [hq] at this

/-- A word owed a landing before the end of an event is owed it after. -/
theorem State.Owes.finish {s u : State} {a : Addr} {v : SideWord} (h : u.Owes a v) : (s.finish u).Owes a v where
  word := (sideWordAt_congr u (s.finish u) a (State.finish_anchor s u) (State.finish_part s u) (State.finish_windows s u)).trans h.word
  waits := h.waits.imp (fun hv => (State.finish_queue_prefix s u).subset hv) (fun ⟨o, e, ho⟩ => ⟨o, e, State.mem_finish_of_mem ho⟩)

/-- The end of an event that changes no report word owes no new landing. -/
theorem State.OwesNone.finish {s u : State} {a : Addr} (h : u.OwesNone a) (hr : ∀ o, reportValue s o = reportValue u o) :
    (s.finish u).OwesNone a := fun v hv => by
  rw [sideWordAt_congr u (s.finish u) a (State.finish_anchor s u) (State.finish_part s u) (State.finish_windows s u)] at hv
  obtain ⟨hq, hm⟩ := h v hv
  exact ⟨State.not_mem_finish_queue hr hq hm, (State.finish_isMarked_of_reportValue hr v).trans hm⟩

/-! ### The port after an event that frees it (R51) -/

/-- A freed port goes to the landing when an entry stands in the queue. -/
theorem State.finish_freePort_landing {s u : State} (h : (s.finish u.freePort).bp.queue ≠ []) :
    (s.finish u.freePort).bp.port = some .landing := by
  rw [State.finish_port]
  refine State.portChoice_landing _ ?_ h
  exact congrArg BusPath.port (State.markChanged_bp s u.freePort)

/-- A side access that still waits keeps the port through an event that leaves it. -/
theorem State.finish_port_kept {s u : State} {x : SideAccess} (h : u.bp.port = some x) (hw : (s.finish u).sideWaits x = true) :
    (s.finish u).bp.port = some x := by
  rw [State.finish_port]
  refine State.portChoice_kept _ x ((congrArg BusPath.port (State.markChanged_bp s u)).trans h) ?_
  exact (State.arbitrate_sideWaits _ x).symm.trans hw

/-- A side access that waits before the end of an event waits after it. -/
theorem State.finish_sideWaits {s u : State} {x : SideAccess} (h : u.sideWaits x = true) : (s.finish u).sideWaits x = true := by
  cases x with
  | landing =>
    simp only [State.sideWaits, decide_eq_true_eq] at h ⊢
    intro e
    have := (State.finish_queue_prefix s u).length_le
    rw [e, List.length_nil, Nat.le_zero, List.length_eq_zero_iff] at this
    exact h this
  | textRead => simpa [State.sideWaits] using h
  | loadRead => simpa [State.sideWaits, State.isLoading] using h

/-! ### A granted access -/

/-- A granted access changes no held one, and not the RESET pin. -/
theorem State.performAccess_held (acc : HostAccess) (s : State) :
    (State.performAccess acc s).bp.held = s.bp.held ∧ (State.performAccess acc s).resetPin = s.resetPin := by
  cases acc with
  | read a => exact ⟨by rw [(s.read_moves a).calm.bp]; rfl, (s.read_moves a).calm.pin⟩
  | write a d lanes =>
    rcases s.write_cases a d lanes with ⟨w, _, e⟩ | ⟨_, h⟩ | ⟨_, e⟩
    · rw [e]
      unfold State.overrideMark
      split
      · split
        · exact ⟨by simp, by rename_i w _ _; cases w <;> rfl⟩
        · exact ⟨rfl, rfl⟩
      · exact ⟨rfl, rfl⟩
    · exact ⟨congrArg BusPath.held h.calm.bp, h.calm.pin⟩
    · rw [e, State.loadAccepted_eq]
      exact ⟨rfl, rfl⟩

/-- HOLD follows the held access while RESET is released. -/
theorem State.hold_eq {s : State} (h : s.resetPin = false) : s.hold = s.bp.held.isSome := by simp [State.hold, h]

/-- What the grant of a held access leaves. -/
theorem State.grantHeld_granted {s : State} {acc : HostAccess} {cause : HoldCause} (h : s.bp.held = some ⟨acc, cause⟩)
    (ho : s.readOwed acc = false) :
    s.grantHeld = s.finish (State.performAccess acc (s.setHeld none)).freePort := by
  simp [State.grantHeld, h, ho, State.portEvent_eq]

/-- A held read of a word owed a landing goes on being held. -/
theorem State.grantHeld_owed {s : State} {acc : HostAccess} {cause : HoldCause} (h : s.bp.held = some ⟨acc, cause⟩)
    (ho : s.readOwed acc = true) :
    s.grantHeld = s.finish (s.setHeld (some ⟨acc, .readWord⟩)).freePort := by
  simp [State.grantHeld, h, ho, State.portEvent_eq]

/-- An access granted out of a hold leaves none held, and memory as it does. -/
theorem grantHeld_access {s : State} {acc : HostAccess} {cause : HoldCause} (hp : s.resetPin = false)
    (h : s.bp.held = some ⟨acc, cause⟩) (ho : s.readOwed acc = false) :
    s.grantHeld.bp.held = none ∧ s.grantHeld.hold = false ∧ s.grantHeld.mem = (s.memoryAccess acc).mem := by
  obtain ⟨hh, hr⟩ := State.performAccess_held acc (s.setHeld none)
  have held : s.grantHeld.bp.held = none := by
    rw [State.grantHeld_granted h ho, State.finish_held, State.freePort_held, hh]
    rfl
  have pin : s.grantHeld.resetPin = false := by
    rw [State.grantHeld_granted h ho, State.finish_resetPin, State.freePort_resetPin, hr]
    exact hp
  refine ⟨held, by rw [State.hold_eq pin, held]; rfl, ?_⟩
  rw [State.grantHeld_granted h ho, State.finish_mem, State.freePort_mem, State.performAccess_mem]
  cases acc <;> rfl

/-- A read granted out of a hold returns memory's word. -/
theorem grantHeld_read {s : State} {a : Addr} {cause : HoldCause} (h : s.bp.held = some ⟨.read a, cause⟩)
    (ho : s.readOwed (.read a) = false) : s.grantHeld.bp.hostData = s.mem.readWord a.toNat := by
  rw [State.grantHeld_granted h ho, State.finish_hostData, State.freePort_hostData, ((s.setHeld none).read_moves a).calm.bp]
  rfl

/-- A held read that is still owed a landing waits on, with the port the landing's. -/
theorem grantHeld_waits {s : State} {a : Addr} {cause : HoldCause} {v : SideWord} (hp : s.resetPin = false)
    (h : s.bp.held = some ⟨.read a, cause⟩) (ho : s.Owes a v) (hm : MarksEntered s) :
    s.grantHeld.hold = true ∧ s.grantHeld.bp.held = some ⟨.read a, .readWord⟩ ∧ s.grantHeld.bp.port = some .landing ∧
      SameButMarks { s with bp := { s.bp with held := some ⟨.read a, .readWord⟩ } } s.grantHeld := by
  rw [State.grantHeld_owed h ho.readOwed]
  let u := s.setHeld (some ⟨.read a, .readWord⟩)
  have hpin : (s.finish u.freePort).resetPin = false := (State.finish_resetPin s u.freePort).trans hp
  have held : (s.finish u.freePort).bp.held = some ⟨.read a, .readWord⟩ := by
    rw [State.finish_held]
    rfl
  refine ⟨by rw [State.hold_eq hpin, held]; rfl, held, State.finish_freePort_landing ?_,
    State.finish_freePort_sameAs s (SameButMarks.refl u)⟩
  intro e
  have := (State.finish_queue_prefix s u.freePort).length_le
  rw [e, List.length_nil, Nat.le_zero, List.length_eq_zero_iff] at this
  exact ho.queue_ne_nil hm this

/-! ### The end of a cycle with an access held -/

/-- The state after the landing of the head entry, before the grant of the access held. -/
def State.landed (s : State) : State := s.portEvent State.landHead

theorem State.landing_eq {s : State} (h : s.bp.port = some .landing) : s.landing = s.landed.grantHeld := if_pos h

theorem State.landed_held (s : State) : s.landed.bp.held = s.bp.held := by
  rw [State.landed, State.portEvent_eq, State.finish_held, State.freePort_held, State.landHead_held]

theorem State.landHead_resetPin (s : State) : s.landHead.resetPin = s.resetPin := by rw [State.landHead_frame]

theorem State.landed_resetPin (s : State) : s.landed.resetPin = s.resetPin := by
  rw [State.landed, State.portEvent_eq, State.finish_resetPin, State.freePort_resetPin, State.landHead_resetPin]

theorem State.landed_mem {s : State} {w : SideWord} {q : List SideWord} {b : Nat} (h : s.bp.queue = w :: q)
    (hb : sideWordAddr s w = some b) : s.landed.mem = s.mem.writeWord b (sideWordValue s w) .both := by
  rw [State.landed, State.portEvent_eq, State.finish_mem, State.freePort_mem, State.landHead_mem h, landedMemory, hb]

theorem State.landHead_part (s : State) : s.landHead.cr.part = s.cr.part := by
  cases h : s.bp.queue with
  | nil => rw [State.landHead_nil h]
  | cons w q =>
    rw [State.landHead_cons h]
    cases w <;> rfl

theorem State.landHead_sideWordAt (s : State) (a : Addr) : sideWordAt s.landHead.freePort a = sideWordAt s a :=
  sideWordAt_congr _ _ a (by rw [State.landHead_frame]; rfl) s.landHead_part (by rw [State.landHead_frame]; rfl)

theorem State.landed_hostData (s : State) : s.landed.bp.hostData = s.bp.hostData := by
  rw [State.landed, State.portEvent_eq, State.finish_hostData, State.freePort_hostData, State.landHead_frame]

theorem State.landed_marksEntered (s : State) : MarksEntered s.landed :=
  State.event_marksEntered (fun x => x.landHead.freePort) s

/-- A word with neither entry nor mark but for the one that lands is owed nothing after the landing. -/
theorem State.landed_owesNone {s : State} {a : Addr} {w : SideWord} {q : List SideWord} (hq : s.bp.queue = w :: q)
    (h : ∀ v, sideWordAt s a = some v → v ∉ q ∧ (v = w ∨ s.isMarked v = false)) : s.landed.OwesNone a := by
  refine State.OwesNone.finish (fun v hv => ?_) (fun o => (s.landHead_reportValue o).symm)
  rw [State.landHead_sideWordAt] at hv
  obtain ⟨hn, hm⟩ := h v hv
  rw [State.freePort_queue, State.landHead_queue hq, State.freePort_isMarked, State.landHead_isMarked hq]
  refine ⟨hn, ?_⟩
  rcases hm with rfl | hm
  · simp
  · simp [hm]

/-- A word other than the one that lands is owed its landing still. -/
theorem State.landed_owes {s : State} {a : Addr} {v w : SideWord} {q : List SideWord} (hq : s.bp.queue = w :: q)
    (hv : sideWordAt s a = some v) (hn : v ≠ w) (h : v ∈ q ∨ ∃ o, v = .report o ∧ o ∈ s.cr.dirty) : s.landed.Owes a v := by
  refine State.Owes.finish ⟨(s.landHead_sideWordAt a).trans hv, h.imp (fun hv => ?_) (fun ⟨o, e, ho⟩ => ⟨o, e, ?_⟩)⟩
  · rwa [State.freePort_queue, State.landHead_queue hq]
  · have := State.landHead_isMarked hq v
    subst e
    simpa [State.isMarked, hn, ho] using this

/-! ### An access held by a full queue (R55) -/

/-- HOST_ACCESS_HOLD with RESET released and no access held. -/
theorem exec_hostAccessHold {s : State} {acc : HostAccess} (hp : s.resetPin = false) (hh : s.bp.held = none) :
    exec (.hostAccessHold acc) s = .next (s.admitAccess acc) := by
  have hx : exec (.hostAccessHold acc) s = .next (s.present acc) := rfl
  rw [hx, State.present, if_neg (by simp [hp]), State.finishHeld_none s hh]

/-- Settles O18: a full queue takes no mark, so the hold changes nothing else; the landing ends in the grant of the access held. -/
theorem fullQueueHoldsAccess : Obligations.FullQueueHoldsAccess := by
  refine ⟨?_, ?_, ?_, ?_⟩
  · intro s acc hp hh hf
    let u := (s.setHeld (some ⟨acc, .fullQueue⟩)).freePort
    have hq : u.bp.queue ≠ [] := by
      intro e
      have : s.bp.queue.length = 0 := congrArg List.length e
      omega
    have e : s.admitAccess acc = u.arbitrate := by
      rw [State.admitAccess, if_pos hf, State.portEvent_eq]
      exact State.finish_of_full s u (by simp [changedWords]; intro o _; rfl) hf
    have hport : u.portChoice = some .landing := u.portChoice_landing rfl hq
    refine ⟨u.arbitrate, by rw [exec_hostAccessHold hp hh, e], ?_, ?_⟩
    · rw [State.arbitrate, hport]
      rfl
    · rw [State.hold_eq (s := u.arbitrate) hp]
      rfl
  · intro s a d lanes cause w q b hp hport hh hq hb
    have hheld := s.landed_held.trans hh
    obtain ⟨h1, h2, h3⟩ := grantHeld_access (s.landed_resetPin.trans hp) hheld rfl
    refine ⟨_, by rw [exec_landing hp, State.landing_eq hport], h1, h2, h3.trans ?_⟩
    rw [State.memoryAccess, State.setMem_mem, State.landed_mem hq hb]
  · intro s a cause w q b hp hport hh hq hb hn
    have hheld := s.landed_held.trans hh
    have howes : s.landed.OwesNone a := State.landed_owesNone hq (fun v hv =>
      ⟨fun hm => (hn v hv).1 (hq ▸ List.mem_cons_of_mem _ hm), .inr (hn v hv).2⟩)
    obtain ⟨h1, h2, h3⟩ := grantHeld_access (s.landed_resetPin.trans hp) hheld howes.readOwed
    have hmem : s.landed.grantHeld.mem = s.landed.mem := h3
    refine ⟨_, by rw [exec_landing hp, State.landing_eq hport], h1, h2, hmem.trans (State.landed_mem hq hb), ?_⟩
    rw [hmem]
    exact grantHeld_read hheld howes.readOwed
  · intro s a cause w q b v hp hport hh hq hb hv hn hw
    obtain ⟨h1, h2, h3, h4⟩ := grantHeld_waits (s.landed_resetPin.trans hp) (s.landed_held.trans hh) (State.landed_owes hq hv hn hw)
      s.landed_marksEntered
    refine ⟨_, by rw [exec_landing hp, State.landing_eq hport], h1, h2, h3, h4.mem.trans (State.landed_mem hq hb), ?_⟩
    rw [h4.bp]
    exact s.landed_hostData

end Sys2Proof.Machine
end

