-- ==== Sys2Proof/Proofs/Mailbox.lean ====
section
/-!
PROOFS. The mailbox: a record moves in, and a read of MAILBOX SLOT releases it (10.5).
-/

namespace Sys2Proof.Machine

-- Elaborated one after the other, the proofs hold less memory at once.
set_option Elab.async false

/-! ### A record moves in (R200) -/

/-- A text padded with spaces shows its own characters, then spaces. -/
theorem getD_padRight (n i : Nat) (t : Text) : (padRight n t).getD i chSpace = t.getD i chSpace := by
  simp only [padRight, spaces, List.getD_eq_getElem?_getD, List.getElem?_append, List.getElem?_replicate]
  split
  · rfl
  · rename_i h
    have hn : t[i]? = none := List.getElem?_eq_none (by omega)
    rw [hn]
    split <;> rfl

/-- The text words of the mailbox hold the record's characters, two a word, spaces behind them. -/
theorem vget_mailText (r : KeyRecord) (i : Fin 4) :
    vget #v[mailWord r.text 0, mailWord r.text 1, mailWord r.text 2, mailWord r.text 3] i =
      wordOf (r.text.getD (2 * i.val) 0x20) (r.text.getD (2 * i.val + 1) 0x20) := by
  have word : vget #v[mailWord r.text 0, mailWord r.text 1, mailWord r.text 2, mailWord r.text 3] i = mailWord r.text i.val :=
    vget_four (fun l => mailWord r.text l.val) i
  rw [word, mailWord, getD_padRight, getD_padRight]
  rfl

/-- The words that a record moving in marks. -/
theorem State.mailboxMoveIn_marks {s : State} {r : KeyRecord} {q : List KeyRecord} (h : s.cr.mailbox = none)
    (hq : s.pt.keyQueue = r :: q) : AllDirty [9, 10, 11, 12, 13, 14, 22] s.mailboxMoveIn := by
  rw [State.mailboxMoveIn_eq s r q h hq]
  exact fun o ho => (State.mem_markAllDirty _ _ o).2 (.inl ho)

/-- What a record moving in leaves, the marks apart. -/
theorem State.mailboxMoveIn_same {s : State} {r : KeyRecord} {q : List KeyRecord} (h : s.cr.mailbox = none)
    (hq : s.pt.keyQueue = r :: q) :
    SameButMarks { s with
      pt := { s.pt with keyQueue := q }
      cr := { s.cr with
        mailbox := some r
        sequence := s.cr.sequence + 1
        mailText := #v[mailWord r.text 0, mailWord r.text 1, mailWord r.text 2, mailWord r.text 3]
        mailSlot := match r.slot with
          | some n => BitVec.ofNat 16 n.val
          | none => 0xFFFF
        flags := s.cr.flags ||| 0x0001 } } s.mailboxMoveIn := by
  rw [State.mailboxMoveIn_eq s r q h hq, State.markAllDirty_eq]
  rfl

theorem allDirty_finish {s u : State} {os : List Nat} (h : AllDirty os u) : AllDirty os (s.finish u) :=
  fun o ho => State.mem_finish_of_mem (h o ho)

/-! ### A release (R201) -/

/-- With the mailbox EMPTY there is nothing to release. -/
theorem State.mailboxRelease_empty {s : State} (h : s.cr.mailbox = none) : s.mailboxRelease = s := by
  rw [State.mailboxRelease, h]

/-- The mailbox released, before the next record moves in. -/
def State.mailboxFreed (s : State) : State :=
  ((s.setCr { s.cr with mailbox := none, tagIdle := Config.releasedTagBits s.freeDraws }).setFreeDraws (s.freeDraws + 1)).markDirty 9

theorem State.mailboxRelease_full {s : State} {r : KeyRecord} (h : s.cr.mailbox = some r) :
    s.mailboxRelease = s.mailboxFreed.mailboxMoveIn := by
  rw [State.mailboxRelease, h]
  rfl

/-- A FULL mailbox released with no record queued. -/
theorem State.mailboxRelease_last {s : State} {r : KeyRecord} (h : s.cr.mailbox = some r) (hq : s.pt.keyQueue = []) :
    s.mailboxRelease = s.mailboxFreed := by
  exact (State.mailboxRelease_full h).trans (State.mailboxMoveIn_none s.mailboxFreed (.inr hq))

/-- MAILBOX TAG while the mailbox is EMPTY: bit 15 clear, the sequence number in the low byte (Table 11-6). -/
theorem mailboxTagWord_empty {c : CommandReport} (h : c.mailbox = none) :
    (mailboxTagWord c).getLsbD 15 = false ∧ loByte (mailboxTagWord c) = c.sequence := by
  have e : mailboxTagWord c = BitVec.ofNat 16 (256 * c.tagIdle.toNat + c.sequence.toNat) := by
    unfold mailboxTagWord
    rw [h]
  have ht := c.tagIdle.isLt
  have hs := c.sequence.isLt
  rw [e]
  constructor
  · rw [BitVec.getLsbD_ofNat]
    have : (256 * c.tagIdle.toNat + c.sequence.toNat).testBit 15 = false := Nat.testBit_lt_two_pow (by omega)
    simp [this]
  · apply BitVec.eq_of_toNat_eq
    rw [loByte, BitVec.extractLsb'_toNat, BitVec.toNat_ofNat, Nat.shiftRight_zero]
    omega

/-! ### A read of MAILBOX SLOT (R50, R201) -/

/-- A granted read of a word. -/
theorem State.performAccess_read {s : State} {a : Addr} (h : target s a ≠ .report 14) :
    State.performAccess (.read a) s = s.memoryAccess (.read a) := by
  rw [State.performAccess, State.handRead, if_neg]
  rwa [target_congr s (s.memoryAccess (.read a)) a rfl rfl rfl]

/-- A granted read of MAILBOX SLOT. -/
theorem State.performAccess_mailSlot {s : State} {a : Addr} (h : target s a = .report 14) :
    State.performAccess (.read a) s = (s.memoryAccess (.read a)).mailboxRelease := by
  rw [State.performAccess, State.handRead, if_pos]
  rwa [target_congr s (s.memoryAccess (.read a)) a rfl rfl rfl]

/-- MAILBOX_SLOT_READ of a word that is owed no landing. -/
theorem exec_mailboxSlotRead {s : State} (hp : PortFree s) (ha : AnchorFits s)
    (ho : s.readOwed (.read (setupAddr s 14)) = false) :
    exec .mailboxSlotRead s = .next (s.finish (s.memoryAccess (.read (setupAddr s 14))).mailboxRelease.freePort) := by
  rw [exec_access (c := .mailboxSlotRead) rfl (by rintro _ ⟨⟩) hp ho, State.performAccess_mailSlot (target_setup s 14 ha (by omega))]

/-- Settles O32: MAILBOX_MOVE_IN is `State.mailboxMoveIn`, a read of MAILBOX SLOT `State.mailboxRelease`. -/
theorem mailboxMovesAndReleases : Obligations.MailboxMovesAndReleases := by
  refine ⟨?_, ?_, ?_, ?_⟩
  · intro s r q hp hm hq
    have hx : exec .mailboxMoveIn s = .next (s.finish s.mailboxMoveIn) := partEvent_next _ s hp
    have hsame := State.finish_sameAs s (State.mailboxMoveIn_same hm hq)
    have htext : (s.finish s.mailboxMoveIn).cr.mailText =
        #v[mailWord r.text 0, mailWord r.text 1, mailWord r.text 2, mailWord r.text 3] := by rw [hsame.cr]
    refine ⟨_, hx, allDirty_finish (State.mailboxMoveIn_marks hm hq), fun i => ?_, ?_⟩
    · rw [htext]
      exact vget_mailText r i
    · rw [htext]
      exact hsame
  · intro s r hp ha ho hm hq
    have haddr := setupAddr_toNat s 14 ha (by omega)
    have hx := exec_mailboxSlotRead hp ha ho
    rw [State.mailboxRelease_last (s := s.memoryAccess (.read (setupAddr s 14))) hm hq] at hx
    have hsame : SameButMarks { s with
        bp := { s.bp with hostData := s.mem.readWord (s.bp.anchor.toNat + 14) }
        cr := { s.cr with mailbox := none, tagIdle := Config.releasedTagBits s.freeDraws }
        freeDraws := s.freeDraws + 1 } (s.finish (s.memoryAccess (.read (setupAddr s 14))).mailboxFreed.freePort) := by
      rw [← haddr]
      exact State.finish_freePort_sameAs s (u := (s.memoryAccess (.read (setupAddr s 14))).mailboxFreed)
        (State.markDirty_same _ 9)
    obtain ⟨h15, hseq⟩ := mailboxTagWord_empty (congrArg CommandReport.mailbox hsame.cr)
    refine ⟨_, hx, State.mem_finish_of_mem ((mem_join 9 9 _).2 (.inl rfl)), h15, hseq.trans ?_, ?_⟩
    · rw [hsame.cr]
    · have htag : (s.finish (s.memoryAccess (.read (setupAddr s 14))).mailboxFreed.freePort).cr.tagIdle =
          Config.releasedTagBits s.freeDraws := by rw [hsame.cr]
      rw [htag]
      exact hsame
  · intro s r r' q hp ha ho hm hq
    have haddr := setupAddr_toNat s 14 ha (by omega)
    have hx := exec_mailboxSlotRead hp ha ho
    let u := s.memoryAccess (.read (setupAddr s 14))
    rw [State.mailboxRelease_full (s := u) hm] at hx
    have hsame := State.finish_freePort_sameAs s (State.mailboxMoveIn_same (s := u.mailboxFreed) rfl hq)
    refine ⟨_, hx, ?_, ?_, hsame.pt, ?_, ?_, allDirty_finish (State.mailboxMoveIn_marks (s := u.mailboxFreed) rfl hq)⟩
    · rw [hsame.cr]
    · rw [hsame.cr]
      rfl
    · rw [hsame.cr]
      rfl
    · rw [hsame.bp, ← haddr]
      rfl
  · intro s hp ha ho hm
    have hx := exec_mailboxSlotRead hp ha ho
    rw [State.mailboxRelease_empty (s := s.memoryAccess (.read (setupAddr s 14))) hm] at hx
    refine ⟨_, hx, ?_⟩
    rw [← setupAddr_toNat s 14 ha (by omega)]
    exact State.finish_freePort_sameAs s (SameButMarks.refl _)

end Sys2Proof.Machine
end

