-- ==== Sys2Proof/Proofs/Arbitration.lean ====
section
/-!
PROOFS. Held reads and the arbitration wait: the word of a held read enters the queue first, its landing grants it, and the end of a
side access's cycle grants the access that waited (3.2, 3.5).
-/

namespace Sys2Proof.Machine

-- Elaborated one after the other, the proofs hold less memory at once.
set_option Elab.async false

/-! ### A held read (R53, R56) -/

/-- A report word's address lies at its offset in the setup block. -/
theorem setupOffset_of_report {s : State} {a : Addr} {o : Nat} (h : target s a = .report o) : setupOffset s a = some o := by
  unfold target at h
  split at h
  · rename_i p hp
    have : setupTarget p = .report p := by
      unfold setupTarget at h ⊢
      split at h
      · cases h
      split at h
      · cases h
      split at h
      · cases h
      split at h
      · rename_i h0 h4 h5 h23
        rw [if_neg h0, if_neg h4, if_neg h5, if_pos h23]
      · cases h
    rw [this] at h
    rw [hp, Target.report.inj h]
  · split at h
    · split at h
      · rename_i w _
        rcases Window.decode_cases w a with ⟨n, f, e⟩ | ⟨l, e⟩ | ⟨i, e⟩ <;> rw [e] at h <;> cases h
      · cases h
    · cases h

theorem target_of_sideWordAt {s : State} {a : Addr} {o : Nat} (h : sideWordAt s a = some (.report o)) : target s a = .report o := by
  rcases sideWordAt_eq_some.1 h with ⟨p, e, ht⟩ | ⟨i, n, f, e, _⟩
  · rw [SideWord.report.inj e, ht]
  · cases e

/-- A read presented to a free port of a word owed a landing is held. -/
theorem exec_heldRead {s : State} {a : Addr} (hp : PortFree s) (ho : s.readOwed (.read a) = true) :
    exec (.heldRead a) s = .next (s.finish (s.setHeld (some ⟨.read a, .readWord⟩)).freePort) := by
  obtain ⟨h1, h2, h3⟩ := hp
  have hx : exec (.heldRead a) s = .next (s.present (.read a)) := rfl
  rw [hx, State.present, if_neg (by simp [h1]), State.finishHeld_none s h2, State.admitAccess, if_neg (by omega), if_pos ho]
  rfl

/-- The report word of a held read enters first, when it is dirty without an entry and a place is free (R53, R56). -/
theorem State.finish_held_prefix {s : State} {a : Addr} {cause : HoldCause} {o : Nat} (hs : setupOffset s a = some o)
    (hd : o ∈ s.cr.dirty) (hq : SideWord.report o ∉ s.bp.queue) (hl : s.bp.queue.length < 8) :
    s.bp.queue ++ [.report o] <+: (s.finish (s.setHeld (some ⟨.read a, cause⟩)).freePort).bp.queue := by
  let u := (s.setHeld (some ⟨.read a, cause⟩)).freePort
  have hr : ∀ p, reportValue s p = reportValue u p := fun p => rfl
  have hold : heldReportWord u = [.report o] := by
    have hs' : setupOffset u a = some o := hs
    have hd' : o ∈ u.cr.dirty := hd
    have hu : u.bp.held = some ⟨.read a, cause⟩ := rfl
    simp only [heldReportWord, hu, hs']
    exact if_pos hd'
  have he : (s.finish u).bp.queue = (markOrder u).foldl enterMark s.bp.queue := by
    have := State.event_queue_eq (fun _ => u) s
    rwa [State.markChanged_of_reportValue hr] at this
  have hone : enterMark s.bp.queue (.report o) = s.bp.queue ++ [.report o] := if_pos ⟨hl, hq⟩
  rw [he, markOrder, hold, List.append_assoc, List.singleton_append, List.foldl_cons, hone]
  exact foldl_enterMark_prefix _ _

/-- The landing leaves all of CR but the dirty marks, and the terminals. -/
theorem State.landed_cr (s : State) : s.landed.cr = { s.cr with dirty := s.landed.cr.dirty } := by
  have h : s.landHead.cr = { s.cr with dirty := s.landHead.cr.dirty } := by
    cases hq : s.bp.queue with
    | nil => rw [State.landHead_nil hq]
    | cons w q =>
      rw [State.landHead_cons hq]
      cases w <;> rfl
  have hs := (State.portEvent_same State.landHead s).cr
  rw [h] at hs
  exact hs

theorem State.landed_pt (s : State) : s.landed.pt = s.pt := by
  have hs := (State.portEvent_same State.landHead s).pt
  rw [State.landHead_frame] at hs
  exact hs

theorem State.landed_target (s : State) (a : Addr) : target s.landed a = target s a := by
  have hb := (State.portEvent_same State.landHead s).bp
  have hf := s.landHead_frame
  have hb' : s.landed.bp = { s.landHead.bp with queue := s.landed.bp.queue, port := s.landed.bp.port } := hb
  refine target_congr s s.landed a ?_ (by rw [s.landed_cr]) ?_
  · rw [hb', hf]
  · rw [hb', hf]

/-- A read granted out of a hold hands its word to nobody but CR. -/
theorem State.grantHeld_readWord {s : State} {a : Addr} {cause : HoldCause} (h : s.bp.held = some ⟨.read a, cause⟩)
    (ho : s.OwesNone a) (ht : target s a ≠ .report 14) :
    s.grantHeld = s.finish ((s.setHeld none).memoryAccess (.read a)).freePort := by
  rw [State.grantHeld_granted h ho.readOwed, State.performAccess_read]
  rwa [target_congr s (s.setHeld none) a rfl rfl rfl]

/-- A read of MAILBOX SLOT granted out of a hold is acted on by CR then (R201). -/
theorem State.grantHeld_mailSlot {s : State} {a : Addr} {cause : HoldCause} (h : s.bp.held = some ⟨.read a, cause⟩)
    (ho : s.OwesNone a) (ht : target s a = .report 14) :
    s.grantHeld = s.finish ((s.setHeld none).memoryAccess (.read a)).mailboxRelease.freePort := by
  rw [State.grantHeld_granted h ho.readOwed, State.performAccess_mailSlot]
  rwa [target_congr s (s.setHeld none) a rfl rfl rfl]

/-- After the grant of a read that was owed nothing the read is owed nothing still. -/
theorem grantHeld_owesNone {s : State} {a : Addr} {cause : HoldCause} (h : s.bp.held = some ⟨.read a, cause⟩)
    (ho : s.OwesNone a) (ht : target s a ≠ .report 14) :
    s.grantHeld.OwesNone a ∧ sideWordAt s.grantHeld a = sideWordAt s a := by
  rw [State.grantHeld_readWord h ho ht]
  let u := ((s.setHeld none).memoryAccess (.read a)).freePort
  have hu : u.OwesNone a := ho
  exact ⟨hu.finish (fun o => rfl), sideWordAt_congr s _ a (State.finish_anchor _ _) (State.finish_part _ _) (State.finish_windows _ _)⟩

/-- A held read of MAILBOX SLOT granted with the mailbox EMPTY. -/
theorem grantHeld_mailSlot_empty {s : State} {a : Addr} {cause : HoldCause} (h : s.bp.held = some ⟨.read a, cause⟩)
    (ho : s.OwesNone a) (ht : target s a = .report 14) (hm : s.cr.mailbox = none) :
    s.grantHeld.cr = { s.cr with dirty := s.grantHeld.cr.dirty } ∧ s.grantHeld.pt = s.pt := by
  let u := (s.setHeld none).memoryAccess (.read a)
  rw [State.grantHeld_mailSlot h ho ht, State.mailboxRelease_empty (s := u) hm]
  have hsame := State.finish_freePort_sameAs s (SameButMarks.refl u)
  exact ⟨hsame.cr, hsame.pt⟩

/-- A held read of MAILBOX SLOT granted with the mailbox FULL and no record queued. -/
theorem grantHeld_mailSlot_last {s : State} {a : Addr} {cause : HoldCause} {r : KeyRecord}
    (h : s.bp.held = some ⟨.read a, cause⟩) (ho : s.OwesNone a) (ht : target s a = .report 14) (hm : s.cr.mailbox = some r)
    (hk : s.pt.keyQueue = []) :
    s.grantHeld.cr.mailbox = none ∧ s.grantHeld.cr.sequence = s.cr.sequence ∧ s.grantHeld.cr.mailSlot = s.cr.mailSlot ∧
      s.grantHeld.cr.flags = s.cr.flags ∧ 9 ∈ s.grantHeld.cr.dirty ∧ s.grantHeld.pt = s.pt := by
  let u := (s.setHeld none).memoryAccess (.read a)
  rw [State.grantHeld_mailSlot h ho ht, State.mailboxRelease_last (s := u) hm hk]
  have hsame := State.finish_freePort_sameAs s (SameButMarks.refl u.mailboxFreed)
  have hcr := hsame.cr
  exact ⟨(congrArg CommandReport.mailbox hcr :), (congrArg CommandReport.sequence hcr :), (congrArg CommandReport.mailSlot hcr :),
    (congrArg CommandReport.flags hcr :), State.mem_finish_of_mem ((mem_join 9 9 _).2 (.inl rfl)), hsame.pt⟩

/-- A held read of MAILBOX SLOT granted with the mailbox FULL and a record queued, which moves in. -/
theorem grantHeld_mailSlot_next {s : State} {a : Addr} {cause : HoldCause} {r r' : KeyRecord} {rest : List KeyRecord}
    (h : s.bp.held = some ⟨.read a, cause⟩) (ho : s.OwesNone a) (ht : target s a = .report 14) (hm : s.cr.mailbox = some r)
    (hk : s.pt.keyQueue = r' :: rest) :
    s.grantHeld.cr.mailbox = some r' ∧ s.grantHeld.cr.sequence = s.cr.sequence + 1 ∧
      s.grantHeld.cr.flags = s.cr.flags ||| 0x0001 ∧ AllDirty [9, 10, 11, 12, 13, 14, 22] s.grantHeld ∧
      s.grantHeld.pt = { s.pt with keyQueue := rest } := by
  let u := (s.setHeld none).memoryAccess (.read a)
  rw [State.grantHeld_mailSlot h ho ht, State.mailboxRelease_full (s := u) hm]
  have hsame := State.finish_freePort_sameAs s (State.mailboxMoveIn_same (s := u.mailboxFreed) rfl hk)
  have hcr := hsame.cr
  exact ⟨(congrArg CommandReport.mailbox hcr :), (congrArg CommandReport.sequence hcr :), (congrArg CommandReport.flags hcr :),
    allDirty_finish (State.mailboxMoveIn_marks (s := u.mailboxFreed) rfl hk), hsame.pt⟩

/-- A read of a word owed a landing is held, with the port the landing's (R56, R57). -/
theorem owedRead_held {s : State} {a : Addr} (hp : PortFree s) (ho : s.readOwed (.read a) = true) :
    ∃ t, exec (.heldRead a) s = .next t ∧ t.hold = true ∧ t.bp.port = some .landing ∧
      SameButMarks { s with bp := { s.bp with held := some ⟨.read a, .readWord⟩ } } t ∧ t.cr.dirty = s.cr.dirty ∧
      s.bp.queue <+: t.bp.queue ∧
      ∀ o, sideWordAt s a = some (.report o) → SideWord.report o ∉ s.bp.queue → s.bp.queue ++ [.report o] <+: t.bp.queue := by
  obtain ⟨v, hv⟩ := State.owes_of_readOwed ho
  let u := s.setHeld (some ⟨.read a, .readWord⟩)
  have hpin : (s.finish u.freePort).resetPin = false := (State.finish_resetPin s u.freePort).trans hp.1
  have hr : ∀ p, reportValue s p = reportValue u.freePort p := fun p => rfl
  have howes : (s.finish u.freePort).Owes a v := State.Owes.finish ⟨hv.word, hv.waits⟩
  refine ⟨_, exec_heldRead hp ho, ?_, ?_, State.finish_freePort_sameAs s (SameButMarks.refl u), State.finish_dirty_of_reportValue hr,
    State.finish_queue_prefix s u.freePort, fun o hw hq => ?_⟩
  · rw [State.hold_eq hpin, State.finish_held]
    rfl
  · exact State.finish_freePort_landing (howes.queue_ne_nil (State.event_marksEntered (fun _ => u.freePort) s))
  · obtain rfl : SideWord.report o = v := Option.some.inj (hw.symm.trans hv.word)
    obtain ⟨p, e, hd⟩ := hv.waits.resolve_left hq
    cases e
    exact State.finish_held_prefix (setupOffset_of_report (target_of_sideWordAt hw)) hd hq hp.2.2

/-- The landing of the word that a held read reads leaves the read owed nothing. -/
theorem State.landed_owesNone_head {s : State} {a : Addr} {w : SideWord} {q : List SideWord} (hq : s.bp.queue = w :: q)
    (hn : w ∉ q) (hw : sideWordAt s a = some w) : s.landed.OwesNone a :=
  State.landed_owesNone hq (fun v hv => by
    obtain rfl : w = v := Option.some.inj (hw.symm.trans hv)
    exact ⟨hn, .inl rfl⟩)

/-- Settles O19: the landing that writes the word of the held read leaves it owed nothing, so that the read is granted. -/
theorem owedReadIsHeld : Obligations.OwedReadIsHeld := by
  refine ⟨fun s a => owedRead_held, ?_, ?_⟩
  · intro s a cause w q hp hc hport hh hq hn hw hb ht
    have hheld := s.landed_held.trans hh
    have howes := State.landed_owesNone_head hq hn hw
    have ht' : target s.landed a ≠ .report 14 := by rwa [s.landed_target]
    have hlanded : sideWordAt s.landed a = some w := by rwa [sideWordAt, s.landed_target]
    obtain ⟨hafter, hword⟩ := grantHeld_owesNone hheld howes ht'
    obtain ⟨h1, h2, h3⟩ := grantHeld_access (s.landed_resetPin.trans hp) hheld howes.readOwed
    have hmem : s.landed.mem = s.mem.writeWord a.toNat (sideWordValue s w) .both := State.landed_mem hq hb
    refine ⟨_, by rw [exec_landing hp, State.landing_eq hport], h1, h2, ?_, h3.trans hmem, hafter w (hword.trans hlanded)⟩
    rw [grantHeld_read hheld howes.readOwed, hmem]
    exact Memory.readWord_writeWord_self _ _ _ hc
  · intro s a cause q hp hc hport hh hq hn ht
    have hheld := s.landed_held.trans hh
    have hw : sideWordAt s a = some (.report 14) := by simp [sideWordAt, ht]
    have howes := State.landed_owesNone_head hq hn hw
    have ht' : target s.landed a = .report 14 := (s.landed_target a).trans ht
    obtain ⟨h1, h2, h3⟩ := grantHeld_access (s.landed_resetPin.trans hp) hheld howes.readOwed
    have ha : sideWordAddr s (.report 14) = some a.toNat :=
      congrArg some (setupOffset_eq_some (setupOffset_of_report ht)).1.symm
    have hval : sideWordValue s (.report 14) = s.cr.mailSlot := rfl
    have hmem : s.landed.mem = s.mem.writeWord a.toNat s.cr.mailSlot .both := by rw [State.landed_mem hq ha, hval]
    have hmail : s.landed.cr.mailbox = s.cr.mailbox := by rw [s.landed_cr]
    have hseq : s.landed.cr.sequence = s.cr.sequence := by rw [s.landed_cr]
    have hslot : s.landed.cr.mailSlot = s.cr.mailSlot := by rw [s.landed_cr]
    have hflags : s.landed.cr.flags = s.cr.flags := by rw [s.landed_cr]
    have hpt := s.landed_pt
    refine ⟨_, by rw [exec_landing hp, State.landing_eq hport], h1, h2, ?_, h3.trans hmem, ?_, ?_, ?_⟩
    · rw [grantHeld_read hheld howes.readOwed, hmem]
      exact Memory.readWord_writeWord_self _ _ _ hc
    · intro hm
      obtain ⟨e, ep⟩ := grantHeld_mailSlot_empty hheld howes ht' (hmail.trans hm)
      exact ⟨by rw [e, s.landed_cr], ep.trans hpt⟩
    · intro r hm hk
      have := grantHeld_mailSlot_last hheld howes ht' (hmail.trans hm) (by rw [hpt, hk])
      rwa [hpt, hseq, hslot, hflags] at this
    · intro r r' rest hm hk
      have := grantHeld_mailSlot_next hheld howes ht' (hmail.trans hm) (by rw [hpt, hk])
      rwa [hpt, hseq, hflags] at this

/-! ### An access presented in a side access's cycle (R51) -/

/-- ARBITRATION_WAIT with RESET released and no access held. -/
theorem exec_arbitrationWait {s : State} {acc : HostAccess} (hp : s.resetPin = false) (hh : s.bp.held = none) :
    exec (.arbitrationWait acc) s = .next (s.admitBehind acc) := by
  have hx : exec (.arbitrationWait acc) s = .next (s.presentBehind acc) := rfl
  rw [hx, State.presentBehind, if_neg (by simp [hp]), State.finishHeld_none s hh]

/-- With the port a side access's and the queue full, the access is held, and nothing else changes. -/
theorem State.admitBehind_full {s : State} {side : SideAccess} (h : s.bp.port = some side) (hw : s.sideWaits side = true)
    (hf : 8 ≤ s.bp.queue.length) (acc : HostAccess) :
    s.admitBehind acc = { s with
      bp := { s.bp with held := some ⟨acc, if side = .landing then .arbitration else .fullQueue⟩ } } := by
  let u := s.setHeld (some ⟨acc, if side = .landing then .arbitration else .fullQueue⟩)
  have e : s.admitBehind acc = s.finish u := by
    cases side <;> simp [State.admitBehind, h, hf, State.event, u]
  have hport : u.portChoice = some side := u.portChoice_kept side h hw
  rw [e, State.finish_of_full s u (by simp [changedWords]; intro o _; rfl) hf, State.arbitrate, hport, ← h]
  rfl

/-! ### The end of a side read's cycle (R51, R55, R59) -/

/-- What the answer of a side read leaves as it was: memory, the Bus Path, whether the part is READY, the marks and the report words. -/
structure ReadEnds (s u : State) : Prop where
  pin : u.resetPin = s.resetPin
  mem : u.mem = s.mem
  bp : u.bp = s.bp
  ready : u.isReady = s.isReady
  marks : ∀ v, u.isMarked v = s.isMarked v
  reports : ∀ o, reportValue u o = reportValue s o

/-- What an address names rests on no more of the part state than whether it is READY. -/
theorem target_congr_ready {s t : State} (a : Addr) (hb : t.bp.anchor = s.bp.anchor) (hw : t.bp.windows = s.bp.windows)
    (hr : t.isReady = s.isReady) : target t a = target s a := by
  unfold target setupOffset
  rw [hb, hw, hr]

theorem State.finish_target (s u : State) (a : Addr) : target (s.finish u) a = target u a :=
  target_congr u (s.finish u) a (State.finish_anchor s u) (State.finish_part s u) (State.finish_windows s u)

namespace ReadEnds

variable {s u : State} (h : ReadEnds s u)

include h

theorem target (a : Addr) : Sys2Proof.Machine.target u a = Sys2Proof.Machine.target s a :=
  target_congr_ready a (by rw [h.bp]) (by rw [h.bp]) h.ready

theorem sideWordAt (a : Addr) : Sys2Proof.Machine.sideWordAt u a = Sys2Proof.Machine.sideWordAt s a := by
  unfold Sys2Proof.Machine.sideWordAt
  rw [h.target]

theorem ended_pin (hp : s.resetPin = false) : (s.finish u.freePort).resetPin = false := by
  rw [State.finish_resetPin, State.freePort_resetPin, h.pin, hp]

theorem ended_held : (s.finish u.freePort).bp.held = s.bp.held := by
  rw [State.finish_held, State.freePort_held, h.bp]

theorem ended_mem : (s.finish u.freePort).mem = s.mem := by rw [State.finish_mem, State.freePort_mem, h.mem]

theorem ended_owesNone {a : Addr} (ho : s.OwesNone a) : (s.finish u.freePort).OwesNone a := by
  refine State.OwesNone.finish (fun v hv => ?_) (fun o => (h.reports o).symm)
  have hv' : Sys2Proof.Machine.sideWordAt u a = some v := hv
  rw [h.sideWordAt] at hv'
  rw [State.freePort_queue, h.bp, State.freePort_isMarked, h.marks]
  exact ho v hv'

theorem ended_owes {a : Addr} {v : SideWord} (ho : s.Owes a v) : (s.finish u.freePort).Owes a v := by
  refine State.Owes.finish ⟨(h.sideWordAt a).trans ho.word, ho.waits.imp (fun hq => ?_) (fun ⟨o, e, hd⟩ => ⟨o, e, ?_⟩)⟩
  · rwa [State.freePort_queue, h.bp]
  · have := h.marks (.report o)
    simpa [State.isMarked, hd] using this

/-- The access that waited for the end of the cycle is granted. -/
theorem granted {acc : HostAccess} (hp : s.resetPin = false) (hh : s.bp.held = some ⟨acc, .arbitration⟩)
    (ho : (s.finish u.freePort).readOwed acc = false) :
    (s.finish u.freePort).grantHeld.bp.held = none ∧ (s.finish u.freePort).grantHeld.hold = false ∧
      (s.finish u.freePort).grantHeld.mem = (s.memoryAccess acc).mem := by
  obtain ⟨h1, h2, h3⟩ := grantHeld_access (h.ended_pin hp) (h.ended_held.trans hh) ho
  refine ⟨h1, h2, h3.trans ?_⟩
  cases acc with
  | read a => exact h.ended_mem
  | write a d lanes => exact congrArg (fun m => Memory.writeWord m a.toNat d lanes) h.ended_mem

end ReadEnds

/-- An access other than one that met a full queue is granted at the end of a side read's cycle. -/
theorem State.afterRead_arbitration {s : State} {acc : HostAccess} (h : s.bp.held = some ⟨acc, .arbitration⟩) :
    s.afterRead = s.grantHeld := by
  simp [State.afterRead, h]

/-- A write granted out of a hold to a word that no block watches changes memory alone. -/
theorem grantHeld_plain {s : State} {a : Addr} {d : Word} {lanes : Lanes} {cause : HoldCause}
    (h : s.bp.held = some ⟨.write a d lanes, cause⟩) (ht : target s a = .plain) :
    SameButMarks { s with mem := s.mem.writeWord a.toNat d lanes, bp := { s.bp with held := none } } s.grantHeld := by
  have ht' : target (s.setHeld none) a = .plain := (target_congr s (s.setHeld none) a rfl rfl rfl).trans ht
  rw [State.grantHeld_granted h rfl,
    State.performAccess_handedToNone (fun w hw => by simp [sideWordAt, ht'] at hw) (.inl ht')]
  exact State.finish_freePort_sameAs s (SameButMarks.refl _)

/-- A read granted out of a hold leaves the boards and the part state. -/
theorem grantHeld_read_frame {s : State} {a : Addr} {cause : HoldCause} (h : s.bp.held = some ⟨.read a, cause⟩)
    (ho : s.readOwed (.read a) = false) : s.grantHeld.bc = s.bc ∧ s.grantHeld.cr.part = s.cr.part := by
  have hmove : ∀ x : State, x.mailboxMoveIn.bc = x.bc := fun x => by
    unfold State.mailboxMoveIn
    split
    · simp only [State.markAllDirty_eq]
      rfl
    · rfl
  have hrel : ∀ x : State, x.mailboxRelease.bc = x.bc := fun x => by
    unfold State.mailboxRelease
    split
    · rfl
    · exact hmove _
  rw [State.grantHeld_granted h ho]
  constructor
  · rw [State.finish_bc, State.freePort_bc, State.performAccess, State.handRead]
    split
    · exact hrel _
    · rfl
  · rw [State.finish_part, State.freePort_cr, ((s.setHeld none).read_moves a).calm.part]
    rfl

/-! ### The answer of a text-line read (R59, R71) -/

theorem linkStatesWord_congr {b c : BoardController} (h : ∀ l, (vget c.links l).state = (vget b.links l).state) :
    linkStatesWord c = linkStatesWord b := by
  simp only [linkStatesWord, h]

theorem reportValue_setBc {s : State} {b : BoardController} (h : linkStatesWord b = linkStatesWord s.bc) (o : Nat) :
    reportValue (s.setBc b) o = reportValue s o := by
  unfold reportValue
  congr 1
  exact funext fun _ => h

theorem BoardController.presentRead_frame (b : BoardController) :
    b.presentRead = { b with textRequest := b.presentRead.textRequest } := by
  unfold BoardController.presentRead
  split
  · rename_i l h
    obtain ⟨_, _, _, _, _, _, _⟩ := b
    subst h
    rfl
  · rfl

/-- The boards after the answer of link `l`'s line read. -/
theorem State.textReadAnswered_eq {s : State} {l : LinkId} (h : s.bc.textRequest = some l) :
    ∃ b, s.textReadAnswered = s.setBc b ∧ b.textLast = l ∧ linkStatesWord b = linkStatesWord s.bc := by
  have hset : ∀ k : Link, k.state = (s.link l).state → ∀ m, (vget (vset s.bc.links l k) m).state = (vget s.bc.links m).state := by
    intro k hk m
    rw [vget_vset]
    split
    · rename_i e
      subst e
      exact hk
    · rfl
  have key : ∀ x : State, (x = s ∨ ∃ k : Link, k.state = (s.link l).state ∧ x = s.setLink l k) →
      ∃ b, x.setBc (BoardController.presentRead { x.bc with textRequest := none, textLast := l }) = s.setBc b ∧
        b.textLast = l ∧ linkStatesWord b = linkStatesWord s.bc := by
    intro x hx
    refine ⟨BoardController.presentRead { x.bc with textRequest := none, textLast := l }, ?_, ?_, ?_⟩
    · rcases hx with rfl | ⟨k, _, rfl⟩ <;> rfl
    · rw [BoardController.presentRead_frame]
    · rw [BoardController.presentRead_frame]
      refine linkStatesWord_congr ?_
      rcases hx with rfl | ⟨k, hk, rfl⟩
      · exact fun _ => rfl
      · exact hset k hk
  unfold State.textReadAnswered
  rw [h]
  refine key _ ?_
  split
  · split
    · exact .inr ⟨_, by unfold Link.takeTextWord; simp only; split <;> rfl, rfl⟩
    · exact .inl rfl
  · exact .inl rfl

theorem State.textReadAnswered_readEnds {s : State} {l : LinkId} (h : s.bc.textRequest = some l) :
    ReadEnds s s.textReadAnswered ∧ s.textReadAnswered.bc.textLast = l := by
  obtain ⟨b, e, hl, hw⟩ := State.textReadAnswered_eq h
  rw [e]
  exact ⟨⟨rfl, rfl, rfl, rfl, fun _ => rfl, reportValue_setBc hw⟩, hl⟩

/-! ### The answer of a LOAD read in the CONFIGURATION phase (R59, R193) -/

/-- A configuration word before the hundredth is kept. -/
theorem State.loadReadAnswered_config {s : State} {run : LoadRun} (h : s.cr.part = .loading run) (hf : run.failed = none)
    (hc : run.phase = .configuration) (hl : run.words.length < 99) :
    s.loadReadAnswered = s.setRun { run with
      words := run.words ++ [s.mem.readWord (s.bp.anchor.toNat + 24 + run.words.length)] } := by
  have hload : s.isLoading = true := by simp [State.isLoading, h, hf, LoadRun.finished, hc]
  have haddr : loadAddress s run = s.bp.anchor.toNat + 24 + run.words.length := by simp [loadAddress, hc]
  have hlen (w : Word) : (run.words ++ [w]).length < 100 := by
    rw [List.length_append, List.length_singleton]
    omega
  have htake (w : Word) : s.takeLoadWord run w = s.setRun { run with words := run.words ++ [w] } := by
    simp only [State.takeLoadWord, hc, State.takeConfigWord, if_pos (hlen w)]
  have hrefused (ws : List Word) : (s.setRun { run with words := ws }).loadRefused = s.setRun { run with words := ws } := by
    simp only [State.loadRefused, State.setRun, State.setCr_cr, hf]
  have hcomplete (ws : List Word) : (s.setRun { run with words := ws }).loadComplete = s.setRun { run with words := ws } := by
    simp only [State.loadComplete, State.setRun, State.setCr_cr, LoadRun.finished, hc]
  simp only [State.loadReadAnswered, h, hload, if_true, haddr, htake, hrefused, hcomplete]

theorem State.setRun_readEnds {s : State} {run r : LoadRun} (h : s.cr.part = .loading run) (hp : r.phase = run.phase) :
    ReadEnds s (s.setRun r) where
  pin := rfl
  mem := rfl
  bp := rfl
  ready := by simp [State.isReady, State.setRun, h]
  marks := fun _ => rfl
  reports := fun o => by
    have hcode : (s.setRun r).cr.part.code = s.cr.part.code := by
      rw [h]
      rfl
    have hphase : (s.setRun r).cr.part.phaseCode = s.cr.part.phaseCode := by
      rw [h]
      simp only [State.setRun, State.setCr_cr, PartState.phaseCode, hp]
    have hhold : (s.setRun r).tapeHold = s.tapeHold := by simp [State.tapeHold, State.isReady, State.setRun, h]
    have hpart : partStatusWord (s.setRun r) = partStatusWord s := by
      simp only [partStatusWord, hcode, hphase, hhold]
      rfl
    unfold reportValue
    congr 1
    exact funext fun _ => hpart

/-! ### The access that waited for a side read's cycle -/

namespace ReadEnds

variable {s u : State} (h : ReadEnds s u)

include h

/-- A write that waited is granted. -/
theorem write_granted {a : Addr} {d : Word} {lanes : Lanes} (hp : s.resetPin = false)
    (hh : s.bp.held = some ⟨.write a d lanes, .arbitration⟩) :
    (let t := (s.finish u.freePort).afterRead
     t.bp.held = none ∧ t.hold = false ∧ t.mem = s.mem.writeWord a.toNat d lanes ∧
       (Sys2Proof.Machine.target s a = .plain → t.bc = u.bc ∧ t.cr.part = u.cr.part)) := by
  have hheld := h.ended_held.trans hh
  rw [State.afterRead_arbitration hheld]
  obtain ⟨h1, h2, h3⟩ := h.granted hp hh rfl
  refine ⟨h1, h2, h3, fun ht => ?_⟩
  have ht' : Sys2Proof.Machine.target (s.finish u.freePort) a = .plain :=
    (State.finish_target _ _ a).trans ((target_congr u u.freePort a rfl rfl rfl).trans ((h.target a).trans ht))
  have hs := grantHeld_plain hheld ht'
  refine ⟨hs.bc.trans (State.finish_bc _ _), ?_⟩
  rw [hs.cr]
  exact State.finish_part _ _

/-- A read that waited is granted, being owed no landing. -/
theorem read_granted {a : Addr} (hp : s.resetPin = false) (hh : s.bp.held = some ⟨.read a, .arbitration⟩)
    (ho : s.OwesNone a) :
    (let t := (s.finish u.freePort).afterRead
     t.bp.held = none ∧ t.hold = false ∧ t.mem = s.mem ∧ t.bp.hostData = s.mem.readWord a.toNat ∧ t.bc = u.bc ∧
       t.cr.part = u.cr.part) := by
  have hheld := h.ended_held.trans hh
  have hro := (h.ended_owesNone ho).readOwed
  rw [State.afterRead_arbitration hheld]
  obtain ⟨h1, h2, h3⟩ := h.granted hp hh hro
  obtain ⟨h4, h5⟩ := grantHeld_read_frame hheld hro
  refine ⟨h1, h2, h3, ?_, h4.trans (State.finish_bc _ _), h5.trans (State.finish_part _ _)⟩
  rw [grantHeld_read hheld hro, h.ended_mem]

/-- A read that waited goes on being held, being owed a landing. -/
theorem read_waits {a : Addr} {v : SideWord} (hp : s.resetPin = false) (hh : s.bp.held = some ⟨.read a, .arbitration⟩)
    (ho : s.Owes a v) :
    (let t := (s.finish u.freePort).afterRead
     t.hold = true ∧ t.bp.held = some ⟨.read a, .readWord⟩ ∧ t.bp.port = some .landing ∧ t.mem = s.mem ∧
       t.bp.hostData = s.bp.hostData ∧ t.bc = u.bc ∧ t.cr.part = u.cr.part) := by
  have hheld := h.ended_held.trans hh
  rw [State.afterRead_arbitration hheld]
  obtain ⟨h1, h2, h3, hs⟩ := grantHeld_waits (h.ended_pin hp) hheld (h.ended_owes ho) (State.event_marksEntered (fun _ => u.freePort) s)
  refine ⟨h1, h2, h3, hs.mem.trans h.ended_mem, ?_, hs.bc.trans (State.finish_bc _ _), ?_⟩
  · rw [hs.bp]
    show (s.finish u.freePort).bp.hostData = _
    rw [State.finish_hostData, State.freePort_hostData, h.bp]
  · rw [hs.cr]
    exact State.finish_part _ _

/-- An access that met a full queue besides waits on for the landing, which then has the port (R55). -/
theorem full_waits {acc : HostAccess} (hp : s.resetPin = false) (hh : s.bp.held = some ⟨acc, .fullQueue⟩)
    (hf : 8 ≤ s.bp.queue.length) :
    (let t := (s.finish u.freePort).afterRead
     t.hold = true ∧ t.bp.held = some ⟨acc, .fullQueue⟩ ∧ t.bp.port = some .landing ∧ t.mem = s.mem) := by
  have hheld := h.ended_held.trans hh
  rw [State.afterRead_fullQueue _ acc hheld]
  refine ⟨?_, hheld, State.finish_freePort_landing (fun e => ?_), h.ended_mem⟩
  · rw [State.hold_eq (h.ended_pin hp), hheld]
    rfl
  · have := (State.finish_queue_prefix s u.freePort).length_le
    rw [e, State.freePort_queue, h.bp, List.length_nil] at this
    omega

end ReadEnds

theorem exec_textLineReadAnswer {s : State} (hp : s.resetPin = false) (h : s.bp.port = some .textRead) :
    exec .textLineReadAnswer s = .next (s.finish s.textReadAnswered.freePort).afterRead := by
  refine (exec_endCycle .textRead hp).trans ?_
  rw [State.endCycle_eq h, State.portEvent_eq]
  rfl

theorem exec_loadReadAnswer {s : State} (hp : s.resetPin = false) (h : s.bp.port = some .loadRead) :
    exec .loadReadAnswer s = .next (s.finish s.loadReadAnswered.freePort).afterRead := by
  refine (exec_endCycle .loadRead hp).trans ?_
  rw [State.endCycle_eq h, State.portEvent_eq]
  rfl

/-- The answer of a LOAD read in the CONFIGURATION phase, before the hundredth word. -/
theorem State.loadReadAnswered_readEnds {s : State} {run : LoadRun} (h : s.cr.part = .loading run) (hf : run.failed = none)
    (hc : run.phase = .configuration) (hl : run.words.length < 99) :
    ReadEnds s s.loadReadAnswered ∧ s.loadReadAnswered.cr.part = .loading { run with
      words := run.words ++ [s.mem.readWord (s.bp.anchor.toNat + 24 + run.words.length)] } := by
  rw [State.loadReadAnswered_config h hf hc hl]
  exact ⟨State.setRun_readEnds h rfl, rfl⟩

/-- Settles O21: an access presented in a side access's cycle is held; the end of that cycle is a `ReadEnds` change, after which the
access is granted, or waits for its landing. -/
theorem arbitrationHoldsAccess : Obligations.ArbitrationHoldsAccess := by
  refine ⟨?_, ?_, ?_, ?_, ?_, ?_, ?_, ?_, ?_⟩
  · intro s acc side hp hport hw
    let u := s.setHeld (some ⟨acc, .arbitration⟩)
    have hx : exec (.arbitrationWait acc) s = .next (s.finish u) :=
      congrArg Host.Outcome.next (State.presentBehind_waits s acc side hp hport)
    have hpin : (s.finish u).resetPin = false := (State.finish_resetPin s u).trans hp.1
    refine ⟨_, hx, ?_, State.finish_dirty_of_reportValue (fun _ => rfl), State.finish_port_kept hport (State.finish_sideWaits hw),
      State.finish_same s u⟩
    rw [State.hold_eq hpin, State.finish_held]
    rfl
  · intro s acc side hp hh hf hport hw
    rw [exec_arbitrationWait hp hh, State.admitBehind_full hport hw hf]
  · intro s acc hp hport
    rw [exec_arbitrationWait hp.1 hp.2.1, exec_hostAccessHold hp.1 hp.2.1, State.admitBehind, hport]
  · intro s hp
    refine ⟨fun h => ?_, fun h => ?_, fun h => ?_⟩
    · exact (exec_endCycle .landing hp).trans (congrArg Host.Outcome.next (s.endCycle_other .landing h))
    · exact (exec_endCycle .textRead hp).trans (congrArg Host.Outcome.next (s.endCycle_other .textRead h))
    · exact (exec_endCycle .loadRead hp).trans (congrArg Host.Outcome.next (s.endCycle_other .loadRead h))
  · intro s a d lanes l hp hport hh hl
    obtain ⟨he, hlast⟩ := State.textReadAnswered_readEnds hl
    obtain ⟨h1, h2, h3, h4⟩ := he.write_granted hp hh
    exact ⟨_, exec_textLineReadAnswer hp hport, h1, h2, h3, fun ht => (congrArg BoardController.textLast (h4 ht).1).trans hlast⟩
  · intro s a d lanes run hp hport hh hpart hf hc hl
    obtain ⟨he, hrun⟩ := State.loadReadAnswered_readEnds hpart hf hc hl
    obtain ⟨h1, h2, h3, h4⟩ := he.write_granted hp hh
    exact ⟨_, exec_loadReadAnswer hp hport, h1, h2, h3, fun ht => (h4 ht).2.trans hrun⟩
  · intro s a l hp hport hh hl
    obtain ⟨he, hlast⟩ := State.textReadAnswered_readEnds hl
    refine ⟨fun ho => ?_, fun v hv hw => ?_⟩
    · obtain ⟨h1, h2, h3, h4, h5, _⟩ := he.read_granted hp hh ho
      exact ⟨_, exec_textLineReadAnswer hp hport, h1, h2, h3, h4, (congrArg BoardController.textLast h5).trans hlast⟩
    · obtain ⟨h1, h2, h3, h4, h5, h6, _⟩ := he.read_waits hp hh ⟨hv, hw⟩
      exact ⟨_, exec_textLineReadAnswer hp hport, h1, h2, h3, h4, h5, (congrArg BoardController.textLast h6).trans hlast⟩
  · intro s a run hp hport hh hpart hf hc hl
    obtain ⟨he, hrun⟩ := State.loadReadAnswered_readEnds hpart hf hc hl
    refine ⟨fun ho => ?_, fun v hv hw => ?_⟩
    · obtain ⟨h1, h2, h3, h4, _, h5⟩ := he.read_granted hp hh ho
      exact ⟨_, exec_loadReadAnswer hp hport, h1, h2, h3, h4, h5.trans hrun⟩
    · obtain ⟨h1, h2, h3, h4, h5, _, h6⟩ := he.read_waits hp hh ⟨hv, hw⟩
      exact ⟨_, exec_loadReadAnswer hp hport, h1, h2, h3, h4, h5, h6.trans hrun⟩
  · intro s acc l hp hport hh hf hl
    exact ⟨_, exec_textLineReadAnswer hp hport, (State.textReadAnswered_readEnds hl).1.full_waits hp hh hf⟩

end Sys2Proof.Machine
end

