-- ==== Sys2Proof/Proofs/ReportWords.lean ====
section
/-!
PROOFS. The layout of the report words (Table 11-6).
-/

namespace Sys2Proof.Machine

-- Elaborated one after the other, the proofs hold less memory at once.
set_option Elab.async false

/-! ### Bits and codes -/

/-- A bit of a word is the parity of its number shifted. -/
theorem getLsbD_eq_decide {n : Nat} (v : BitVec n) (i : Nat) : v.getLsbD i = decide (v.toNat / 2 ^ i % 2 = 1) := by
  rw [BitVec.getLsbD, Nat.testBit_eq_decide_div_mod_eq]

/-- The lowest digit of a number, and what stands above it. -/
theorem lowDigit {v a n r : Nat} (h : v = a + n * r) (ha : a < n) : v % n = a ∧ v / n = r := by
  subst h
  exact ⟨by rw [Nat.add_mul_mod_self_left, Nat.mod_eq_of_lt ha],
    by rw [Nat.add_mul_div_left _ _ (Nat.zero_lt_of_lt ha), Nat.div_eq_of_lt ha, Nat.zero_add]⟩

theorem word_toNat {v : Nat} (h : v < 2 ^ 16) : (BitVec.ofNat 16 v).toNat = v := by
  rw [BitVec.toNat_ofNat, Nat.mod_eq_of_lt h]

theorem flagBit_le (b : Bool) : flagBit b ≤ 1 := by cases b <;> decide

theorem flagBit_eq_one (b : Bool) : decide (flagBit b = 1) = b := by cases b <;> rfl

theorem PartState.code_le (p : PartState) : p.code ≤ 2 := by
  cases p with
  | unconfigured => decide
  | loading run => exact (by decide : 1 ≤ 2)
  | ready => decide

theorem PartState.phaseCode_le (p : PartState) : p.phaseCode ≤ 3 := by
  cases p with
  | loading run =>
    unfold PartState.phaseCode
    simp only
    split <;> decide
  | unconfigured => decide
  | ready => decide

theorem Session.code_mem (x : Session) :
    (x, x.code) ∈ [(Session.closed, 0), (.preOpen, 1), (.opened, 2), (.dimming, 3), (.dark, 4)] := by cases x <;> decide

theorem Session.code_le (x : Session) : x.code ≤ 4 := by cases x <;> decide

theorem TapeMode.code_mem (x : TapeMode) : (x, x.code) ∈ [(TapeMode.full, 0), (.compact, 1), (.short, 2)] := by cases x <;> decide

theorem TapeMode.code_le (x : TapeMode) : x.code ≤ 2 := by cases x <;> decide

theorem LinkState.code_mem (x : LinkState) :
    (x, x.code) ∈ [(LinkState.unused, 0), (.offline, 1), (.online, 2), (.dark, 3)] := by cases x <;> decide

theorem LinkState.code_le (x : LinkState) : x.code ≤ 3 := by cases x <;> decide

theorem CmdOutcome.code_mem (x : CmdOutcome) : (x, x.code) ∈ [(CmdOutcome.done, 0), (.running, 1), (.refused, 2)] := by
  cases x <;> decide

theorem CmdOutcome.code_le (x : CmdOutcome) : x.code ≤ 2 := by cases x <;> decide

theorem Reason.code_mem (x : Reason) :
    (x, x.code) ∈ [(Reason.none, 0), (.busy, 1), (.state, 2), (.notLoaded, 3), (.unknown, 4), (.range, 5), (.absent, 6),
      (.full, 7), (.setup, 8)] := by cases x <;> decide

theorem Reason.code_le (x : Reason) : x.code ≤ 8 := by cases x <;> decide

/-- A signal is high exactly when some line assigned its function is high (R141). -/
theorem ClockSession.signal_iff (c : ClockSession) (f : LineFunction) :
    c.signal f = true ↔ ∃ l : LineId, vget c.lineFunctions l = f ∧ vget c.lineLevels l = true := by
  have all : ∀ l : LineId, l ∈ [(0 : LineId), 1, 2, 3] := by decide
  simp only [ClockSession.signal, List.any_eq_true, Bool.and_eq_true, decide_eq_true_eq]
  exact ⟨fun ⟨l, _, h⟩ => ⟨l, h⟩, fun ⟨l, h⟩ => ⟨l, all l, h⟩⟩

/-! ### PART STATUS -/

/-- The number PART STATUS holds. -/
theorem partStatusWord_toNat (s : State) :
    (partStatusWord s).toNat = s.cr.part.code + 4 * s.cr.part.phaseCode + 16 * s.cs.session.code + 128 * flagBit s.cs.feedStale
      + 256 * s.tc.mode.code + 1024 * flagBit s.tapeHold ∧ (partStatusWord s).toNat < 2048 := by
  have hlt := Nat.add_le_add (Nat.add_le_add (Nat.add_le_add (Nat.add_le_add (Nat.add_le_add s.cr.part.code_le
    (Nat.mul_le_mul_left 4 s.cr.part.phaseCode_le)) (Nat.mul_le_mul_left 16 s.cs.session.code_le))
    (Nat.mul_le_mul_left 128 (flagBit_le s.cs.feedStale))) (Nat.mul_le_mul_left 256 s.tc.mode.code_le))
    (Nat.mul_le_mul_left 1024 (flagBit_le s.tapeHold))
  have e := word_toNat (hlt.trans_lt (by decide))
  exact ⟨e, e.trans_lt (hlt.trans_lt (by decide))⟩

/-- Each field of PART STATUS holds its code. -/
theorem partStatusWord_fields (s : State) :
    (let v := (partStatusWord s).toNat
     v % 4 = s.cr.part.code ∧ v / 4 % 4 = s.cr.part.phaseCode ∧ v / 16 % 8 = s.cs.session.code ∧
      v / 2 ^ 7 % 2 = flagBit s.cs.feedStale ∧ v / 256 % 4 = s.tc.mode.code ∧ v / 2 ^ 10 % 2 = flagBit s.tapeHold) := by
  intro v
  have h0 : v = s.cr.part.code + 4 * (s.cr.part.phaseCode + 4 * (s.cs.session.code + 8 * (flagBit s.cs.feedStale +
      2 * (s.tc.mode.code + 4 * flagBit s.tapeHold)))) := by
    simp only [Nat.mul_add, ← Nat.add_assoc, ← Nat.mul_assoc]
    exact (partStatusWord_toNat s).1
  obtain ⟨m0, h1⟩ := lowDigit h0 (s.cr.part.code_le.trans_lt (by decide))
  obtain ⟨m1, h2⟩ := lowDigit h1 (s.cr.part.phaseCode_le.trans_lt (by decide))
  obtain ⟨m2, h3⟩ := lowDigit h2 (s.cs.session.code_le.trans_lt (by decide))
  obtain ⟨m3, h4⟩ := lowDigit h3 ((flagBit_le s.cs.feedStale).trans_lt (by decide))
  obtain ⟨m4, h5⟩ := lowDigit h4 (s.tc.mode.code_le.trans_lt (by decide))
  rw [Nat.div_div_eq_div_mul] at m2
  simp only [Nat.div_div_eq_div_mul] at m3 m4 h5
  exact ⟨m0, m1, m2, m3, m4, (congrArg (· % 2) h5).trans (Nat.mod_eq_of_lt ((flagBit_le s.tapeHold).trans_lt (by decide)))⟩

/-- The phase of a LOAD as PART STATUS shows it. -/
theorem phaseCode_mem (run : LoadRun) :
    (run.phase, (PartState.loading run).phaseCode) ∈
      [(LoadPhase.configuration, 0), (.directory, 1), (.rowMap, 2), (.placements, 3)] := by
  have : (PartState.loading run).phaseCode = match run.phase with
      | .configuration => 0
      | .directory => 1
      | .rowMap => 2
      | .placements => 3 := rfl
  rw [this]
  cases run.phase <;> decide

theorem reportIs_partStatus (s : State) : ReportIs s (partStatusWord s) 6 := by
  obtain ⟨hpart, hphase, hsession, hstale, hmode, hhold⟩ := partStatusWord_fields s
  have hlow : (partStatusWord s).toNat % 16 = s.cr.part.code + 4 * s.cr.part.phaseCode :=
    (Nat.mod_mul (a := 4) (b := 4)).trans (by rw [hpart, hphase])
  refine ⟨fun _ => ⟨fun h => ?_, fun h => ?_, fun run h => ⟨?_, ?_⟩, ?_, ?_, ?_, ?_, (partStatusWord_toNat s).2⟩, ?_⟩
  · rw [hlow, h]
    rfl
  · rw [hlow, h]
    rfl
  · rw [hpart, h]
    rfl
  · rw [hphase, h]
    exact phaseCode_mem run
  · rw [hsession]
    exact s.cs.session.code_mem
  · rw [getLsbD_eq_decide, hstale, flagBit_eq_one]
  · rw [hmode]
    exact s.tc.mode.code_mem
  · rw [getLsbD_eq_decide, hhold, flagBit_eq_one, State.tapeHold, Bool.and_eq_true, ClockSession.signal_iff]
  · refine ⟨?_, ?_, ?_, fun i h => ?_, ?_, ?_, ?_, ?_, ?_, ?_, ?_, ?_, ?_, ?_⟩
    case refine_4 => exact absurd (h.trans (Nat.add_comm _ _)) (Nat.ne_of_lt (Nat.lt_add_left _ (by decide)))
    all_goals exact fun h => absurd h (by decide)

/-! ### COMMAND STATUS, MAILBOX TAG and the clock -/

theorem commandStatusWord_fields (st : CmdStatus) :
    (let v := (commandStatusWord st).toNat
     v / 256 = st.opcode.toNat ∧ v / 64 % 4 = st.outcome.code ∧ v % 64 = st.reason.code) := by
  have hlt := Nat.add_le_add (Nat.add_le_add (Nat.mul_le_mul_left 256 (Nat.le_of_lt_succ st.opcode.isLt))
    (Nat.mul_le_mul_left 64 st.outcome.code_le)) st.reason.code_le
  intro v
  have h0 : v = st.reason.code + 64 * (st.outcome.code + 4 * st.opcode.toNat) := by
    rw [Nat.mul_add, ← Nat.mul_assoc, Nat.add_comm (64 * _), Nat.add_comm]
    exact word_toNat (hlt.trans_lt (by decide))
  obtain ⟨m0, h1⟩ := lowDigit h0 (st.reason.code_le.trans_lt (by decide))
  obtain ⟨m1, h2⟩ := lowDigit h1 (st.outcome.code_le.trans_lt (by decide))
  exact ⟨(Nat.div_div_eq_div_mul v 64 4).symm.trans h2, m1, m0⟩

/-- MAILBOX TAG while the mailbox is FULL (Table 11-6). -/
theorem mailboxTagWord_full {c : CommandReport} {r : KeyRecord} (h : c.mailbox = some r) :
    (let v := mailboxTagWord c
     v.toNat % 256 = c.sequence.toNat ∧ v.getLsbD 15 = true ∧ v.toNat / 2048 % 16 = r.terminal.val ∧
       v.toNat / 256 % 8 = r.text.length % 8) := by
  have hlen : r.text.length % 8 < 8 := Nat.mod_lt _ (by decide)
  have hlt := Nat.add_le_add (Nat.add_le_add (Nat.add_le_add_left (Nat.mul_le_mul_left 2048 (Nat.le_of_lt_succ r.terminal.isLt)) 0x8000)
    (Nat.mul_le_mul_left 256 (Nat.le_of_lt_succ hlen))) (Nat.le_of_lt_succ c.sequence.isLt)
  intro v
  have hv : v = BitVec.ofNat 16 (0x8000 + 2048 * r.terminal.val + 256 * (r.text.length % 8) + c.sequence.toNat) := by
    show mailboxTagWord c = _
    unfold mailboxTagWord
    rw [h]
  have h0 : v.toNat = c.sequence.toNat + 256 * (r.text.length % 8 + 8 * (r.terminal.val + 16 * 1)) := by
    rw [hv, word_toNat (hlt.trans_lt (by decide))]
    ring
  obtain ⟨m0, h1⟩ := lowDigit h0 c.sequence.isLt
  obtain ⟨m1, h2⟩ := lowDigit h1 hlen
  obtain ⟨m2, h3⟩ := lowDigit h2 r.terminal.isLt
  simp only [Nat.div_div_eq_div_mul] at m2 h3
  rw [getLsbD_eq_decide]
  exact ⟨m0, decide_eq_true (congrArg (· % 2) h3), m2, m1⟩

theorem mailboxTagWord_sequence (c : CommandReport) : (mailboxTagWord c).toNat % 256 = c.sequence.toNat := by
  cases h : c.mailbox with
  | some r => exact (mailboxTagWord_full h).1
  | none =>
    have h2 := c.sequence.isLt
    rw [← (mailboxTagWord_empty h).2, loByte, BitVec.extractLsb'_toNat]
    rfl

theorem clockHighWord_fields {c : ClockSession} (h : c.clock < 864000) :
    (clockHighWord c).getLsbD 15 = c.notSet ∧ (clockHighWord c).toNat % 32768 = c.clock / 10 / 65536 := by
  have hlow : c.clock / 10 / 65536 ≤ 1 := by omega
  have hlt := Nat.add_le_add (Nat.mul_le_mul_left 0x8000 (flagBit_le c.notSet)) hlow
  obtain ⟨m0, h1⟩ := lowDigit (((word_toNat (hlt.trans_lt (by decide))).trans (Nat.add_comm _ _) :
    (clockHighWord c).toNat = c.clock / 10 / 65536 + 0x8000 * flagBit c.notSet)) (hlow.trans_lt (by decide))
  refine ⟨?_, m0⟩
  rw [getLsbD_eq_decide, ← flagBit_eq_one c.notSet]
  have hbit : (clockHighWord c).toNat / 2 ^ 15 % 2 = flagBit c.notSet :=
    (congrArg (· % 2) h1).trans (Nat.mod_eq_of_lt ((flagBit_le c.notSet).trans_lt (by decide)))
  rw [hbit]

/-! ### LINK STATES and TERMINALS ONLINE -/

theorem linkStatesWord_fields (b : BoardController) :
    (linkStatesWord b).toNat < 256 ∧ ∀ l : LinkId, (linkStatesWord b).toNat / 4 ^ l.val % 4 = (vget b.links l).state.code := by
  have hlt := Nat.add_le_add (Nat.add_le_add (Nat.add_le_add (vget b.links 0).state.code_le
    (Nat.mul_le_mul_left 4 (vget b.links 1).state.code_le)) (Nat.mul_le_mul_left 16 (vget b.links 2).state.code_le))
    (Nat.mul_le_mul_left 64 (vget b.links 3).state.code_le)
  have e := word_toNat (hlt.trans_lt (by decide))
  have h0 : (linkStatesWord b).toNat = (vget b.links 0).state.code + 4 * ((vget b.links 1).state.code +
      4 * ((vget b.links 2).state.code + 4 * (vget b.links 3).state.code)) := by
    simp only [Nat.mul_add, ← Nat.add_assoc, ← Nat.mul_assoc]
    exact e
  have code_lt : ∀ l, (vget b.links l).state.code < 4 := fun l => Nat.lt_succ_of_le (vget b.links l).state.code_le
  obtain ⟨m0, h1⟩ := lowDigit h0 (code_lt 0)
  obtain ⟨m1, h2⟩ := lowDigit h1 (code_lt 1)
  obtain ⟨m2, h3⟩ := lowDigit h2 (code_lt 2)
  simp only [Nat.div_div_eq_div_mul] at m2 h3
  exact ⟨e.trans_lt (hlt.trans_lt (by decide)), forall_link ⟨(congrArg (· % 4) (Nat.div_one _)).trans m0, m1, m2,
    (congrArg (· % 4) h3).trans (Nat.mod_eq_of_lt (code_lt 3))⟩⟩

/-- The number whose bits are the flags of a list, lowest first. -/
theorem testBit_foldr_flagBit {α : Type} (f : α → Bool) (l : List α) (i : Nat) :
    (l.foldr (fun t acc => flagBit (f t) + 2 * acc) 0).testBit i = (l[i]?.map f).getD false := by
  induction l generalizing i with
  | nil => simp
  | cons x xs ih =>
    rw [List.foldr_cons]
    have hx := flagBit_le (f x)
    cases i with
    | zero =>
      rw [Nat.testBit_zero]
      have : (flagBit (f x) + 2 * xs.foldr (fun t acc => flagBit (f t) + 2 * acc) 0) % 2 = flagBit (f x) := by omega
      rw [this, flagBit_eq_one]
      rfl
    | succ i =>
      rw [Nat.testBit_succ]
      have : (flagBit (f x) + 2 * xs.foldr (fun t acc => flagBit (f t) + 2 * acc) 0) / 2 =
          xs.foldr (fun t acc => flagBit (f t) + 2 * acc) 0 := by omega
      rw [this, ih]
      rfl

theorem terminalsWord_getLsbD (p : TerminalController) (u : TermId) :
    (terminalsWord p).getLsbD u.val = (vget p.terminals u).online := by
  have hu := u.isLt
  rw [terminalsWord, BitVec.getLsbD_ofNat, testBit_foldr_flagBit]
  simp [hu, vget]

/-! ### Every report word -/

/-- Each report word has the layout of its row of Table 11-6. -/
theorem reportIs_reportValue (s : State) {o : Nat} (ho : o ∈ reportOffsets) : ReportIs s (reportValue s o) o := by
  by_cases h6 : o = 6
  · subst h6
    exact reportIs_partStatus s
  refine ⟨fun e => absurd e h6, ?_, ?_, ?_, ?_, ?_, ?_, ?_, ?_, ?_, ?_, ?_, ?_, ?_, ?_⟩
  · rintro rfl
    rfl
  · rintro rfl
    obtain ⟨h1, h2, h3⟩ := commandStatusWord_fields s.cr.status
    refine ⟨h1, ?_, ?_⟩
    · rw [show (reportValue s 8).toNat / 64 % 4 = s.cr.status.outcome.code from h2]
      exact s.cr.status.outcome.code_mem
    · rw [show (reportValue s 8).toNat % 64 = s.cr.status.reason.code from h3]
      exact s.cr.status.reason.code_mem
  · rintro rfl
    exact ⟨mailboxTagWord_sequence s.cr, fun h => (mailboxTagWord_empty h).1, fun r h => (mailboxTagWord_full h).2⟩
  · intro i e
    obtain ⟨i, hi⟩ := i
    subst e
    interval_cases i <;> rfl
  · rintro rfl
    rfl
  · rintro rfl h
    exact clockHighWord_fields h
  · rintro rfl
    exact word_toNat (Nat.mod_lt _ (by decide))
  · rintro rfl h
    exact word_toNat h
  · rintro rfl
    rfl
  · rintro rfl
    rfl
  · rintro rfl
    obtain ⟨h1, h2⟩ := linkStatesWord_fields s.bc
    refine ⟨h1, fun l => ?_⟩
    rw [show (reportValue s 20).toNat / 4 ^ l.val % 4 = (s.link l).state.code from h2 l]
    exact (s.link l).state.code_mem
  · rintro rfl u
    exact terminalsWord_getLsbD s.pt u
  · rintro rfl hk hq
    have hlt := Nat.add_le_add (Nat.mul_le_mul_left 256 hk) hq
    exact (lowDigit ((word_toNat (hlt.trans_lt (by decide))).trans (Nat.add_comm _ _)) (hq.trans_lt (by decide))).symm
  · rintro rfl hr hi
    have hlt := Nat.add_le_add (Nat.mul_le_mul_left 4096 (Nat.le_of_lt_succ hr)) (Nat.le_of_lt_succ hi)
    exact (lowDigit ((word_toNat (hlt.trans_lt (by decide))).trans (Nat.add_comm _ _)) (hi.trans (by decide))).symm

/-- Settles O12: the layout is `reportIs_reportValue`, the marking `changed_reportWord_dirty`. -/
theorem changedReportWordsAreDirty : Obligations.ChangedReportWordsAreDirty :=
  ⟨fun s _ ho => reportIs_reportValue s ho, fun _ _ _ _ hp hh hr hx ho hne => changed_reportWord_dirty hp hh hr hx ho hne⟩

/-! ### A changed field changes its word -/

theorem Session.code_inj {x y : Session} (h : x.code = y.code) : x = y := by
  cases x <;> cases y <;> first | rfl | cases h

/-- PART STATUS shows the session: a changed session changes the word. -/
theorem partStatus_ne_of_session {s t : State} (h : s.cs.session ≠ t.cs.session) : reportValue s 6 ≠ reportValue t 6 := by
  intro e
  have hs := (partStatusWord_fields s).2.2.1
  have ht := (partStatusWord_fields t).2.2.1
  have e' : partStatusWord s = partStatusWord t := e
  rw [e', ht] at hs
  exact h (Session.code_inj hs.symm)

/-- PART STATUS shows whether the feed is STALE. -/
theorem partStatus_ne_of_feed {s t : State} (h : s.cs.feedStale ≠ t.cs.feedStale) : reportValue s 6 ≠ reportValue t 6 := by
  intro e
  have hs := (partStatusWord_fields s).2.2.2.1
  have ht := (partStatusWord_fields t).2.2.2.1
  have e' : partStatusWord s = partStatusWord t := e
  rw [e', ht] at hs
  apply h
  rw [← flagBit_eq_one s.cs.feedStale, ← flagBit_eq_one t.cs.feedStale, hs]

end Sys2Proof.Machine
end

