-- ==== Sys2Proof/Proofs/CommandWord.lean ====
section
/-!
PROOFS. The setup block: parameters, the acknowledge word, and the refusals of the command word (10.2, 10.4).
-/

namespace Sys2Proof.Machine

-- Elaborated one after the other, the proofs hold less memory at once.
set_option Elab.async false

/-! ### A write of a setup word -/

/-- What a setup word is called when no report word. -/
theorem sideWordAt_setup {s : State} {a : Addr} {x : Target} (h : target s a = x) (hr : ∀ o, x ≠ .report o)
    (hq : ∀ i n f, x ≠ .quote i n f) : sideWordAt s a = none := by
  cases hw : sideWordAt s a with
  | none => rfl
  | some w =>
    rcases sideWordAt_eq_some.1 hw with ⟨o, _, ht⟩ | ⟨i, n, f, _, ht⟩
    · exact absurd (h.symm.trans ht) (hr o)
    · exact absurd (h.symm.trans ht) (hq i n _)

theorem target_parameter {s : State} (h : AnchorFits s) (p : Fin 4) : target s (setupAddr s (p.val + 1)) = .parameter p := by
  have all : ∀ p : Fin 4, setupTarget (p.val + 1) = .parameter p := by decide
  rw [target_setup s (p.val + 1) h (by omega), all]

theorem target_acknowledge {s : State} (h : AnchorFits s) : target s (setupAddr s 5) = .acknowledge :=
  target_setup s 5 h (by omega)

/-! ### ATTN and the acknowledge word (R199) -/

theorem bitVec_ne_zero_iff {n : Nat} (v : BitVec n) : v ≠ 0 ↔ ∃ i, i < n ∧ v.getLsbD i = true := by
  constructor
  · intro h
    by_contra hn
    refine h (BitVec.eq_of_getLsbD_eq fun i hi => ?_)
    rw [show BitVec.getLsbD (0 : BitVec n) i = false from BitVec.getLsbD_zero, ← Bool.not_eq_true]
    exact fun hb => hn ⟨i, hi, hb⟩
  · rintro ⟨i, _, h⟩ rfl
    simp at h

/-- ATTN is asserted exactly when a set flag is enabled, and not during reset (R199). -/
theorem State.attn_iff (s : State) :
    s.attn = true ↔ s.resetPin = false ∧ ∃ i, i < 16 ∧ s.cr.flags.getLsbD i = true ∧ s.cr.mask.getLsbD i = true := by
  unfold State.attn
  rw [Bool.and_eq_true, decide_eq_true_iff, bitVec_ne_zero_iff]
  simp

/-- The owner of a parameter word makes the shadow the lanes written (R190). -/
theorem State.parameterTaken_eq (s : State) (p : Fin 4) (d : Word) (lanes : Lanes) :
    s.parameterTaken p d lanes = { s with cr := { s.cr with
      shadows := vset s.cr.shadows p (mergeLanes (vget s.cr.shadows p) d lanes) } } := rfl

/-- The flags after a full write of the acknowledge word. -/
theorem getLsbD_acknowledged (f d : Word) {i : Nat} (h : i < 16) : (f &&& ~~~d).getLsbD i = (f.getLsbD i && !d.getLsbD i) := by
  simp [h]

/-- Settles O29: each write reaches the owner of its setup word. -/
theorem setupWritesAreTaken : Obligations.SetupWritesAreTaken := by
  refine ⟨State.attn_iff, ?_, ?_, ?_⟩
  · intro s p d lanes hp ha
    have ht := target_parameter ha p
    have hx := exec_write (c := .parameterWrite p d lanes) rfl (by rintro _ ⟨⟩) hp
    rw [State.performAccess_write _ _ _ _ (sideWordAt_setup ht (by rintro _ ⟨⟩) (by rintro _ _ _ ⟨⟩)), State.handWrite_parameter ht,
      setupAddr_toNat s _ ha (by omega), State.parameterTaken_eq] at hx
    refine ⟨_, hx, State.finish_freePort_sameAs s ?_⟩
    have hadd : s.bp.anchor.toNat + (p.val + 1) = s.bp.anchor.toNat + 1 + p.val := by omega
    rw [hadd]
    cases lanes <;> rfl
  · intro s d hp ha
    have ht := target_acknowledge ha
    have hx := exec_write (c := .attentionAcknowledge d) rfl (by rintro _ ⟨⟩) hp
    rw [State.performAccess_write _ _ _ _ (sideWordAt_setup ht (by rintro _ ⟨⟩) (by rintro _ _ _ ⟨⟩)),
      State.handWrite_acknowledge ht, setupAddr_toNat s 5 ha (by omega), State.acknowledge, if_pos rfl] at hx
    refine ⟨_, hx, fun i hi => ?_, fun hne => ?_, ?_⟩
    · rw [State.finish_flags]
      exact getLsbD_acknowledged _ _ hi
    · refine State.mem_finish_of_ne (by decide) ?_
      rw [State.finish_flags] at hne
      exact fun e => hne e.symm
    · rw [State.finish_flags]
      exact State.finish_freePort_sameAs s (SameButMarks.refl _)
  · intro s d lanes hp ha hl
    have ht := target_acknowledge ha
    have hx := exec_write (c := .hostWrite (setupAddr s 5) d lanes) rfl (by rintro _ ⟨⟩) hp
    rw [State.performAccess_write _ _ _ _ (sideWordAt_setup ht (by rintro _ ⟨⟩) (by rintro _ _ _ ⟨⟩)),
      State.handWrite_acknowledge ht, setupAddr_toNat s 5 ha (by omega), State.acknowledge, if_neg hl] at hx
    exact ⟨_, hx, State.finish_freePort_sameAs s (SameButMarks.refl _)⟩

/-! ### The refusals before any owner (R189) -/

theorem isKnownOpcode_iff (op : Byte) : isKnownOpcode op = true ↔ 0x01 ≤ op.toNat ∧ op.toNat ≤ 0x0E := by
  simp [isKnownOpcode, BitVec.le_def]

/-- A full write of the command word presented to a free port is decided by CR. -/
theorem exec_commandWrite {c : Instr} {s : State} {a : Addr} {w : Word} (hc : accessOf s c = some (.write a w .both))
    (hn : ∀ wait, c ≠ .arbitrationWait wait) (hp : PortFree s) (ht : target s a = .command) :
    exec c s = .next (s.finish ((withCommandWord s (hiByte w) (loByte w)).commandWrite w).freePort) := by
  have ha : a = setupAddr s 0 := (eq_anchor_of_command s a ht).trans (setupAddr_zero s).symm
  rw [exec_write hc hn hp, State.performAccess_write s a w .both (sideWordAt_setup ht (by rintro _ ⟨⟩) (by rintro _ _ _ ⟨⟩)),
    State.handWrite_command ht, if_pos rfl, withCommandWord, wordOf_bytes, ← ha]

/-- A command word that CR refuses leaves what a refusal leaves. -/
theorem exec_commandWrite_refused {c : Instr} {s : State} {a : Addr} {w : Word} {reason : Reason}
    (hc : accessOf s c = some (.write a w .both)) (hn : ∀ wait, c ≠ .arbitrationWait wait) (hp : PortFree s)
    (ht : target s a = .command)
    (hr : (withCommandWord s (hiByte w) (loByte w)).commandWrite w =
      (withCommandWord s (hiByte w) (loByte w)).cmdRefused (hiByte w) reason) :
    ∃ t, exec c s = .next t ∧ RefusedWith s (hiByte w) (loByte w) reason t :=
  ⟨_, by rw [exec_commandWrite hc hn hp ht, hr], refusedWith_finish s _ _ _⟩

theorem State.commandWrite_busy {s : State} (h : s.cr.running ≠ none) (w : Word) :
    s.commandWrite w = s.cmdRefused (hiByte w) .busy := if_pos (Option.isSome_iff_ne_none.2 h)

theorem State.commandWrite_unknown {s : State} {w : Word} (h : s.cr.running = none) (hk : isKnownOpcode (hiByte w) = false) :
    s.commandWrite w = s.cmdRefused (hiByte w) .unknown := by
  simp [State.commandWrite, h, hk]

theorem State.commandWrite_notLoaded {s : State} {w : Word} (h : s.cr.running = none) (hk : isKnownOpcode (hiByte w) = true)
    (hu : s.cr.part = .unconfigured) (ho : hiByte w ≠ 0x01) : s.commandWrite w = s.cmdRefused (hiByte w) .notLoaded := by
  simp only [State.commandWrite, h, hk, hu]
  exact if_pos (And.intro trivial ho)

/-- Settles O30: the three cases of R189 that come before any owner. -/
theorem commandWordRefusals : Obligations.CommandWordRefusals := by
  refine ⟨isKnownOpcode_iff, ?_, ?_⟩
  · intro c s a w hc hn hp ht
    exact ⟨fun h => exec_commandWrite_refused hc hn hp ht (State.commandWrite_busy (s := withCommandWord s _ _) h w),
      fun h hk => exec_commandWrite_refused hc hn hp ht (State.commandWrite_unknown h hk),
      fun h hk hu ho => exec_commandWrite_refused hc hn hp ht (State.commandWrite_notLoaded h hk hu ho)⟩
  · intro s w hp h hw
    have hk : isKnownOpcode (hiByte w) = false := Bool.not_eq_true' _ ▸ hw
    exact exec_commandWrite_refused (c := .unknownOpcode w) rfl (by rintro _ ⟨⟩) hp (target_command s) (State.commandWrite_unknown h hk)

/-! ### The refusals of the owners -/

/-- A command that its owner refuses leaves what a refusal leaves. -/
theorem giveCommand_refused {s : State} {op x : Byte} {reason : Reason} (h : TakesCommands s) (hk : isKnownOpcode op = true)
    (ho : (withCommandWord s op x).owner op x = (withCommandWord s op x).cmdRefused op reason) :
    ∃ t, (Host.Outcome.next (s.giveCommand op x) : Host.Outcome State Fault Refusal) = .next t ∧ RefusedWith s op x reason t :=
  ⟨_, congrArg Host.Outcome.next (exec_owner h hk ho), refusedWith_finish s op x reason⟩

theorem withCommandWord_paramSlot_none {s : State} (h : 256 ≤ (s.param 0).toNat) (op x : Byte) :
    (withCommandWord s op x).paramSlot = none := State.paramSlot_none _ h

/-- P0 above 255 is refused RANGE by the commands that name a slot. -/
theorem param_range_refused {s : State} (h : TakesCommands s) (x : Byte) (hr : 256 ≤ (s.param 0).toNat) (c : Instr) (op : Byte)
    (hm : (c, op) ∈ [(Instr.setClose x, (0x06 : Byte)), (.halt x, 0x07), (.resume x, 0x08), (.watch x, 0x0A), (.unwatch x, 0x0B)]) :
    ∃ t, exec c s = .next t ∧ RefusedWith s op x .range t := by
  have hn := withCommandWord_paramSlot_none hr
  simp only [List.mem_cons, Prod.mk.injEq, List.not_mem_nil, or_false] at hm
  obtain ⟨rfl, rfl⟩ | ⟨rfl, rfl⟩ | ⟨rfl, rfl⟩ | ⟨rfl, rfl⟩ | ⟨rfl, rfl⟩ := hm
  · exact giveCommand_refused (op := 0x06) h rfl (by simp only [State.owner, State.cmdSetClose, hn]; rfl)
  · exact giveCommand_refused (op := 0x07) h rfl (by simp only [State.owner, State.cmdHalt, hn]; rfl)
  · exact giveCommand_refused (op := 0x08) h rfl (by simp only [State.owner, State.cmdResume, hn]; rfl)
  · refine giveCommand_refused (op := 0x0A) h rfl ?_
    show (withCommandWord s 0x0A x).cmdWatch x = _
    unfold State.cmdWatch
    rw [hn]
    cases operandTerm x <;> rfl
  · refine giveCommand_refused (op := 0x0B) h rfl ?_
    show (withCommandWord s 0x0B x).cmdUnwatch x = _
    unfold State.cmdUnwatch
    rw [hn]
    cases operandTerm x <;> rfl

/-- An UNUSED slot is refused ABSENT by SET CLOSE, HALT and RESUME. -/
theorem unused_absent_refused {s : State} (h : TakesCommands s) (x : Byte) {n : Slot} (hn : (s.param 0).toNat = n.val)
    (hu : (s.slot n).state = .unused) (c : Instr) (op : Byte)
    (hm : (c, op) ∈ [(Instr.setClose x, (0x06 : Byte)), (.halt x, 0x07), (.resume x, 0x08)]) :
    ∃ t, exec c s = .next t ∧ RefusedWith s op x .absent t := by
  have hp := withCommandWord_paramSlot hn
  have hs : ∀ op x, ((withCommandWord s op x).slot n).state = .unused := fun _ _ => hu
  simp only [List.mem_cons, Prod.mk.injEq, List.not_mem_nil, or_false] at hm
  obtain ⟨rfl, rfl⟩ | ⟨rfl, rfl⟩ | ⟨rfl, rfl⟩ := hm
  · refine giveCommand_refused (op := 0x06) h rfl ?_
    show (withCommandWord s 0x06 x).cmdSetClose = _
    simp only [State.cmdSetClose, hp, hs, if_true]
  · refine giveCommand_refused (op := 0x07) h rfl ?_
    show (withCommandWord s 0x07 x).cmdHalt = _
    simp only [State.cmdHalt, hp, hs]
  · refine giveCommand_refused (op := 0x08) h rfl ?_
    show (withCommandWord s 0x08 x).cmdResume = _
    simp only [State.cmdResume, hp, hs]

theorem State.cmdHalt_halted {s : State} {n : Slot} (hp : s.paramSlot = some n) (h : (s.slot n).state = .halted) :
    s.cmdHalt = s.cmdRefused 0x07 .state := by simp only [State.cmdHalt, hp, h]

theorem State.cmdResume_listed {s : State} {n : Slot} (hp : s.paramSlot = some n) (h : (s.slot n).state = .listed) :
    s.cmdResume = s.cmdRefused 0x08 .state := by simp only [State.cmdResume, hp, h]

theorem State.cmdLoad_refused {s : State} (hr : s.isReady = true) (h : s.cs.session ≠ .closed) :
    s.cmdLoad = s.cmdRefused 0x01 .state := by
  have hu : s.cr.part = .ready := by simpa [State.isReady] using hr
  exact if_neg (fun hc => hc.elim (fun e => by simp [hu] at e) (fun e => h e.2))

theorem field_low (w : Word) (k : Nat) : field w k 0 = w.toNat % 2 ^ (k + 1) := by simp [field]

/-- The time SET CLOCK names. -/
theorem State.paramTime_eq (s : State) : s.paramTime = (s.param 0).toNat % 16 * 65536 + (s.param 1).toNat := by
  rw [State.paramTime, field_low]
  rfl

theorem State.cmdSetClock_none {s : State} {x : Byte} (h0 : x.getLsbD 0 = false) (h1 : x.getLsbD 1 = false) :
    s.cmdSetClock x = s.cmdRefused 0x09 .range := by
  simp only [State.cmdSetClock, h0, h1]
  rfl

theorem State.cmdSetClock_late {s : State} {x : Byte} (h0 : x.getLsbD 0 = true)
    (ht : 864000 ≤ (s.param 0).toNat % 16 * 65536 + (s.param 1).toNat) : s.cmdSetClock x = s.cmdRefused 0x09 .range := by
  rw [← State.paramTime_eq] at ht
  simp [State.cmdSetClock, h0, ht]

theorem State.cmdWatch_range {s : State} {x : Byte} (h : 16 ≤ x.toNat) : s.cmdWatch x = s.cmdRefused 0x0A .range := by
  unfold State.cmdWatch
  rw [operandTerm_none x h]

theorem State.cmdUnwatch_range {s : State} {x : Byte} (h : 16 ≤ x.toNat) : s.cmdUnwatch x = s.cmdRefused 0x0B .range := by
  unfold State.cmdUnwatch
  rw [operandTerm_none x h]

theorem State.cmdWatch_absent {s : State} {x : Byte} {u : TermId} {n : Slot} (hu : x.toNat = u.val) (hn : s.paramSlot = some n)
    (h : (s.slot n).state = .unused) : s.cmdWatch x = s.cmdRefused 0x0A .absent := by
  unfold State.cmdWatch
  rw [operandTerm_some x u hu, hn]
  exact if_pos h

theorem State.cmdWatch_full {s : State} {x : Byte} {u : TermId} {n : Slot} (hu : x.toNat = u.val) (hn : s.paramSlot = some n)
    (h : (s.slot n).state ≠ .unused) (hw : ¬ (s.term u).Watches n) (hf : ∀ i, vget (s.term u).watch i ≠ none) :
    s.cmdWatch x = s.cmdRefused 0x0A .full := by
  unfold State.cmdWatch
  rw [operandTerm_some x u hu, hn]
  simp only [if_neg h, (Terminal.placeOf_eq_none _ _).2 hw, (Terminal.emptyPlace_eq_none _).2 hf]

theorem State.cmdUnwatch_absent {s : State} {x : Byte} {u : TermId} {n : Slot} (hu : x.toNat = u.val) (hn : s.paramSlot = some n)
    (hw : ¬ (s.term u).Watches n) : s.cmdUnwatch x = s.cmdRefused 0x0B .absent := by
  unfold State.cmdUnwatch
  rw [operandTerm_some x u hu, hn]
  simp only [(Terminal.placeOf_eq_none _ _).2 hw]

/-- Settles O31: each refusal is its owner's. -/
theorem ownersRefuse : Obligations.OwnersRefuse := by
  intro s x h
  have hr : ∀ op, (withCommandWord s op x).isReady = true := fun _ => h.2.1
  refine ⟨param_range_refused h x, fun n hn hu => unused_absent_refused h x hn hu, ?_, ?_, ?_, ?_, ?_, ?_, ?_, ?_, ?_, ?_, ?_, ?_, ?_⟩
  · exact fun n hn hs => giveCommand_refused (op := 0x07) h rfl (State.cmdHalt_halted (withCommandWord_paramSlot hn _ _) hs)
  · exact fun n hn hs => giveCommand_refused (op := 0x08) h rfl (State.cmdResume_listed (withCommandWord_paramSlot hn _ _) hs)
  · exact fun hs => giveCommand_refused (op := 0x03) h rfl (if_neg hs)
  · exact fun hs => giveCommand_refused (op := 0x04) h rfl (if_neg hs)
  · exact fun hs => giveCommand_refused (op := 0x05) h rfl (if_neg hs)
  · exact fun hs => giveCommand_refused (op := 0x01) h rfl (State.cmdLoad_refused (hr _) hs)
  · exact fun hs hd => giveCommand_refused (op := 0x02) h rfl (if_neg (fun e => e.elim hs hd))
  · exact fun h0 h1 => giveCommand_refused (op := 0x09) h rfl (State.cmdSetClock_none h0 h1)
  · exact fun h0 ht => giveCommand_refused (op := 0x09) h rfl (State.cmdSetClock_late (s := withCommandWord s 0x09 x) h0 ht)
  · exact fun hx => giveCommand_refused (op := 0x0A) h rfl (State.cmdWatch_range hx)
  · exact fun hx => giveCommand_refused (op := 0x0B) h rfl (State.cmdUnwatch_range hx)
  · exact statusText_range h
  · intro u n hu hn
    have hp := withCommandWord_paramSlot hn
    refine ⟨fun hs => ?_, fun hs hw hf => ?_, fun hw => ?_⟩
    · exact giveCommand_refused (op := 0x0A) h rfl (State.cmdWatch_absent hu (hp _ _) hs)
    · exact giveCommand_refused (op := 0x0A) h rfl (State.cmdWatch_full hu (hp _ _) hs hw hf)
    · exact giveCommand_refused (op := 0x0B) h rfl (State.cmdUnwatch_absent hu (hp _ _) hw)

end Sys2Proof.Machine
end

