-- ==== Sys2Proof/Proofs/Session.lean ====
section
/-!
PROOFS. The Clock and Session Unit: OPEN, CLOSE, SET CLOCK, the work of a whole second and minute, the feed monitor and the floor lines
(chapter 7).
-/

namespace Sys2Proof.Machine

-- Elaborated one after the other, the proofs hold less memory at once.
set_option Elab.async false

/-! ### The status lines (R155) -/

/-- Marking the status lines adds line 0 to each dirty set, and changes nothing else. -/
theorem TerminalController.markStatusLines_terminal (p : TerminalController) (u : TermId) :
    vget p.markStatusLines.terminals u = (vget p.terminals u).mark 0 := vget_vmap _ _ _

theorem Terminal.mem_mark_dirty (r : Terminal) (line l : Nat) : l ∈ (r.mark line).dirty ↔ l ∈ r.dirty ∨ l = line :=
  (mem_join l line r.dirty).trans or_comm

/-- A part whose terminals have their status lines marked. -/
theorem statusLine_dirty {t : State} {p : TerminalController} (h : t.pt = p.markStatusLines) (u : TermId) : 0 ∈ (t.term u).dirty := by
  rw [State.term, h, TerminalController.markStatusLines_terminal, Terminal.mem_mark_dirty]
  exact .inr rfl

/-! ### A DONE command whose effect sets marks -/

theorem SameButMarks.answered {b u : State} (h : SameButMarks b u) (op : Byte) (out : CmdOutcome) (r : Reason) :
    SameButMarks (Sys2Proof.Machine.answered b op out r) (Sys2Proof.Machine.answered u op out r) := by
  unfold SameButMarks at h ⊢
  rw [h]
  rfl

/-- COMMAND STATUS set keeps every mark. -/
theorem State.setStatus_keeps_dirty {s : State} {o : Nat} (h : o ∈ s.cr.dirty) (op : Byte) (out : CmdOutcome) (r : Reason) :
    o ∈ (s.setStatus op out r).cr.dirty := by
  unfold State.setStatus
  split <;> exact (mem_join o 8 _).2 (.inr h)

/-- A DONE command adds COMMAND STATUS and CMD to an effect known but for its marks (R191). -/
theorem done_finish_same {s b u : State} (h : SameButMarks b u) (op : Byte) :
    SameButMarks (answered b op .done .none) (s.finish (u.cmdDone op).freePort) ∧
      8 ∈ (s.finish (u.cmdDone op).freePort).cr.dirty :=
  ⟨(h.answered op .done .none).trans (done_finish s u op).1, (done_finish s u op).2⟩

/-! ### OPEN and CLOSE (R135, R136) -/

/-- A DONE command that changes the session marks PART STATUS, COMMAND STATUS and the status lines. -/
theorem session_done {s u : State} {p : TerminalController} (op : Byte) (hp : u.pt = p.markStatusLines)
    (hs : s.cs.session ≠ u.cs.session) :
    (let t := s.finish (u.cmdDone op).freePort
     AllDirty [6, 8] t ∧ (∀ v, 0 ∈ (t.term v).dirty) ∧ SameButMarks (answered u op .done .none) t) := by
  obtain ⟨hsame, h8⟩ := done_finish s u op
  have h6 : 6 ∈ (s.finish (u.cmdDone op).freePort).cr.dirty := by
    refine State.mem_finish_of_ne (by decide) (partStatus_ne_of_session ?_)
    rwa [State.freePort_cs, State.cmdDone_cs]
  refine ⟨fun o ho => ?_, statusLine_dirty (hsame.pt.trans hp), hsame⟩
  simp only [List.mem_cons, List.not_mem_nil, or_false] at ho
  obtain rfl | rfl := ho
  · exact h6
  · exact h8

/-- Settles O33: the owners are `State.openMarket` and `State.closeMarket`. -/
theorem openAndCloseChangeSession : Obligations.OpenAndCloseChangeSession := by
  refine ⟨fun p => ⟨rfl, fun u => ⟨fun line => ?_, ?_⟩⟩, ?_, ?_⟩
  · rw [TerminalController.markStatusLines_terminal]
    exact Terminal.mem_mark_dirty _ 0 line
  · rw [TerminalController.markStatusLines_terminal]
    rfl
  · intro s x h hs
    let b := withCommandWord s 0x03 x
    have ho : b.cmdOpen = b.openMarket.cmdDone 0x03 := if_pos hs
    exact ⟨_, congrArg Host.Outcome.next (exec_owner h rfl ho), session_done 0x03 (p := b.pt) rfl (hs ▸ (by rintro ⟨⟩))⟩
  · intro s x h hs
    let b := withCommandWord s 0x04 x
    have ho : b.cmdClose = b.closeMarket.cmdDone 0x04 := if_pos hs
    exact ⟨_, congrArg Host.Outcome.next (exec_owner h rfl ho), session_done 0x04 (p := b.pt) rfl (hs ▸ (by rintro ⟨⟩))⟩

/-! ### SET CLOCK (R133) -/

/-- The clock set to a time, the marks apart. -/
theorem State.takeTime_same (s : State) :
    SameButMarks { s with
      cs := { s.cs with clock := (s.param 0).toNat % 16 * 65536 + (s.param 1).toNat, notSet := false }
      pt := s.pt.markStatusLines } s.takeTime := by
  rw [← State.paramTime_eq, State.takeTime, State.markAllDirty_eq]
  rfl

theorem State.takeTime_dirty (s : State) : AllDirty [15, 16] s.takeTime :=
  fun o ho => (State.mem_markAllDirty _ _ o).2 (.inl ho)

theorem State.takeTrim_eq (s : State) :
    s.takeTrim = { s with cs := { s.cs with
      trimNegative := (s.param 2).getLsbD 15, trimMagnitude := (s.param 2).toNat % 32768, trimAccumulator := 0 } } := by
  rw [State.takeTrim, field_low]
  rfl

/-- SET CLOCK of an operand and a time that are in range. -/
theorem State.cmdSetClock_taken {s : State} {x : Byte} (hb : x.getLsbD 0 = true ∨ x.getLsbD 1 = true)
    (ht : x.getLsbD 0 = true → (s.param 0).toNat % 16 * 65536 + (s.param 1).toNat < 864000) :
    s.cmdSetClock x =
      (if x.getLsbD 1 then (if x.getLsbD 0 then s.takeTime else s).takeTrim else (if x.getLsbD 0 then s.takeTime else s)).cmdDone
        0x09 := by
  rw [← State.paramTime_eq] at ht
  refine if_neg ?_
  cases h0 : x.getLsbD 0
  · have h1 : x.getLsbD 1 = true := hb.resolve_left (by rw [h0]; rintro ⟨⟩)
    rw [h1]
    simp
  · have := ht h0
    simp
    omega

/-- What SET CLOCK leaves before it is DONE, the marks apart. -/
theorem State.setClock_same (s : State) (time trim : Bool) :
    (let c1 := if time then
         { s.cs with clock := (s.param 0).toNat % 16 * 65536 + (s.param 1).toNat, notSet := false } else s.cs
     let c2 := if trim then
         { c1 with
           trimNegative := (s.param 2).getLsbD 15
           trimMagnitude := (s.param 2).toNat % 32768
           trimAccumulator := 0 } else c1
     SameButMarks { s with cs := c2, pt := if time then s.pt.markStatusLines else s.pt }
       (if trim then (if time then s.takeTime else s).takeTrim else (if time then s.takeTime else s))) := by
  have htime := s.takeTime_same
  have hparam : s.takeTime.param 2 = s.param 2 := by
    unfold State.param
    rw [htime.cr]
  cases time
  · cases trim
    · exact SameButMarks.refl s
    · show SameButMarks _ s.takeTrim
      rw [State.takeTrim_eq]
      exact SameButMarks.refl _
  · cases trim
    · exact htime
    · show SameButMarks _ s.takeTime.takeTrim
      rw [State.takeTrim_eq, hparam]
      unfold SameButMarks at htime ⊢
      rw [htime]
      rfl

/-- Settles O37: the owner is `State.cmdSetClock`, told by the two bits of the operand. -/
theorem setClockSetsTimeAndTrim : Obligations.SetClockSetsTimeAndTrim := by
  intro s x h hb ht
  let b := withCommandWord s 0x09 x
  have ho : b.owner 0x09 x = _ := State.cmdSetClock_taken (s := b) hb ht
  have hx : exec (.setClock x) s = .next _ := congrArg Host.Outcome.next (exec_owner h rfl ho)
  obtain ⟨hsame, h8⟩ := done_finish_same (s := s) (b.setClock_same (x.getLsbD 0) (x.getLsbD 1)) 0x09
  refine ⟨_, hx, h8, fun h0 => ⟨fun o hm => State.mem_finish_of_mem (State.setStatus_keeps_dirty ?_ _ _ _), ?_⟩, hsame⟩
  · rw [if_pos h0]
    have hd : o ∈ b.takeTime.cr.dirty := b.takeTime_dirty o hm
    split
    · rw [State.takeTrim_eq]
      exact hd
    · exact hd
  · exact statusLine_dirty (hsame.pt.trans (if_pos h0))

/-! ### The feed monitor (R144, R145) -/

theorem noReportsText_eq : noReportsText = [0x4E, 0x4F, 0x20, 0x52, 0x45, 0x50, 0x4F, 0x52, 0x54, 0x53] := by decide

/-- While the monitor runs the feed becomes STALE. -/
theorem State.feedGoesStale_runs {s : State} (h : FeedRuns s) :
    s.feedGoesStale = { s with
      cs := { s.cs with feedStale := true, feedCount := s.cs.feedTimeout }
      tc := { s.tc with reserved := some [0x4E, 0x4F, 0x20, 0x52, 0x45, 0x50, 0x4F, 0x52, 0x54, 0x53] }
      pt := s.pt.markStatusLines
      cr := { s.cr with flags := s.cr.flags ||| 0x0020 } } := by
  rw [← noReportsText_eq]
  exact if_pos h

/-- The second that reaches F makes the feed STALE. -/
theorem State.feedSecond_due {s : State} (h : FeedDue s) : s.feedSecond = s.feedGoesStale :=
  (if_pos h.1).trans (if_pos h.2)

/-- Any other second only counts, while the monitor runs. -/
theorem State.feedSecond_counts {s : State} (h : ¬ FeedDue s) (hr : FeedRuns s) :
    s.feedSecond = s.setCs { s.cs with feedCount := s.cs.feedCount + 1 } :=
  (if_pos hr).trans (if_neg (fun hl => h ⟨hr, hl⟩))

theorem State.feedSecond_idle {s : State} (hr : ¬ FeedRuns s) : s.feedSecond = s := if_neg hr

/-! ### The sweep count (R101) -/

/-- A sweep expiry on a link: one that is ONLINE without a pass begins one, except in DIMMING. -/
def Link.sweepBegins (x : Session) (k : Link) : Link :=
  if k.state = .online ∧ k.pass = none ∧ x ≠ .dimming then { k with pass := some 0 } else k

theorem State.sweepExpiry_eq {s : State} (hr : s.isReady = true) (hS : s.bc.sweepSeconds ≠ 0) :
    s.sweepExpiry = s.setBc { s.bc with sweepCount := 0, links := vmap (Link.sweepBegins s.cs.session) s.bc.links } :=
  if_pos ⟨hr, hS⟩

/-- The boards after the sweep count's second. -/
def State.sweptBoards (s : State) : BoardController := s.sweepSecond.bc

theorem State.sweepSecond_eq (s : State) : s.sweepSecond = s.setBc s.sweptBoards := by
  unfold State.sweptBoards State.sweepSecond State.sweepExpiry
  split
  · split <;> rfl
  · rfl

theorem State.sweptBoards_due {s : State} (h : SweepDue s) :
    s.sweptBoards = { s.bc with sweepCount := 0, links := vmap (Link.sweepBegins s.cs.session) s.bc.links } := by
  obtain ⟨hr, hS, hc⟩ := h
  rw [State.sweptBoards, State.sweepSecond, if_pos ⟨hr, hS⟩, if_pos hc, State.sweepExpiry_eq hr hS]
  rfl

theorem State.sweptBoards_counts {s : State} (h : ¬ SweepDue s) :
    s.sweptBoards = { s.bc with
      sweepCount := if s.isReady = true ∧ s.bc.sweepSeconds ≠ 0 then s.bc.sweepCount + 1 else s.bc.sweepCount } := by
  rw [State.sweptBoards, State.sweepSecond]
  split
  · rename_i hr
    rw [if_neg (fun hc => h ⟨hr.1, hr.2, hc⟩)]
    rfl
  · rfl

theorem State.sweptBoards_congr {s t : State} (hb : t.bc = s.bc) (hr : t.isReady = s.isReady)
    (hs : t.cs.session = s.cs.session) : t.sweptBoards = s.sweptBoards := by
  have hd : SweepDue t ↔ SweepDue s := by rw [SweepDue, SweepDue, hb, hr]
  by_cases h : SweepDue s
  · rw [State.sweptBoards_due h, State.sweptBoards_due (hd.2 h), hb, hs]
  · rw [State.sweptBoards_counts h, State.sweptBoards_counts (fun hc => h (hd.1 hc)), hb, hr]

theorem Link.sweepBegins_frame (x : Session) (k : Link) : { k.sweepBegins x with pass := k.pass } = k := by
  unfold Link.sweepBegins
  split <;> rfl

theorem Link.sweepBegins_pass (x : Session) (k : Link) :
    (k.sweepBegins x).pass = if k.state = .online ∧ k.pass = none ∧ x ≠ .dimming then some 0 else k.pass := by
  unfold Link.sweepBegins
  split <;> rfl

/-- The sweep count's second changes the count and the passes alone. -/
theorem State.sweptBoards_frame (s : State) :
    s.sweptBoards = { s.bc with links := s.sweptBoards.links, sweepCount := s.sweptBoards.sweepCount } ∧
      ∀ l, { vget s.sweptBoards.links l with pass := (s.link l).pass } = s.link l := by
  by_cases h : SweepDue s
  · rw [State.sweptBoards_due h]
    refine ⟨rfl, fun l => ?_⟩
    rw [vget_vmap]
    exact Link.sweepBegins_frame _ _
  · rw [State.sweptBoards_counts h]
    exact ⟨rfl, fun l => rfl⟩

/-! ### A whole second (R131) -/

/-- What the work of a whole second leaves before the end of its event. -/
structure TakesSecond (s w : State) : Prop where
  dirty : AllDirty [15, 16] w
  swept : w.bc = s.sweptBoards
  due : FeedDue s → w.cs = { s.cs with feedStale := true, feedCount := s.cs.feedTimeout } ∧
    w.tc = { s.tc with reserved := some [0x4E, 0x4F, 0x20, 0x52, 0x45, 0x50, 0x4F, 0x52, 0x54, 0x53] } ∧
    w.pt = s.pt.markStatusLines ∧ w.cr.flags = s.cr.flags ||| 0x0020
  notDue : ¬ FeedDue s → w.tc = s.tc ∧ w.pt = s.pt ∧ w.cr.flags = s.cr.flags ∧
    (FeedRuns s → w.cs = { s.cs with feedCount := s.cs.feedCount + 1 }) ∧ (¬ FeedRuns s → w.cs = s.cs)
  frame : SameButMarks { s with bc := w.bc, tc := w.tc, cs := w.cs, pt := w.pt, cr := { s.cr with flags := w.cr.flags } } w

theorem takesSecond_wholeSecond (s : State) : TakesSecond s s.wholeSecond := by
  have hx : s.markAllDirty [15, 16] = s.setCr { s.cr with dirty := (s.markAllDirty [15, 16]).cr.dirty } := by
    rw [State.markAllDirty_eq]
    rfl
  have hd : AllDirty [15, 16] (s.markAllDirty [15, 16]) := fun o ho => (State.mem_markAllDirty _ _ o).2 (.inl ho)
  have key : ∀ x : State, AllDirty [15, 16] x → x = s.setCr { s.cr with dirty := x.cr.dirty } →
      TakesSecond s x.sweepSecond.feedSecond := by
    intro x hdx e
    have hsw : x.sweptBoards = s.sweptBoards := State.sweptBoards_congr (by rw [e]; rfl) (by rw [e]; rfl) (by rw [e]; rfl)
    rw [State.sweepSecond_eq, hsw]
    generalize hy : x.setBc s.sweptBoards = y
    have hyd : AllDirty [15, 16] y := by
      rw [← hy]
      exact hdx
    have hye : y = { s with bc := s.sweptBoards, cr := { s.cr with dirty := y.cr.dirty } } := by
      rw [← hy]
      show State.setBc x _ = { s with bc := s.sweptBoards, cr := { s.cr with dirty := x.cr.dirty } }
      rw [e]
      rfl
    have hready : y.isReady = s.isReady := by rw [hye]; rfl
    have hcs : y.cs = s.cs := by rw [hye]
    have hruns : FeedRuns y ↔ FeedRuns s := by rw [FeedRuns, FeedRuns, hready, hcs]
    have hdue : FeedDue y ↔ FeedDue s := by rw [FeedDue, FeedDue, hruns, hcs]
    by_cases h : FeedDue s
    · rw [State.feedSecond_due (hdue.2 h), State.feedGoesStale_runs (hruns.2 h.1)]
      refine ⟨hyd, by rw [hye], fun _ => ⟨by rw [hye], by rw [hye], by rw [hye], by rw [hye]⟩, fun hn => absurd h hn, ?_⟩
      unfold SameButMarks
      rw [hye]
    · by_cases hr : FeedRuns s
      · rw [State.feedSecond_counts (fun hc => h (hdue.1 hc)) (hruns.2 hr)]
        refine ⟨hyd, by rw [hye]; rfl, fun hn => absurd hn h, fun _ => ⟨by rw [hye]; rfl, by rw [hye]; rfl, by rw [hye]; rfl,
          fun _ => by rw [hye]; rfl, fun hn => absurd hr hn⟩, ?_⟩
        unfold SameButMarks
        rw [hye]
        rfl
      · rw [State.feedSecond_idle (fun hc => hr (hruns.1 hc))]
        refine ⟨hyd, by rw [hye], fun hn => absurd hn h, fun _ => ⟨by rw [hye], by rw [hye], by rw [hye],
          fun hn => absurd hn hr, fun _ => by rw [hye]⟩, ?_⟩
        unfold SameButMarks
        rw [hye]
  exact key _ hd hx

namespace TakesSecond

variable {s w : State} (h : TakesSecond s w)

include h

theorem bc_frame : w.bc = { s.bc with links := w.bc.links, sweepCount := w.bc.sweepCount } := by
  rw [h.swept]
  exact s.sweptBoards_frame.1

theorem link_frame (l : LinkId) : { w.link l with pass := (s.link l).pass } = s.link l := by
  rw [State.link, h.swept]
  exact s.sweptBoards_frame.2 l

theorem tc_frame : w.tc = { s.tc with reserved := w.tc.reserved } := by
  by_cases hd : FeedDue s
  · rw [(h.due hd).2.1]
  · rw [(h.notDue hd).1]

theorem cs_frame : w.cs = { s.cs with feedStale := w.cs.feedStale, feedCount := w.cs.feedCount } := by
  by_cases hd : FeedDue s
  · rw [(h.due hd).1]
  · obtain ⟨_, _, _, hr, hn⟩ := h.notDue hd
    by_cases hf : FeedRuns s
    · rw [hr hf]
    · rw [hn hf]

/-- The sweep count and the passes after the second. -/
theorem sweep :
    (SweepDue s → w.bc.sweepCount = 0 ∧ ∀ l, (w.link l).pass =
      if (s.link l).state = .online ∧ (s.link l).pass = none ∧ s.cs.session ≠ .dimming then some 0 else (s.link l).pass) ∧
    (¬ SweepDue s → (∀ l, (w.link l).pass = (s.link l).pass) ∧
      w.bc.sweepCount = if s.isReady = true ∧ s.bc.sweepSeconds ≠ 0 then s.bc.sweepCount + 1 else s.bc.sweepCount) := by
  refine ⟨fun hd => ?_, fun hd => ?_⟩
  · simp only [State.link, h.swept, State.sweptBoards_due hd, vget_vmap]
    exact ⟨trivial, fun l => Link.sweepBegins_pass _ _⟩
  · simp only [State.link, h.swept, State.sweptBoards_counts hd]
    exact ⟨fun l => trivial, trivial⟩

/-- The feed and the reserved place after the second. -/
theorem feed :
    (FeedDue s → w.cs.feedStale = true ∧ w.cs.feedCount = s.cs.feedTimeout ∧ w.cr.flags = s.cr.flags ||| 0x0020 ∧
      w.tc.reserved = some [0x4E, 0x4F, 0x20, 0x52, 0x45, 0x50, 0x4F, 0x52, 0x54, 0x53]) ∧
    (¬ FeedDue s → w.cs.feedStale = s.cs.feedStale ∧ w.cr.flags = s.cr.flags ∧ w.tc.reserved = s.tc.reserved ∧
      (FeedRuns s → w.cs.feedCount = s.cs.feedCount + 1) ∧ (¬ FeedRuns s → w.cs.feedCount = s.cs.feedCount)) := by
  refine ⟨fun hd => ?_, fun hd => ?_⟩
  · obtain ⟨hcs, htc, _, hfl⟩ := h.due hd
    rw [hcs, htc]
    exact ⟨rfl, rfl, hfl, rfl⟩
  · obtain ⟨htc, _, hfl, hr, hn⟩ := h.notDue hd
    refine ⟨?_, hfl, by rw [htc], fun hf => by rw [hr hf], fun hf => by rw [hn hf]⟩
    by_cases hf : FeedRuns s
    · rw [hr hf]
    · rw [hn hf]

/-- After the end of the event the second's work stands, with PART STATUS dirty when the feed went STALE. -/
theorem secondTaken : SecondTaken s (s.finish w) := by
  obtain ⟨h1, h2⟩ := h.sweep
  obtain ⟨h3, h4⟩ := h.feed
  have hbc : (s.finish w).bc = w.bc := State.finish_bc s w
  have hcs : (s.finish w).cs = w.cs := State.finish_cs s w
  have htc : (s.finish w).tc = w.tc := State.finish_tc s w
  have hfl : (s.finish w).cr.flags = w.cr.flags := State.finish_flags s w
  have hlink : ∀ l, (s.finish w).link l = w.link l := fun l => by rw [State.link, hbc]; rfl
  simp only [SecondTaken, hlink, hbc, hcs, htc, hfl]
  refine ⟨allDirty_finish h.dirty, h1, h2, fun hd => ?_, h4⟩
  obtain ⟨e1, e2, e3, e4⟩ := h3 hd
  refine ⟨e1, e2, e3, e4, State.mem_finish_of_ne (by decide) (partStatus_ne_of_feed ?_)⟩
  rw [e1, hd.1.2.2.2]
  rintro ⟨⟩

/-- The part after the end of the event, but for what a second changes. -/
theorem same :
    (let t := s.finish w
     SameButMarks { s with
       bc := { s.bc with links := t.bc.links, sweepCount := t.bc.sweepCount }
       tc := { s.tc with reserved := t.tc.reserved }
       cs := { s.cs with feedStale := t.cs.feedStale, feedCount := t.cs.feedCount }
       pt := t.pt
       cr := { s.cr with flags := t.cr.flags } } t) := by
  intro t
  have hs := State.finish_sameAs s h.frame
  rw [h.bc_frame, h.tc_frame, h.cs_frame] at hs
  have hbc : t.bc = w.bc := State.finish_bc s w
  have hcs : t.cs = w.cs := State.finish_cs s w
  have htc : t.tc = w.tc := State.finish_tc s w
  have hpt : t.pt = w.pt := State.finish_pt s w
  have hfl : t.cr.flags = w.cr.flags := State.finish_flags s w
  rw [hbc, hcs, htc, hpt, hfl]
  exact hs

end TakesSecond

theorem State.wholeSecondEvent_new {s : State} (h : s.cs.secondTaken = false) : s.wholeSecondEvent = s.wholeSecond :=
  if_neg (by rw [h]; rintro ⟨⟩)

/-- Settles O39: WHOLE_SECOND is `State.wholeSecond`, what it leaves `TakesSecond`. -/
theorem wholeSecondAndMinute : Obligations.WholeSecondAndMinute := by
  refine ⟨?_, ?_, ?_, ?_⟩
  · intro s hp hn
    have hw := takesSecond_wholeSecond s
    have hx : exec .wholeSecond s = .next (s.finish s.wholeSecondEvent) := partEvent_next _ s hp
    rw [State.wholeSecondEvent_new hn] at hx
    have hpt : (s.finish s.wholeSecond).pt = s.wholeSecond.pt := State.finish_pt _ _
    have hlink : ∀ l, (s.finish s.wholeSecond).link l = s.wholeSecond.link l := fun l => by rw [State.link, State.finish_bc]; rfl
    refine ⟨_, hx, hw.secondTaken, fun hd => hpt.trans (hw.due hd).2.2.1, fun hd => hpt.trans (hw.notDue hd).2.1, fun l => ?_, hw.same⟩
    rw [hlink]
    exact hw.link_frame l
  · intro s hp hn
    have hx : exec .wholeSecond s = .next (s.finish s.wholeSecondEvent) := partEvent_next _ s hp
    have e : s.wholeSecondEvent = s.setCs { s.cs with secondTaken := false } := if_pos hn
    rw [e] at hx
    exact ⟨_, hx, State.finish_same s _⟩
  · intro s hp hr
    have hx : exec .wholeMinute s = .next (s.finish s.wholeMinute) := partEvent_next _ s hp
    have e : s.wholeMinute = s.markStatusLines := if_pos hr
    rw [e] at hx
    have hs := State.finish_same s s.markStatusLines
    exact ⟨_, hx, statusLine_dirty hs.pt, hs⟩
  · intro s hp hr
    have hx : exec .wholeMinute s = .next (s.finish s.wholeMinute) := partEvent_next _ s hp
    have e : s.wholeMinute = s := if_neg (by rw [hr]; rintro ⟨⟩)
    rw [e] at hx
    exact ⟨_, hx, State.finish_same s s⟩

/-- Settles O40: both take `State.feedGoesStale` while the monitor runs. -/
theorem feedGoesStale : Obligations.FeedGoesStale := by
  intro s hp hr ho hF hl
  have hruns : FeedRuns s := ⟨hr, ho, hF, hl⟩
  refine ⟨?_, fun hn hc => ?_⟩
  · have hx : exec .feedGoesStale s = .next (s.finish s.feedGoesStale) := partEvent_next _ s hp
    have he := State.feedGoesStale_runs hruns
    have hs := State.finish_same s s.feedGoesStale
    have h6 : 6 ∈ (s.finish s.feedGoesStale).cr.dirty := by
      refine State.mem_finish_of_ne (by decide) (partStatus_ne_of_feed ?_)
      rw [he, hl]
      rintro ⟨⟩
    rw [he] at hs
    rw [he] at hx h6
    exact ⟨_, hx, h6, statusLine_dirty hs.pt, hs⟩
  · have hw := takesSecond_wholeSecond s
    have hx : exec .wholeSecond s = .next (s.finish s.wholeSecondEvent) := partEvent_next _ s hp
    rw [State.wholeSecondEvent_new hn] at hx
    have hdue : FeedDue s := ⟨hruns, by omega⟩
    obtain ⟨h1516, _, _, hfeed, _⟩ := hw.secondTaken
    obtain ⟨h1, h2, h3, _, h6⟩ := hfeed hdue
    refine ⟨_, hx, fun o ho => ?_, statusLine_dirty ((State.finish_pt _ _).trans (hw.due hdue).2.2.1), h1, h2, h3⟩
    rcases List.mem_cons.1 ho with rfl | ho
    · exact h6
    · exact h1516 o ho

/-! ### Floor lines (R141, R142) -/

/-- The market opened by a floor line. -/
theorem bell_opens {s : State} (c : ClockSession) (hs : s.cs.session = .preOpen) :
    6 ∈ (s.finish ((s.setCs c).openMarket.raise flagBell)).cr.dirty ∧
      SameButMarks { s with
        cs := { c with session := .opened, feedCount := 0, feedStale := false }
        pt := s.pt.markStatusLines
        cr := { s.cr with flags := s.cr.flags ||| 0x0040 } } (s.finish ((s.setCs c).openMarket.raise flagBell)) :=
  ⟨State.mem_finish_of_ne (by decide) (partStatus_ne_of_session (by rw [hs]; rintro ⟨⟩)), State.finish_same s _⟩

/-- The market closed by a floor line. -/
theorem bell_closes {s : State} (c : ClockSession) (hs : s.cs.session = .opened) :
    6 ∈ (s.finish ((s.setCs c).closeMarket.raise flagBell)).cr.dirty ∧
      SameButMarks { s with
        cs := { c with session := .closed, feedCount := 0, feedStale := false }
        pt := s.pt.markStatusLines
        cr := { s.cr with flags := s.cr.flags ||| 0x0040 } } (s.finish ((s.setCs c).closeMarket.raise flagBell)) :=
  ⟨State.mem_finish_of_ne (by decide) (partStatus_ne_of_session (by rw [hs]; rintro ⟨⟩)), State.finish_same s _⟩

/-- The lines with the level of one changed. -/
def ClockSession.withLevel (c : ClockSession) (line : LineId) (level : Bool) : ClockSession :=
  { c with lineLevels := vset c.lineLevels line level }

/-- The change of a line's level makes the signal of a function rise. -/
def State.Rises (s : State) (line : LineId) (level : Bool) (f : LineFunction) : Prop :=
  s.cs.signal f = false ∧ (s.cs.withLevel line level).signal f = true

theorem State.lineChange_opens {s : State} {line : LineId} {level : Bool} (hr : s.isReady = true) (hs : s.cs.session = .preOpen)
    (ho : s.Rises line level .openBell) :
    s.lineChange line level = (s.setCs (s.cs.withLevel line level)).openMarket.raise flagBell := by
  have h : (s.isReady && (!s.cs.signal .openBell && (s.cs.withLevel line level).signal .openBell) &&
      decide (s.cs.session = .preOpen)) = true := by rw [hr, hs, ho.1, ho.2]; rfl
  exact if_pos h

theorem State.lineChange_closes {s : State} {line : LineId} {level : Bool} (hr : s.isReady = true) (hs : s.cs.session = .opened)
    (hc : s.Rises line level .closeBell) :
    s.lineChange line level = (s.setCs (s.cs.withLevel line level)).closeMarket.raise flagBell := by
  have hn : ¬ (s.isReady && (!s.cs.signal .openBell && (s.cs.withLevel line level).signal .openBell) &&
      decide (s.cs.session = .preOpen)) = true := by simp [hs]
  have h : (s.isReady && (!s.cs.signal .closeBell && (s.cs.withLevel line level).signal .closeBell) &&
      decide (s.cs.session = .opened)) = true := by rw [hr, hs, hc.1, hc.2]; rfl
  exact (if_neg hn).trans (if_pos h)

theorem State.lineChange_level {s : State} {line : LineId} {level : Bool}
    (h : s.isReady = false ∨ ((s.cs.session ≠ .preOpen ∨ ¬ s.Rises line level .openBell) ∧
      (s.cs.session ≠ .opened ∨ ¬ s.Rises line level .closeBell))) :
    s.lineChange line level = s.setCs (s.cs.withLevel line level) := by
  have key : ∀ f x, s.isReady = false ∨ s.cs.session ≠ x ∨ ¬ s.Rises line level f →
      ¬ (s.isReady && (!s.cs.signal f && (s.cs.withLevel line level).signal f) && decide (s.cs.session = x)) = true := by
    intro f x hn h
    simp only [Bool.and_eq_true, Bool.not_eq_true', decide_eq_true_eq] at h
    obtain ⟨⟨hr, hb⟩, hs⟩ := h
    rcases hn with hn | hn | hn
    · rw [hr] at hn
      cases hn
    · exact hn hs
    · exact hn hb
  exact (if_neg (key .openBell .preOpen (h.imp_right And.left))).trans (if_neg (key .closeBell .opened (h.imp_right And.right)))

theorem exec_floorLineChange {s : State} {line : LineId} {level : Bool} (hp : s.resetPin = false) :
    exec (.floorLineChange line level) s = .next (s.finish (s.lineChange line level)) := partEvent_next _ s hp

/-- Settles O41: the branches of `State.lineChange`. -/
theorem floorLineRingsTheBell : Obligations.FloorLineRingsTheBell := by
  refine ⟨fun c f => ClockSession.signal_iff c f, ?_⟩
  intro s line level hp c opens closes
  refine ⟨fun hr hs ho => ?_, fun hr hs hc => ?_, fun hn => ?_⟩
  · exact ⟨_, by rw [exec_floorLineChange hp, State.lineChange_opens hr hs ho]; rfl, bell_opens c hs⟩
  · exact ⟨_, by rw [exec_floorLineChange hp, State.lineChange_closes hr hs hc]; rfl, bell_closes c hs⟩
  · exact ⟨_, by rw [exec_floorLineChange hp, State.lineChange_level hn]; rfl, State.finish_same s _⟩

end Sys2Proof.Machine
end

