-- ==== Sys2Proof/Proofs/Roll.lean ====
section
/-!
PROOFS. The ROLL: what its acceptance resets, the walk over the slots, and its end (R5, R105, R127, R137, R138, R183).
-/

namespace Sys2Proof.Machine

-- Elaborated one after the other, the proofs hold less memory at once.
set_option Elab.async false

/-! ### ROLL is accepted (R105, R127, R137, R183) -/

theorem Link.rollAccepted_online {k : Link} (h : k.state = .online) :
    k.rollAccepted = { k with stale := List.range k.rows } := by
  simp only [Link.rollAccepted, Link.allStale, Link.allRows, h, if_true]

theorem Link.rollAccepted_dark {k : Link} (h : k.state = .dark) :
    k.rollAccepted = { k with
      state := .offline, queue := [], blink := [], stale := List.range k.rows, pass := none, failures := 0, probeDue := true,
      probeTimer := false } := by
  simp only [Link.rollAccepted, h]
  rfl

theorem Link.rollAccepted_rest {k : Link} (h : k.state = .offline ∨ k.state = .unused) : k.rollAccepted = k := by
  obtain h | h := h <;> simp only [Link.rollAccepted, h]

theorem State.rollAccepted_link (s : State) (l : LinkId) : s.rollAccepted.link l = (s.link l).rollAccepted := by
  rw [State.link, show s.rollAccepted.bc.links = vmap Link.rollAccepted s.bc.links by unfold State.rollAccepted; simp only; split <;> rfl]
  exact vget_vmap _ _ _

theorem State.rollAccepted_term (s : State) (u : TermId) :
    s.rollAccepted.term u = if s.tc.mode = .full then (s.term u).rollEntries else (s.term u).rollEntries.mark 0 := by
  have hroll : vget s.pt.rollEntries.terminals u = (s.term u).rollEntries := vget_vmap _ _ _
  unfold State.rollAccepted
  simp only
  split
  · exact hroll
  · exact (TerminalController.markStatusLines_terminal _ u).trans (congrArg (fun r => Terminal.mark r 0) hroll)

/-- ROLL accepted after COMMAND STATUS is set, the marks apart. -/
theorem State.rollAnswered_same (s : State) :
    (let v := (s.setStatus 0x02 .running .none).rollAccepted
     SameButMarks (answered { s with
       bc := { s.bc with links := v.bc.links }
       tc := s.tc.rollAccepted
       pt := { s.pt with terminals := v.pt.terminals }
       cs := { s.cs with rollNext := some 0 }
       cr := { s.cr with running := some .roll } } 0x02 .running .none) v ∧ 8 ∈ v.cr.dirty) := by
  have hv := (s.setStatus 0x02 .running .none).rollAccepted_frame
  have hcr := congrArg State.cr hv
  have hbp := congrArg State.bp hv
  constructor
  · unfold SameButMarks
    rw [hcr, hbp]
    exact hv
  · rw [hcr]
    exact State.setStatus_dirty s 0x02 .running .none

/-- Settles O34: the owner is `State.rollAccepted`, link by link and terminal by terminal. -/
theorem rollBegins : Obligations.RollBegins := by
  intro s x h hs
  let b := withCommandWord s 0x02 x
  let v := (b.setStatus 0x02 .running .none).rollAccepted
  have ho : b.cmdRoll = v := if_pos hs
  obtain ⟨hsame, h8⟩ := b.rollAnswered_same
  have hlink : ∀ l, (s.finish v.freePort).link l = (s.link l).rollAccepted := fun l => by
    rw [State.link, State.finish_bc]
    exact State.rollAccepted_link _ l
  have hterm : ∀ u, (s.finish v.freePort).term u =
      if s.tc.mode = .full then (s.term u).rollEntries else (s.term u).rollEntries.mark 0 := fun u => by
    rw [State.term, State.finish_pt]
    exact State.rollAccepted_term _ u
  refine ⟨_, congrArg Host.Outcome.next (exec_owner h rfl ho), State.mem_finish_of_mem h8, fun l hl => ?_, fun l hl => ?_,
    fun l hl => ?_, fun u i => ?_, fun u => ?_, fun hm u => ?_, fun hm u line => ?_, ?_⟩
  · rw [hlink, Link.rollAccepted_online hl]
  · rw [hlink, Link.rollAccepted_dark hl]
  · rw [hlink, Link.rollAccepted_rest hl]
  · rw [hterm]
    split <;> exact vget_vmap _ _ _
  · rw [hterm]
    split <;> rfl
  · rw [hterm, if_pos hm]
    rfl
  · rw [hterm, if_neg hm]
    exact Terminal.mem_mark_dirty _ 0 line
  · rw [State.finish_bc, State.finish_pt]
    exact State.finish_freePort_sameAs s hsame

/-! ### The walk (R5, R138) -/

theorem State.rollOne_unused {s : State} {n : Slot} (h : (s.slot n).state = .unused) : s.rollOne n = s := if_pos h

theorem State.rollOne_used {s : State} {n : Slot} (h : (s.slot n).state ≠ .unused) :
    s.rollOne n = (s.setPendingSize n none).changeRecord (rollNotice n) (rollRec (s.slot n)) := if_neg h

/-- Rolling a used slot changes its record, its pending size and its due marks, and gives its notice to the boards and the terminals. -/
theorem State.rollOne_frame {s : State} {n : Slot} (h : (s.slot n).state ≠ .unused) :
    s.rollOne n = { s with
      qe := { s.qe with
        slots := vset s.qe.slots n (rollRec (s.slot n)), pendingSize := vset s.qe.pendingSize n none, due := (s.rollOne n).qe.due }
      bc := s.bc.notice (rollNotice n)
      pt := s.pt.notice (rollNotice n) (rollRec (s.slot n)).close } := by
  rw [State.rollOne_used h]
  exact State.changeRecord_frame rfl _

theorem State.rollOne_cs (s : State) (n : Slot) : (s.rollOne n).cs = s.cs ∧ (s.rollOne n).cr = s.cr := by
  by_cases h : (s.slot n).state = .unused
  · rw [State.rollOne_unused h]
    exact ⟨rfl, rfl⟩
  · rw [State.rollOne_frame h]
    exact ⟨rfl, rfl⟩

theorem State.rollSlot_walks {s : State} {n : Slot} (h : s.cs.rollNext = some n) (hn : n ≠ 255) :
    s.rollSlot = (s.rollOne n).setCs { (s.rollOne n).cs with rollNext := some (n + 1) } := by
  rw [State.rollSlot, h]
  exact if_neg hn

theorem State.rollSlot_ends {s : State} (h : s.cs.rollNext = some 255) : s.rollSlot = (s.rollOne 255).rollEnds := by
  rw [State.rollSlot, h]
  exact if_pos rfl

/-- The end of the walk opens the new day in PRE-OPEN, and ROLL is DONE. -/
theorem State.rollEnds_same (s : State) :
    SameButMarks { s with
      cs := { s.cs with rollNext := none, session := .preOpen }
      pt := s.pt.markStatusLines
      cr := { s.cr with running := none, status := ⟨0x02, .done, .none⟩, flags := s.cr.flags ||| 0x0002 } } s.rollEnds :=
  State.setStatus_same ({ s with
    cs := { s.cs with rollNext := none, session := .preOpen }
    pt := s.pt.markStatusLines
    cr := { s.cr with running := none } }) 0x02 .done .none

theorem State.rollEnds_dirty (s : State) : 8 ∈ s.rollEnds.cr.dirty := State.setStatus_dirty _ _ _ _

theorem State.rollEnds_qe (s : State) : s.rollEnds.qe = s.qe := by
  rw [State.rollEnds, State.cmdDone_qe]
  rfl

theorem State.rollSlot_qe {s : State} {n : Slot} (h : s.cs.rollNext = some n) : s.rollSlot.qe = (s.rollOne n).qe := by
  by_cases hn : n = 255
  · subst hn
    rw [State.rollSlot_ends h, State.rollEnds_qe]
  · rw [State.rollSlot_walks h hn]
    rfl

/-- Settles O35: one slot is `State.rollOne`; slot 255 ends the walk besides. -/
theorem rollSlotRollsOneSlot : Obligations.RollSlotRollsOneSlot := by
  intro s n hp hn
  refine ⟨_, partEvent_next State.rollSlot s hp, ?_⟩
  obtain ⟨hcs, hcr⟩ := s.rollOne_cs n
  have hqe : (s.event State.rollSlot).qe = (s.rollOne n).qe := by
    rw [State.event, State.finish_qe]
    exact State.rollSlot_qe hn
  have hu : (if (s.slot n).state = .unused then s else { s with
      qe := { s.qe with
        slots := vset s.qe.slots n (rollRec (s.slot n)), pendingSize := vset s.qe.pendingSize n none
        due := (s.event State.rollSlot).qe.due }
      bc := s.bc.notice (rollNotice n)
      pt := s.pt.notice (rollNotice n) (rollRec (s.slot n)).close }) = s.rollOne n := by
    split
    · rename_i h
      rw [State.rollOne_unused h]
    · rename_i h
      rw [hqe]
      exact (State.rollOne_frame h).symm
  refine ⟨fun h => ?_, fun h => ?_, fun h => ?_⟩
  · exact dueMarked_changeRecord (s := s) (b := s.setPendingSize n none) (n := rollNotice n) rfl rfl rfl
      (by rw [hqe, State.rollOne_used h]; rfl)
  · have hs : SameButMarks _ (s.event State.rollSlot) := State.event_same State.rollSlot s
    rw [State.rollSlot_walks hn h, hcs, ← hu] at hs
    exact hs
  · subst h
    have hs : SameButMarks _ (s.event State.rollSlot) := State.event_same State.rollSlot s
    rw [State.rollSlot_ends hn] at hs
    have hs' := (s.rollOne 255).rollEnds_same.trans hs
    rw [hcs, hcr] at hs'
    refine ⟨?_, fun hne => ?_, ?_, ?_⟩
    · rw [State.event, State.rollSlot_ends hn]
      exact State.mem_finish_of_mem (State.rollEnds_dirty _)
    · refine State.mem_finish_of_ne (by decide) (partStatus_ne_of_session ?_)
      rwa [State.rollSlot_ends hn, State.rollEnds_cs]
    · exact statusLine_dirty hs'.pt
    · rw [← hu] at hs'
      exact hs'

end Sys2Proof.Machine
end

