-- ==== Sys2Proof/Proofs/TerminalNotices.lean ====
section
/-!
PROOFS. The terminals take an update notice: the marks of each, and the evaluation of its entry on a TRADE (R157, R178 to R184).
-/

namespace Sys2Proof.Machine

-- Elaborated one after the other, the proofs hold less memory at once.
set_option Elab.async false

/-! ### The test and the re-arm condition (R178, R182) -/

theorem tradeDirection_up (d : TradeDetails) (close : Word) : tradeDirection d close = .up ↔ TicksUp d close := by
  unfold tradeDirection TicksUp
  split_ifs <;> simp_all

theorem tradeDirection_down (d : TradeDetails) (close : Word) : tradeDirection d close = .down ↔ TicksDown d close := by
  unfold tradeDirection TicksDown
  have exclusive : ∀ a b : Word, a < b → ¬ b < a := fun a b h => by bv_omega
  split_ifs <;> simp_all

theorem WatchEntry.test_iff (e : WatchEntry) (d : TradeDetails) (close : Word) : e.test d close = true ↔ e.Meets d close := by
  unfold WatchEntry.test WatchEntry.Meets
  generalize e.code = c
  obtain ⟨c, hc⟩ := c
  interval_cases c
  · simp
  · simp [tradeDirection_up]
  · simp [tradeDirection_down]
  · simp
  · simp
  · simp
  · simp
  · simp only [decide_eq_true_eq]
    refine and_congr_right fun _ => ?_
    omega

/-- The test after negate, as the evaluation reckons it. -/
theorem WatchEntry.holds_iff (e : WatchEntry) (d : TradeDetails) (close : Word) :
    xor (e.test d close) e.negate = true ↔ e.Holds d close := by
  rw [WatchEntry.Holds, ← e.test_iff]
  cases e.test d close <;> cases e.negate <;> simp

theorem WatchEntry.rearms_iff {e : WatchEntry} (h : e.code = 5 ∨ e.code = 6) (v : Word) : e.rearms v = true ↔ e.Rearmed v := by
  unfold WatchEntry.rearms WatchEntry.Rearmed
  obtain h | h := h <;> cases hn : e.negate <;> simp [h] <;> omega

/-! ### The evaluation of an entry (R179 to R182) -/

theorem WatchEntry.evaluate_alerted (e : WatchEntry) (d : TradeDetails) (close : Word) :
    (e.evaluate d close).1.alerted = e.alerted := by
  unfold WatchEntry.evaluate WatchEntry.evalCrossing WatchEntry.evalMove
  simp only
  repeat' split
  all_goals rfl

theorem WatchEntry.evaluate_plain {e : WatchEntry} (h : e.code.val ≤ 4) (d : TradeDetails) (close : Word) :
    e.evaluate d close = (e, xor (e.test d close) e.negate) := by
  have h5 : e.code ≠ 5 := fun h5 => absurd (h5 ▸ h) (by decide)
  have h6 : e.code ≠ 6 := fun h6 => absurd (h6 ▸ h) (by decide)
  have h7 : e.code ≠ 7 := fun h7 => absurd (h7 ▸ h) (by decide)
  simp [WatchEntry.evaluate, WatchEntry.isCrossing, h5, h6, h7]

theorem WatchEntry.evaluate_move {e : WatchEntry} (h : e.code = 7) (d : TradeDetails) (close : Word) :
    e.evaluate d close = e.evalMove d (xor (e.test d close) e.negate) := by
  simp [WatchEntry.evaluate, WatchEntry.isCrossing, h]

theorem WatchEntry.evaluate_crossing {e : WatchEntry} (h : e.code = 5 ∨ e.code = 6) (d : TradeDetails) (close : Word) :
    e.evaluate d close = e.evalCrossing d (xor (e.test d close) e.negate) := by
  simp [WatchEntry.evaluate, WatchEntry.isCrossing, h]

/-- What a TRADE makes of an entry, and whether it alerts: the clauses of R180 to R182. -/
def Evaluated (e : WatchEntry) (d : TradeDetails) (close : Word) (e' : WatchEntry) (alert : Bool) : Prop :=
  (e.code.val ≤ 4 → e' = e ∧ (alert = true ↔ e.Holds d close)) ∧
  (e.code = 7 → e.reference = 0 → e' = { e with reference := d.price } ∧ alert = false) ∧
  (e.code = 7 → e.reference ≠ 0 → (alert = true ↔ e.Holds d close) ∧
    e' = if alert = true ∧ e.negate = false then { e with reference := d.price } else e) ∧
  (e.code = 5 ∨ e.code = 6 → e.side = .unknown → alert = false ∧
    (e.Holds d close → e' = { e with side := .isTrue }) ∧ (¬ e.Holds d close → e' = { e with side := .isFalse })) ∧
  (e.code = 5 ∨ e.code = 6 → e.side = .isFalse → (alert = true ↔ e.Holds d close) ∧
    (e.Holds d close → e' = { e with side := .isTrue }) ∧ (¬ e.Holds d close → e' = e)) ∧
  (e.code = 5 ∨ e.code = 6 → e.side = .isTrue → alert = false ∧
    (e.Rearmed d.price → e' = { e with side := .isFalse }) ∧ (¬ e.Rearmed d.price → e' = e))

theorem WatchEntry.evaluated (e : WatchEntry) (d : TradeDetails) (close : Word) :
    Evaluated e d close (e.evaluate d close).1 (e.evaluate d close).2 := by
  have hh := e.holds_iff d close
  refine ⟨fun h => ?_, fun h hr => ?_, fun h hr => ?_, fun h hs => ?_, fun h hs => ?_, fun h hs => ?_⟩
  · rw [WatchEntry.evaluate_plain h]
    exact ⟨rfl, hh⟩
  · simp [WatchEntry.evaluate_move h, WatchEntry.evalMove, hr]
  · rw [WatchEntry.evaluate_move h, WatchEntry.evalMove, if_neg hr, ← hh]
    cases e.negate <;> cases xor (e.test d close) _ <;> simp
  · rw [WatchEntry.evaluate_crossing h, ← hh]
    cases xor (e.test d close) e.negate <;> simp [WatchEntry.evalCrossing, hs]
  · rw [WatchEntry.evaluate_crossing h, ← hh]
    cases xor (e.test d close) e.negate <;> simp [WatchEntry.evalCrossing, hs]
  · rw [WatchEntry.evaluate_crossing h, ← WatchEntry.rearms_iff h]
    cases hr : e.rearms d.price <;> simp [WatchEntry.evalCrossing, hs, hr]

/-! ### What one terminal makes of a notice (R157, R178, R184) -/

/-- A terminal's record after a notice; `subscribed`: the terminal is in the slot's set. -/
def Terminal.noticed (r : Terminal) (n : Notice) (close : Word) (subscribed : Bool) : Terminal :=
  let r1 := r.noticeMarks n.slot subscribed
  match n.trade with
  | some d => if subscribed then r1.evaluate n.slot d close else r1
  | none => r1

theorem TerminalController.noticeAt_eq (n : Notice) (close : Word) (p : TerminalController) (t : TermId) :
    p.noticeAt n close t = p.put t ((vget p.terminals t).noticed n close (decide (t.val ∈ vget p.subscribers n.slot))) := rfl

/-- A terminal that does not hold the slot marks the quote line alone, when it quotes the slot. -/
theorem Terminal.noticeMarks_unwatched {r : Terminal} {n : Slot} {subscribed : Bool} (h : subscribed = false ∨ ¬ r.Watches n) :
    r.noticeMarks n subscribed = if r.response = .quote n then r.mark 13 else r := by
  obtain h | h := h
  · rw [Terminal.noticeMarks, h]
    rfl
  · rw [← Terminal.placeOf_eq_none] at h
    simp only [Terminal.noticeMarks, h, ite_self]

/-- A terminal that holds the slot marks the entry's line, and the quote line when it quotes the slot. -/
theorem Terminal.noticeMarks_watched {r : Terminal} {n : Slot} {i : Fin 12} (h : r.placeOf n = some i) :
    r.noticeMarks n true = if r.response = .quote n then (r.mark (lineOfPlace i)).mark 13 else r.mark (lineOfPlace i) := by
  simp only [Terminal.noticeMarks, h, if_true]
  rfl

/-- The marks of a notice add to the dirty set alone. -/
theorem Terminal.noticeMarks_frame (r : Terminal) (n : Slot) (subscribed : Bool) :
    r.noticeMarks n subscribed = { r with dirty := (r.noticeMarks n subscribed).dirty } := by
  cases subscribed
  · rw [Terminal.noticeMarks_unwatched (.inl rfl)]
    split <;> rfl
  · cases hi : r.placeOf n with
    | none =>
      rw [Terminal.noticeMarks_unwatched (.inr ((r.placeOf_eq_none n).1 hi))]
      split <;> rfl
    | some i =>
      rw [Terminal.noticeMarks_watched hi]
      split <;> rfl

theorem Terminal.noticed_unwatched {r : Terminal} {n : Notice} {subscribed : Bool} (close : Word)
    (h : subscribed = false ∨ ¬ r.Watches n.slot) :
    r.noticed n close subscribed = r.noticeMarks n.slot subscribed := by
  unfold Terminal.noticed
  cases ht : n.trade with
  | none => rfl
  | some d =>
    obtain h | h := h
    · simp [h]
    · have hp : (r.noticeMarks n.slot subscribed).placeOf n.slot = none := by
        rw [r.noticeMarks_frame]
        exact (r.placeOf_eq_none n.slot).2 h
      simp [Terminal.evaluate, hp]

theorem Terminal.evaluate_place {r : Terminal} {n : Slot} {i : Fin 12} {e : WatchEntry} (hi : r.placeOf n = some i)
    (he : vget r.watch i = some e) (d : TradeDetails) (close : Word) :
    r.evaluate n d close =
      if (e.evaluate d close).2 then
        { r.putEntry i (some { (e.evaluate d close).1 with alerted := true }) with
          alerts := pushAlert r.alerts (lineOfPlace i) }
      else { r with watch := vset r.watch i (some (e.evaluate d close).1) } := by
  simp only [Terminal.evaluate, hi, he]
  rfl

/-- The evaluation of the entry at its place: the entry, the alerted flag and the alert queue, and a mark for its line. -/
theorem Terminal.evaluate_frame {r : Terminal} {n : Slot} {i : Fin 12} {e : WatchEntry} (hi : r.placeOf n = some i)
    (he : vget r.watch i = some e) (d : TradeDetails) (close : Word) :
    r.evaluate n d close = { r with
      dirty := (r.evaluate n d close).dirty
      watch := vset r.watch i (some { (e.evaluate d close).1 with alerted := (e.evaluate d close).2 || e.alerted })
      alerts := if (e.evaluate d close).2 then (if r.alerts.length < 4 then r.alerts else r.alerts.drop 1) ++ [i.val + 1]
        else r.alerts } := by
  have ha := e.evaluate_alerted d close
  have hd : r.alerts.tail = r.alerts.drop 1 := List.drop_one.symm
  rw [Terminal.evaluate_place hi he]
  cases hb : (e.evaluate d close).2
  · simp only [Bool.false_or, ← ha]
    rfl
  · simp only [pushAlert, hd]
    rfl

/-- The evaluation marks no line but the entry's. -/
theorem Terminal.mem_evaluate_dirty {r : Terminal} {n : Slot} {i : Fin 12} {e : WatchEntry} (hi : r.placeOf n = some i)
    (he : vget r.watch i = some e) (d : TradeDetails) (close : Word) (line : Nat) (hl : lineOfPlace i ∈ r.dirty) :
    line ∈ (r.evaluate n d close).dirty ↔ line ∈ r.dirty := by
  rw [Terminal.evaluate_place hi he]
  split
  · refine (mem_join _ _ _).trans ⟨fun h => h.elim (fun h => h ▸ hl) id, .inr⟩
  · rfl

/-- The evaluation after the marks of the notice, told from the record of before. -/
theorem Terminal.evaluate_marked {r r1 : Terminal} {n : Slot} {i : Fin 12} {e : WatchEntry} (h : r1 = { r with dirty := r1.dirty })
    (hi : r.placeOf n = some i) (he : vget r.watch i = some e) (d : TradeDetails) (close : Word) (hl : lineOfPlace i ∈ r1.dirty) :
    (r1.evaluate n d close = { r with
      dirty := (r1.evaluate n d close).dirty
      watch := vset r.watch i (some { (e.evaluate d close).1 with alerted := (e.evaluate d close).2 || e.alerted })
      alerts := if (e.evaluate d close).2 then (if r.alerts.length < 4 then r.alerts else r.alerts.drop 1) ++ [i.val + 1]
        else r.alerts }) ∧
    ∀ line, line ∈ (r1.evaluate n d close).dirty ↔ line ∈ r1.dirty := by
  have hi1 : r1.placeOf n = some i := by
    rw [h]
    exact hi
  have he1 : vget r1.watch i = some e := by
    rw [h]
    exact he
  refine ⟨(Terminal.evaluate_frame hi1 he1 d close).trans ?_, fun line => Terminal.mem_evaluate_dirty hi1 he1 d close line hl⟩
  rw [h]

/-- The marks on a terminal that holds the slot. -/
theorem Terminal.mem_noticeMarks_watched {r : Terminal} {n : Slot} {i : Fin 12} (h : r.placeOf n = some i) (line : Nat) :
    line ∈ (r.noticeMarks n true).dirty ↔ line ∈ r.dirty ∨ line = i.val + 1 ∨ (line = 13 ∧ r.response = .quote n) := by
  rw [Terminal.noticeMarks_watched h]
  by_cases hq : r.response = .quote n
  · rw [if_pos hq, Terminal.mem_mark_dirty, Terminal.mem_mark_dirty, or_assoc]
    simp [hq, lineOfPlace]
  · rw [if_neg hq, Terminal.mem_mark_dirty]
    simp [hq, lineOfPlace]

/-- The marks on a terminal that does not hold the slot. -/
theorem Terminal.mem_noticeMarks_unwatched {r : Terminal} {n : Slot} {subscribed : Bool}
    (h : subscribed = false ∨ ¬ r.Watches n) (line : Nat) :
    line ∈ (r.noticeMarks n subscribed).dirty ↔ line ∈ r.dirty ∨ (line = 13 ∧ r.response = .quote n) := by
  rw [Terminal.noticeMarks_unwatched h]
  by_cases hq : r.response = .quote n
  · rw [if_pos hq, Terminal.mem_mark_dirty]
    simp [hq]
  · rw [if_neg hq]
    simp [hq]

/-! ### Every terminal takes the notice (R178) -/

/-- Terminals that take a notice in turn, each once, take it each from its own record. -/
theorem TerminalController.foldl_noticeAt (n : Notice) (close : Word) :
    ∀ (us : List TermId) (p : TerminalController), us.Nodup →
      us.foldl (TerminalController.noticeAt n close) p =
        { p with terminals := (us.foldl (TerminalController.noticeAt n close) p).terminals } ∧
      ∀ u, vget (us.foldl (TerminalController.noticeAt n close) p).terminals u =
        if u ∈ us then (vget p.terminals u).noticed n close (decide (u.val ∈ vget p.subscribers n.slot))
        else vget p.terminals u := by
  intro us
  induction us with
  | nil => exact fun p _ => ⟨rfl, fun u => by simp⟩
  | cons t us ih =>
    intro p h
    obtain ⟨ht, hus⟩ := List.nodup_cons.1 h
    obtain ⟨hframe, hterm⟩ := ih (p.noticeAt n close t) hus
    refine ⟨hframe, fun u => ?_⟩
    have hput : vget (p.noticeAt n close t).terminals u =
        if u = t then (vget p.terminals t).noticed n close (decide (t.val ∈ vget p.subscribers n.slot))
        else vget p.terminals u := by
      rw [TerminalController.noticeAt_eq]
      exact (vget_vset _ _ _ _).trans (if_congr eq_comm rfl rfl)
    rw [List.foldl_cons, hterm u, hput]
    by_cases hu : u = t
    · subst hu
      simp [ht]
    · simp only [hu, if_false, List.mem_cons, false_or]
      rfl

theorem TerminalController.notice_terminal (p : TerminalController) (n : Notice) (close : Word) (u : TermId) :
    vget (p.notice n close).terminals u =
      (vget p.terminals u).noticed n close (decide (u.val ∈ vget p.subscribers n.slot)) :=
  ((TerminalController.foldl_noticeAt n close allTerms p (List.nodup_finRange 16)).2 u).trans (if_pos (List.mem_finRange u))

/-- Settles O20: each terminal makes of the notice what `Terminal.noticed` says. -/
theorem terminalsTakeNotices : Obligations.TerminalsTakeNotices := by
  intro p n close
  refine ⟨(TerminalController.foldl_noticeAt n close allTerms p (List.nodup_finRange 16)).1, fun u => ?_⟩
  rw [TerminalController.notice_terminal]
  set r := vget p.terminals u
  refine ⟨fun h => ?_, fun i e hu hi hs hl => ?_⟩
  · have hw : decide (u.val ∈ vget p.subscribers n.slot) = false ∨ ¬ r.Watches n.slot := h.imp_left decide_eq_false
    rw [Terminal.noticed_unwatched close hw]
    exact ⟨r.noticeMarks_frame _ _, Terminal.mem_noticeMarks_unwatched hw⟩
  · have hp : r.placeOf n.slot = some i := r.placeOf_eq n.slot i e hi hs hl
    rw [decide_eq_true hu]
    have hmark := Terminal.mem_noticeMarks_watched hp
    have hframe := r.noticeMarks_frame n.slot true
    cases ht : n.trade with
    | none =>
      have hn : r.noticed n close true = r.noticeMarks n.slot true := by rw [Terminal.noticed, ht]
      rw [hn]
      exact ⟨hmark, fun _ => hframe, (by rintro _ ⟨⟩)⟩
    | some d =>
      have hn : r.noticed n close true = (r.noticeMarks n.slot true).evaluate n.slot d close := by
        simp only [Terminal.noticed, ht, if_true]
      obtain ⟨heval, hdirty⟩ := Terminal.evaluate_marked hframe hp hi d close ((hmark _).2 (.inr (.inl rfl)))
      rw [hn]
      refine ⟨fun line => (hdirty line).trans (hmark line), (by rintro ⟨⟩), fun d' hd => ?_⟩
      obtain rfl : d = d' := Option.some.inj hd
      refine ⟨(e.evaluate d close).1, (e.evaluate d close).2, ?_, e.evaluated d close⟩
      exact heval

end Sys2Proof.Machine
end

