-- ==== Sys2Proof/Proofs/Refresh.lean ====
section
/-!
PROOFS. The refresh requests of the boards: what a run of CELL requests adds to the queues and the stale rows, update notices and blink
lists (R75 to R80, R87, R89).
-/

namespace Sys2Proof.Machine

-- Elaborated one after the other, the proofs hold less memory at once.
set_option Elab.async false

/-! ### What requests add to a link -/

/-- Link `l` went from `k` to `k'` by CELL requests for placements that `asks` picks, its blink list apart: every entry and stale row
stays, and every new one is the cell of one of those, or its row. -/
structure Link.Refreshed (ps : List Placement) (asks : Nat → Prop) (l : LinkId) (k k' : Link) : Prop where
  frame : { k' with queue := k.queue, stale := k.stale, blink := k.blink } = k
  queue : ∃ new, k'.queue = k.queue ++ new ∧ new.Nodup ∧
    ∀ e ∈ new, e ∉ k.queue ∧ ∃ p q, asks p ∧ ps[p]? = some q ∧ q.link = l ∧ e = .cell p
  stale : ∀ r ∈ k.stale, r ∈ k'.stale
  fresh : ∀ r ∈ k'.stale, r ∈ k.stale ∨ ∃ p q, asks p ∧ ps[p]? = some q ∧ q.link = l ∧ r = q.row
  silent : k.state ≠ .online → k'.queue = k.queue ∧ k'.stale = k.stale

/-- The boards went from `b` to `b'` by CELL requests for placements that `asks` picks, the blink lists apart. -/
structure BoardController.Refreshed (asks : Nat → Prop) (b b' : BoardController) : Prop where
  frame : b' = { b with links := b'.links }
  link : ∀ l, (vget b.links l).Refreshed b.placements asks l (vget b'.links l)

/-- A placement's link, when ONLINE, holds its cell queued or its row owed. -/
def BoardController.Covered (b : BoardController) (p : Nat) : Prop :=
  ∀ q, b.placements[p]? = some q → (vget b.links q.link).state = .online →
    RefreshEntry.cell p ∈ (vget b.links q.link).queue ∨ (vget b.links q.link).owed q.row = true

theorem Link.owed_iff (k : Link) (r : Nat) : k.owed r = true ↔ r ∈ k.stale ∨ RefreshEntry.row r ∈ k.queue := by
  simp [Link.owed]

namespace Link.Refreshed

variable {ps : List Placement} {asks : Nat → Prop} {l : LinkId} {k k' k'' : Link}

/-- Queue and stale rows as they were. -/
theorem of_same (hf : { k' with queue := k.queue, stale := k.stale, blink := k.blink } = k) (hq : k'.queue = k.queue)
    (hs : k'.stale = k.stale) : Refreshed ps asks l k k' where
  frame := hf
  queue := ⟨[], by simp [hq], List.nodup_nil, by simp⟩
  stale := fun r h => hs ▸ h
  fresh := fun r h => .inl (hs ▸ h)
  silent := fun _ => ⟨hq, hs⟩

theorem refl (k : Link) : Refreshed ps asks l k k := of_same rfl rfl rfl

theorem state (h : Refreshed ps asks l k k') : k'.state = k.state := (congrArg Link.state h.frame :)

theorem trans (h : Refreshed ps asks l k k') (h' : Refreshed ps asks l k' k'') : Refreshed ps asks l k k'' where
  frame := by
    have e := h.frame
    rw [← h'.frame] at e
    exact e
  queue := by
    obtain ⟨new, hq, hn, hnew⟩ := h.queue
    obtain ⟨new', hq', hn', hnew'⟩ := h'.queue
    refine ⟨new ++ new', by rw [hq', hq, List.append_assoc], List.nodup_append.2 ⟨hn, hn', ?_⟩, fun e he => ?_⟩
    · rintro e he _ he' rfl
      exact (hnew' e he').1 (by rw [hq]; exact List.mem_append_right _ he)
    · obtain he | he := List.mem_append.1 he
      · exact hnew e he
      · obtain ⟨hnot, hask⟩ := hnew' e he
        exact ⟨fun h => hnot (by rw [hq]; exact List.mem_append_left _ h), hask⟩
  stale := fun r hr => h'.stale r (h.stale r hr)
  fresh := fun r hr => (h'.fresh r hr).elim (h.fresh r) .inr
  silent := fun ho => by
    obtain ⟨hq, hs⟩ := h.silent ho
    obtain ⟨hq', hs'⟩ := h'.silent (h.state ▸ ho)
    exact ⟨hq'.trans hq, hs'.trans hs⟩

theorem owed (h : Refreshed ps asks l k k') {r : Nat} (ho : k.owed r = true) : k'.owed r = true := by
  obtain ⟨new, hq, -, -⟩ := h.queue
  rw [Link.owed_iff] at ho ⊢
  exact ho.imp (h.stale r) (fun ho => by rw [hq]; exact List.mem_append_left _ ho)

theorem mem_queue (h : Refreshed ps asks l k k') {e : RefreshEntry} (he : e ∈ k.queue) : e ∈ k'.queue := by
  obtain ⟨new, hq, -, -⟩ := h.queue
  rw [hq]
  exact List.mem_append_left _ he

end Link.Refreshed

/-! ### One CELL request (R87, R89) -/

theorem Link.cellRequest_dropped {k : Link} {p r : Nat}
    (h : k.state ≠ .online ∨ RefreshEntry.cell p ∈ k.queue ∨ r ∈ k.stale ∨ RefreshEntry.row r ∈ k.queue) :
    k.cellRequest p r = k := by
  unfold Link.cellRequest
  by_cases ho : k.state = .online
  · rw [if_neg (not_not.2 ho), if_pos]
    rw [Link.owed_iff]
    exact h.resolve_left (not_not.2 ho)
  · exact if_pos ho

theorem Link.cellRequest_taken {k : Link} {p r : Nat} (ho : k.state = .online) (hp : RefreshEntry.cell p ∉ k.queue)
    (hs : r ∉ k.stale) (hr : RefreshEntry.row r ∉ k.queue) :
    k.cellRequest p r = if k.queue.length < 32 then { k with queue := k.queue ++ [.cell p] } else { k with stale := join r k.stale } := by
  have howed : ¬ (RefreshEntry.cell p ∈ k.queue ∨ k.owed r = true) := by
    rw [Link.owed_iff]
    rintro (h | h | h)
    · exact hp h
    · exact hs h
    · exact hr h
  unfold Link.cellRequest
  rw [if_neg (not_not.2 ho), if_neg howed]

theorem Link.Refreshed.cellRequest {ps : List Placement} {asks : Nat → Prop} {p : Nat} {q : Placement} (hq : ps[p]? = some q)
    (ha : asks p) (k : Link) : Link.Refreshed ps asks q.link k (k.cellRequest p q.row) := by
  by_cases h : k.state ≠ .online ∨ RefreshEntry.cell p ∈ k.queue ∨ q.row ∈ k.stale ∨ RefreshEntry.row q.row ∈ k.queue
  · rw [Link.cellRequest_dropped h]
    exact .refl k
  · simp only [not_or, not_not] at h
    obtain ⟨ho, hp, hs, hr⟩ := h
    rw [Link.cellRequest_taken ho hp hs hr]
    split
    · exact {
        frame := rfl
        queue := ⟨[.cell p], rfl, List.nodup_singleton _, fun e he => by
          obtain rfl := List.mem_singleton.1 he
          exact ⟨hp, p, q, ha, hq, rfl, rfl⟩⟩
        stale := fun r h => h
        fresh := fun r h => .inl h
        silent := fun h => absurd ho h }
    · exact {
        frame := rfl
        queue := ⟨[], by simp, List.nodup_nil, by simp⟩
        stale := fun r h => (mem_join _ _ _).2 (.inr h)
        fresh := fun r h => ((mem_join _ _ _).1 h).elim (fun e => .inr ⟨p, q, ha, hq, rfl, e⟩) .inl
        silent := fun h => absurd ho h }

/-- A request on an ONLINE link leaves the cell queued or its row owed. -/
theorem Link.cellRequest_covers {k : Link} (p r : Nat) (ho : k.state = .online) :
    RefreshEntry.cell p ∈ (k.cellRequest p r).queue ∨ (k.cellRequest p r).owed r = true := by
  by_cases h : RefreshEntry.cell p ∈ k.queue ∨ r ∈ k.stale ∨ RefreshEntry.row r ∈ k.queue
  · rw [Link.cellRequest_dropped (.inr h), Link.owed_iff]
    exact h
  · simp only [not_or] at h
    rw [Link.cellRequest_taken ho h.1 h.2.1 h.2.2]
    split
    · simp
    · rw [Link.owed_iff]
      exact .inr (.inl ((mem_join _ _ _).2 (.inl rfl)))

theorem BoardController.request_some {b : BoardController} {p : Nat} {q : Placement} (h : b.placements[p]? = some q) :
    b.request p = { b with links := vset b.links q.link ((vget b.links q.link).cellRequest p q.row) } := by
  simp only [BoardController.request, h]

theorem BoardController.request_none {b : BoardController} {p : Nat} (h : b.placements[p]? = none) : b.request p = b := by
  simp only [BoardController.request, h]

/-! ### Requests on the boards -/

namespace BoardController.Refreshed

variable {asks : Nat → Prop} {b b' b'' : BoardController}

theorem refl (b : BoardController) : Refreshed asks b b := ⟨rfl, fun _ => .refl _⟩

theorem placements (h : Refreshed asks b b') : b'.placements = b.placements := by rw [h.frame]

theorem trans (h : Refreshed asks b b') (h' : Refreshed asks b' b'') : Refreshed asks b b'' where
  frame := by
    rw [h'.frame, h.frame]
  link := fun l => (h.link l).trans (h.placements ▸ h'.link l)

/-- One link changed. -/
theorem setLink {l : LinkId} {k : Link} (h : (vget b.links l).Refreshed b.placements asks l k) :
    Refreshed asks b { b with links := vset b.links l k } where
  frame := rfl
  link := fun m => by
    show Link.Refreshed _ _ _ _ (vget (vset b.links l k) m)
    rw [vget_vset]
    split
    · rename_i e
      exact e ▸ h
    · exact .refl _

theorem request {p : Nat} (ha : asks p) : Refreshed asks b (b.request p) := by
  cases hq : b.placements[p]? with
  | none =>
    rw [BoardController.request_none hq]
    exact refl b
  | some q =>
    rw [BoardController.request_some hq]
    exact setLink (.cellRequest hq ha _)

/-- Changes that each are requests, one after the other. -/
theorem foldl {α : Type} {f : BoardController → α → BoardController} (hf : ∀ b x, Refreshed asks b (f b x)) (xs : List α)
    (b : BoardController) : Refreshed asks b (xs.foldl f b) := by
  induction xs generalizing b with
  | nil => exact refl b
  | cons x xs ih => exact (hf b x).trans (ih _)

/-- A blink list changed. -/
theorem setBlink (l : LinkId) (cells : List BlinkCell) :
    Refreshed asks b { b with links := vset b.links l { vget b.links l with blink := cells } } := setLink (.of_same rfl rfl rfl)

/-- What is covered stays so. -/
theorem covered (h : Refreshed asks b b') {p : Nat} (hc : b.Covered p) : b'.Covered p := by
  intro q hq ho
  have hl := h.link q.link
  rw [h.placements] at hq
  rw [hl.state] at ho
  exact (hc q hq ho).imp hl.mem_queue hl.owed

end BoardController.Refreshed

/-- A request covers its placement. -/
theorem BoardController.request_covers (b : BoardController) (p : Nat) : (b.request p).Covered p := by
  intro q hq ho
  rw [BoardController.request_state] at ho
  rw [(BoardController.Refreshed.request (asks := fun _ => True) (b := b) (p := p) trivial).placements] at hq
  rw [BoardController.request_some hq]
  simp only [vget_vset_self]
  exact Link.cellRequest_covers p q.row ho

/-- Requests one after the other cover every placement among them. -/
theorem BoardController.foldl_request_covers {ps : List Nat} {p : Nat} (h : p ∈ ps) (b : BoardController) :
    (ps.foldl BoardController.request b).Covered p := by
  induction ps generalizing b with
  | nil => cases h
  | cons x xs ih =>
    have hrest : BoardController.Refreshed (fun _ => True) (b.request x) (xs.foldl BoardController.request (b.request x)) :=
      .foldl (fun _ _ => .request trivial) xs _
    obtain rfl | h := List.mem_cons.1 h
    · exact hrest.covered (b.request_covers p)
    · exact ih h _

/-! ### Blink lists (R77 to R79) -/

theorem BoardController.blinkStart_some {b : BoardController} {p : Nat} {q : Placement} (h : b.placements[p]? = some q) :
    b.blinkStart p = if b.blinkTenths ≠ 0 ∧ (vget b.links q.link).state = .online then b.blinkJoin q.link p else b := by
  simp only [BoardController.blinkStart, h]

/-- A cell that blinks goes to the tail. -/
theorem BoardController.blinkJoin_again {b : BoardController} {l : LinkId} {p : Nat} (h : (vget b.links l).blinks p = true) :
    b.blinkJoin l p = { b with links := vset b.links l { vget b.links l with
      blink := (vget b.links l).blink.filter (fun c => c.placement != p) ++ [⟨p, b.blinkTenths⟩] } } := if_pos h

/-- A new cell joins at the tail while the list has room. -/
theorem BoardController.blinkJoin_room {b : BoardController} {l : LinkId} {p : Nat} (h : ¬ (vget b.links l).blinks p = true)
    (hl : (vget b.links l).blink.length < 16) :
    b.blinkJoin l p = { b with links := vset b.links l { vget b.links l with
      blink := (vget b.links l).blink ++ [⟨p, b.blinkTenths⟩] } } := (if_neg h).trans (if_pos hl)

/-- A full list loses its oldest, which asks for a refresh. -/
theorem BoardController.blinkJoin_full {b : BoardController} {l : LinkId} {p : Nat} {oldest : BlinkCell} {rest : List BlinkCell}
    (h : ¬ (vget b.links l).blinks p = true) (hl : ¬ (vget b.links l).blink.length < 16)
    (hb : (vget b.links l).blink = oldest :: rest) :
    b.blinkJoin l p =
      (let b2 := ({ b with links := vset b.links l { vget b.links l with blink := rest } } : BoardController).request
         oldest.placement
       { b2 with links := vset b2.links l { vget b2.links l with
         blink := (vget b2.links l).blink ++ [⟨p, b.blinkTenths⟩] } }) := by
  refine ((if_neg h).trans (if_neg hl)).trans ?_
  rw [hb]

/-- A request does not look at the blink list. -/
theorem Link.cellRequest_blink (k : Link) (cells : List BlinkCell) (p r : Nat) :
    ({ k with blink := cells } : Link).cellRequest p r = { k.cellRequest p r with blink := cells } := by
  by_cases h : k.state ≠ .online ∨ RefreshEntry.cell p ∈ k.queue ∨ r ∈ k.stale ∨ RefreshEntry.row r ∈ k.queue
  · rw [Link.cellRequest_dropped h]
    exact Link.cellRequest_dropped h
  · simp only [not_or, not_not] at h
    obtain ⟨ho, hp, hs, hr⟩ := h
    rw [Link.cellRequest_taken ho hp hs hr]
    refine (Link.cellRequest_taken (k := { k with blink := cells }) ho hp hs hr).trans ?_
    split <;> rfl

/-- The boards with the blink list of one link changed. -/
def BoardController.withBlink (b : BoardController) (l : LinkId) (cells : List BlinkCell) : BoardController :=
  { b with links := vset b.links l { vget b.links l with blink := cells } }

theorem BoardController.withBlink_link (b : BoardController) (l m : LinkId) (cells : List BlinkCell) :
    vget (b.withBlink l cells).links m = if l = m then { vget b.links m with blink := cells } else vget b.links m := by
  refine (vget_vset _ _ _ _).trans ?_
  split
  · rename_i h
    rw [h]
  · rfl

/-- A request before a change of a blink list comes to the same as one after it. -/
theorem BoardController.request_withBlink (b : BoardController) (l : LinkId) (cells : List BlinkCell) (p : Nat) :
    (b.withBlink l cells).request p = (b.request p).withBlink l cells := by
  cases hq : b.placements[p]? with
  | none =>
    rw [BoardController.request_none hq]
    exact BoardController.request_none hq
  | some q =>
    rw [BoardController.request_some hq]
    refine (BoardController.request_some (b := b.withBlink l cells) hq).trans ?_
    refine congrArg (fun v => ({ b with links := v } : BoardController)) (vget_ext fun m => ?_)
    show vget (vset _ _ _) m = vget (vset _ _ _) m
    simp only [vget_vset, BoardController.withBlink_link]
    by_cases hm : q.link = m
    · subst hm
      by_cases hl : l = q.link <;> simp [hl, Link.cellRequest_blink]
    · by_cases hl : l = m
      · subst hl
        simp [hm]
      · simp [hm, hl]

/-- A blink list changed on both sides of a request comes to the same as both changes made before it. -/
theorem BoardController.request_blinks (b : BoardController) (l : LinkId) (cells more : List BlinkCell) (p : Nat) :
    ((b.withBlink l cells).request p).withBlink l ((vget ((b.withBlink l cells).request p).links l).blink ++ more) =
      (b.withBlink l (cells ++ more)).request p := by
  have hblink : (vget ((b.withBlink l cells).request p).links l).blink = cells := by
    rw [BoardController.request_blink, BoardController.withBlink_link, if_pos rfl]
  have htwice : (b.withBlink l cells).withBlink l (cells ++ more) = b.withBlink l (cells ++ more) := by
    refine congrArg (fun v => ({ b with links := v } : BoardController)) (vget_ext fun m => ?_)
    refine (BoardController.withBlink_link (b.withBlink l cells) l m _).trans ?_
    refine Eq.trans ?_ (BoardController.withBlink_link b l m _).symm
    rw [BoardController.withBlink_link]
    split <;> rfl
  rw [hblink, ← BoardController.request_withBlink, htwice]

theorem BoardController.Refreshed.blinkStart (b : BoardController) (p : Nat) :
    BoardController.Refreshed (fun _ => True) b (b.blinkStart p) := by
  cases hq : b.placements[p]? with
  | none =>
    simp only [BoardController.blinkStart, hq]
    exact .refl b
  | some q =>
    rw [BoardController.blinkStart_some hq]
    split
    · by_cases hb : (vget b.links q.link).blinks p = true
      · rw [BoardController.blinkJoin_again hb]
        exact .setBlink _ _
      by_cases hl : (vget b.links q.link).blink.length < 16
      · rw [BoardController.blinkJoin_room hb hl]
        exact .setBlink _ _
      cases hk : (vget b.links q.link).blink with
      | nil =>
        rw [hk] at hl
        exact absurd (by decide) hl
      | cons oldest rest =>
        rw [BoardController.blinkJoin_full hb hl hk]
        exact ((BoardController.Refreshed.setBlink q.link rest).trans (.request trivial)).trans (.setBlink _ _)
    · exact .refl b

/-! ### Update notices (R75, R78) -/

theorem ChangedSet.refreshes_iff (n : Notice) (q : Placement) :
    (decide (q.slot = n.slot) && n.changed.refreshes q.kind) = true ↔ RefreshedBy n q := by
  unfold RefreshedBy ChangedSet.refreshes
  cases q.kind <;> simp

theorem BoardController.mem_refreshed (b : BoardController) (n : Notice) (p : Nat) :
    p ∈ b.refreshed n ↔ ∃ q, b.placements[p]? = some q ∧ RefreshedBy n q := by
  simp only [BoardController.refreshed, List.mem_map, List.mem_filter, ChangedSet.refreshes_iff]
  constructor
  · rintro ⟨⟨q, i⟩, ⟨hm, hr⟩, rfl⟩
    exact ⟨q, List.mem_zipIdx_iff_getElem?.1 hm, hr⟩
  · rintro ⟨q, hq, hr⟩
    exact ⟨(q, p), ⟨List.mem_zipIdx_iff_getElem?.2 hq, hr⟩, rfl⟩

/-- Places picked from a list come by ascending index. -/
theorem zipIdx_filter_sorted {α : Type} (f : α × Nat → Bool) (xs : List α) :
    ((xs.zipIdx.filter f).map (·.2)).Pairwise (· < ·) := by
  have h : (xs.zipIdx.map (·.2)).Pairwise (· < ·) := by
    rw [List.zipIdx_map_snd]
    exact List.pairwise_lt_range'
  exact h.sublist (List.filter_sublist.map _)

theorem BoardController.notice_eq (b : BoardController) (n : Notice) :
    b.notice n = if n.cause = .trade then
        (b.refreshed n).foldl BoardController.blinkStart ((b.refreshed n).foldl BoardController.request b)
      else (b.refreshed n).foldl BoardController.request b := rfl

/-- A notice covers every placement it refreshes, and changes the blink lists and what they and the requests ask for alone. -/
theorem BoardController.notice_covers (b : BoardController) (n : Notice) :
    BoardController.Refreshed (fun _ => True) b (b.notice n) ∧ ∀ p ∈ b.refreshed n, (b.notice n).Covered p := by
  have h1 : BoardController.Refreshed (fun _ => True) b ((b.refreshed n).foldl BoardController.request b) :=
    .foldl (fun _ _ => .request trivial) _ _
  have h2 : BoardController.Refreshed (fun _ => True) ((b.refreshed n).foldl BoardController.request b) (b.notice n) := by
    rw [BoardController.notice_eq]
    split
    · exact .foldl BoardController.Refreshed.blinkStart _ _
    · exact .refl _
  exact ⟨h1.trans h2, fun p hp => h2.covered (BoardController.foldl_request_covers hp b)⟩

/-- Settles O17: the notice is requests and joins, each as `Link.cellRequest` and `BoardController.blinkJoin` say. -/
theorem boardsTakeNotices : Obligations.BoardsTakeNotices := by
  constructor
  · intro b n
    obtain ⟨hr, hc⟩ := b.notice_covers n
    refine ⟨⟨b.refreshed n, zipIdx_filter_sorted _ _, b.mem_refreshed n, fun h => (b.notice_eq n).trans (if_neg h),
      fun h => (b.notice_eq n).trans (if_pos h)⟩, fun p q hq hby ho => ?_, hr.frame, fun l => (hr.link l).frame⟩
    have hl := (hr.link q.link).state
    exact hc p ((b.mem_refreshed n p).2 ⟨q, hq, hby⟩) q (hr.placements ▸ hq) (hl.trans ho)
  · intro b p q hq k becomes fresh
    have hreq := BoardController.request_some hq
    have hstart := BoardController.blinkStart_some hq
    have hsame : becomes k = b := congrArg (fun v => ({ b with links := v } : BoardController)) (vset_vget _ _)
    have hblink : (∀ c ∈ k.blink, c.placement ≠ p) → ¬ k.blinks p = true := fun h hb => by
      obtain ⟨c, hc, hp⟩ := (k.blinks_iff p).1 hb
      exact h c hc hp
    have dropped : k.state ≠ .online ∨ RefreshEntry.cell p ∈ k.queue ∨ q.row ∈ k.stale ∨ RefreshEntry.row q.row ∈ k.queue →
        b.request p = b := fun h => hreq.trans ((congrArg becomes (Link.cellRequest_dropped h)).trans hsame)
    refine ⟨fun ho => ⟨dropped (.inl ho), hstart.trans (if_neg fun h => ho h.2)⟩, fun ht => hstart.trans (if_neg fun h => h.1 ht),
      fun h => dropped (.inr h), fun ho hp hs hw => ⟨fun hl => ?_, fun hl => ?_⟩,
      fun ho ht => ?_⟩
    · exact hreq.trans (congrArg becomes ((Link.cellRequest_taken ho hp hs hw).trans (if_pos hl)))
    · exact ⟨join q.row k.stale, fun r => mem_join _ _ _,
        hreq.trans (congrArg becomes ((Link.cellRequest_taken ho hp hs hw).trans (if_neg (Nat.not_lt.2 hl))))⟩
    · have hjoin : b.blinkStart p = b.blinkJoin q.link p := hstart.trans (if_pos ⟨ht, ho⟩)
      refine ⟨fun hc => ?_, fun hc hl => hjoin.trans (BoardController.blinkJoin_room (hblink hc) hl),
        fun oldest rest hc hl hk => ?_⟩
      · have hf : k.blink.filter (fun c => decide (c.placement ≠ p)) = k.blink.filter (fun c => c.placement != p) :=
          List.filter_congr fun c _ => by rw [Bool.eq_iff_iff]; simp
        rw [hf]
        exact hjoin.trans (BoardController.blinkJoin_again ((k.blinks_iff p).2 hc))
      · refine (hjoin.trans (BoardController.blinkJoin_full (hblink hc) (Nat.not_lt.2 hl) hk)).trans ?_
        exact b.request_blinks q.link rest [fresh] oldest.placement

end Sys2Proof.Machine
end

