-- ==== Sys2Proof/Proofs/Blink.lean ====
section
/-!
PROOFS. The end of blink times, the sweep, REPAINT, and the ROW requests of a text write (R73, R80, R88, R101, R103).
-/

namespace Sys2Proof.Machine

-- Elaborated one after the other, the proofs hold less memory at once.
set_option Elab.async false

/-! ### Cells whose time is up (R80) -/

theorem BoardController.expireBlinks_eq (b : BoardController) (l : LinkId) :
    b.expireBlinks l = (((vget b.links l).blink.filter (fun c => c.remaining == 0)).map (·.placement)).foldl BoardController.request
      (b.withBlink l ((vget b.links l).blink.filter (fun c => c.remaining != 0))) := by
  rw [List.foldl_map]
  rfl

theorem BoardController.foldl_request_blink (ps : List Nat) (b : BoardController) (m : LinkId) :
    (vget (ps.foldl BoardController.request b).links m).blink = (vget b.links m).blink := by
  induction ps generalizing b with
  | nil => rfl
  | cons p ps ih => exact (ih _).trans (b.request_blink p m)

/-- The cells of a link whose time is up leave its list, and no other list changes. -/
theorem BoardController.expireBlinks_blink (b : BoardController) (l m : LinkId) :
    (vget (b.expireBlinks l).links m).blink =
      if l = m then (vget b.links m).blink.filter (fun c => c.remaining != 0) else (vget b.links m).blink := by
  rw [BoardController.expireBlinks_eq, BoardController.foldl_request_blink, BoardController.withBlink_link]
  split
  · rename_i h
    rw [h]
  · rfl

theorem BoardController.Refreshed.foldl_request {asks : Nat → Prop} {ps : List Nat} (h : ∀ p ∈ ps, asks p) (b : BoardController) :
    BoardController.Refreshed asks b (ps.foldl BoardController.request b) := by
  induction ps generalizing b with
  | nil => exact .refl b
  | cons p ps ih =>
    exact (BoardController.Refreshed.request (h p (List.mem_cons_self ..))).trans (ih (fun q hq => h q (List.mem_cons_of_mem _ hq)) _)

theorem BoardController.expireBlinks_refreshed {asks : Nat → Prop} {b : BoardController} {l : LinkId}
    (h : ∀ c ∈ (vget b.links l).blink, c.remaining = 0 → asks c.placement) :
    BoardController.Refreshed asks b (b.expireBlinks l) := by
  rw [BoardController.expireBlinks_eq]
  refine (BoardController.Refreshed.setBlink l _).trans (.foldl_request (fun p hp => ?_) _)
  obtain ⟨c, hc, rfl⟩ := List.mem_map.1 hp
  obtain ⟨hc, hr⟩ := List.mem_filter.1 hc
  exact h c hc (by simpa using hr)

theorem BoardController.expireBlinks_covers {b : BoardController} {l : LinkId} {c : BlinkCell}
    (hc : c ∈ (vget b.links l).blink) (hr : c.remaining = 0) : (b.expireBlinks l).Covered c.placement := by
  rw [BoardController.expireBlinks_eq]
  exact BoardController.foldl_request_covers (List.mem_map_of_mem (List.mem_filter.2 ⟨hc, by simp [hr]⟩)) _

/-- The links in turn lose the cells whose time is up: what they ask for, the lists, and the placements covered. -/
theorem BoardController.foldl_expireBlinks {asks : Nat → Prop} :
    ∀ (ls : List LinkId) (b : BoardController), (∀ m, ∀ c ∈ (vget b.links m).blink, c.remaining = 0 → asks c.placement) →
      BoardController.Refreshed asks b (ls.foldl BoardController.expireBlinks b) ∧
      (∀ m, (vget (ls.foldl BoardController.expireBlinks b).links m).blink =
        if m ∈ ls then (vget b.links m).blink.filter (fun c => c.remaining != 0) else (vget b.links m).blink) ∧
      ∀ l ∈ ls, ∀ c ∈ (vget b.links l).blink, c.remaining = 0 →
        (ls.foldl BoardController.expireBlinks b).Covered c.placement := by
  intro ls
  induction ls with
  | nil => exact fun b _ => ⟨.refl b, fun m => by simp, by rintro _ ⟨⟩⟩
  | cons x ls ih =>
    intro b h
    have hblink := b.expireBlinks_blink x
    have hx : ∀ m, ∀ c ∈ (vget (b.expireBlinks x).links m).blink, c.remaining = 0 → asks c.placement := fun m c hc hr => by
      rw [hblink m] at hc
      split at hc
      · exact h m c (List.mem_filter.1 hc).1 hr
      · exact h m c hc hr
    obtain ⟨h1, h2, h3⟩ := ih (b.expireBlinks x) hx
    refine ⟨(BoardController.expireBlinks_refreshed (h x)).trans h1, fun m => ?_, fun l hl c hc hr => ?_⟩
    · rw [List.foldl_cons, h2 m, hblink m]
      by_cases hm : x = m
      · subst hm
        simp [List.filter_filter]
      · simp [hm, Ne.symm hm]
    · by_cases hlx : x = l
      · subst hlx
        exact h1.covered (BoardController.expireBlinks_covers hc hr)
      · refine h3 l ((List.mem_cons.1 hl).resolve_left (Ne.symm hlx)) c ?_ hr
        rw [hblink l, if_neg hlx]
        exact hc

/-- The boards after the cells whose time is up have left. -/
def BoardController.expired (b : BoardController) : BoardController := allLinks.foldl BoardController.expireBlinks b

theorem mem_allLinks (l : LinkId) : l ∈ allLinks := by
  revert l
  decide

theorem State.blinkExpiry_eq (s : State) : s.blinkExpiry = { s with bc := s.bc.expired } := rfl

theorem BoardController.expired_refreshed {asks : Nat → Prop} {b : BoardController}
    (h : ∀ m, ∀ c ∈ (vget b.links m).blink, c.remaining = 0 → asks c.placement) :
    BoardController.Refreshed asks b b.expired := (BoardController.foldl_expireBlinks allLinks b h).1

theorem BoardController.expired_blink (b : BoardController) (l : LinkId) :
    (vget b.expired.links l).blink = (vget b.links l).blink.filter (fun c => c.remaining != 0) :=
  ((BoardController.foldl_expireBlinks (asks := fun _ => True) allLinks b (fun _ _ _ _ => trivial)).2.1 l).trans
    (if_pos (mem_allLinks l))

theorem BoardController.expired_covers {b : BoardController} {l : LinkId} {c : BlinkCell}
    (hc : c ∈ (vget b.links l).blink) (hr : c.remaining = 0) : b.expired.Covered c.placement :=
  (BoardController.foldl_expireBlinks (asks := fun _ => True) allLinks b (fun _ _ _ _ => trivial)).2.2 l (mem_allLinks l) c hc hr

/-- What requests for ended cells add, as the claims state it. -/
theorem BoardController.Refreshed.refreshedFor {s t : State} {ends : BlinkCell → Prop} {b : BoardController}
    (h : BoardController.Refreshed (fun p => ∃ c, (∃ m, c ∈ (s.link m).blink) ∧ ends c ∧ c.placement = p) s.bc b)
    (ht : ∀ l, (t.link l).queue = (vget b.links l).queue ∧ (t.link l).stale = (vget b.links l).stale) : RefreshedFor s t ends := by
  intro l asks
  obtain ⟨hq, hs⟩ := ht l
  have hl := h.link l
  obtain ⟨new, hnew, hn, hask⟩ := hl.queue
  rw [hq, hs]
  refine ⟨⟨new, hnew, hn, fun e he => ?_⟩, hl.stale, fun r hr => ?_, hl.silent⟩
  · obtain ⟨hnot, p, q, ⟨c, hm, hc, rfl⟩, hp, hql, rfl⟩ := hask e he
    exact ⟨hnot, c, q, ⟨hm, hc, hp, hql⟩, rfl⟩
  · refine (hl.fresh r hr).imp_right ?_
    rintro ⟨p, q, ⟨c, hm, hc, rfl⟩, hp, hql, rfl⟩
    exact ⟨c, q, ⟨hm, hc, hp, hql⟩, rfl⟩

/-! ### REPAINT (R103) -/

theorem repaint_links (mask : Byte) : ∀ (ls : List LinkId) (v : Vector Link 4), ls.Nodup → ∀ l,
    vget (ls.foldl (fun v l => if mask.getLsbD l.val then vset v l (vget v l).allStale else v) v) l =
      if l ∈ ls ∧ mask.getLsbD l.val = true then (vget v l).allStale else vget v l := by
  intro ls
  induction ls with
  | nil => exact fun v _ l => by simp
  | cons x ls ih =>
    intro v hn l
    obtain ⟨hx, hls⟩ := List.nodup_cons.1 hn
    rw [List.foldl_cons, ih _ hls l]
    by_cases hl : l = x
    · subst hl
      by_cases hm : mask.getLsbD l.val = true <;> simp [hx, hm]
    · by_cases hm : mask.getLsbD x.val = true <;> simp [hl, hm, vget_vset_ne _ _ _ _ (Ne.symm hl)]

theorem BoardController.repaint_link (b : BoardController) (mask : Byte) (l : LinkId) :
    vget (b.repaint mask).links l =
      if mask.getLsbD l.val = true ∧ (vget b.links l).state = .online then
        { vget b.links l with stale := List.range (vget b.links l).rows } else vget b.links l := by
  refine (repaint_links mask allLinks b.links (by decide) l).trans ?_
  by_cases hm : mask.getLsbD l.val = true
  · rw [if_pos ⟨mem_allLinks l, hm⟩, Link.allStale]
    simp only [hm, true_and]
    rfl
  · rw [if_neg (fun h => hm h.2), if_neg (fun h => hm h.1)]

/-- Settles O47: the three rows are `State.blinkExpiry`, `State.sweepExpiry` and `BoardController.repaint`. -/
theorem blinkSweepAndRepaint : Obligations.BlinkSweepAndRepaint := by
  refine ⟨fun s hp => ?_, fun s hp hr hS => ?_, fun s x h => ?_⟩
  · have hx : exec .blinkExpiry s = .next (s.finish s.blinkExpiry) := partEvent_next _ s hp
    have href : BoardController.Refreshed
        (fun p => ∃ c, (∃ m, c ∈ (s.link m).blink) ∧ c.remaining = 0 ∧ c.placement = p) s.bc s.bc.expired :=
      BoardController.expired_refreshed fun m c hc hz => ⟨c, ⟨m, hc⟩, hz, rfl⟩
    have hblink := s.bc.expired_blink
    have hcovers : ∀ l c, c ∈ (s.link l).blink → c.remaining = 0 → s.bc.expired.Covered c.placement :=
      fun l c => BoardController.expired_covers
    rw [State.blinkExpiry_eq] at hx
    generalize s.bc.expired = b at *
    have hs := State.finish_same s { s with bc := b }
    have hbc : (s.finish { s with bc := b }).bc = b := State.finish_bc s _
    have hlink : ∀ l, (s.finish { s with bc := b }).link l = vget b.links l := fun l => by rw [State.link, hbc]
    refine ⟨_, hx, fun l => ?_, fun l c q hc hz hq ho => ?_, href.refreshedFor fun l => ?_, fun l => ?_, ?_⟩
    · rw [hlink]
      exact hblink l
    · rw [hlink]
      exact hcovers l c hc hz q (by rw [href.placements, hq]) ((href.link _).state.trans ho)
    · rw [hlink]
      exact ⟨rfl, rfl⟩
    · rw [hlink]
      exact (href.link l).frame
    · rw [hbc]
      rw [href.frame] at hs ⊢
      exact hs
  · have hx : exec .sweepExpiry s = .next (s.finish s.sweepExpiry) := partEvent_next _ s hp
    have hs := State.finish_same s s.sweepExpiry
    have hbc : (s.finish s.sweepExpiry).bc =
        { s.bc with sweepCount := 0, links := vmap (Link.sweepBegins s.cs.session) s.bc.links } := by
      rw [State.finish_bc, State.sweepExpiry_eq hr hS]
      rfl
    refine ⟨_, hx, fun l => ?_, ?_⟩
    · rw [State.link, hbc]
      exact vget_vmap _ _ _
    · rw [hbc]
      rw [State.sweepExpiry_eq hr hS] at hs ⊢
      exact hs
  · have ho : (withCommandWord s 0x0D x).owner 0x0D x =
        ((withCommandWord s 0x0D x).setBc (s.bc.repaint x)).cmdDone 0x0D := rfl
    obtain ⟨hsame, h8⟩ := done_finish s ((withCommandWord s 0x0D x).setBc (s.bc.repaint x)) 0x0D
    refine ⟨_, congrArg Host.Outcome.next (exec_owner h rfl ho), h8, fun l => ?_, ?_⟩
    · rw [State.link, hsame.bc]
      exact s.bc.repaint_link x l
    · rw [hsame.bc]
      exact hsame

/-! ### ROW requests (R88, R89) -/

/-- What ROW requests for rows that `asks` picks make of a link. -/
structure Link.RowsAsked (b : BoardController) (asks : Nat → Prop) (k k' : Link) : Prop where
  frame : { k' with queue := k.queue, stale := k.stale } = k
  stale : ∀ r ∈ k.stale, r ∈ k'.stale
  fresh : ∀ r ∈ k'.stale, r ∈ k.stale ∨ asks r
  kept : ∀ e ∈ k.queue, (∀ r, asks r → b.isCellOf r e = false) → e ∈ k'.queue
  queue : ∀ e ∈ k'.queue, e ∈ k.queue ∨ ∃ r, e = .row r ∧ asks r
  silent : k.state ≠ .online → k' = k

namespace Link.RowsAsked

variable {b : BoardController} {asks : Nat → Prop} {k k' k'' : Link}

theorem refl (k : Link) : RowsAsked b asks k k where
  frame := rfl
  stale := fun _ h => h
  fresh := fun _ h => .inl h
  kept := fun _ h _ => h
  queue := fun _ h => .inl h
  silent := fun _ => rfl

theorem trans (h : RowsAsked b asks k k') (h' : RowsAsked b asks k' k'') : RowsAsked b asks k k'' where
  frame := by
    have e := h.frame
    rw [← h'.frame] at e
    exact e
  stale := fun r hr => h'.stale r (h.stale r hr)
  fresh := fun r hr => (h'.fresh r hr).elim (h.fresh r) .inr
  kept := fun e he hc => h'.kept e (h.kept e he hc) hc
  queue := fun e he => (h'.queue e he).elim (h.queue e) .inr
  silent := fun ho => by
    have e := h.silent ho
    rw [h'.silent (e ▸ ho), e]

/-- A row that is owed stays so. -/
theorem owed (h : RowsAsked b asks k k') {r : Nat} (ho : k.owed r = true) : k'.owed r = true := by
  rw [Link.owed_iff] at ho ⊢
  exact ho.imp (h.stale r) (fun hr => h.kept _ hr fun _ _ => rfl)

end Link.RowsAsked

theorem rowRequestOn_dropped {b : BoardController} {k : Link} {r : Nat}
    (h : k.state ≠ .online ∨ r ∈ k.stale ∨ RefreshEntry.row r ∈ k.queue) : b.rowRequestOn k r = k := by
  unfold BoardController.rowRequestOn
  by_cases ho : k.state = .online
  · rw [if_neg (not_not.2 ho)]
    exact if_pos ((Link.owed_iff _ _).2 (h.resolve_left (not_not.2 ho)))
  · exact if_pos ho

theorem rowRequestOn_taken {b : BoardController} {k : Link} {r : Nat} (ho : k.state = .online) (hs : r ∉ k.stale)
    (hr : RefreshEntry.row r ∉ k.queue) :
    b.rowRequestOn k r =
      if k.queue.any (b.isCellOf r) then { k with queue := placeRow (b.isCellOf r) r k.queue }
      else if k.queue.length < 32 then { k with queue := k.queue ++ [.row r] }
      else { k with stale := join r k.stale } := by
  have howed : ¬ k.owed r = true := fun h => ((Link.owed_iff _ _).1 h).elim hs hr
  unfold BoardController.rowRequestOn
  rw [if_neg (not_not.2 ho), if_neg howed]

/-- The row takes the place of the first entry that the test accepts, the others leaving. -/
theorem placeRow_split {f : RefreshEntry → Bool} {r : Nat} {x : RefreshEntry} (hx : f x = true) (later : List RefreshEntry) :
    ∀ earlier : List RefreshEntry, (∀ e ∈ earlier, f e = false) →
      placeRow f r (earlier ++ x :: later) = earlier ++ .row r :: later.filter (fun e => !f e) := by
  intro earlier
  induction earlier with
  | nil => exact fun _ => by simp [placeRow, hx]
  | cons y ys ih =>
    intro h
    have hy := h y (List.mem_cons_self ..)
    simp [placeRow, hy, ih (fun e he => h e (List.mem_cons_of_mem _ he))]

/-- An entry that the test does not accept stays. -/
theorem mem_placeRow_of_mem {f : RefreshEntry → Bool} {r : Nat} {es : List RefreshEntry} {e : RefreshEntry} (h : e ∈ es)
    (hf : f e = false) : e ∈ placeRow f r es := by
  induction es with
  | nil => cases h
  | cons x xs ih =>
    rw [placeRow]
    obtain rfl | h := List.mem_cons.1 h
    · rw [if_neg (by rw [hf]; rintro ⟨⟩)]
      exact List.mem_cons_self ..
    · split
      · exact List.mem_cons_of_mem _ (List.mem_filter.2 ⟨h, by rw [hf]; rfl⟩)
      · exact List.mem_cons_of_mem _ (ih h)

theorem row_mem_placeRow {f : RefreshEntry → Bool} {r : Nat} {es : List RefreshEntry} (h : es.any f = true) :
    RefreshEntry.row r ∈ placeRow f r es := by
  induction es with
  | nil => cases h
  | cons x xs ih =>
    rw [placeRow]
    split
    · exact List.mem_cons_self ..
    · rename_i hx
      rw [List.any_cons, Bool.or_eq_true] at h
      exact List.mem_cons_of_mem _ (ih (h.resolve_left hx))

theorem Link.RowsAsked.rowRequestOn {asks : Nat → Prop} {r : Nat} (ha : asks r) (b : BoardController) (k : Link) :
    Link.RowsAsked b asks k (b.rowRequestOn k r) := by
  by_cases h : k.state ≠ .online ∨ r ∈ k.stale ∨ RefreshEntry.row r ∈ k.queue
  · rw [rowRequestOn_dropped h]
    exact .refl k
  simp only [not_or, not_not] at h
  obtain ⟨ho, hs, hr⟩ := h
  rw [rowRequestOn_taken ho hs hr]
  split
  · exact {
      frame := rfl
      stale := fun _ h => h
      fresh := fun _ h => .inl h
      kept := fun e he hc => mem_placeRow_of_mem he (hc r ha)
      queue := fun e he => (Link.Kept.mem_placeRow he).elim (fun e => .inr ⟨r, e, ha⟩) (fun h => .inl h.1)
      silent := fun h => absurd ho h }
  split
  · exact {
      frame := rfl
      stale := fun _ h => h
      fresh := fun _ h => .inl h
      kept := fun e he _ => List.mem_append_left _ he
      queue := fun e he => (List.mem_append.1 he).imp_right fun he => ⟨r, List.mem_singleton.1 he, ha⟩
      silent := fun h => absurd ho h }
  · exact {
      frame := rfl
      stale := fun x hx => (mem_join _ _ _).2 (.inr hx)
      fresh := fun x hx => ((mem_join _ _ _).1 hx).elim (fun e => .inr (e ▸ ha)) .inl
      kept := fun e he _ => he
      queue := fun e he => .inl he
      silent := fun h => absurd ho h }

/-- A ROW request on an ONLINE link leaves the row owed. -/
theorem rowRequestOn_owes (b : BoardController) {k : Link} (r : Nat) (ho : k.state = .online) :
    (b.rowRequestOn k r).owed r = true := by
  rw [Link.owed_iff]
  by_cases h : r ∈ k.stale ∨ RefreshEntry.row r ∈ k.queue
  · rw [rowRequestOn_dropped (.inr h)]
    exact h
  simp only [not_or] at h
  rw [rowRequestOn_taken ho h.1 h.2]
  split
  · rename_i hc
    exact .inr (row_mem_placeRow hc)
  split
  · exact .inr (by simp)
  · exact .inl ((mem_join _ _ _).2 (.inl rfl))

theorem Link.RowsAsked.foldl {asks : Nat → Prop} (b : BoardController) :
    ∀ (rows : List Nat) (k : Link), (∀ r ∈ rows, asks r) → Link.RowsAsked b asks k (rows.foldl b.rowRequestOn k) := by
  intro rows
  induction rows with
  | nil => exact fun k _ => .refl k
  | cons r rows ih =>
    intro k h
    exact (Link.RowsAsked.rowRequestOn (h r (List.mem_cons_self ..)) b k).trans (ih _ fun x hx => h x (List.mem_cons_of_mem _ hx))

theorem Link.RowsAsked.state {b : BoardController} {asks : Nat → Prop} {k k' : Link} (h : Link.RowsAsked b asks k k') :
    k'.state = k.state := by
  have e := congrArg Link.state h.frame
  exact e

theorem foldl_rowRequestOn_owes (b : BoardController) {r : Nat} {rows : List Nat} (h : r ∈ rows) {k : Link} (ho : k.state = .online) :
    (rows.foldl b.rowRequestOn k).owed r = true := by
  induction rows generalizing k with
  | nil => cases h
  | cons x rows ih =>
    rw [List.foldl_cons]
    obtain rfl | h := List.mem_cons.1 h
    · exact (Link.RowsAsked.foldl (asks := fun _ => True) b rows _ fun _ _ => trivial).owed (rowRequestOn_owes b r ho)
    · have hx := Link.RowsAsked.rowRequestOn (asks := fun _ => True) (r := x) trivial b k
      exact ih h (hx.state.trans ho)

/-! ### A text write (R73) -/

/-- The rows of a link that show the line. -/
def Link.rowsShowing (k : Link) (w : Fin 8) (n : Nat) : List Nat :=
  (k.rowMap.zipIdx.filter (fun e => showsLine w n e.1)).map (·.2)

theorem Link.mem_rowsShowing (k : Link) (w : Fin 8) (n r : Nat) : r ∈ k.rowsShowing w n ↔ k.rowMap[r]? = some (.text w n) := by
  simp only [Link.rowsShowing, List.mem_map, List.mem_filter, showsLine, decide_eq_true_eq]
  constructor
  · rintro ⟨⟨kind, i⟩, ⟨hm, hk⟩, rfl⟩
    obtain rfl : kind = _ := hk
    exact List.mem_zipIdx_iff_getElem?.1 hm
  · intro h
    exact ⟨(.text w n, r), ⟨List.mem_zipIdx_iff_getElem?.2 h, rfl⟩, rfl⟩

/-- ROW requests look at the placements alone. -/
theorem rowRequestOn_congr {b c : BoardController} (h : c.placements = b.placements) : c.rowRequestOn = b.rowRequestOn := by
  have hf : ∀ r, c.isCellOf r = b.isCellOf r := fun r => by
    funext e
    cases e <;> simp [BoardController.isCellOf, BoardController.rowOf, h]
  funext k r
  simp only [BoardController.rowRequestOn, hf]

theorem foldl_textWriteOn (w : Fin 8) (n : Nat) : ∀ (ls : List LinkId) (b : BoardController), ls.Nodup →
    ls.foldl (BoardController.textWriteOn w n) b = { b with links := (ls.foldl (BoardController.textWriteOn w n) b).links } ∧
    ∀ l, vget (ls.foldl (BoardController.textWriteOn w n) b).links l =
      if l ∈ ls then ((vget b.links l).rowsShowing w n).foldl b.rowRequestOn (vget b.links l) else vget b.links l := by
  intro ls
  induction ls with
  | nil => exact fun b _ => ⟨rfl, fun l => by simp⟩
  | cons x ls ih =>
    intro b h
    obtain ⟨hx, hls⟩ := List.nodup_cons.1 h
    obtain ⟨hf, hl⟩ := ih (b.textWriteOn w n x) hls
    refine ⟨hf, fun l => ?_⟩
    have hset : vget (b.textWriteOn w n x).links l =
        if x = l then ((vget b.links x).rowsShowing w n).foldl b.rowRequestOn (vget b.links x) else vget b.links l :=
      vget_vset _ _ _ _
    have hcongr : (b.textWriteOn w n x).rowRequestOn = b.rowRequestOn := rowRequestOn_congr rfl
    rw [List.foldl_cons, hl l, hcongr, hset]
    by_cases hxl : x = l
    · subst hxl
      simp [hx]
    · simp [hxl, Ne.symm hxl]

theorem BoardController.textWrite_link (b : BoardController) (w : Fin 8) (n : Nat) (l : LinkId) :
    vget (b.textWrite w n).links l = ((vget b.links l).rowsShowing w n).foldl b.rowRequestOn (vget b.links l) :=
  ((foldl_textWriteOn w n allLinks b (by decide)).2 l).trans (if_pos (mem_allLinks l))

theorem BoardController.textWrite_frame (b : BoardController) (w : Fin 8) (n : Nat) :
    b.textWrite w n = { b with links := (b.textWrite w n).links } := (foldl_textWriteOn w n allLinks b (by decide)).1

/-- The part after a text write. -/
theorem exec_textWrite {s : State} {a : Addr} {d : Word} {lanes : Lanes} {w : Fin 8} {line : Nat} (hp : PortFree s)
    (ht : target s a = .text w line) :
    (let t := s.finish ((s.setMem (s.mem.writeWord a.toNat d lanes)).setBc (s.bc.textWrite w line)).freePort
     exec (.textWrite a d lanes) s = .next t ∧ t.bc = s.bc.textWrite w line ∧
      SameButMarks { s with
        mem := s.mem.writeWord a.toNat d lanes
        bc := { s.bc with links := (s.bc.textWrite w line).links } } t) := by
  have hx := exec_write (c := .textWrite a d lanes) rfl (by rintro _ ⟨⟩) hp
  have hw : sideWordAt s a = none := by simp [sideWordAt, ht]
  rw [State.performAccess_write s a d lanes hw, State.handWrite_text ht] at hx
  rw [← BoardController.textWrite_frame]
  exact ⟨hx, State.finish_bc _ _, State.finish_freePort_sameAs s (SameButMarks.refl _)⟩

/-- Settles O46: on each link the requests of `Link.rowsShowing`, ascending. -/
theorem textWriteOwesRows : Obligations.TextWriteOwesRows := by
  constructor
  · intro s a d lanes w line hp ht
    obtain ⟨hx, hbc, hs⟩ := exec_textWrite (d := d) (lanes := lanes) hp ht
    generalize s.finish _ = t at hx hbc hs
    have hlink : ∀ l, t.link l = ((s.link l).rowsShowing w line).foldl s.bc.rowRequestOn (s.link l) := fun l => by
      rw [State.link, hbc]
      exact s.bc.textWrite_link w line l
    have hasked : ∀ l, Link.RowsAsked s.bc (fun r => (s.link l).rowMap[r]? = some (RowKind.text w line)) (s.link l) (t.link l) :=
      fun l => by
        rw [hlink]
        exact .foldl _ _ _ fun r hr => (Link.mem_rowsShowing _ _ _ _).1 hr
    refine ⟨t, hx, fun l => ⟨_, zipIdx_filter_sorted _ _, fun r => Link.mem_rowsShowing _ _ _ _, hlink l⟩, fun l r ho hr => ?_,
      fun l h => ?_, fun l => (hasked l).stale, fun l => (hasked l).fresh, fun l => (hasked l).kept, fun l => (hasked l).queue,
      fun l => (hasked l).frame, ?_⟩
    · rw [hlink]
      exact foldl_rowRequestOn_owes _ ((Link.mem_rowsShowing _ _ _ _).2 hr) ho
    · obtain h | h := h
      · exact (hasked l).silent h
      · have hnil : (s.link l).rowsShowing w line = [] :=
          List.eq_nil_iff_forall_not_mem.2 fun r hr => h r ((Link.mem_rowsShowing _ _ _ _).1 hr)
        rw [hlink, hnil]
        rfl
    · rw [hbc]
      exact hs
  · intro b k r
    refine ⟨rowRequestOn_dropped, fun ho hs hr => ?_⟩
    have htaken := rowRequestOn_taken (b := b) ho hs hr
    have hnone : (∀ e ∈ k.queue, b.isCellOf r e = false) → ¬ k.queue.any (b.isCellOf r) = true := fun h ha => by
      obtain ⟨e, he, hc⟩ := List.any_eq_true.1 ha
      rw [h e he] at hc
      cases hc
    refine ⟨fun earlier p q later hk hq hrow he => ?_, fun h hl => ?_, fun h hl => ?_⟩
    · have hcell : b.isCellOf r (.cell p) = true := by simp [BoardController.isCellOf, BoardController.rowOf, hq, hrow]
      have hfilter : later.filter (fun e => decide (b.isCellOf r e = false)) = later.filter (fun e => !b.isCellOf r e) :=
        List.filter_congr fun e _ => by cases b.isCellOf r e <;> rfl
      rw [htaken, if_pos (List.any_eq_true.2 ⟨_, by rw [hk]; simp, hcell⟩), hk, placeRow_split hcell later earlier he, hfilter]
    · exact htaken.trans ((if_neg (hnone h)).trans (if_pos hl))
    · exact ⟨_, fun x => mem_join _ _ _, htaken.trans ((if_neg (hnone h)).trans (if_neg (Nat.not_lt.2 hl)))⟩

end Sys2Proof.Machine
end

