-- ==== Sys2Proof/Proofs/BaseStep.lean ====
section
/-!
PROOFS. The base step: the advance of the trim, the blink times it lowers, and the second's and minute's work it takes (R80, R129, R130,
R131).
-/

namespace Sys2Proof.Machine

-- Elaborated one after the other, the proofs hold less memory at once.
set_option Elab.async false

/-! ### The advance (R129, R130) -/

/-- The tenths a base step advances the clock by. -/
def ClockSession.advance (c : ClockSession) : Nat :=
  if c.trimAccumulator + c.trimMagnitude < 1048576 then 1 else if c.trimNegative then 0 else 2

theorem ClockSession.trimStep_eq (c : ClockSession) :
    c.trimStep = (c.advance, if c.trimAccumulator + c.trimMagnitude < 1048576 then c.trimAccumulator + c.trimMagnitude
      else c.trimAccumulator + c.trimMagnitude - 1048576) := by
  unfold ClockSession.trimStep ClockSession.advance
  by_cases h : 1048576 ≤ c.trimAccumulator + c.trimMagnitude
  · simp [h, Nat.not_lt.2 h]
  · simp [h, Nat.not_le.1 h]

theorem ClockSession.advance_le (c : ClockSession) : c.advance ≤ 2 := by
  unfold ClockSession.advance
  split_ifs <;> omega

theorem advanceBy_eq {clock k : Nat} (hc : clock < 864000) (hk : k ≤ 2) : advanceBy clock k = (clock + k) % 864000 := by
  unfold advanceBy
  split
  · rename_i h
    rw [Nat.mod_eq_sub_mod h, Nat.mod_eq_of_lt (by omega)]
  · rename_i h
    exact (Nat.mod_eq_of_lt (Nat.lt_of_not_le h)).symm

/-! ### The clock and the blink times after the step -/

/-- The clock unit after the advance. -/
def State.clockAdvanced (s : State) : ClockSession :=
  { s.cs with
    clock := advanceBy s.cs.clock s.cs.trimStep.1, trimAccumulator := s.cs.trimStep.2
    secondTaken := decide (s.cs.clock / 10 ≠ advanceBy s.cs.clock s.cs.trimStep.1 / 10) }

/-- The boards after the advance, the blink times lowered and the ended cells out. -/
def State.boardsAdvanced (s : State) : BoardController :=
  if s.cs.trimStep.1 = 0 then s.bc else (s.bc.lowerBlinks s.cs.trimStep.1).expired

/-- The part after the advance, before the work of a second and a minute. -/
def State.advanced (s : State) : State := { s with cs := s.clockAdvanced, bc := s.boardsAdvanced }

/-- The work of a second that the step passes. -/
def State.secondWork (s : State) : State := if s.clockAdvanced.secondTaken then s.advanced.wholeSecond else s.advanced

/-- The work of a minute that the step passes. -/
def State.minuteWork (s : State) : State :=
  if s.cs.clock / 600 ≠ s.clockAdvanced.clock / 600 then s.secondWork.wholeMinute else s.secondWork

/-- A base step is the advance, then the work of the second and of the minute that it passes. -/
theorem State.baseStep_eq {s : State} (hc : s.cs.clock < 864000) : s.baseStep = s.minuteWork := by
  unfold State.baseStep State.minuteWork State.secondWork State.advanced State.boardsAdvanced
  by_cases hk : s.cs.trimStep.1 = 0
  · have hcl : s.clockAdvanced.clock = s.cs.clock := by
      show advanceBy s.cs.clock s.cs.trimStep.1 = _
      rw [hk]
      exact if_neg (Nat.not_le.2 hc)
    have hsec : s.clockAdvanced.secondTaken = false := by
      show decide (s.cs.clock / 10 ≠ s.clockAdvanced.clock / 10) = false
      rw [hcl]
      simp
    rw [if_pos hk, if_pos hk, hcl, hsec]
    simp only [ne_eq, not_true_eq_false, if_false]
    rfl
  · rw [if_neg hk, if_neg hk, State.blinkExpiry_eq]
    simp only [State.clockAdvanced, decide_eq_true_eq]
    rfl

/-! ### What the advance makes of the boards -/

/-- Lowering the blink times asks for nothing. -/
theorem BoardController.Refreshed.lowerBlinks {asks : Nat → Prop} (b : BoardController) (k : Nat) :
    BoardController.Refreshed asks b (b.lowerBlinks k) where
  frame := rfl
  link := fun l => by
    show Link.Refreshed _ _ _ _ (vget (vmap (Link.lowerBlinks k) b.links) l)
    rw [vget_vmap]
    exact .of_same rfl rfl rfl

theorem BoardController.lowerBlinks_blink (b : BoardController) (k : Nat) (l : LinkId) :
    (vget (b.lowerBlinks k).links l).blink = (vget b.links l).blink.map (BlinkCell.lower k) := by
  show (vget (vmap (Link.lowerBlinks k) b.links) l).blink = _
  rw [vget_vmap]
  rfl

/-- The advance of the boards: requests for the cells whose time is up. -/
theorem BoardController.advanced_refreshed (b : BoardController) (k : Nat) :
    BoardController.Refreshed (fun p => ∃ c, (∃ m, c ∈ (vget b.links m).blink) ∧ c.remaining ≤ k ∧ c.placement = p) b
      (b.lowerBlinks k).expired := by
  refine (BoardController.Refreshed.lowerBlinks b k).trans (BoardController.expired_refreshed fun m c hc hr => ?_)
  rw [BoardController.lowerBlinks_blink] at hc
  obtain ⟨c', hc', rfl⟩ := List.mem_map.1 hc
  exact ⟨c', ⟨m, hc'⟩, Nat.sub_eq_zero_iff_le.1 hr, rfl⟩

theorem BoardController.advanced_blink (b : BoardController) (k : Nat) (l : LinkId) :
    (vget (b.lowerBlinks k).expired.links l).blink =
      ((vget b.links l).blink.map (BlinkCell.lower k)).filter (fun c => c.remaining != 0) := by
  rw [BoardController.expired_blink, BoardController.lowerBlinks_blink]

theorem BoardController.advanced_covers {b : BoardController} {k : Nat} {l : LinkId} {c : BlinkCell} (hc : c ∈ (vget b.links l).blink)
    (hr : c.remaining ≤ k) : (b.lowerBlinks k).expired.Covered c.placement := by
  refine BoardController.expired_covers (l := l) (c := c.lower k) ?_ (Nat.sub_eq_zero_of_le hr)
  rw [BoardController.lowerBlinks_blink]
  exact List.mem_map_of_mem hc

theorem State.boardsAdvanced_refreshed (s : State) :
    BoardController.Refreshed (fun p => ∃ c, (∃ m, c ∈ (s.link m).blink) ∧ c.remaining ≤ s.cs.trimStep.1 ∧ c.placement = p) s.bc
      s.boardsAdvanced := by
  unfold State.boardsAdvanced
  split
  · exact .refl _
  · exact s.bc.advanced_refreshed _

theorem State.advanced_bc (s : State) : s.advanced.bc = { s.bc with links := s.advanced.bc.links } :=
  s.boardsAdvanced_refreshed.frame

theorem State.advanced_link (s : State) (l : LinkId) :
    { s.advanced.link l with queue := (s.link l).queue, stale := (s.link l).stale, blink := (s.link l).blink } = s.link l :=
  (s.boardsAdvanced_refreshed.link l).frame

/-! ### What the second's work makes of the advanced part -/

/-- The part after the second's work: what may differ from before the step. -/
structure Worked (s v : State) : Prop where
  bc : v.bc = { s.bc with links := v.bc.links, sweepCount := v.bc.sweepCount }
  link : ∀ l, { v.link l with pass := (s.advanced.link l).pass } = s.advanced.link l
  tc : v.tc = { s.tc with reserved := v.tc.reserved }
  cs : v.cs = { s.clockAdvanced with feedStale := v.cs.feedStale, feedCount := v.cs.feedCount }
  same : SameButMarks { s with bc := v.bc, tc := v.tc, cs := v.cs, pt := v.pt, cr := { s.cr with flags := v.cr.flags } } v

theorem worked_advanced (s : State) : Worked s s.advanced where
  bc := by
    have h := s.advanced_bc
    generalize s.advanced.bc = b at *
    rw [h]
  link := fun _ => rfl
  tc := rfl
  cs := rfl
  same := SameButMarks.refl _

theorem worked_wholeSecond (s : State) : Worked s s.advanced.wholeSecond := by
  have h := takesSecond_wholeSecond s.advanced
  have hb := h.bc_frame
  have ha := s.advanced_bc
  generalize hv : s.advanced.wholeSecond = v at *
  refine { bc := ?_, link := h.link_frame, tc := h.tc_frame, cs := h.cs_frame, same := h.frame }
  rw [ha] at hb
  exact hb

theorem State.worked (s : State) : Worked s s.secondWork := by
  unfold State.secondWork
  split
  · exact worked_wholeSecond s
  · exact worked_advanced s

theorem sweepDue_advanced (s : State) : SweepDue s.advanced ↔ SweepDue s := by
  have h := s.advanced_bc
  have hr : s.advanced.isReady = s.isReady := rfl
  rw [SweepDue, SweepDue, h, hr]

/-- The second's work, told from before the step. -/
theorem TakesSecond.secondTaken_of_advanced {s v t : State} (h : TakesSecond s.advanced v) (hbc : t.bc = v.bc) (htc : t.tc = v.tc)
    (hcs : t.cs = v.cs) (hfl : t.cr.flags = v.cr.flags) (hd : AllDirty [15, 16] t) (h6 : FeedDue s → 6 ∈ t.cr.dirty) :
    SecondTaken s t := by
  obtain ⟨h1, h2⟩ := h.sweep
  obtain ⟨h3, h4⟩ := h.feed
  have hlink : ∀ l, t.link l = v.link l := fun l => by rw [State.link, hbc]; rfl
  have hstate : ∀ l, (s.advanced.link l).state = (s.link l).state := fun l => (congrArg Link.state (s.advanced_link l) :)
  have hpass : ∀ l, (s.advanced.link l).pass = (s.link l).pass := fun l => (congrArg Link.pass (s.advanced_link l) :)
  have hsw := sweepDue_advanced s
  have hcount : s.advanced.bc.sweepCount = s.bc.sweepCount ∧ s.advanced.bc.sweepSeconds = s.bc.sweepSeconds := by
    rw [s.advanced_bc]
    exact ⟨rfl, rfl⟩
  rw [hsw] at h1 h2
  simp only [hstate, hpass, hcount] at h1 h2
  simp only [SecondTaken, hlink, hbc, hcs, htc, hfl]
  refine ⟨hd, h1, h2, fun hdue => ?_, h4⟩
  obtain ⟨e1, e2, e3, e4⟩ := h3 hdue
  exact ⟨e1, e2, e3, e4, h6 hdue⟩

/-- Without a second the counts, the passes and the feed stand. -/
theorem noSecond_of_advanced {s t : State} (hbc : t.bc = s.advanced.bc) (htc : t.tc = s.tc) (hcs : t.cs = s.clockAdvanced)
    (hfl : t.cr.flags = s.cr.flags) : NoSecond s t := by
  have hpass : ∀ l, (t.link l).pass = (s.link l).pass := fun l => by
    rw [State.link, hbc]
    exact (congrArg Link.pass (s.advanced_link l) :)
  refine ⟨?_, hpass, by rw [hcs]; rfl, by rw [hcs]; rfl, hfl, by rw [htc]⟩
  rw [hbc, s.advanced_bc]

/-! ### The whole step -/

theorem State.wholeMinute_eq (s : State) : s.wholeMinute = { s with pt := if s.isReady then s.pt.markStatusLines else s.pt } := by
  unfold State.wholeMinute
  split <;> rfl

/-- A mark made twice is made once. -/
theorem join_join (n : Nat) (l : List Nat) : join n (join n l) = join n l := by
  unfold join
  induction l with
  | nil => simp [insertBy]
  | cons y ys ih =>
    rw [insertBy]
    split_ifs with h1 h2
    · simp [insertBy]
    · simp only [insertBy, if_neg h1, if_pos h2]
    · simp only [insertBy, if_neg h1, if_neg h2, ih]

theorem TerminalController.markStatusLines_twice (p : TerminalController) : p.markStatusLines.markStatusLines = p.markStatusLines := by
  refine congrArg (fun v => ({ p with terminals := v } : TerminalController)) (vget_ext fun u => ?_)
  simp only [TerminalController.markStatusLines, vget_vmap, Terminal.mark, join_join]

/-- The step passes a whole second. -/
abbrev State.PassesSecond (s : State) : Prop := s.cs.clock / 10 ≠ s.clockAdvanced.clock / 10

/-- The step passes a whole minute. -/
abbrev State.PassesMinute (s : State) : Prop := s.cs.clock / 600 ≠ s.clockAdvanced.clock / 600

theorem State.secondTaken_iff (s : State) : s.clockAdvanced.secondTaken = true ↔ s.PassesSecond := decide_eq_true_iff

theorem State.secondWork_passes {s : State} (h : s.PassesSecond) : s.secondWork = s.advanced.wholeSecond :=
  if_pos (s.secondTaken_iff.2 h)

theorem State.secondWork_idle {s : State} (h : ¬ s.PassesSecond) : s.secondWork = s.advanced :=
  if_neg fun hs => h (s.secondTaken_iff.1 hs)

/-- The minute's work marks the status lines alone. -/
theorem State.minuteWork_frame (s : State) : s.minuteWork = { s.secondWork with pt := s.minuteWork.pt } := by
  unfold State.minuteWork
  split
  · rw [State.wholeMinute_eq]
  · rfl

/-- The status lines are marked by a minute while READY and by a feed that goes STALE, and by nothing else. -/
theorem State.minuteWork_pt (s : State) :
    (s.PassesMinute ∧ s.isReady = true ∨ s.PassesSecond ∧ FeedDue s → s.minuteWork.pt = s.pt.markStatusLines) ∧
    (¬ (s.PassesMinute ∧ s.isReady = true) → ¬ (s.PassesSecond ∧ FeedDue s) → s.minuteWork.pt = s.pt) := by
  have hready : s.secondWork.isReady = s.isReady := by
    have h := s.worked.same.cr
    unfold State.isReady
    rw [h]
  have hmin : s.minuteWork.pt = if s.PassesMinute ∧ s.isReady = true then s.secondWork.pt.markStatusLines else s.secondWork.pt := by
    unfold State.minuteWork
    by_cases hm : s.PassesMinute
    · rw [if_pos hm, State.wholeMinute_eq, hready]
      exact if_congr ⟨fun h => ⟨hm, h⟩, And.right⟩ rfl rfl
    · rw [if_neg hm, if_neg fun h => hm h.1]
  have hpt : s.secondWork.pt = s.pt.markStatusLines ∧ (s.PassesSecond ∧ FeedDue s) ∨
      s.secondWork.pt = s.pt ∧ ¬ (s.PassesSecond ∧ FeedDue s) := by
    by_cases hs : s.PassesSecond
    · have h := takesSecond_wholeSecond s.advanced
      rw [State.secondWork_passes hs]
      by_cases hd : FeedDue s
      · exact .inl ⟨(h.due hd).2.2.1, hs, hd⟩
      · exact .inr ⟨(h.notDue hd).2.1, fun hc => hd hc.2⟩
    · rw [State.secondWork_idle hs]
      exact .inr ⟨rfl, fun hc => hs hc.1⟩
  rw [hmin]
  obtain ⟨hpt, hd⟩ | ⟨hpt, hd⟩ := hpt
  · rw [hpt, TerminalController.markStatusLines_twice, ite_self]
    exact ⟨fun _ => rfl, fun _ h => absurd hd h⟩
  · rw [hpt]
    exact ⟨fun h => if_pos (h.resolve_right hd), fun h _ => if_neg h⟩

/-- The parts of the step's end that its statement names. -/
theorem State.baseStep_fields {s t : State} (h : t = s.finish s.minuteWork) :
    t.bc = s.secondWork.bc ∧ t.tc = s.secondWork.tc ∧ t.cs = s.secondWork.cs ∧ t.pt = s.minuteWork.pt ∧
      t.cr.flags = s.secondWork.cr.flags := by
  have hf := s.minuteWork_frame
  have hbc := State.finish_bc s s.minuteWork
  have htc := State.finish_tc s s.minuteWork
  have hcs := State.finish_cs s s.minuteWork
  have hfl := State.finish_flags s s.minuteWork
  have hpt := State.finish_pt s s.minuteWork
  rw [← h] at hbc htc hcs hfl hpt
  refine ⟨?_, ?_, ?_, hpt, ?_⟩
  · rw [hbc, hf]
  · rw [htc, hf]
  · rw [hcs, hf]
  · rw [hfl, hf]

theorem State.baseStep_same {s t : State} (h : t = s.finish s.minuteWork) :
    SameButMarks { s with
      bc := { s.bc with links := t.bc.links, sweepCount := t.bc.sweepCount }
      tc := { s.tc with reserved := t.tc.reserved }
      cs := { s.cs with
        clock := t.cs.clock, trimAccumulator := t.cs.trimAccumulator, secondTaken := t.cs.secondTaken
        feedStale := t.cs.feedStale, feedCount := t.cs.feedCount }
      pt := t.pt
      cr := { s.cr with flags := t.cr.flags } } t := by
  obtain ⟨hbc, htc, hcs, hpt, hfl⟩ := State.baseStep_fields h
  have hw := s.worked
  have hs : SameButMarks s.minuteWork t := h ▸ State.finish_same s s.minuteWork
  have hv : SameButMarks { s with
      bc := s.secondWork.bc, tc := s.secondWork.tc, cs := s.secondWork.cs, pt := s.minuteWork.pt
      cr := { s.cr with flags := s.secondWork.cr.flags } } s.minuteWork := by
    have hsame := hw.same
    have hf := s.minuteWork_frame
    generalize s.minuteWork = w at *
    generalize s.secondWork = v at *
    unfold SameButMarks at hsame ⊢
    rw [hf]
    rw [hsame]
  have hall := hv.trans hs
  have h1 := hw.bc
  have h2 := hw.tc
  have h3 := hw.cs
  rw [hbc, htc, hcs, hpt, hfl]
  generalize s.secondWork = v at *
  rw [h1, h2, h3] at hall
  rw [h3]
  exact hall

/-- What the step leaves of the links but for their passes. -/
theorem State.baseStep_link {s t : State} (h : t = s.finish s.minuteWork) (l : LinkId) :
    { t.link l with pass := (s.advanced.link l).pass } = s.advanced.link l := by
  rw [State.link, (State.baseStep_fields h).1]
  exact s.worked.link l

theorem State.baseStep_second {s t : State} (h : t = s.finish s.minuteWork) :
    (s.PassesSecond → SecondTaken s t) ∧ (¬ s.PassesSecond → NoSecond s t) := by
  obtain ⟨hbc, htc, hcs, hpt, hfl⟩ := State.baseStep_fields h
  refine ⟨fun hp => ?_, fun hp => ?_⟩
  · have hv := takesSecond_wholeSecond s.advanced
    have hd := hv.dirty
    rw [← State.secondWork_passes hp] at hv hd
    have hcr : s.minuteWork.cr = s.secondWork.cr := by rw [s.minuteWork_frame]
    refine hv.secondTaken_of_advanced hbc htc hcs hfl (fun o ho => ?_) fun hdue => ?_
    · rw [h]
      exact State.mem_finish_of_mem (by rw [hcr]; exact hd o ho)
    · rw [h]
      refine State.mem_finish_of_ne (by decide) (partStatus_ne_of_feed ?_)
      have hcs' : s.minuteWork.cs = s.secondWork.cs := by rw [s.minuteWork_frame]
      rw [hcs', (hv.feed.1 hdue).1, hdue.1.2.2.2]
      rintro ⟨⟩
  · rw [State.secondWork_idle hp] at hbc htc hcs hfl
    exact noSecond_of_advanced hbc htc hcs hfl

/-- A step that does not advance the clock passes no second and no minute. -/
theorem State.advance_zero {s : State} (hc : s.cs.clock < 864000) (hk : s.cs.trimStep.1 = 0) :
    ¬ s.PassesSecond ∧ ¬ s.PassesMinute := by
  have hcl : s.clockAdvanced.clock = s.cs.clock := by
    show advanceBy s.cs.clock s.cs.trimStep.1 = _
    rw [hk]
    exact if_neg (Nat.not_le.2 hc)
  exact ⟨fun h => h (by rw [hcl]), fun h => h (by rw [hcl])⟩

theorem State.advanced_link_blink {s : State} (hk : s.cs.trimStep.1 ≠ 0) (l : LinkId) :
    (s.advanced.link l).blink =
      ((s.link l).blink.map (BlinkCell.lower s.cs.trimStep.1)).filter (fun c => c.remaining != 0) := by
  have hb : s.advanced.bc = (s.bc.lowerBlinks s.cs.trimStep.1).expired := if_neg hk
  rw [State.link, hb]
  exact s.bc.advanced_blink _ l

theorem State.advanced_covers {s : State} (hk : s.cs.trimStep.1 ≠ 0) {l : LinkId} {c : BlinkCell} (hc : c ∈ (s.link l).blink)
    (hr : c.remaining ≤ s.cs.trimStep.1) : s.advanced.bc.Covered c.placement := by
  have hb : s.advanced.bc = (s.bc.lowerBlinks s.cs.trimStep.1).expired := if_neg hk
  rw [hb]
  exact BoardController.advanced_covers hc hr

/-- Settles O38: the step is `State.minuteWork`; what the advance asks of the boards is `State.boardsAdvanced_refreshed`. -/
theorem baseStepAdvancesClock : Obligations.BaseStepAdvancesClock := by
  intro s hp hr
  obtain ⟨hclock, -, -⟩ := hr
  have hx : exec .baseStep s = .next (s.finish s.baseStep) := partEvent_next _ s hp
  rw [State.baseStep_eq hclock] at hx
  generalize ht : s.finish s.minuteWork = t at hx
  have ht := ht.symm
  refine ⟨t, hx, ?_⟩
  intro sum k second minute
  obtain ⟨hbc, htc, hcs, hpt, hfl⟩ := State.baseStep_fields ht
  have hstep := s.cs.trimStep_eq
  have hk : s.cs.trimStep.1 = k := congrArg Prod.fst hstep
  have hcs' : t.cs = { s.clockAdvanced with feedStale := t.cs.feedStale, feedCount := t.cs.feedCount } := by
    have h3 := s.worked.cs
    rw [← hcs] at h3
    exact h3
  have hcl : t.cs.clock = s.clockAdvanced.clock := (congrArg ClockSession.clock hcs' :)
  have hsecond : second ↔ s.PassesSecond := by
    show s.cs.clock / 10 ≠ t.cs.clock / 10 ↔ _
    rw [hcl]
  have hminute : minute ↔ s.PassesMinute := by
    show s.cs.clock / 600 ≠ t.cs.clock / 600 ↔ _
    rw [hcl]
  obtain ⟨hp1, hp2⟩ := s.minuteWork_pt
  obtain ⟨hs1, hs2⟩ := State.baseStep_second ht
  have href := s.boardsAdvanced_refreshed
  have hlink := State.baseStep_link ht
  rw [hk] at href
  rw [hsecond, hminute]
  refine ⟨?_, ?_, ?_, hs1, hs2, fun h => hpt.trans (hp1 h), fun h h' => hpt.trans (hp2 h h'), fun h => ?_, fun h => ⟨fun l => ?_, ?_,
    fun l c q hc hr hq ho => ?_⟩, fun l => ?_, State.baseStep_same ht⟩
  · rw [hcl]
    exact (congrArg (advanceBy s.cs.clock) hk).trans (advanceBy_eq hclock s.cs.advance_le)
  · rw [hcs']
    exact congrArg Prod.snd hstep
  · rw [hcs']
    exact s.secondTaken_iff
  · obtain ⟨hidle, hstill⟩ := State.advance_zero hclock (hk.trans h)
    have hsame := State.baseStep_same ht
    rw [State.secondWork_idle hidle] at hbc htc hcs hfl
    have hbs : s.advanced.bc = s.bc := if_pos (hk.trans h)
    have hpts : t.pt = s.pt := hpt.trans (hp2 (fun hm => hstill hm.1) (fun hs => hidle hs.1))
    rw [hbc, hbs, htc, hpts, hfl, hcs] at hsame
    rw [hcs]
    exact hsame
  · have hb : (t.link l).blink = (s.advanced.link l).blink := (congrArg Link.blink (hlink l) :)
    rw [hb, State.advanced_link_blink (hk.trans_ne h), hk]
    rfl
  · exact href.refreshedFor fun m => ⟨(congrArg Link.queue (hlink m) :), (congrArg Link.stale (hlink m) :)⟩
  · have hqueue : (t.link q.link).queue = (s.advanced.link q.link).queue := (congrArg Link.queue (hlink q.link) :)
    have hstale : (t.link q.link).stale = (s.advanced.link q.link).stale := (congrArg Link.stale (hlink q.link) :)
    have hstate : (s.advanced.link q.link).state = (s.link q.link).state := (congrArg Link.state (s.advanced_link q.link) :)
    have hplace : s.advanced.bc.placements[c.placement]? = some q := by rw [s.advanced_bc, hq]
    have hcov := State.advanced_covers (hk.trans_ne h) hc (hk ▸ hr) q hplace (hstate.trans ho)
    rw [Link.owed_iff] at hcov ⊢
    rw [hqueue, hstale]
    exact hcov
  · have h1 := hlink l
    have h2 := s.advanced_link l
    have hpass : (s.advanced.link l).pass = (s.link l).pass := (congrArg Link.pass h2 :)
    rw [← h1, hpass] at h2
    exact h2

end Sys2Proof.Machine
end

