-- ==== Sys2Proof/Proofs/WatchCommands.lean ====
section
/-!
PROOFS. WATCH and UNWATCH, and the entries they make, rewrite and remove (R172, R175, R176, R185).
-/

namespace Sys2Proof.Machine

-- Elaborated one after the other, the proofs hold less memory at once.
set_option Elab.async false

/-! ### Entries made, rewritten and removed (R172, R175, R185) -/

/-- What an entry put at a place makes of the record. -/
theorem Terminal.mem_putEntry_dirty (r : Terminal) (i : Fin 12) (e : Option WatchEntry) (line : Nat) :
    line ∈ (r.putEntry i e).dirty ↔ line ∈ r.dirty ∨ line = i.val + 1 := Terminal.mem_mark_dirty _ _ _

/-- A new entry changes its terminal and joins the terminal to the slot's subscriber set. -/
theorem TerminalController.addEntry_same (p : TerminalController) (u : TermId) (i : Fin 12) (e : WatchEntry) :
    (let r := vget p.terminals u
     let p' := p.addEntry u i e
     p' = { p with
       terminals := vset p.terminals u { r with watch := vset r.watch i (some e), dirty := (vget p'.terminals u).dirty }
       subscribers := vset p.subscribers e.slot (vget p'.subscribers e.slot) } ∧
     (∀ line, line ∈ (vget p'.terminals u).dirty ↔ line ∈ r.dirty ∨ line = i.val + 1) ∧
     ∀ v, v ∈ vget p'.subscribers e.slot ↔ v ∈ vget p.subscribers e.slot ∨ v = u.val) := by
  intro r p'
  have hterm : vget p'.terminals u = r.putEntry i (some e) := vget_vset_self _ _ _
  have hsub : vget p'.subscribers e.slot = join u.val (vget p.subscribers e.slot) := vget_vset_self _ _ _
  rw [hterm, hsub]
  exact ⟨rfl, r.mem_putEntry_dirty i _, fun v => (mem_join _ _ _).trans or_comm⟩

/-- A rewritten entry loses its alerts. -/
theorem TerminalController.rewriteEntry_same (p : TerminalController) (u : TermId) (i : Fin 12) (e : WatchEntry) :
    (let r := vget p.terminals u
     let p' := p.rewriteEntry u i e
     p' = { p with terminals := vset p.terminals u { r with
       watch := vset r.watch i (some e), dirty := (vget p'.terminals u).dirty
       alerts := r.alerts.filter (fun a => a != i.val + 1) } } ∧
     ∀ line, line ∈ (vget p'.terminals u).dirty ↔ line ∈ r.dirty ∨ line = i.val + 1) := by
  intro r p'
  have hterm : vget p'.terminals u = (r.dropAlerts i).putEntry i (some e) := vget_vset_self _ _ _
  rw [hterm]
  exact ⟨rfl, (r.dropAlerts i).mem_putEntry_dirty i _⟩

/-- A removed entry loses its alerts, and its terminal leaves the slot's subscriber set. -/
theorem TerminalController.removeEntry_same (p : TerminalController) (u : TermId) (i : Fin 12) (n : Slot) :
    (let r := vget p.terminals u
     let p' := p.removeEntry u i n
     p' = { p with
       terminals := vset p.terminals u { r with
         watch := vset r.watch i none, dirty := (vget p'.terminals u).dirty
         alerts := r.alerts.filter (fun a => a != i.val + 1) }
       subscribers := vset p.subscribers n ((vget p.subscribers n).filter (fun v => v ≠ u.val)) } ∧
     ∀ line, line ∈ (vget p'.terminals u).dirty ↔ line ∈ r.dirty ∨ line = i.val + 1) := by
  intro r p'
  have hterm : vget p'.terminals u = (r.dropAlerts i).putEntry i none := vget_vset_self _ _ _
  rw [hterm]
  exact ⟨rfl, (r.dropAlerts i).mem_putEntry_dirty i _⟩

/-! ### WATCH and UNWATCH (R175, R176) -/

theorem hostEntry_eq (n : Slot) (last p1 p2 p3 : Word) :
    hostEntry n last p1 p2 p3 =
      { slot := n, origin := .host, code := Fin.ofNat 8 (p1.toNat % 8), negate := p1.getLsbD 3, limit := p2
        hysteresis := BitVec.ofNat 8 (min 255 p3.toNat), reference := last, side := .unknown, alerted := false } := by
  rw [hostEntry, field_low]
  rfl

theorem State.cmdWatch_new {s : State} {x : Byte} {u : TermId} {n : Slot} {i : Fin 12} (hu : x.toNat = u.val)
    (hn : s.paramSlot = some n) (h : (s.slot n).state ≠ .unused) (hw : ¬ (s.term u).Watches n) (hi : vget (s.term u).watch i = none)
    (hl : ∀ j, j < i → vget (s.term u).watch j ≠ none) :
    s.cmdWatch x =
      (s.setPt (s.pt.addEntry u i (hostEntry n (s.slot n).last (s.param 1) (s.param 2) (s.param 3)))).cmdDone 0x0A := by
  unfold State.cmdWatch
  rw [operandTerm_some x u hu, hn]
  simp only [if_neg h, (Terminal.placeOf_eq_none _ _).2 hw, Terminal.emptyPlace_eq _ i hi hl]

theorem State.cmdWatch_rewrites {s : State} {x : Byte} {u : TermId} {n : Slot} {i : Fin 12} (hu : x.toNat = u.val)
    (hn : s.paramSlot = some n) (h : (s.slot n).state ≠ .unused) (hi : (s.term u).placeOf n = some i) :
    s.cmdWatch x =
      (s.setPt (s.pt.rewriteEntry u i (hostEntry n (s.slot n).last (s.param 1) (s.param 2) (s.param 3)))).cmdDone 0x0A := by
  unfold State.cmdWatch
  rw [operandTerm_some x u hu, hn]
  simp only [if_neg h, hi]

theorem State.cmdUnwatch_removes {s : State} {x : Byte} {u : TermId} {n : Slot} {i : Fin 12} (hu : x.toNat = u.val)
    (hn : s.paramSlot = some n) (hi : (s.term u).placeOf n = some i) :
    s.cmdUnwatch x = (s.setPt (s.pt.removeEntry u i n)).cmdDone 0x0B := by
  unfold State.cmdUnwatch
  rw [operandTerm_some x u hu, hn]
  simp only [hi]

/-- A DONE command whose effect is a change of the terminals. -/
theorem terminals_done (s : State) (op x : Byte) (p : TerminalController) :
    (let t := s.finish (((withCommandWord s op x).setPt p).cmdDone op).freePort
     8 ∈ t.cr.dirty ∧ t.pt = p ∧ SameButMarks (answered { withCommandWord s op x with pt := p } op .done .none) t) := by
  obtain ⟨hsame, h8⟩ := done_finish s ((withCommandWord s op x).setPt p) op
  exact ⟨h8, hsame.pt, hsame⟩

/-- Settles O55: the entry is added, rewritten or removed. -/
theorem hostWatchesAndUnwatches : Obligations.HostWatchesAndUnwatches := by
  intro s x u n h hx hn e r
  have hp := withCommandWord_paramSlot hn
  have he : hostEntry n (s.slot n).last (s.param 1) (s.param 2) (s.param 3) = e := hostEntry_eq _ _ _ _ _
  refine ⟨fun i hs hw hi hl => ?_, fun i old hs hi ho hl => ?_, fun i old hi ho hl => ?_⟩
  · have hown : (withCommandWord s 0x0A x).cmdWatch x = ((withCommandWord s 0x0A x).setPt (s.pt.addEntry u i e)).cmdDone 0x0A := by
      rw [← he]
      exact State.cmdWatch_new hx (hp 0x0A x) hs hw hi hl
    have hrun : exec (.watch x) s = .next _ := congrArg Host.Outcome.next (exec_owner h rfl hown)
    obtain ⟨hpt, hd, hsub⟩ := s.pt.addEntry_same u i e
    obtain ⟨h8, htp, hsame⟩ := terminals_done s 0x0A x (s.pt.addEntry u i e)
    generalize s.finish _ = t at *
    rw [hpt, ← htp] at hsame
    refine ⟨t, hrun, h8, fun line => ?_, hsame, fun v => ?_⟩
    · rw [State.term, htp]
      exact hd line
    · rw [htp]
      exact hsub v
  · have hown : (withCommandWord s 0x0A x).cmdWatch x = ((withCommandWord s 0x0A x).setPt (s.pt.rewriteEntry u i e)).cmdDone 0x0A := by
      rw [← he]
      exact State.cmdWatch_rewrites hx (hp 0x0A x) hs (r.placeOf_eq n i old hi ho hl)
    have hrun : exec (.watch x) s = .next _ := congrArg Host.Outcome.next (exec_owner h rfl hown)
    obtain ⟨hpt, hd⟩ := s.pt.rewriteEntry_same u i e
    obtain ⟨h8, htp, hsame⟩ := terminals_done s 0x0A x (s.pt.rewriteEntry u i e)
    generalize s.finish _ = t at *
    rw [hpt, ← htp] at hsame
    refine ⟨t, hrun, h8, fun line => ?_, hsame⟩
    rw [State.term, htp]
    exact hd line
  · have hown := State.cmdUnwatch_removes hx (hp 0x0B x) (r.placeOf_eq n i old hi ho hl)
    have hrun : exec (.unwatch x) s = .next _ := congrArg Host.Outcome.next (exec_owner h rfl hown)
    obtain ⟨hpt, hd⟩ := s.pt.removeEntry_same u i n
    obtain ⟨h8, htp, hsame⟩ := terminals_done s 0x0B x (s.pt.removeEntry u i n)
    have hrun' : exec (.unwatch x) s = .next (s.finish (((withCommandWord s 0x0B x).setPt (s.pt.removeEntry u i n)).cmdDone 0x0B).freePort) :=
      hrun
    clear hrun
    generalize s.finish _ = t at *
    rw [hpt, ← htp] at hsame
    refine ⟨t, hrun', h8, fun line => ?_, hsame⟩
    rw [State.term, htp]
    exact hd line

end Sys2Proof.Machine
end

