-- ==== Sys2Proof/Proofs/Keys.lean ====
section
/-!
PROOFS. The keys of a terminal: the entry line, quotes and recalls, the acknowledgement of alerts, and the keys that send, watch and
drop (8.6, 8.7, 9.3).
-/

namespace Sys2Proof.Machine

-- Elaborated one after the other, the proofs hold less memory at once.
set_option Elab.async false

/-! ### A key event -/

/-- While READY a key is taken for its terminal. -/
theorem exec_key {s : State} (hp : s.resetPin = false) (hr : s.isReady = true) (u : TermId) (k : Key) :
    partEvent (fun x => x.keyEvent u k) s = .next (s.finish (s.takeKey u k)) := by
  rw [partEvent_next _ s hp, State.event, State.keyEvent, if_pos hr]

/-- A key whose effect is a change of its terminal's record. -/
theorem exec_key_term {s : State} (hp : s.resetPin = false) (hr : s.isReady = true) {u : TermId} {k : Key} {r : Terminal}
    (h : s.takeKey u k = s.setTerm u r) :
    ∃ t, partEvent (fun x => x.keyEvent u k) s = .next t ∧
      SameButMarks { s with pt := { s.pt with terminals := vset s.pt.terminals u r } } t :=
  ⟨_, exec_key hp hr u k, by rw [h]; exact State.finish_same s _⟩

/-! ### The named slot (R163) -/

theorem findSymbol_none {s : State} {text : Text} (h : ∀ n, (s.slot n).state ≠ .unused → (s.slot n).name ≠ trimRight text) :
    findSymbol s text = none := by
  rw [findSymbol, List.find?_eq_none]
  intro n _ hn
  obtain ⟨hs, hname⟩ := of_decide_eq_true hn
  exact h n hs hname

theorem findSymbol_some {s : State} {text : Text} {n : Slot} (hs : (s.slot n).state ≠ .unused) (hn : (s.slot n).name = trimRight text)
    (hu : ∀ m, (s.slot m).state ≠ .unused → (s.slot m).name = trimRight text → m = n) : findSymbol s text = some n := by
  cases h : findSymbol s text with
  | none =>
    rw [findSymbol, List.find?_eq_none] at h
    exact absurd (decide_eq_true ⟨hs, hn⟩) (h n (List.mem_finRange n))
  | some m =>
    have hm := List.find?_some h
    obtain ⟨hms, hmn⟩ := of_decide_eq_true hm
    rw [hu m hms hmn]

/-! ### The keys of the entry line (R162 to R165) -/

theorem Terminal.entryKey_room {r : Terminal} (h : r.entry.length < 8) (code : Byte) :
    r.entryKey code = { r with entry := r.entry ++ [code], response := .entry, dirty := join 13 r.dirty } := by
  rw [Terminal.entryKey, if_pos h]
  rfl

theorem Terminal.entryKey_full {r : Terminal} (h : 8 ≤ r.entry.length) (code : Byte) :
    r.entryKey code = { r with response := .entry, dirty := join 13 r.dirty } := by
  rw [Terminal.entryKey, if_neg (Nat.not_lt.2 h)]
  rfl

theorem quoteKeyOn_empty {s : State} {r : Terminal} (h : r.entry = []) :
    quoteKeyOn s r = { r with response := .message .noEntry, dirty := join 13 r.dirty } := if_pos h

theorem quoteKeyOn_unknown {s : State} {r : Terminal} (h : r.entry ≠ []) (hn : findSymbol s r.entry = none) :
    quoteKeyOn s r = { r with response := .message .noSymbol, dirty := join 13 r.dirty } := by
  rw [quoteKeyOn, if_neg h, hn]
  rfl

theorem quoteKeyOn_found {s : State} {r : Terminal} {n : Slot} (h : r.entry ≠ []) (hn : findSymbol s r.entry = some n) :
    quoteKeyOn s r = { r with
      recallStack := if r.recallStack.head? = some n then r.recallStack else (n :: r.recallStack).take 4
      entry := [], response := .quote n, dirty := join 13 r.dirty } := by
  rw [quoteKeyOn, if_neg h, hn]
  rfl

theorem Terminal.recallKey_none {r : Terminal} (h : r.recallStack = []) :
    r.recallKey = { r with response := .message .noRecall, dirty := join 13 r.dirty } := by
  cases r
  subst h
  rfl

theorem Terminal.recallKey_one {r : Terminal} {top : Slot} (h : r.recallStack = [top]) :
    r.recallKey = { r with response := .quote top, dirty := join 13 r.dirty } := by
  cases r
  subst h
  rfl

theorem Terminal.recallKey_turns {r : Terminal} {top next : Slot} {rest : List Slot} (h : r.recallStack = top :: next :: rest) :
    r.recallKey = { r with
      recallStack := next :: (rest ++ [top]), response := .quote next, dirty := join 13 r.dirty } := by
  rw [Terminal.recallKey, h]
  rfl

/-! ### The acknowledgement of alerts (R186) -/

/-- The entry at a place acknowledged. -/
def Terminal.ackPlace (r : Terminal) (i : Fin 12) : Terminal :=
  match vget r.watch i with
  | some e => if e.alerted then r.putEntry i (some { e with alerted := false }) else r
  | none => r

theorem Terminal.acknowledge_eq (r : Terminal) : r.acknowledge = { allPlaces.foldl Terminal.ackPlace r with alerts := [] } := rfl

/-- An entry without its alert. -/
def WatchEntry.quieted (e : WatchEntry) : WatchEntry := { e with alerted := false }

/-- The place holds an entry that alerts. -/
def Terminal.AlertsAt (r : Terminal) (i : Fin 12) : Prop := ∃ e, vget r.watch i = some e ∧ e.alerted = true

/-- Acknowledging one place clears its alert and marks its line when it alerts, and changes nothing else. -/
theorem Terminal.ackPlace_same (r : Terminal) (i : Fin 12) :
    r.ackPlace i = { r with watch := vset r.watch i ((vget r.watch i).map WatchEntry.quieted), dirty := (r.ackPlace i).dirty } ∧
      ∀ line, line ∈ (r.ackPlace i).dirty ↔ line ∈ r.dirty ∨ (r.AlertsAt i ∧ line = i.val + 1) := by
  unfold Terminal.ackPlace Terminal.AlertsAt
  cases hi : vget r.watch i with
  | none =>
    have hw : vset r.watch i none = r.watch := by
      rw [← hi]
      exact vset_vget _ _
    exact ⟨by simp [hw], fun line => by simp⟩
  | some e =>
    cases ha : e.alerted
    · have hq : e.quieted = e := by
        rw [WatchEntry.quieted, ← ha]
      have hw : vset r.watch i (some e) = r.watch := by
        rw [← hi]
        exact vset_vget _ _
      exact ⟨by simp [hq, hw, ha], fun line => by simp [ha]⟩
    · exact ⟨by simp [ha]; rfl, fun line => by simpa [ha] using r.mem_putEntry_dirty i _ line⟩

/-- Acknowledging places in turn, each once. -/
theorem Terminal.foldl_ackPlace : ∀ (is : List (Fin 12)) (r : Terminal), is.Nodup →
    (let r' := is.foldl Terminal.ackPlace r
     r' = { r with watch := r'.watch, dirty := r'.dirty } ∧
     (∀ i, vget r'.watch i = if i ∈ is then (vget r.watch i).map WatchEntry.quieted else vget r.watch i) ∧
     ∀ line, line ∈ r'.dirty ↔ line ∈ r.dirty ∨ ∃ i ∈ is, r.AlertsAt i ∧ line = i.val + 1) := by
  intro is
  induction is with
  | nil => exact fun r _ => ⟨rfl, fun i => by simp, fun line => by simp⟩
  | cons x is ih =>
    intro r h
    obtain ⟨hx, his⟩ := List.nodup_cons.1 h
    obtain ⟨hsame, hdirty⟩ := r.ackPlace_same x
    obtain ⟨h1, h2, h3⟩ := ih (r.ackPlace x) his
    have hw : ∀ i, vget (r.ackPlace x).watch i = if x = i then (vget r.watch i).map WatchEntry.quieted else vget r.watch i := fun i => by
      rw [hsame]
      refine (vget_vset _ _ _ _).trans ?_
      split
      · rename_i e
        rw [e]
      · rfl
    have hother : ∀ i ∈ is, ((r.ackPlace x).AlertsAt i ↔ r.AlertsAt i) := fun i hi => by
      have hne : x ≠ i := fun e => hx (e ▸ hi)
      rw [Terminal.AlertsAt, hw, if_neg hne]
      rfl
    refine ⟨h1.trans ?_, fun i => ?_, fun line => ?_⟩
    · simp only [List.foldl_cons]
      generalize is.foldl Terminal.ackPlace (r.ackPlace x) = r'
      rw [hsame]
    · rw [List.foldl_cons, h2, hw]
      by_cases hxi : x = i
      · subst hxi
        simp [hx]
      · simp [hxi, Ne.symm hxi]
    · rw [List.foldl_cons, h3, hdirty, or_assoc]
      refine or_congr_right ⟨?_, ?_⟩
      · rintro (h | ⟨i, hi, ha, e⟩)
        · exact ⟨x, List.mem_cons_self .., h⟩
        · exact ⟨i, List.mem_cons_of_mem _ hi, (hother i hi).1 ha, e⟩
      · rintro ⟨i, hi, ha, e⟩
        obtain rfl | hi := List.mem_cons.1 hi
        · exact .inl ⟨ha, e⟩
        · exact .inr ⟨i, hi, (hother i hi).2 ha, e⟩

/-- Settles O59: each key is its own function of the terminal's record. -/
theorem keysEditAndQuote : Obligations.KeysEditAndQuote := by
  intro s u hp hr r becomes
  have entry : ∀ code, isEntryKeyCode code = true → ∀ new, r.entryKey code = new → becomes (.entryKey u code) (fun _ => new) := by
    intro code hc new h
    have hx : exec (.entryKey u code) s = partEvent (fun x => x.keyEvent u (.entry code)) s := by
      show partEvent (fun x => if isEntryKeyCode code then x.keyEvent u (.entry code) else x) s = _
      simp only [hc, if_true]
    obtain ⟨t, ht, hs⟩ := exec_key_term hp hr (u := u) (k := .entry code) rfl
    subst h
    exact ⟨t, hx.trans ht, hs⟩
  refine ⟨fun code hc hl => entry code hc _ (Terminal.entryKey_room hl code),
    fun code hc hl => entry code hc _ (Terminal.entryKey_full hl code), exec_key_term hp hr (k := .clear) rfl, fun he => ?_,
    fun he hn => ?_, fun n he hs hn hu => ?_, fun h => ?_, fun top h => ?_, fun top next rest h => ?_, ?_⟩
  · exact exec_key_term hp hr (k := .quote) (congrArg (s.setTerm u) (quoteKeyOn_empty he))
  · exact exec_key_term hp hr (k := .quote) (congrArg (s.setTerm u) (quoteKeyOn_unknown he (findSymbol_none hn)))
  · exact exec_key_term hp hr (k := .quote) (congrArg (s.setTerm u) (quoteKeyOn_found he (findSymbol_some hs hn hu)))
  · exact exec_key_term hp hr (k := .recall) (congrArg (s.setTerm u) (Terminal.recallKey_none h))
  · exact exec_key_term hp hr (k := .recall) (congrArg (s.setTerm u) (Terminal.recallKey_one h))
  · exact exec_key_term hp hr (k := .recall) (congrArg (s.setTerm u) (Terminal.recallKey_turns h))
  · obtain ⟨h1, h2, h3⟩ := Terminal.foldl_ackPlace allPlaces r (by decide)
    obtain ⟨t, ht, hs⟩ := exec_key_term hp hr (u := u) (k := .ack) (r := r.acknowledge) rfl
    have hterm : t.term u = r.acknowledge := by
      rw [State.term, hs.pt]
      exact vget_vset_self _ _ _
    rw [Terminal.acknowledge_eq] at hs hterm
    generalize allPlaces.foldl Terminal.ackPlace r = r' at *
    refine ⟨t, ht, ?_⟩
    rw [hterm]
    refine ⟨rfl, fun i => ?_, fun line => ?_, ?_⟩
    · rw [h2 i, if_pos (mem_allPlaces i)]
      rfl
    · rw [h3 line]
      refine or_congr_right ⟨?_, ?_⟩
      · rintro ⟨i, -, ⟨e, he, ha⟩, hl⟩
        exact ⟨i, e, he, ha, hl⟩
      · rintro ⟨i, e, he, ha, hl⟩
        exact ⟨i, mem_allPlaces i, ⟨e, he, ha⟩, hl⟩
    · rw [h1] at hs
      exact hs

/-! ### SEND (R166, R167, R200) -/

theorem State.sendKey_empty {s : State} {u : TermId} (h : (s.term u).entry = []) :
    s.sendKey u = s.setTerm u ((s.term u).respond (.message .noEntry)) := if_pos h

theorem State.sendKey_full {s : State} {u : TermId} (h : (s.term u).entry ≠ []) (hq : 8 ≤ s.pt.keyQueue.length) :
    s.sendKey u = s.setTerm u ((s.term u).respond (.message .wait)) := (if_neg h).trans (if_pos hq)

/-- The part with the terminal's record appended to the key queue. -/
def State.keySent (s : State) (u : TermId) : State :=
  { s with pt := { s.pt with
    terminals := vset s.pt.terminals u { s.term u with entry := [], response := .message .sent, dirty := join 13 (s.term u).dirty }
    keyQueue := s.pt.keyQueue ++ [⟨u, (s.term u).entry, (s.term u).recallStack.head?⟩] } }

theorem State.sendKey_sent {s : State} {u : TermId} (h : (s.term u).entry ≠ []) (hq : s.pt.keyQueue.length < 8) :
    s.sendKey u = ((s.keySent u).markDirty 22).mailboxMoveIn := (if_neg h).trans (if_neg (Nat.not_le.2 hq))

/-! ### WATCH and DROP keys (R173, R174) -/

theorem State.watchKey_empty {s : State} {u : TermId} (h : (s.term u).entry = []) :
    s.watchKey u = s.setTerm u ((s.term u).respond (.message .noEntry)) := if_pos h

theorem State.dropKey_empty {s : State} {u : TermId} (h : (s.term u).entry = []) :
    s.dropKey u = s.setTerm u ((s.term u).respond (.message .noEntry)) := if_pos h

theorem State.watchKey_unknown {s : State} {u : TermId} (h : (s.term u).entry ≠ []) (hn : findSymbol s (s.term u).entry = none) :
    s.watchKey u = s.setTerm u ((s.term u).respond (.message .noSymbol)) := by
  rw [State.watchKey, if_neg h, hn]

theorem State.dropKey_unknown {s : State} {u : TermId} (h : (s.term u).entry ≠ []) (hn : findSymbol s (s.term u).entry = none) :
    s.dropKey u = s.setTerm u ((s.term u).respond (.message .noSymbol)) := by
  rw [State.dropKey, if_neg h, hn]

section
variable {s : State} {u : TermId} {n : Slot} (h : (s.term u).entry ≠ []) (hn : findSymbol s (s.term u).entry = some n)
include h hn

theorem State.watchKey_listed (hw : (s.term u).Watches n) :
    s.watchKey u = s.setTerm u ((s.term u).respond (.message .onList)) := by
  have hp : ((s.term u).placeOf n).isSome = true :=
    Option.isSome_iff_ne_none.2 fun e => (Terminal.placeOf_eq_none _ _).1 e hw
  rw [State.watchKey, if_neg h, hn]
  exact if_pos hp

theorem State.watchKey_listFull (hw : ¬ (s.term u).Watches n) (hf : ∀ i, vget (s.term u).watch i ≠ none) :
    s.watchKey u = s.setTerm u ((s.term u).respond (.message .listFull)) := by
  rw [State.watchKey, if_neg h, hn]
  simp only [(Terminal.placeOf_eq_none _ _).2 hw, (Terminal.emptyPlace_eq_none _).2 hf, Option.isSome_none, Bool.false_eq_true, if_false]

theorem State.watchKey_new {i : Fin 12} (hw : ¬ (s.term u).Watches n) (hi : vget (s.term u).watch i = none)
    (hl : ∀ j, j < i → vget (s.term u).watch j ≠ none) :
    s.watchKey u = s.setPt ((s.pt.put u
      { s.term u with entry := [], response := .message (.watching n), dirty := join 13 (s.term u).dirty }).addEntry u i
        (dealerEntry n (s.slot n).last)) := by
  rw [State.watchKey, if_neg h, hn]
  simp only [(Terminal.placeOf_eq_none _ _).2 hw, Terminal.emptyPlace_eq _ i hi hl, Option.isSome_none, Bool.false_eq_true, if_false]
  rfl

theorem State.dropKey_unlisted (hw : ¬ (s.term u).Watches n) :
    s.dropKey u = s.setTerm u ((s.term u).respond (.message .notOnList)) := by
  rw [State.dropKey, if_neg h, hn]
  simp only [(Terminal.placeOf_eq_none _ _).2 hw]

theorem State.dropKey_pinned {i : Fin 12} {e : WatchEntry} (hi : (s.term u).placeOf n = some i)
    (he : vget (s.term u).watch i = some e) (ho : e.origin = .host) :
    s.dropKey u = s.setTerm u ((s.term u).respond (.message .pinned)) := by
  rw [State.dropKey, if_neg h, hn]
  simp only [hi, he, Option.map_some, ho, if_true]

theorem State.dropKey_removes {i : Fin 12} {e : WatchEntry} (hi : (s.term u).placeOf n = some i)
    (he : vget (s.term u).watch i = some e) (ho : e.origin = .dealer) :
    s.dropKey u = s.setPt ((s.pt.put u
      { s.term u with entry := [], response := .empty, dirty := join 13 (s.term u).dirty }).removeEntry u i n) := by
  rw [State.dropKey, if_neg h, hn]
  simp only [hi, he, Option.map_some, ho, Option.some.injEq, reduceCtorEq, if_false]
  rfl

end

/-- A table updated twice at one place. -/
theorem vset_vset {α : Type} {n : Nat} (v : Vector α n) (i : Fin n) (x y : α) : vset (vset v i x) i y = vset v i y := by
  refine vget_ext fun j => ?_
  simp only [vget_vset]
  split <;> rfl

/-- A key that makes an entry after its own terminal's record was set. -/
theorem TerminalController.put_addEntry (p : TerminalController) (u : TermId) (i : Fin 12) (r : Terminal) (e : WatchEntry) :
    (let p' := (p.put u r).addEntry u i e
     p' = { p with
       terminals := vset p.terminals u { r with watch := vset r.watch i (some e), dirty := (vget p'.terminals u).dirty }
       subscribers := vset p.subscribers e.slot (vget p'.subscribers e.slot) } ∧
     (∀ line, line ∈ (vget p'.terminals u).dirty ↔ line ∈ r.dirty ∨ line = i.val + 1) ∧
     ∀ v, v ∈ vget p'.subscribers e.slot ↔ v ∈ vget p.subscribers e.slot ∨ v = u.val) := by
  obtain ⟨h1, h2, h3⟩ := (p.put u r).addEntry_same u i e
  have hr : vget (p.put u r).terminals u = r := vget_vset_self _ _ _
  rw [hr] at h1 h2
  refine ⟨h1.trans ?_, h2, h3⟩
  generalize (p.put u r).addEntry u i e = p'
  exact congrArg (fun v => ({ p with terminals := v, subscribers := _ } : TerminalController)) (vset_vset _ _ _ _)

/-- A key that removes an entry after its own terminal's record was set. -/
theorem TerminalController.put_removeEntry (p : TerminalController) (u : TermId) (i : Fin 12) (r : Terminal) (n : Slot) :
    (let p' := (p.put u r).removeEntry u i n
     p' = { p with
       terminals := vset p.terminals u { r with
         watch := vset r.watch i none, dirty := (vget p'.terminals u).dirty
         alerts := r.alerts.filter (fun a => a != i.val + 1) }
       subscribers := vset p.subscribers n ((vget p.subscribers n).filter (fun v => v ≠ u.val)) } ∧
     ∀ line, line ∈ (vget p'.terminals u).dirty ↔ line ∈ r.dirty ∨ line = i.val + 1) := by
  obtain ⟨h1, h2⟩ := (p.put u r).removeEntry_same u i n
  have hr : vget (p.put u r).terminals u = r := vget_vset_self _ _ _
  rw [hr] at h1 h2
  refine ⟨h1.trans ?_, h2⟩
  generalize (p.put u r).removeEntry u i n = p'
  exact congrArg (fun v => ({ p with terminals := v, subscribers := _ } : TerminalController)) (vset_vset _ _ _ _)

/-- The part after a key that changes PT. -/
theorem exec_key_pt {s : State} (hp : s.resetPin = false) (hr : s.isReady = true) {u : TermId} {k : Key} {p : TerminalController}
    (h : s.takeKey u k = s.setPt p) :
    ∃ t, partEvent (fun x => x.keyEvent u k) s = .next t ∧ t.pt = p ∧ SameButMarks { s with pt := p } t := by
  refine ⟨_, exec_key hp hr u k, ?_⟩
  rw [h]
  have hs := State.finish_same s (s.setPt p)
  exact ⟨hs.pt, hs⟩

/-- SEND with the mailbox FULL: the record waits in the queue. -/
theorem sendKey_queues {s : State} {u : TermId} (hp : s.resetPin = false) (hr : s.isReady = true) (he : (s.term u).entry ≠ [])
    (hq : s.pt.keyQueue.length < 8) (hm : s.cr.mailbox ≠ none) :
    ∃ t, exec (.sendKey u) s = .next t ∧ 22 ∈ t.cr.dirty ∧ SameButMarks (s.keySent u) t := by
  have hk : s.takeKey u .send = (s.keySent u).markDirty 22 :=
    (State.sendKey_sent he hq).trans (State.mailboxMoveIn_none _ (.inl hm))
  refine ⟨_, exec_key hp hr u .send, ?_⟩
  rw [hk]
  exact ⟨State.mem_finish_of_mem ((mem_join _ _ _).2 (.inl rfl)), State.finish_sameAs s rfl⟩

/-- Settles O60: SEND is `State.sendKey_sent`, WATCH and DROP make and remove the entry. -/
theorem keysSendWatchAndDrop : Obligations.KeysSendWatchAndDrop := by
  intro s u hp hr r tells
  have hsend : r.entry ≠ [] → s.pt.keyQueue.length < 8 → s.cr.mailbox ≠ none → _ := fun he hq hm => sendKey_queues hp hr he hq hm
  refine ⟨fun he => ⟨?_, ?_, ?_⟩, fun he hq => ?_, hsend, fun he hq hm => ?_, fun he hn => ⟨?_, ?_⟩,
    fun n he hs hname hu => ?_⟩
  · exact exec_key_term hp hr (k := .send) (State.sendKey_empty he)
  · exact exec_key_term hp hr (k := .watch) (State.watchKey_empty he)
  · exact exec_key_term hp hr (k := .drop) (State.dropKey_empty he)
  · exact exec_key_term hp hr (k := .send) (State.sendKey_full he hq)
  · have hkey : ((s.keySent u).markDirty 22).pt.keyQueue = [⟨u, r.entry, r.recallStack.head?⟩] := by
      show s.pt.keyQueue ++ _ = _
      rw [hq]
      rfl
    have hk : s.takeKey u .send = ((s.keySent u).markDirty 22).mailboxMoveIn := State.sendKey_sent he (by rw [hq]; decide)
    have hsame := State.finish_sameAs s (State.mailboxMoveIn_same (s := (s.keySent u).markDirty 22) hm hkey)
    have hmarks := allDirty_finish (s := s) (State.mailboxMoveIn_marks (s := (s.keySent u).markDirty 22) hm hkey)
    have hx : exec (.sendKey u) s = .next (s.finish (s.takeKey u .send)) := exec_key hp hr u .send
    rw [hk] at hx
    generalize s.finish _ = t at *
    have htext : t.cr.mailText = #v[mailWord r.entry 0, mailWord r.entry 1, mailWord r.entry 2, mailWord r.entry 3] := by
      rw [hsame.cr]
    refine ⟨t, hx, hmarks, fun i => ?_, ?_⟩
    · rw [htext]
      exact vget_mailText ⟨u, r.entry, r.recallStack.head?⟩ i
    · rw [htext]
      exact hsame
  · exact exec_key_term hp hr (k := .watch) (State.watchKey_unknown he (findSymbol_none hn))
  · exact exec_key_term hp hr (k := .drop) (State.dropKey_unknown he (findSymbol_none hn))
  · have hf := findSymbol_some hs hname hu
    refine ⟨fun hw => exec_key_term hp hr (k := .watch) (State.watchKey_listed he hf hw),
      fun hw => exec_key_term hp hr (k := .drop) (State.dropKey_unlisted he hf hw),
      fun hw hfull => exec_key_term hp hr (k := .watch) (State.watchKey_listFull he hf hw hfull), fun i hw hi hl => ?_,
      fun i e hi hes hl => ⟨fun ho => ?_, fun ho => ?_⟩⟩
    · obtain ⟨t, ht, hpt, hsame⟩ := exec_key_pt hp hr (k := .watch) (State.watchKey_new he hf hw hi hl)
      obtain ⟨h1, h2, h3⟩ := s.pt.put_addEntry u i
        { s.term u with entry := [], response := .message (.watching n), dirty := join 13 (s.term u).dirty }
        (dealerEntry n (s.slot n).last)
      refine ⟨t, ht, fun line => ?_, fun v => ?_, ?_⟩
      · rw [State.term, hpt, h2]
        simp only [mem_join]
        tauto
      · rw [hpt]
        exact h3 v
      · rw [h1, ← hpt] at hsame
        exact hsame
    · exact exec_key_term hp hr (k := .drop) (State.dropKey_pinned he hf (r.placeOf_eq n i e hi hes hl) hi ho)
    · obtain ⟨t, ht, hpt, hsame⟩ := exec_key_pt hp hr (k := .drop) (State.dropKey_removes he hf (r.placeOf_eq n i e hi hes hl) hi ho)
      obtain ⟨h1, h2⟩ := s.pt.put_removeEntry u i
        { s.term u with entry := [], response := .empty, dirty := join 13 (s.term u).dirty } n
      refine ⟨t, ht, fun line => ?_, ?_⟩
      · rw [State.term, hpt, h2]
        simp only [mem_join]
        tauto
      · rw [h1, ← hpt] at hsame
        exact hsame

end Sys2Proof.Machine
end

