-- ==== Sys2Proof/Proofs/BoardAnswers.lean ====
section
/-!
PROOFS. What the boards answer and miss, the probes, and the line reads (R71, R72, R92 to R102).
-/

namespace Sys2Proof.Machine

-- Elaborated one after the other, the proofs hold less memory at once.
set_option Elab.async false

/-! ### What keeps the floor lit (R104, R140) -/

theorem BoardController.drained_iff (b : BoardController) : b.drained = true ↔ ∀ l, (vget b.links l).drained = true := by
  rw [BoardController.drained, List.all_eq_true]
  constructor
  · exact fun h l => h _ (Vector.mem_toList_iff.2 (Vector.getElem_mem l.isLt))
  · intro h k hk
    obtain ⟨i, hi, rfl⟩ := Vector.mem_iff_getElem.1 (Vector.mem_toList_iff.1 hk)
    exact h ⟨i, hi⟩

theorem BoardController.not_drained {b : BoardController} {l : LinkId} (h : (vget b.links l).drained = false) : b.drained = false := by
  by_contra hd
  have := (b.drained_iff.1 (by simpa using hd)) l
  rw [h] at this
  cases this

/-- An ONLINE link with something queued, stale or in hand is not drained. -/
theorem Link.not_drained {k : Link} (ho : k.state = .online) (h : k.queue ≠ [] ∨ k.stale ≠ [] ∨ k.work ≠ none) : k.drained = false := by
  simp only [Link.drained, ho]
  obtain h | h | h := h
  · simp [h]
  · simp [h]
  · cases hw : k.work with
    | none => exact absurd hw h
    | some w => simp

/-- One link changed, by something that leaves the session, the tape and the other links, keeps the floor lit. -/
theorem sessionDark_kept {s u : State} {l : LinkId} {k : Link} (hcs : u.cs.session = s.cs.session) (hr : u.isReady = s.isReady)
    (ht : u.tc = s.tc) (hl : u.bc.links = vset s.bc.links l k) (h : KeptLit s l ∨ k.drained = false) : u.sessionDark = u := by
  refine State.sessionDark_lit u ?_
  obtain (h | h | h | ⟨m, hm, h⟩) | h := h
  · exact .inl (hcs ▸ h)
  · exact .inr (.inl (hr.trans h))
  · exact .inr (.inr (.inr (ht ▸ h)))
  · refine .inr (.inr (.inl (BoardController.not_drained (l := m) ?_)))
    rw [hl, vget_vset_ne _ _ _ _ (Ne.symm hm)]
    exact h
  · refine .inr (.inr (.inl (BoardController.not_drained (l := l) ?_)))
    rw [hl, vget_vset_self]
    exact h

/-! ### Pieces that end (R92 to R102) -/

theorem Link.endPiece_eq (k : Link) (w : Work) : k.endPiece w = { k with work := none, pass := passAfter k w.fromPass } := by
  unfold Link.endPiece passAfter
  cases k.pass <;> cases w.fromPass <;> rfl

section
variable {s : State} {l : LinkId} {w : Work} (h : (s.link l).work = some w) (hw : w.phase = .waiting)
include h hw

theorem State.boardAcked_discarded (hd : w.discard = true) : s.boardAcked l = s.setLink l ((s.link l).endPiece w) := by
  simp only [State.boardAcked, h, hw, hd, ne_eq, not_true_eq_false, if_false, if_true]

/-- A cell, a text row or a SYMBOL row's last frame answered. -/
theorem State.boardAcked_ends (hd : w.discard = false) {r : Nat}
    (hp : w.piece = .textRow r ∨ w.piece = .symbolRow r [] ∨ w.piece = .cell r) :
    s.boardAcked l = s.setLink l { (s.link l).endPiece w with failures := 0 } := by
  simp only [State.boardAcked, h, hw, hd, ne_eq, not_true_eq_false, if_false, Bool.false_eq_true]
  obtain hp | hp | hp := hp <;> simp only [hp]

/-- A SYMBOL row goes on with its next cell. -/
theorem State.boardAcked_continues (hd : w.discard = false) {r p : Nat} {rest : List Nat} (hp : w.piece = .symbolRow r (p :: rest)) :
    s.boardAcked l =
      s.setLink l (({ s.link l with failures := 0 } : Link).begin (.symbolRow r rest) w.fromPass false (cellFrame s l p)) := by
  simp only [State.boardAcked, h, hw, hd, hp, ne_eq, not_true_eq_false, if_false, Bool.false_eq_true]

/-- A probe answered brings its OFFLINE link ONLINE. -/
theorem State.boardAcked_probe (hd : w.discard = false) (hp : w.piece = .probe) (hs : (s.link l).state = .offline) :
    s.boardAcked l = (s.setLink l { (s.link l).endPiece w with state := .online, failures := 0 }).raise flagBoard := by
  simp only [State.boardAcked, h, hw, hd, hp, hs, ne_eq, not_true_eq_false, if_false, Bool.false_eq_true]

theorem State.answerWaitEnds_discarded (hd : w.discard = true) : s.answerWaitEnds l = s.setLink l ((s.link l).endPiece w) := by
  simp only [State.answerWaitEnds, h, hw, hd, ne_eq, not_true_eq_false, if_false, if_true]

theorem State.answerWaitEnds_probe (hd : w.discard = false) (hp : w.piece = .probe) (hs : (s.link l).state = .offline) :
    s.answerWaitEnds l = s.setLink l { (s.link l).endPiece w with probeTimer := true } := by
  simp only [State.answerWaitEnds, h, hw, hd, hp, hs, ne_eq, not_true_eq_false, if_false, Bool.false_eq_true]

/-- An unanswered frame of row `r`. -/
theorem State.answerWaitEnds_row (hd : w.discard = false) {r : Nat}
    (hp : w.piece = .textRow r ∨ (∃ rest, w.piece = .symbolRow r rest) ∨
      (∃ p pl, w.piece = .cell p ∧ s.bc.placements[p]? = some pl ∧ pl.row = r)) :
    s.answerWaitEnds l = s.boardMissed l (s.link l) w (some r) := by
  simp only [State.answerWaitEnds, h, hw, hd, ne_eq, not_true_eq_false, if_false, Bool.false_eq_true]
  obtain hp | ⟨rest, hp⟩ | ⟨p, pl, hp, hpl, hr⟩ := hp
  · simp only [hp]
  · simp only [hp]
  · simp only [hp, BoardController.rowOf, hpl, Option.map_some, hr]

end

/-- Without a frame that waits for its answer an ACK is discarded. -/
theorem State.boardAcked_idle {s : State} {l : LinkId} (h : ∀ w, (s.link l).work = some w → w.phase ≠ .waiting) :
    s.boardAcked l = s := by
  unfold State.boardAcked
  simp only
  split
  · rfl
  · rename_i w hw
    exact if_pos (h w hw)

theorem State.boardMissed_again {s : State} {l : LinkId} {k : Link} (ho : k.state = .online) (hf : k.failures < 2) (w : Work) (r : Nat) :
    s.boardMissed l k w (some r) = s.setLink l { k with
      work := none, stale := join r k.stale, failures := k.failures + 1, pass := passAfter k w.fromPass } := by
  unfold State.boardMissed
  simp only [Link.endPiece_eq]
  exact (if_neg (not_not.2 ho)).trans (if_pos (by omega))

theorem State.boardMissed_third {s : State} {l : LinkId} {k : Link} (ho : k.state = .online) (hf : k.failures = 2) (w : Work) (r : Nat) :
    s.boardMissed l k w (some r) = (s.setLink l { k with
      state := .offline, work := none, queue := [], blink := [], stale := List.range k.rows, pass := none, failures := 0
      probeDue := true, probeTimer := false }).raise flagBoard := by
  unfold State.boardMissed
  simp only [Link.endPiece_eq]
  exact (if_neg (not_not.2 ho)).trans (if_neg (by omega))

/-! ### The events of an answer -/

theorem isGoodAck_iff (bytes : Text) : isGoodAck bytes = true ↔ bytes = [0xC3, 0xE3] := by
  unfold isGoodAck
  split
  · rename_i code check
    simp only [Bool.and_eq_true, beq_iff_eq, List.cons.injEq, and_true]
    refine and_congr_right fun hc => ?_
    subst hc
    show 0 + 0xC3 + check + 0x5A = 0 ↔ check = 0xE3
    revert check
    decide
  · rename_i h
    refine ⟨(by rintro ⟨⟩), fun e => absurd e (h _ _)⟩

theorem exec_boardAck {s : State} (hp : s.resetPin = false) (l : LinkId) :
    exec (.boardAck l [0xC3, 0xE3]) s = .next (s.finish (s.boardAcked l).sessionDark) := by
  have h : exec (.boardAck l [0xC3, 0xE3]) s =
      .next (s.finish (if isGoodAck [0xC3, 0xE3] then (s.boardAcked l).sessionDark else s)) := partEvent_next _ s hp
  rw [h, if_pos ((isGoodAck_iff _).2 rfl)]

theorem exec_answerWaitExpiry {s : State} (hp : s.resetPin = false) (l : LinkId) :
    exec (.answerWaitExpiry l) s = .next (s.finish (s.answerWaitEnds l).sessionDark) := partEvent_next _ s hp

/-- An answer whose effect is a change of its own link. -/
theorem finish_setLink {s u : State} {l : LinkId} {k : Link} (hu : u = s.setLink l k) (h : KeptLit s l ∨ k.drained = false) :
    SameButMarks { s with bc := { s.bc with links := vset s.bc.links l k } } (s.finish u.sessionDark) := by
  subst hu
  have hkept : (s.setLink l k).sessionDark = s.setLink l k := sessionDark_kept (s := s) (l := l) rfl rfl rfl rfl h
  rw [hkept]
  exact State.finish_same s _

theorem linkStates_ne {s u : State} {l : LinkId} (h : (s.link l).state.code ≠ (u.link l).state.code) :
    reportValue s 20 ≠ reportValue u 20 := by
  intro e
  have e' : linkStatesWord s.bc = linkStatesWord u.bc := e
  have hs := (linkStatesWord_fields s.bc).2 l
  rw [e', (linkStatesWord_fields u.bc).2 l] at hs
  exact h hs.symm

/-- An answer that changes the state of its own link besides raising BOARD. -/
theorem finish_raiseLink {s u : State} {l : LinkId} {k : Link} (hu : u = (s.setLink l k).raise flagBoard)
    (h : KeptLit s l ∨ k.drained = false) {x y : LinkState} (hx : (s.link l).state = x) (hy : k.state = y) (hc : x.code ≠ y.code) :
    20 ∈ (s.finish u.sessionDark).cr.dirty ∧
      SameButMarks { s with
        bc := { s.bc with links := vset s.bc.links l k }
        cr := { s.cr with flags := s.cr.flags ||| 0x0004 } } (s.finish u.sessionDark) := by
  subst hu
  have hkept : ((s.setLink l k).raise flagBoard).sessionDark = (s.setLink l k).raise flagBoard :=
    sessionDark_kept (s := s) (l := l) rfl rfl rfl rfl h
  rw [hkept]
  refine ⟨State.mem_finish_of_ne (by decide) (linkStates_ne (l := l) ?_), State.finish_same s _⟩
  have hk : ((s.setLink l k).raise flagBoard).link l = k := vget_vset_self _ _ _
  rwa [hk, hx, hy]

theorem cellFrame_eq {s : State} {p : Nat} {pl : Placement} (h : s.bc.placements[p]? = some pl) (l : LinkId) :
    cellFrame s l p = boardFrame .none pl.row pl.column ((s.link l).blinks p) (cellColour (s.slot pl.slot) pl.kind)
      (cellText (s.slot pl.slot) pl.kind pl.width) := by
  simp only [cellFrame, h]

/-- Settles O49: an ACK is `State.boardAcked`. -/
theorem boardsAnswer : Obligations.BoardsAnswer := by
  refine ⟨fun s l w hp h hw => ?_, fun s l w r hp h hw hd hpc hk => ?_, fun s l w r p rest pl hp h hw hd hpc hpl hk => ?_,
    fun s l w hp hs h hw hk => ?_, fun s l w hp h hw hd hk => ?_, fun s l hp h hk => ?_, fun s l bytes hp hb => ?_⟩
  · have hx : exec (.frameSent l) s = .next (s.finish (s.setLink l (s.link l).frameSent)) := partEvent_next _ s hp
    have hf : (s.link l).frameSent = { s.link l with work := some { w with phase := .waiting } } := by
      simp only [Link.frameSent, h, hw, if_true]
    rw [hf] at hx
    exact ⟨_, hx, State.finish_same s _⟩
  · have he := State.boardAcked_ends h hw hd hpc
    rw [Link.endPiece_eq] at he
    exact ⟨_, exec_boardAck hp l, finish_setLink he (hk.imp_right fun ⟨ho, hq⟩ =>
      Link.not_drained ho (hq.elim .inl fun hq => .inr (.inl hq)))⟩
  · have he := State.boardAcked_continues h hw hd hpc
    rw [cellFrame_eq hpl] at he
    have hs := finish_setLink he (hk.imp_right fun ho => Link.not_drained ho (.inr (.inr (by rintro ⟨⟩))))
    refine ⟨_, exec_boardAck hp l, ?_⟩
    rw [hd]
    exact hs
  · subst hw
    have he := State.boardAcked_probe h rfl rfl rfl hs
    rw [Link.endPiece_eq] at he
    obtain ⟨h20, hsame⟩ := finish_raiseLink he (hk.imp_right fun hq => Link.not_drained rfl
      (hq.elim .inl fun hq => .inr (.inl hq))) hs (y := .online) rfl (by decide)
    exact ⟨_, exec_boardAck hp l, h20, hsame⟩
  · have he := State.boardAcked_discarded h hw hd
    rw [Link.endPiece_eq] at he
    exact ⟨_, exec_boardAck hp l, finish_setLink he (.inl hk)⟩
  · refine ⟨_, exec_boardAck hp l, ?_⟩
    rw [State.boardAcked_idle h, State.sessionDark_lit s hk]
    exact State.finish_same s s
  · have hx : exec (.boardAck l bytes) s = .next (s.finish (if isGoodAck bytes then (s.boardAcked l).sessionDark else s)) :=
      partEvent_next _ s hp
    rw [if_neg (fun hg => hb ((isGoodAck_iff _).1 hg))] at hx
    exact ⟨_, hx, State.finish_same s s⟩

/-! ### The line read presented (R72) -/

theorem Link.isReading_iff (k : Link) : k.isReading = true ↔ k.Reads := by
  unfold Link.isReading Link.Reads
  cases k.work with
  | none => simp
  | some w => cases hp : w.phase <;> simp [hp]

/-- The first of four that a test accepts. -/
theorem find_four : ∀ p : Fin 4 → Bool,
    (([0, 1, 2, 3] : List (Fin 4)).find? p = none ∧ ∀ d, p d = false) ∨
      ∃ d, ([0, 1, 2, 3] : List (Fin 4)).find? p = some d ∧ p d = true ∧ ∀ e, e < d → p e = false := by
  decide

/-- The rotation takes the first link that reads. -/
theorem rotationPicks_find (last : LinkId) (links : Vector Link 4) :
    RotationPicks last links ((rotation last).find? (fun l => (vget links l).isReading)) := by
  have hrot : ∀ last : LinkId, rotation last = ([0, 1, 2, 3] : List (Fin 4)).map (fun d => last + 1 + d) := by decide
  have hall : ∀ last m : LinkId, ∃ d, m = last + 1 + d := by decide
  rw [hrot, List.find?_map]
  obtain ⟨h, hn⟩ | ⟨d, h, hd, hn⟩ := find_four ((fun l => (vget links l).isReading) ∘ (fun d => last + 1 + d))
  · refine .inl ⟨by rw [h]; rfl, fun m hm => ?_⟩
    obtain ⟨d, rfl⟩ := hall last m
    have hm' : (vget links (last + 1 + d)).isReading = false := hn d
    rw [(Link.isReading_iff _).2 hm] at hm'
    cases hm'
  · refine .inr ⟨d, by rw [h]; rfl, (Link.isReading_iff _).1 hd, fun e he hr => ?_⟩
    have hm' : (vget links (last + 1 + e)).isReading = false := hn e he
    rw [(Link.isReading_iff _).2 hr] at hm'
    cases hm'

theorem BoardController.presentRead_none {b : BoardController} (h : b.textRequest = none) :
    b.presentRead = { b with textRequest := (rotation b.textLast).find? (fun l => (vget b.links l).isReading) } := by
  unfold BoardController.presentRead
  rw [h]

theorem BoardController.presentRead_some {b : BoardController} {m : LinkId} (h : b.textRequest = some m) : b.presentRead = b := by
  unfold BoardController.presentRead
  rw [h]

/-- Links changed, and a read presented when none was. -/
theorem linksBecome_finish (s : State) (links : Vector Link 4) :
    LinksBecome s links (s.finish (s.setBc ({ s.bc with links := links } : BoardController).presentRead)) := by
  have hbc : ∀ b, (s.finish (s.setBc b)).bc = b := fun b => State.finish_bc s _
  refine ⟨?_, fun m hm => ?_, fun hn => ?_⟩
  · have hs := State.finish_same s (s.setBc ({ s.bc with links := links } : BoardController).presentRead)
    rw [hbc]
    have hf := BoardController.presentRead_frame { s.bc with links := links }
    generalize ({ s.bc with links := links } : BoardController).presentRead = b at *
    rw [hf] at hs ⊢
    exact hs
  · rw [hbc, BoardController.presentRead_some (b := { s.bc with links := links }) hm]
    exact hm
  · rw [hbc, BoardController.presentRead_none (b := { s.bc with links := links }) hn]
    exact rotationPicks_find _ _

/-- A link with no work in hand takes its next piece. -/
theorem State.takeWork_eq {s : State} {l : LinkId} (h : (s.link l).work = none) :
    s.takeWork l =
      s.setBc ({ s.bc with links := vset s.bc.links l (nextWork s l (s.link l)) } : BoardController).presentRead := by
  simp only [State.takeWork, h]
  rfl

theorem exec_takeWork {s : State} {l : LinkId} (hp : s.resetPin = false) (h : (s.link l).work = none) {k : Link}
    (hk : nextWork s l (s.link l) = k) :
    ∃ t, exec (.takeWork l) s = .next t ∧ LinksBecome s (vset s.bc.links l k) t := by
  have hx : exec (.takeWork l) s = .next (s.finish (s.takeWork l)) := partEvent_next _ s hp
  rw [State.takeWork_eq h, hk] at hx
  exact ⟨_, hx, linksBecome_finish s _⟩

/-! ### Probes (R99) -/

theorem nextWork_probe {s : State} {l : LinkId} {k : Link} (hs : k.state = .offline) (hd : k.probeDue = true) :
    nextWork s l k = { k with
      probeDue := false, work := some ⟨.probe, .sending, false, false⟩, frameOut := [0x00, 0x00, 0x00, 0x00, 0xA6] } := by
  have hf : probeFrame = [0x00, 0x00, 0x00, 0x00, 0xA6] := by decide
  simp only [nextWork, hs, hd, if_true, hf, Link.begin]

/-- The probe interval ends and the link takes its next probe. -/
theorem State.probeIntervalEnds_eq {s : State} {l : LinkId} (hs : (s.link l).state = .offline) (ht : (s.link l).probeTimer = true)
    (hw : (s.link l).work = none) :
    s.probeIntervalEnds l =
      s.setBc ({ s.bc with links := vset s.bc.links l { s.link l with
        probeTimer := false, probeDue := false, work := some ⟨.probe, .sending, false, false⟩
        frameOut := [0x00, 0x00, 0x00, 0x00, 0xA6] } } : BoardController).presentRead := by
  let x := s.setLink l { s.link l with probeTimer := false, probeDue := true }
  have hlink : x.link l = { s.link l with probeTimer := false, probeDue := true } := vget_vset_self _ _ _
  have hx : s.probeIntervalEnds l = x.takeWork l := if_pos ⟨hs, ht⟩
  have hwork : (x.link l).work = none := by rw [hlink]; exact hw
  have hst : (x.link l).state = .offline := by rw [hlink]; exact hs
  have hdue : (x.link l).probeDue = true := by rw [hlink]
  rw [hx, State.takeWork_eq hwork, nextWork_probe hst hdue, hlink]
  refine congrArg (fun v => s.setBc (BoardController.presentRead { s.bc with links := v })) ?_
  exact vset_vset _ _ _ _

/-- Settles O50: a miss is `State.answerWaitEnds`. -/
theorem boardsMissAnswers : Obligations.BoardsMissAnswers := by
  refine ⟨fun s l w r hp ho h hw hd hpc => ⟨fun hf => ?_, fun hf hk => ?_⟩, fun s l hp hk hs h => ?_, fun s l w hp h hw hd hk => ?_,
    fun s l hp hs ht hw => ?_⟩
  · have he := (State.answerWaitEnds_row h hw hd hpc).trans (State.boardMissed_again ho hf w r)
    have hs := finish_setLink he (.inr (Link.not_drained ho (.inr (.inl (List.ne_nil_of_mem ((mem_join _ _ _).2 (.inl rfl)))))))
    have hst : ((s.finish (s.answerWaitEnds l).sessionDark).link l).stale = join r (s.link l).stale := by
      rw [State.link, hs.bc]
      exact congrArg Link.stale (vget_vset_self _ _ _)
    refine ⟨_, exec_answerWaitExpiry hp l, fun x => ?_, ?_⟩
    · rw [hst]
      exact mem_join _ _ _
    · rw [hst]
      exact hs
  · have he := (State.answerWaitEnds_row h hw hd hpc).trans (State.boardMissed_third ho hf w r)
    obtain ⟨h20, hsame⟩ := finish_raiseLink he (.inl hk) ho (y := .offline) rfl (by decide)
    exact ⟨_, exec_answerWaitExpiry hp l, h20, hsame⟩
  · have he := State.answerWaitEnds_probe h rfl rfl rfl hs
    rw [Link.endPiece_eq] at he
    exact ⟨_, exec_answerWaitExpiry hp l, finish_setLink he (.inl hk)⟩
  · have he := State.answerWaitEnds_discarded h hw hd
    rw [Link.endPiece_eq] at he
    exact ⟨_, exec_answerWaitExpiry hp l, finish_setLink he (.inl hk)⟩
  · have hx : exec (.probeIntervalExpiry l) s = .next (s.finish (s.probeIntervalEnds l)) := partEvent_next _ s hp
    rw [State.probeIntervalEnds_eq hs ht hw] at hx
    exact ⟨_, hx, linksBecome_finish s _⟩

/-! ### Line reads (R59, R71, R72) -/

theorem isBoardChar_iff (c : Byte) :
    isBoardChar c = true ↔ (0x20 ≤ c.toNat ∧ c.toNat ≤ 0x5F) ∨ (0x81 ≤ c.toNat ∧ c.toNat ≤ 0x8E) := by
  simp [isBoardChar, BitVec.le_def]

/-- The answer of the presented line read. -/
theorem State.textReadAnswered_word {s : State} {l : LinkId} {r : Nat} {ln : LineRead} {fromPass discard : Bool}
    (h : s.bc.textRequest = some l) (hw : (s.link l).work = some ⟨.textRow r, .reading ln, fromPass, discard⟩) :
    s.textReadAnswered = s.setBc ({ s.bc with
      links := vset s.bc.links l ((s.link l).takeTextWord r ⟨.textRow r, .reading ln, fromPass, discard⟩ ln
        (s.mem.readWord ln.address))
      textRequest := none, textLast := l } : BoardController).presentRead := by
  simp only [State.textReadAnswered, h, hw]
  rfl

/-- After an answer the rotation goes on from the link answered. -/
theorem linesAnswered_finish (s : State) (l : LinkId) (links : Vector Link 4) :
    (let t := s.finish (s.setBc ({ s.bc with links := links, textRequest := none, textLast := l } : BoardController).presentRead).freePort
     RotationPicks l links t.bc.textRequest ∧
       SameButMarks { s with bc := { s.bc with links := links, textLast := l, textRequest := t.bc.textRequest } } t) := by
  have hb := BoardController.presentRead_none (b := { s.bc with links := links, textRequest := none, textLast := l }) rfl
  have hbc : ∀ b, (s.finish (s.setBc b).freePort).bc = b := fun b => State.finish_bc s _
  intro t
  have ht : t.bc = _ := (hbc _).trans hb
  rw [ht]
  refine ⟨rotationPicks_find _ _, State.finish_freePort_sameAs s ?_⟩
  rw [hb]
  exact SameButMarks.refl _

/-- Settles O51: a word is taken by `Link.takeTextWord`. -/
theorem textLineReadTakesWord : Obligations.TextLineReadTakesWord := by
  refine ⟨fun c hc => if_pos ((isBoardChar_iff c).2 hc), fun c hc => if_neg fun h => hc ((isBoardChar_iff c).1 h), ?_⟩
  intro s l r ln fromPass discard hp hh hport hreq hwork w chars answeredWith
  have key : ∀ k, (s.link l).takeTextWord r ⟨.textRow r, .reading ln, fromPass, discard⟩ ln (s.mem.readWord ln.address) = k →
      answeredWith k := by
    rintro k rfl
    have he := State.textReadAnswered_word hreq hwork
    have hx := exec_textLineReadAnswer hp hport
    rw [State.afterRead_none _ ((State.finish_held _ _).trans ((State.freePort_held _).trans (by rw [he]; exact hh))), he] at hx
    exact ⟨_, hx, linesAnswered_finish s l _⟩
  exact ⟨fun hr => key _ (if_neg (Nat.not_le.2 hr)), fun hr => key _ (if_pos (Nat.le_of_eq hr))⟩

end Sys2Proof.Machine
end

