-- ==== Sys2Proof/Proofs/Texts.lean ====
section
/-!
PROOFS. The composed texts obey the rules of the texts: digits, prices, fitting, the fields of a record and their colours (1.6 to 1.8),
frames and their line form (11.4).
-/

namespace Sys2Proof.Machine

-- Elaborated one after the other, the proofs hold less memory at once.
set_option Elab.async false

/-! ### Digits -/

theorem byte_toNat {v : Nat} (h : v < 2 ^ 8) : (BitVec.ofNat 8 v).toNat = v := by
  rw [BitVec.toNat_ofNat, Nat.mod_eq_of_lt h]

theorem digitChar_toNat (n : Nat) : (digitChar n).toNat = 0x30 + n % 10 :=
  byte_toNat ((Nat.add_lt_add_left (Nat.mod_lt n (by decide)) 0x30).trans (by decide))

theorem digitChar_range (n : Nat) : 0x30 ≤ digitChar n ∧ digitChar n ≤ 0x39 := by
  have h := digitChar_toNat n
  simp only [BitVec.le_def, h]
  constructor
  · show 48 ≤ 48 + n % 10
    omega
  · show 48 + n % 10 ≤ 57
    omega

theorem decimalIs_digit {n : Nat} (h : n < 10) : DecimalIs n [digitChar n] := by
  refine ⟨List.cons_ne_nil _ _, fun c hc => ?_, fun h => absurd h (by simp), ?_⟩
  · obtain rfl := List.mem_singleton.1 hc
    exact digitChar_range n
  · simp only [List.foldl_cons, List.foldl_nil, digitChar_toNat]
    omega

/-- A digit put behind the digits of a number that is not 0. -/
theorem DecimalIs.snoc {n : Nat} {ds : Text} (h : DecimalIs (n / 10) ds) (hn : n / 10 ≠ 0) : DecimalIs n (ds ++ [digitChar n]) := by
  obtain ⟨hne, hdigits, hlead, hval⟩ := h
  refine ⟨by simp, fun c hc => ?_, fun _ => ?_, ?_⟩
  · obtain hc | hc := List.mem_append.1 hc
    · exact hdigits c hc
    · obtain rfl := List.mem_singleton.1 hc
      exact digitChar_range n
  · obtain ⟨x, xs, rfl⟩ := List.exists_cons_of_ne_nil hne
    rw [List.cons_append, List.head?_cons]
    intro e
    obtain rfl := Option.some.inj e
    cases xs with
    | nil => exact hn (by simpa using hval.symm)
    | cons y ys => exact hlead (by simp) rfl
  · rw [List.foldl_append, hval]
    simp only [List.foldl_cons, List.foldl_nil, digitChar_toNat]
    omega

theorem decimalGo_spec (fuel : Nat) : ∀ (n : Nat) (acc : Text), n < 10 ^ (fuel + 1) →
    ∃ ds, decimalGo (fuel + 1) n acc = ds ++ acc ∧ DecimalIs n ds := by
  induction fuel with
  | zero =>
    intro n acc h
    have h10 : n < 10 := by simpa using h
    refine ⟨[digitChar n], ?_, decimalIs_digit h10⟩
    rw [decimalGo, if_pos (Nat.div_eq_of_lt h10)]
    rfl
  | succ fuel ih =>
    intro n acc h
    rw [decimalGo]
    by_cases hn : n / 10 = 0
    · rw [if_pos hn]
      exact ⟨[digitChar n], rfl, decimalIs_digit (by omega)⟩
    · rw [if_neg hn]
      have hlt : n / 10 < 10 ^ (fuel + 1) := by
        rw [pow_succ] at h
        omega
      obtain ⟨ds, he, hd⟩ := ih (n / 10) (digitChar n :: acc) hlt
      exact ⟨ds ++ [digitChar n], by rw [he, List.append_assoc]; rfl, hd.snoc hn⟩

/-- The decimal digits of a number of at most 20 digits. -/
theorem decimalIs_decimal {n : Nat} (h : n < 10 ^ 20) : DecimalIs n (decimal n) := by
  obtain ⟨ds, he, hd⟩ := decimalGo_spec 19 n [] h
  rw [decimal, he, List.append_nil]
  exact hd

/-! ### Prices (R20) -/

theorem wholeIs_wholeText {d t : Nat} (h : t < 10 ^ 20) : WholeIs d t (wholeText d t) := by
  refine ⟨fun hz => if_pos hz, fun hz => ?_⟩
  rw [wholeText, if_neg (by tauto)]
  exact decimalIs_decimal (Nat.lt_of_le_of_lt (Nat.div_le_self _ _) h)

/-- The fraction in lowest terms of a remainder, at the three bases. -/
theorem lowest_terms : ∀ d ∈ [8, 16, 32], ∀ n < d, n ≠ 0 →
    (d / Nat.gcd n d = 16 ∨ d / Nat.gcd n d = 32 ∨
      ((d / Nat.gcd n d = 2 ∨ d / Nat.gcd n d = 4 ∨ d / Nat.gcd n d = 8) ∧
        (let k := n / Nat.gcd n d * (8 / (d / Nat.gcd n d))
         k * (d / Nat.gcd n d) = n / Nat.gcd n d * 8 ∧ 1 ≤ k ∧ k ≤ 7))) ∧
    n / Nat.gcd n d * d = n * (d / Nat.gcd n d) ∧ Nat.gcd (n / Nat.gcd n d) (d / Nat.gcd n d) = 1 := by
  decide

theorem fractionIs_fractionText {d n : Nat} (hd : d ∈ [8, 16, 32]) (hn : n < d) (spaced : Bool) :
    FractionIs d n spaced (fractionText d n spaced) := by
  refine ⟨fun hz => if_pos hz, fun hz => ?_⟩
  obtain ⟨hcase, hmul, hgcd⟩ := lowest_terms d hd n hn hz
  have hle : n / Nat.gcd n d ≤ n := Nat.div_le_self _ _
  have h32 : d ≤ 32 := (by decide : ∀ d ∈ [8, 16, 32], d ≤ 32) d hd
  have hdec : DecimalIs (n / Nat.gcd n d) (decimal (n / Nat.gcd n d)) := decimalIs_decimal (by omega)
  refine ⟨n / Nat.gcd n d, d / Nat.gcd n d, hmul, hgcd, ?_⟩
  rw [fractionText, if_neg hz]
  obtain h16 | h32 | ⟨h, hk⟩ := hcase
  · refine .inr ⟨.inl h16, _, hdec, ?_⟩
    simp only [h16, if_true]
    rfl
  · refine .inr ⟨.inr h32, _, hdec, ?_⟩
    simp only [h32]
    rfl
  · refine .inl ⟨h, _, hk.1, hk.2.1, hk.2.2, ?_⟩
    have h1 : d / Nat.gcd n d ≠ 16 := by omega
    have h2 : d / Nat.gcd n d ≠ 32 := by omega
    simp only [h1, h2, if_false]
    rfl

/-- The base of a used slot is one of three (Table 1-2). -/
theorem ticks_mem {b : PriceBase} (h : b ≠ .none) : b.ticks ∈ [8, 16, 32] := by
  cases b
  · exact absurd rfl h
  all_goals decide

theorem mod_ticks_lt {b : PriceBase} (h : b ≠ .none) (t : Nat) : t % b.ticks < b.ticks :=
  Nat.mod_lt _ ((by decide : ∀ d ∈ [8, 16, 32], 0 < d) _ (ticks_mem h))

theorem priceTextIs_priceText {b : PriceBase} (h : b ≠ .none) {t : Nat} (ht : t < 10 ^ 20) :
    PriceTextIs b.ticks t (priceText b.ticks t) :=
  ⟨_, _, wholeIs_wholeText ht, fractionIs_fractionText (ticks_mem h) (mod_ticks_lt h t) _, rfl⟩

/-! ### Fitting (R23, R25) -/

/-- A fitted text is whole, or its shorter form, or "#". -/
theorem fittedInto_fit (w : Nat) (t : FieldText) : FittedInto w t.full t.cut (fit w t) := by
  refine ⟨fun h => if_pos h, fun h c hc hl => ?_, fun h hc => ?_⟩
  · rw [fit, if_neg (Nat.not_le.2 h), hc]
    exact if_pos hl
  · rw [fit, if_neg (Nat.not_le.2 h)]
    cases hcut : t.cut with
    | none => rfl
    | some c => exact if_neg (Nat.not_le.2 (hc c hcut))

theorem fit_length (w : Nat) (t : FieldText) : (fit w t).length = w := by
  have pad : ∀ x : Text, x.length ≤ w → (padLeft w x).length = w := fun x hx => by
    simp only [padLeft, spaces, List.length_append, List.length_replicate]
    omega
  unfold fit
  split
  · rename_i h
    exact pad _ h
  split
  · split
    · rename_i h
      exact pad _ h
    · exact List.length_replicate
  · exact List.length_replicate

theorem fit_empty (w : Nat) : fit w (.plain []) = List.replicate w 0x20 := by
  simp [fit, FieldText.plain, padLeft, spaces, chSpace]

/-- A price in a field, behind an arrow or nothing. -/
theorem priceFitted_fit {b : PriceBase} (h : b ≠ .none) {t : Nat} (ht : t < 10 ^ 20) (lead : Text) (w : Nat) :
    PriceFitted lead b.ticks t w
      (fit w ⟨lead ++ (priceField b.ticks t).full, (priceField b.ticks t).cut.map (lead ++ ·)⟩) := by
  refine ⟨_, _, wholeIs_wholeText ht, fractionIs_fractionText (ticks_mem h) (mod_ticks_lt h t) _, ?_⟩
  have hfit := fittedInto_fit w ⟨lead ++ (priceField b.ticks t).full, (priceField b.ticks t).cut.map (lead ++ ·)⟩
  have hcut : (priceField b.ticks t).cut.map (lead ++ ·) =
      if t % b.ticks = 0 then none else some (lead ++ wholeText b.ticks t ++ [0x8A]) := by
    unfold priceField
    split
    · rfl
    · exact congrArg some (List.append_assoc ..).symm
  rw [← hcut, List.append_assoc]
  exact hfit

theorem priceFitted_plain {b : PriceBase} (h : b ≠ .none) {t : Nat} (ht : t < 10 ^ 20) (w : Nat) :
    PriceFitted [] b.ticks t w (fit w (priceField b.ticks t)) := by
  have hp := priceFitted_fit h ht [] w
  have he : (priceField b.ticks t).cut.map (([] : Text) ++ ·) = (priceField b.ticks t).cut := by simp
  rw [he] at hp
  exact hp

theorem volumeFitted_fitVolume (w : Nat) {v : Nat} (hv : v < 10 ^ 20) : VolumeFitted v w (fitVolume w v) := by
  refine ⟨fun hz => if_pos hz, fun hz => ?_⟩
  have hle : ∀ k, v / k < 10 ^ 20 := fun k => Nat.lt_of_le_of_lt (Nat.div_le_self _ _) hv
  refine ⟨_, _, _, decimalIs_decimal hv, decimalIs_decimal (hle 1000), decimalIs_decimal (hle 1000000), ?_⟩
  have hk : (decimal (v / 1000) ++ ascii ['K']).length = (decimal (v / 1000)).length + 1 := by simp [ascii]
  have hm : (decimal (v / 1000000) ++ ascii ['M']).length = (decimal (v / 1000000)).length + 1 := by simp [ascii]
  rw [fitVolume, if_neg hz]
  simp only [hk, hm]
  refine ⟨fun h => if_pos h, fun h hkilo => ?_, fun h hkilo hmega => ?_, fun h hkilo hmega => ?_⟩
  · exact (if_neg (Nat.not_le.2 h)).trans (if_pos hkilo)
  · exact (if_neg (Nat.not_le.2 h)).trans ((if_neg hkilo).trans (if_pos hmega))
  · exact (if_neg (Nat.not_le.2 h)).trans ((if_neg hkilo).trans (if_neg hmega))

theorem fitVolume_length (w v : Nat) : (fitVolume w v).length = w := by
  have pad : ∀ x : Text, x.length ≤ w → (padLeft w x).length = w := fun x hx => by
    simp only [padLeft, spaces, List.length_append, List.length_replicate]
    omega
  unfold fitVolume
  simp only
  split
  · exact List.length_replicate
  split
  · rename_i h
    exact pad _ h
  split
  · rename_i h
    exact pad _ h.2
  split
  · rename_i h
    exact pad _ h.2
  · exact List.length_replicate

/-! ### The fields of a record (R21 to R26) -/

theorem Priced.base {r : SlotRec} (h : Priced r) (hp : r.last ≠ 0 ∨ r.close ≠ 0 ∨ r.high ≠ 0 ∨ r.low ≠ 0) : r.base ≠ .none := by
  intro hb
  obtain ⟨h1, h2, h3, h4⟩ := h hb
  obtain hp | hp | hp | hp := hp
  · exact hp h1
  · exact hp h2
  · exact hp h3
  · exact hp h4

theorem word_small (x : Word) : x.toNat < 10 ^ 20 := Nat.lt_trans x.isLt (by decide)

theorem optPriceField_zero {d : Nat} {x : Word} (h : x = 0) (w : Nat) : fit w (optPriceField d x) = List.replicate w 0x20 := by
  rw [optPriceField, if_pos h]
  exact fit_empty w

theorem optPriceField_price {b : PriceBase} (hb : b ≠ .none) {x : Word} (h : x ≠ 0) (w : Nat) :
    PriceFitted [] b.ticks x.toNat w (fit w (optPriceField b.ticks x)) := by
  rw [optPriceField, if_neg h]
  exact priceFitted_plain hb (word_small x) w

/-- The last field (R22). -/
theorem lastField_shows {r : SlotRec} (h : Priced r) (w : Nat) : FieldShows r w (fit w (lastField r)) .last := by
  refine ⟨fun hs => ?_, fun hs hl => ?_, fun hs hl hc => ?_, fun hs hl hc => ?_⟩
  · rw [lastField, if_pos hs]
    exact fittedInto_fit w (.plain (codesOf "HALT"))
  · rw [lastField, if_neg hs, if_pos hl]
    exact priceFitted_plain (h.base (.inl hl)) (word_small _) w
  · rw [lastField, if_neg hs, if_neg (not_not.2 hl)]
    exact optPriceField_price (h.base (.inr (.inl hc))) hc w
  · rw [lastField, if_neg hs, if_neg (not_not.2 hl)]
    exact optPriceField_zero hc w

theorem SlotRec.change_none {r : SlotRec} (h : r.last = 0 ∨ r.close = 0) : r.change = none :=
  if_neg fun hc => h.elim hc.1 hc.2

theorem SlotRec.change_some {r : SlotRec} (hl : r.last ≠ 0) (hc : r.close ≠ 0) :
    r.change = some ((r.last.toNat : Int) - r.close.toNat) := if_pos ⟨hl, hc⟩

/-- A change other than 0: its arrow and the price of its size. -/
theorem changeField_shows {b : PriceBase} (hb : b ≠ .none) {c : Int} (hc : c ≠ 0) (hs : c.natAbs < 10 ^ 20) (w : Nat) :
    PriceFitted [if 0 < c then 0x8B else 0x8D] b.ticks c.natAbs w (fit w (changeField b.ticks (some c))) := by
  have h := priceFitted_fit hb hs [if 0 < c then 0x8B else 0x8D] w
  simp only [changeField, if_neg hc]
  exact h

/-- The change field (R21). -/
theorem changeField_fieldShows {r : SlotRec} (h : Priced r) (w : Nat) :
    FieldShows r w (fit w (changeField r.base.ticks r.change)) .change := by
  refine ⟨fun hz => ?_, fun hl hc => ?_⟩
  · rw [SlotRec.change_none hz]
    exact fit_empty w
  · rw [SlotRec.change_some hl hc]
    have hb := h.base (.inl hl)
    have hle := r.last.isLt
    have hce := r.close.isLt
    refine ⟨fun he => ?_, fun hlt => ?_, fun hlt => ?_⟩
    · rw [he, Int.sub_self]
      exact fittedInto_fit w (.plain (codesOf "UNC"))
    · have hn : r.close.toNat < r.last.toNat := hlt
      have hs := changeField_shows hb (c := (r.last.toNat : Int) - r.close.toNat) (by omega) (by omega) w
      rw [if_pos (by omega), show ((r.last.toNat : Int) - r.close.toNat).natAbs = r.last.toNat - r.close.toNat by omega] at hs
      exact hs
    · have hn : r.last.toNat < r.close.toNat := hlt
      have hs := changeField_shows hb (c := (r.last.toNat : Int) - r.close.toNat) (by omega) (by omega) w
      rw [if_neg (by omega), show ((r.last.toNat : Int) - r.close.toNat).natAbs = r.close.toNat - r.last.toNat by omega] at hs
      exact hs

/-- The tick glyph (R24). -/
theorem tickText_shows (r : SlotRec) (w : Nat) : FieldShows r w (fit w (.plain (tickText r.direction))) .tick := by
  refine ⟨fun hd => ?_, fun glyph hm => ?_⟩
  · rw [hd]
    exact fit_empty w
  · have ht : tickText r.direction = [glyph] := by
      simp only [List.mem_cons, Prod.mk.injEq, List.not_mem_nil, or_false] at hm
      obtain ⟨hd, rfl⟩ | ⟨hd, rfl⟩ | ⟨hd, rfl⟩ | ⟨hd, rfl⟩ := hm <;> rw [hd] <;> rfl
    rw [ht]
    exact fittedInto_fit w (.plain [glyph])

theorem fitName_eq (w : Nat) (name : Text) :
    fitName w name = name.take w ++ List.replicate (w - min w name.length) 0x20 := by
  rw [fitName, padRight, List.length_take]
  rfl

/-- A cell shows its field as chapter 1 writes it. -/
theorem cellText_shows {r : SlotRec} (h : Priced r) (k : FieldKind) (w : Nat) : FieldShows r w (cellText r k w) k := by
  cases k with
  | name => exact fitName_eq w r.name
  | last => exact lastField_shows h w
  | change => exact changeField_fieldShows h w
  | high => exact ⟨fun hz => optPriceField_zero hz w, fun hz => optPriceField_price (h.base (.inr (.inr (.inl hz)))) hz w⟩
  | low => exact ⟨fun hz => optPriceField_zero hz w, fun hz => optPriceField_price (h.base (.inr (.inr (.inr hz)))) hz w⟩
  | volume => exact volumeFitted_fitVolume w (Nat.lt_trans r.volume.isLt (by decide))
  | tick => exact tickText_shows r w

theorem cellText_length (r : SlotRec) (k : FieldKind) (w : Nat) : (cellText r k w).length = w := by
  cases k with
  | name =>
    show (fitName w r.name).length = w
    rw [fitName_eq, List.length_append, List.length_replicate, List.length_take]
    omega
  | volume => exact fitVolume_length w _
  | last => exact fit_length w _
  | change => exact fit_length w _
  | high => exact fit_length w _
  | low => exact fit_length w _
  | tick => exact fit_length w _

theorem colourOfDirection (d : Direction) : ColourOfDirection d d.colour := by
  cases d <;> simp [ColourOfDirection, Direction.colour]

theorem changeColour_of_sign (c : Int) :
    (c = 0 → changeColour (some c) = .white) ∧ (0 < c → changeColour (some c) = .green) ∧ (c < 0 → changeColour (some c) = .red) :=
  ⟨fun h => by simp [changeColour, h], fun h => if_pos h, fun h => (if_neg (by omega)).trans (if_pos h)⟩

/-- The colour of a cell is that of R26. -/
theorem fieldColoured_cellColour (r : SlotRec) (k : FieldKind) : FieldColoured r (cellColour r k) k := by
  cases k with
  | last =>
    refine ⟨fun h => if_pos h, fun hs hl => ?_⟩
    rw [cellColour, if_neg (not_or.2 ⟨hs, hl⟩)]
    exact colourOfDirection _
  | tick =>
    refine ⟨fun h => if_pos h, fun hs => ?_⟩
    rw [cellColour, if_neg hs]
    exact colourOfDirection _
  | change =>
    have hval : r.state ≠ .halted → cellColour r .change = changeColour r.change := fun hs => if_neg hs
    obtain ⟨h0, hpos, hneg⟩ := changeColour_of_sign ((r.last.toNat : Int) - r.close.toNat)
    refine ⟨fun h => ?_, fun hs hc hlt => ?_, fun hs hl hlt => ?_⟩
    · by_cases hs : r.state = .halted
      · exact if_pos hs
      rw [hval hs]
      by_cases hz : r.last = 0 ∨ r.close = 0
      · rw [SlotRec.change_none hz]
        rfl
      · simp only [not_or] at hz
        have he : r.last = r.close := by tauto
        rw [SlotRec.change_some hz.1 hz.2]
        exact h0 (by rw [he, Int.sub_self])
    · have hl : r.last ≠ 0 := by
        rintro e
        rw [e] at hlt
        exact absurd hlt (by simp)
      have hn : r.close.toNat < r.last.toNat := hlt
      rw [hval hs, SlotRec.change_some hl hc]
      exact hpos (by omega)
    · have hc : r.close ≠ 0 := by
        rintro e
        rw [e] at hlt
        exact absurd hlt (by simp)
      have hn : r.last.toNat < r.close.toNat := hlt
      rw [hval hs, SlotRec.change_some hl hc]
      exact hneg (by omega)
  | name => rfl
  | high => rfl
  | low => rfl
  | volume => rfl

/-! ### Frames (11.4) -/

theorem byteSum_toNat (bs : Text) : (byteSum bs).toNat = (bs.map BitVec.toNat).sum % 256 := by
  have key : ∀ (bs : Text) (x : Byte), (bs.foldl (· + ·) x).toNat = (x.toNat + (bs.map BitVec.toNat).sum) % 256 := by
    intro bs
    induction bs with
    | nil =>
      intro x
      exact (Nat.mod_eq_of_lt x.isLt).symm
    | cons b bs ih =>
      intro x
      rw [List.foldl_cons, ih, List.map_cons, List.sum_cons, BitVec.toNat_add, Nat.mod_add_mod, Nat.add_assoc]
  rw [byteSum, key]
  simp

/-- A check is good when the bytes and 5AH sum to 0 in eight bits (R204). -/
theorem checkGood_iff (bs : Text) : CheckGood bs ↔ byteSum bs + 0x5A = 0 := by
  have h : (byteSum bs + 0x5A).toNat = ((bs.map BitVec.toNat).sum + 0x5A) % 256 := by
    rw [BitVec.toNat_add, byteSum_toNat]
    exact Nat.mod_add_mod _ _ _
  rw [CheckGood, ← h]
  exact BitVec.toNat_inj (y := 0)

/-- The check byte makes a frame good. -/
theorem checkGood_sealed (bs : Text) : CheckGood (sealed bs) := by
  rw [checkGood_iff, sealed, byteSum, List.foldl_append]
  show byteSum bs + -(byteSum bs + 0x5A) + 0x5A = 0
  rw [add_right_comm, add_neg_cancel]

theorem boardFrameIs_boardFrame {e : Erase} {row column : Nat} {blink : Bool} {c : Colour} {chars : Text} (hr : row < 32)
    (hc : column < 64) (hl : chars.length ≤ 48) : BoardFrameIs e row column blink c chars (boardFrame e row column blink c chars) := by
  have hec : e.code ≤ 2 := by cases e <;> decide
  have hcc : c.code ≤ 2 := by cases c <;> decide
  have hlt0 := Nat.add_le_add (Nat.mul_le_mul_left 32 hec) (Nat.le_of_lt_succ hr)
  have hlt2 := Nat.add_le_add (Nat.mul_le_mul_left 4 (flagBit_le blink)) hcc
  obtain ⟨hrow, herase⟩ := lowDigit ((byte_toNat (hlt0.trans_lt (by decide))).trans (Nat.add_comm _ _)) hr
  obtain ⟨hcolour, hblink⟩ := lowDigit ((byte_toNat (hlt2.trans_lt (by decide))).trans (Nat.add_comm _ _)) (hcc.trans_lt (by decide))
  refine ⟨⟨_, _, _, _, _, rfl, hrow, ?_, byte_toNat (hc.trans (by decide)), ?_, hblink, byte_toNat (hl.trans_lt (by decide))⟩,
    checkGood_sealed _⟩
  · rw [herase]
    cases e <;> decide
  · rw [hcolour]
    cases c <;> decide

theorem terminalFrameIs_terminalFrame {u : TermId} {line : Nat} (h : line < 256) (chars : Text) (reversed bell clear : Bool) :
    TerminalFrameIs u line chars reversed bell clear (terminalFrame u line chars reversed bell clear) := by
  have hlt := Nat.add_le_add (Nat.add_le_add (flagBit_le reversed) (Nat.mul_le_mul_left 2 (flagBit_le bell)))
    (Nat.mul_le_mul_left 4 (flagBit_le clear))
  exact ⟨⟨_, _, _, _, rfl, byte_toNat (u.isLt.trans (by decide)), byte_toNat h, byte_toNat (hlt.trans_lt (by decide))⟩,
    checkGood_sealed _⟩

theorem terminalFrameIs_pollFrame (u : TermId) : TerminalFrameIs u 255 [] false false false (pollFrame u) := by
  have hu := u.isLt
  refine ⟨⟨_, _, _, _, rfl, ?_, rfl, rfl⟩, checkGood_sealed _⟩
  rw [BitVec.toNat_ofNat]
  omega

/-! ### The line form (R204) -/

theorem byteOnLine_length (b : Byte) : (byteOnLine b).length = 10 := rfl

theorem byteOnLine_symbols (b : Byte) :
    (byteOnLine b)[0]? = some .start ∧ (byteOnLine b)[9]? = some .stop ∧
      ∀ j, j < 8 → (byteOnLine b)[1 + j]? = some (.data (b.getLsbD j)) := by
  refine ⟨rfl, rfl, fun j hj => ?_⟩
  interval_cases j <;> rfl

theorem onLine_length (bytes : Text) : (onLine bytes).length = 10 * bytes.length := by
  induction bytes with
  | nil => rfl
  | cons b bs ih =>
    rw [onLine, List.flatMap_cons, List.length_append, byteOnLine_length, ← onLine, ih, List.length_cons]
    omega

/-- The symbols of the byte at a place stand in its ten places. -/
theorem onLine_symbol {bytes : Text} {i : Nat} {b : Byte} (h : bytes[i]? = some b) {j : Nat} (hj : j < 10) :
    (onLine bytes)[10 * i + j]? = (byteOnLine b)[j]? := by
  induction bytes generalizing i with
  | nil => cases h
  | cons x xs ih =>
    rw [onLine, List.flatMap_cons, ← onLine]
    cases i with
    | zero =>
      obtain rfl : x = b := by simpa using h
      rw [Nat.mul_zero, Nat.zero_add, List.getElem?_append_left (by rw [byteOnLine_length]; exact hj)]
    | succ i =>
      have h' : xs[i]? = some b := by simpa using h
      have hnext : 10 * (i + 1) + j = 10 * i + j + 10 := by rw [Nat.mul_succ, Nat.add_right_comm]
      rw [hnext, List.getElem?_append_right (by rw [byteOnLine_length]; exact Nat.le_add_left _ _), byteOnLine_length,
        Nat.add_sub_cancel, ih h']

theorem onLineIs_onLine (bytes : Text) : OnLineIs bytes (onLine bytes) := by
  refine ⟨onLine_length bytes, fun i b hb => ?_⟩
  obtain ⟨h0, h9, hd⟩ := byteOnLine_symbols b
  refine ⟨(onLine_symbol hb (j := 0) (by omega)).trans h0, (onLine_symbol hb (by omega)).trans h9, fun j hj => ?_⟩
  rw [Nat.add_assoc]
  exact (onLine_symbol hb (by omega)).trans (hd j hj)

end Sys2Proof.Machine
end

