-- ==== Sys2Proof/Proofs/Tape.lean ====
section
/-!
PROOFS. The tape: prints that join it, are merged or dropped, bulletins, and what an expiry of the pace timer sends (chapter 6).
-/

namespace Sys2Proof.Machine

-- Elaborated one after the other, the proofs hold less memory at once.
set_option Elab.async false

/-! ### Prints that join (R109 to R111) -/

/-- The print is a trade of the slot. -/
def Print.IsOf (slot : Slot) : Print → Prop
  | .trade n _ _ _ _ => n = slot
  | .bulletin _ _ => False

/-- The youngest print of the slot takes the trade, the prints before it passed over. -/
theorem mergeYoungest_some {slot : Slot} {price p : Word} {size z : Option Word} {st : Nat} {om : Bool} {zs : List Print} :
    ∀ (ys : List Print) (k : Nat), ys.length < k → (∀ x ∈ ys, ¬ x.IsOf slot) →
      mergeYoungest slot price size k (ys ++ .trade slot p z st om :: zs) =
        some (ys ++ .trade slot price (mergeSizes z size) st om :: zs) := by
  intro ys
  induction ys with
  | nil =>
    intro k hk _
    obtain ⟨k, rfl⟩ := Nat.exists_eq_add_of_lt hk
    simp [mergeYoungest]
  | cons y ys ih =>
    intro k hk h
    obtain ⟨k, rfl⟩ := Nat.exists_eq_add_of_lt hk
    have ih := ih (ys.length + 1 + k) (by omega) fun x hx => h x (List.mem_cons_of_mem _ hx)
    cases y with
    | trade n pr sz s' o =>
      have hn : n ≠ slot := h _ (List.mem_cons_self ..)
      simp [mergeYoungest, hn, ih]
    | bulletin tx o => simp [mergeYoungest, ih]

/-- No print of the slot among the youngest, none to merge into. -/
theorem mergeYoungest_none {slot : Slot} (price : Word) (size : Option Word) :
    ∀ (k : Nat) (ps : List Print), (∀ x ∈ ps.take k, ¬ x.IsOf slot) → mergeYoungest slot price size k ps = none := by
  intro k
  induction k with
  | zero => exact fun ps _ => by cases ps <;> rfl
  | succ k ih =>
    intro ps h
    cases ps with
    | nil => rfl
    | cons y ps =>
      have ih := ih ps fun x hx => h x (List.mem_cons_of_mem _ hx)
      cases y with
      | trade n pr sz s' o =>
        have hn : n ≠ slot := h _ (List.mem_cons_self ..)
        simp [mergeYoungest, hn, ih]
      | bulletin tx o => simp [mergeYoungest, ih]

theorem Print.not_isOf {slot : Slot} {x : Print} (h : ∀ p z st om, x ≠ .trade slot p z st om) : ¬ x.IsOf slot := by
  cases x with
  | trade n p z st om =>
    rintro rfl
    exact h p z st om rfl
  | bulletin t om => exact id

theorem mergeSizes_eq (z size : Option Word) :
    mergeSizes z size = match z, size with
      | some a, some b => some (BitVec.ofNat 16 (min 65535 (a.toNat + b.toNat)))
      | some a, none => some a
      | none, some b => some b
      | none, none => none := by
  cases z <;> cases size <;> rfl

/-- Settles O53: the notice is `TapeController.addTrade`. -/
theorem tradesJoinTheTape : Obligations.TradesJoinTheTape := by
  intro tc n
  refine ⟨tc.notice_none n, fun d hd => ?_⟩
  have he : tc.notice n = tc.addTrade n.slot d := by rw [TapeController.notice, hd]
  have hfull : 96 ≤ tc.queue.length → tc.addTrade n.slot d =
      match mergeYoungest n.slot d.price d.size 8 tc.queue.reverse with
      | some q => { tc with queue := q.reverse }
      | none => tc.drop := fun h => if_neg (Nat.not_lt.2 h)
  rw [he]
  refine ⟨fun h => if_pos h, fun older younger p z st om h hq hy hn => ?_, fun h hn => ?_⟩
  · have hrev : tc.queue.reverse = younger.reverse ++ .trade n.slot p z st om :: older.reverse := by
      rw [hq]
      simp
    intro size'
    have hsize : size' = mergeSizes z d.size := (mergeSizes_eq z d.size).symm
    rw [hfull h, hrev, hsize, mergeYoungest_some younger.reverse 8 (by simpa using hy)
      fun x hx => Print.not_isOf (hn x (List.mem_reverse.1 hx))]
    simp
  · have hnone : mergeYoungest n.slot d.price d.size 8 tc.queue.reverse = none := by
      refine mergeYoungest_none _ _ _ _ fun x hx => Print.not_isOf (hn x ?_)
      rw [List.take_reverse] at hx
      exact List.mem_reverse.1 hx
    rw [hfull h, hnone]
    exact ⟨countUp_toNat _, rfl⟩

/-! ### Bulletins (R112, R113) -/

theorem isTapeChar_iff (c : Byte) :
    isTapeChar c = true ↔ (0x20 ≤ c.toNat ∧ c.toNat ≤ 0x5F) ∨ (0x81 ≤ c.toNat ∧ c.toNat ≤ 0x90) := by
  revert c
  decide

/-- The part after a bulletin write. -/
theorem exec_bulletinWrite {s : State} {a : Addr} {d : Word} {lanes : Lanes} {i : Fin 8} (hp : PortFree s)
    (ht : target s a = .bulletin i) {tc : TapeController} (htc : s.tc.bulletinWrite i d lanes = tc) :
    ∃ t, exec (.bulletinWrite a d lanes) s = .next t ∧ t.tc = tc ∧
      SameButMarks { s with mem := s.mem.writeWord a.toNat d lanes, tc := tc } t := by
  have hx := exec_write (c := .bulletinWrite a d lanes) rfl (by rintro _ ⟨⟩) hp
  have hw : sideWordAt s a = none := by simp [sideWordAt, ht]
  rw [State.performAccess_write s a d lanes hw, State.handWrite_bulletin ht, htc] at hx
  exact ⟨_, hx, State.finish_tc _ _, State.finish_freePort_sameAs s (SameButMarks.refl _)⟩

/-- Settles O52: the write is `TapeController.bulletinWrite`. -/
theorem bulletinIsShadowedAndQueued : Obligations.BulletinIsShadowedAndQueued := by
  refine ⟨fun c hc => if_pos ((isTapeChar_iff c).2 hc), fun c hc => if_neg fun h => hc ((isTapeChar_iff c).1 h), ?_⟩
  intro s a d lanes i hp ht m old new shadow text
  have hnew : new = mergeLanes old d lanes := by
    show (match lanes with | .both => d | .high => wordOf (hiByte d) (loByte old) | .low => wordOf (hiByte old) (loByte d)) = _
    cases lanes <;> rfl
  have hshadow : shadow = vset s.tc.shadow i (mergeLanes old d lanes) := congrArg (vset s.tc.shadow i) hnew
  have hwrite : s.tc.bulletinWrite i d lanes =
      if i = 7 ∧ lanes = .both then ({ s.tc with shadow := shadow } : TapeController).addBulletin
      else { s.tc with shadow := shadow } := by
    rw [hshadow]
    rfl
  have hadd : ({ s.tc with shadow := shadow } : TapeController).addBulletin =
      if text = [] then { s.tc with shadow := shadow }
      else if s.tc.queue.length < 96 then
        { s.tc with shadow := shadow, queue := s.tc.queue ++ [.bulletin text s.tc.omitPending], omitPending := false }
      else ({ s.tc with shadow := shadow } : TapeController).drop := rfl
  refine ⟨fun h => ?_, fun hi hl htext hq => ?_, fun hi hl htext hq => ?_⟩
  · have htc : s.tc.bulletinWrite i d lanes = { s.tc with shadow := shadow } := by
      rw [hwrite]
      by_cases hc : i = 7 ∧ lanes = .both
      · rw [if_pos hc, hadd, if_pos ((h.resolve_left (not_not.2 hc.1)).resolve_left (not_not.2 hc.2))]
      · exact if_neg hc
    obtain ⟨t, hx, -, hs⟩ := exec_bulletinWrite hp ht htc
    exact ⟨t, hx, hs⟩
  · obtain ⟨t, hx, -, hs⟩ := exec_bulletinWrite hp ht
      (hwrite.trans ((if_pos ⟨hi, hl⟩).trans (hadd.trans ((if_neg htext).trans (if_pos hq)))))
    exact ⟨t, hx, hs⟩
  · obtain ⟨t, hx, htc, hs⟩ := exec_bulletinWrite hp ht
      (hwrite.trans ((if_pos ⟨hi, hl⟩).trans (hadd.trans ((if_neg htext).trans (if_neg (Nat.not_lt.2 hq))))))
    refine ⟨t, hx, ?_, ?_⟩
    · rw [htc]
      exact countUp_toNat _
    · rw [htc]
      exact hs

/-! ### The text of a trade (R122, R123) -/

/-- The text of a TRADE print is that of its mode. -/
theorem tradeTextIs_tradeText (mode : TapeMode) (threshold : Nat) (memo : Option Nat) {r : SlotRec} (price : Word)
    (size : Option Word) (omitMark : Bool) (hb : r.base ≠ .none) :
    TradeTextIs mode threshold memo r price size omitMark (tradeText mode threshold memo r price size omitMark) := by
  refine ⟨sizePart mode threshold size, tapePrice mode memo r.base.ticks price.toNat, rfl, fun z hz hs => ?_, fun hs => ?_,
    fun ⟨hm, m, hmemo, htens⟩ => ?_, fun hs => ?_⟩
  · rw [hz]
    exact ⟨_, decimalIs_decimal (word_small z), if_pos hs⟩
  · cases size with
    | none => rfl
    | some z => exact if_neg (hs z rfl)
  · refine ⟨_, fractionIs_fractionText (ticks_mem hb) (mod_ticks_lt hb _) true, ?_⟩
    rw [hmemo]
    exact if_pos ⟨hm, htens⟩
  · have he : tapePrice mode memo r.base.ticks price.toNat = priceText r.base.ticks price.toNat := by
      cases memo with
      | none => rfl
      | some m => exact if_neg fun h => hs ⟨h.1, m, rfl, h.2⟩
    rw [he]
    exact priceTextIs_priceText hb (word_small price)

/-! ### An expiry of the pace timer (R116, R117) -/

/-- An expiry that leaves the tape not empty, or the floor otherwise lit, and does no more than its step of the tape. -/
theorem exec_tapePace {s u : State} (hp : s.resetPin = false) (hu : s.tapePace = u)
    (h : u.cs.session ≠ .dimming ∨ u.isReady = false ∨ u.bc.drained = false ∨ u.tc.isEmpty = false) :
    ∃ t, exec .tapePaceExpiry s = .next t ∧ t = s.finish u := by
  have hx : exec .tapePaceExpiry s = .next (s.finish s.tapePace.sessionDark) := partEvent_next _ s hp
  rw [hu, State.sessionDark_lit u h] at hx
  exact ⟨_, hx, rfl⟩

/-- An expiry whose step is a change of the tape alone. -/
theorem exec_tapePace_tc {s : State} {tc : TapeController} (hp : s.resetPin = false) (hu : s.tapePace = s.setTc tc)
    (h : s.cs.session ≠ .dimming ∨ s.isReady = false ∨ s.bc.drained = false ∨ tc.isEmpty = false) :
    ∃ t, exec .tapePaceExpiry s = .next t ∧ SameButMarks { s with tc := tc } t := by
  obtain ⟨t, hx, rfl⟩ := exec_tapePace hp hu h
  exact ⟨_, hx, State.finish_same s (s.setTc tc)⟩

theorem TapeController.isEmpty_eq_false {t : TapeController} (h : t.queue ≠ [] ∨ t.reserved ≠ none ∨ t.current ≠ []) :
    t.isEmpty = false := by
  unfold TapeController.isEmpty
  obtain h | h | h := h
  · simp [h]
  · cases hr : t.reserved with
    | none => exact absurd hr h
    | some x => simp
  · simp [h]

section
variable {s : State} (ht : s.tc.timerRunning = true)
include ht

theorem State.tapePace_goes {c : Byte} {cs : Text} (hc : s.tc.current = c :: cs) :
    s.tapePace = s.setTc { s.tc with charOut := some c, current := cs } := by
  simp only [State.tapePace, ht, hc, if_true]

theorem State.tapePace_holds (hc : s.tc.current = []) (hh : s.tapeHold = true) :
    s.tapePace = s.setTc { s.tc with charOut := none } := by
  simp only [State.tapePace, ht, hc, hh, if_true]

theorem State.tapePace_reserved (hc : s.tc.current = []) (hh : s.tapeHold = false) {text : Text} (hr : s.tc.reserved = some text) :
    s.tapePace = s.setTc ({ s.tc with reserved := none }.sendFirst (bulletinText text false)) := by
  simp only [State.tapePace, ht, hc, hh, hr, if_true, Bool.false_eq_true, if_false]

theorem State.tapePace_bulletin (hc : s.tc.current = []) (hh : s.tapeHold = false) (hr : s.tc.reserved = none) {text : Text} {om : Bool}
    {q : List Print} (hq : s.tc.queue = .bulletin text om :: q) :
    s.tapePace = s.setTc ({ s.tc with queue := q }.sendFirst (bulletinText text om)) := by
  simp only [State.tapePace, ht, hc, hh, hr, hq, if_true, Bool.false_eq_true, if_false]

theorem State.tapePace_fill (hc : s.tc.current = []) (hh : s.tapeHold = false) (hr : s.tc.reserved = none) (hq : s.tc.queue = []) :
    s.tapePace = s.setTc { s.tc with charOut := some chSpace } := by
  simp only [State.tapePace, ht, hc, hh, hr, hq, if_true, Bool.false_eq_true, if_false]

theorem State.tapePace_trade (hc : s.tc.current = []) (hh : s.tapeHold = false) (hr : s.tc.reserved = none) {n : Slot} {p : Word}
    {z : Option Word} {st : Nat} {om : Bool} {q : List Print} (hq : s.tc.queue = .trade n p z st om :: q) :
    s.tapePace = (s.setTc { s.tc with queue := q }).startTrade n p z st om := by
  simp only [State.tapePace, ht, hc, hh, hr, hq, if_true, Bool.false_eq_true, if_false]

end

/-- A text with three spaces behind it has more than its first character. -/
theorem tail_spaces_ne_nil (text : Text) : (text ++ spaces 3).tail ≠ [] := by
  cases text with
  | nil => exact List.cons_ne_nil _ _
  | cons c cs => simp [spaces]

/-! ### A TRADE print starts (R118 to R121, R124) -/

/-- The part after the start of a TRADE print, told from before. -/
def State.tradeStarted (s : State) (n : Slot) (p : Word) (z : Option Word) (st : Nat) (om : Bool) : State :=
  let l := latenessOf s.cs.clock st
  let new := s.tc.modeFor l
  let text := tradeText new s.tc.threshold (vget s.tc.memos n) (s.slot n) p z om
  { s with
    tc := { s.tc with
      mode := new, reserved := modeBulletin s.tc.mode new l, lateness := l
      memos := vset s.tc.memos n (some (p.toNat / (s.slot n).base.ticks)), charOut := text.head?, current := text.tail }
    pt := if s.tc.mode = new then s.pt else s.pt.markStatusLines
    cr := { s.cr with flags := if s.tc.mode = new then s.cr.flags else s.cr.flags ||| 0x0010 } }

theorem modeBulletin_same (x : TapeMode) (l : Nat) : modeBulletin x x l = none := by
  cases x <;> rfl

theorem State.tapeModeChanged_same (s : State) (l : Nat) : s.tapeModeChanged s.tc.mode l = s := if_pos rfl

theorem State.tapeModeChanged_of_ne {s : State} {new : TapeMode} (l : Nat) (hr : s.tc.reserved = none) (h : s.tc.mode ≠ new) :
    s.tapeModeChanged new l =
      ((s.setTc { s.tc with mode := new, reserved := modeBulletin s.tc.mode new l }).raise flagTape).markStatusLines := by
  refine (if_neg h).trans ?_
  cases modeBulletin s.tc.mode new l with
  | none => simp only [hr]
  | some b => rfl

theorem State.startTrade_eq {s : State} (hr : s.tc.reserved = none) (n : Slot) (p : Word) (z : Option Word) (st : Nat) (om : Bool) :
    s.startTrade n p z st om = s.tradeStarted n p z st om := by
  unfold State.startTrade State.tradeStarted
  by_cases hm : s.tc.mode = s.tc.modeFor (latenessOf s.cs.clock st)
  · simp only [if_pos hm]
    rw [← hm, State.tapeModeChanged_same, modeBulletin_same, ← hr]
    rfl
  · simp only [if_neg hm]
    rw [State.tapeModeChanged_of_ne _ hr hm]
    rfl

/-! ### The mode and its bulletins (R118 to R120) -/

theorem latenessOf_eq (now : Nat) {st : Nat} (h : st < 864000) :
    latenessOf now st = if 432000 < (now + 864000 - st) % 864000 then 0 else (now + 864000 - st) % 864000 / 10 := by
  rw [latenessOf, Nat.mod_eq_of_lt h]

theorem decimal_small {m : Nat} (h : m < 100) :
    decimal m = if m < 10 then [BitVec.ofNat 8 (0x30 + m)] else [BitVec.ofNat 8 (0x30 + m / 10), BitVec.ofNat 8 (0x30 + m % 10)] := by
  revert m
  decide

/-- The mode rises: DELAYED n MIN (R114, R120). -/
theorem modeBulletin_rises {old new : TapeMode} (h : old.code < new.code) (l : Nat) :
    (let minutes := min 99 (l / 60)
     modeBulletin old new l = some (
      [0x44, 0x45, 0x4C, 0x41, 0x59, 0x45, 0x44, 0x20] ++
      (if minutes < 10 then [BitVec.ofNat 8 (0x30 + minutes)]
       else [BitVec.ofNat 8 (0x30 + minutes / 10), BitVec.ofNat 8 (0x30 + minutes % 10)]) ++
      [0x20, 0x4D, 0x49, 0x4E])) := by
  intro minutes
  refine (if_pos h).trans ?_
  rw [decimal_small (by omega)]
  rfl

theorem TapeMode.code_inj {x y : TapeMode} (h : x.code = y.code) : x = y := by
  cases x <;> cases y <;> first | rfl | cases h

/-- The mode rises from FULL to another, and from COMPACT to SHORT. -/
theorem rises_code {old new : TapeMode} (h : (old = .full ∧ new ≠ .full) ∨ (old = .compact ∧ new = .short)) :
    old.code < new.code := by
  obtain ⟨rfl, hn⟩ | ⟨rfl, rfl⟩ := h
  · cases new with
    | full => exact absurd rfl hn
    | compact => decide
    | short => decide
  · decide

/-- PART STATUS shows the tape mode. -/
theorem partStatus_ne_of_mode {s t : State} (h : s.tc.mode ≠ t.tc.mode) : reportValue s 6 ≠ reportValue t 6 := by
  intro e
  have hs := (partStatusWord_fields s).2.2.2.2.1
  have ht := (partStatusWord_fields t).2.2.2.2.1
  have e' : partStatusWord s = partStatusWord t := e
  rw [e', ht] at hs
  exact h (TapeMode.code_inj hs.symm)

/-- TAPE CLEAR's owner is `TapeController.clear`. -/
theorem exec_tapeClear {s : State} (x : Byte) (h : TakesCommands s) :
    ∃ t, exec (.tapeClear x) s = .next t ∧ 8 ∈ t.cr.dirty ∧
      (let b := withCommandWord s 0x0E x
       SameButMarks (answered { b with tc := { b.tc with queue := [], reserved := none } } 0x0E .done .none) t) := by
  have hrun : exec (.tapeClear x) s = .next _ := congrArg Host.Outcome.next (exec_owner h rfl rfl)
  obtain ⟨hsame, h8⟩ := done_finish s ((withCommandWord s 0x0E x).setTc (withCommandWord s 0x0E x).tc.clear) 0x0E
  exact ⟨_, hrun, h8, hsame⟩

theorem modeFor_full {t : TapeController} (l : Nat) (h : t.mode = .full) :
    t.modeFor l = if t.late2 ≤ l then .short else if t.late1 ≤ l then .compact else .full := by
  rw [TapeController.modeFor, h]

theorem modeFor_compact {t : TapeController} (l : Nat) (h : t.mode = .compact) :
    t.modeFor l = if t.late2 ≤ l then .short else if l ≤ t.back then .full else .compact := by
  rw [TapeController.modeFor, h]

theorem modeFor_short {t : TapeController} (l : Nat) (h : t.mode = .short) :
    t.modeFor l = if l ≤ t.back then .compact else .short := by
  rw [TapeController.modeFor, h]

/-- The part after the start of a TRADE print. -/
theorem exec_tapePace_trade {s : State} (hp : s.resetPin = false) (ht : s.tc.timerRunning = true) (hc : s.tc.current = [])
    (hh : s.tapeHold = false) (hr : s.tc.reserved = none) {n : Slot} {p : Word} {z : Option Word} {st : Nat} {om : Bool} {q : List Print}
    (hq : s.tc.queue = .trade n p z st om :: q) :
    (let u := (s.setTc { s.tc with queue := q }).tradeStarted n p z st om
     exec .tapePaceExpiry s = .next (s.finish u) ∧ SameButMarks u (s.finish u) ∧
      (u.tc.mode ≠ s.tc.mode → 6 ∈ (s.finish u).cr.dirty)) := by
  intro u
  have hu : s.tapePace = u := (State.tapePace_trade ht hc hh hr hq).trans (State.startTrade_eq (s := s.setTc { s.tc with queue := q }) hr n p z st om)
  have hlit : u.tc.isEmpty = false := TapeController.isEmpty_eq_false (.inr (.inr (tail_spaces_ne_nil _)))
  obtain ⟨t, hx, rfl⟩ := exec_tapePace hp hu (.inr (.inr (.inr hlit)))
  exact ⟨hx, State.finish_same s u, fun h => State.mem_finish_of_ne (by decide) (partStatus_ne_of_mode h.symm)⟩

/-- Settles O54: each step of `State.tapePace`, and the owner of TAPE CLEAR. -/
theorem tapeRuns : Obligations.TapeRuns := by
  refine ⟨fun mode threshold memo r price size om hb => tradeTextIs_tradeText mode threshold memo price size om hb,
    fun tc => onLineIs_onLine _, fun s c cs hp ht hc h => ?_, fun s hp ht hc => ⟨fun hh h => ?_, fun text hh hr => ?_,
      fun text om q hh hr hq => ?_, fun hh hr hq h => ?_, fun n p z st om q hh hr hq _ hst => ?_⟩, fun s x h => exec_tapeClear x h⟩
  · refine exec_tapePace_tc hp (State.tapePace_goes ht hc) ?_
    obtain h | h | h | h | h | h := h
    · exact .inl h
    · exact .inr (.inl h)
    · exact .inr (.inr (.inl h))
    · exact .inr (.inr (.inr (TapeController.isEmpty_eq_false (.inr (.inr h)))))
    · exact .inr (.inr (.inr (TapeController.isEmpty_eq_false (.inl h))))
    · exact .inr (.inr (.inr (TapeController.isEmpty_eq_false (.inr (.inl h)))))
  · refine exec_tapePace_tc hp (State.tapePace_holds ht hc hh) ?_
    obtain (h | h | h) | h | h := h
    · exact .inl h
    · exact .inr (.inl h)
    · exact .inr (.inr (.inl h))
    · exact .inr (.inr (.inr (TapeController.isEmpty_eq_false (.inl h))))
    · exact .inr (.inr (.inr (TapeController.isEmpty_eq_false (.inr (.inl h)))))
  · exact exec_tapePace_tc hp (State.tapePace_reserved ht hc hh hr)
      (.inr (.inr (.inr (TapeController.isEmpty_eq_false (.inr (.inr (tail_spaces_ne_nil text)))))))
  · exact exec_tapePace_tc hp (State.tapePace_bulletin ht hc hh hr hq)
      (.inr (.inr (.inr (TapeController.isEmpty_eq_false (.inr (.inr (tail_spaces_ne_nil _)))))))
  · refine exec_tapePace_tc hp (State.tapePace_fill ht hc hh hr hq) ?_
    obtain h | h | h := h
    · exact .inl h
    · exact .inr (.inl h)
    · exact .inr (.inr (.inl h))
  · obtain ⟨hx, hsame, h6⟩ := exec_tapePace_trade hp ht hc hh hr hq
    have hl := latenessOf_eq s.cs.clock hst
    generalize s.finish _ = t at hx hsame h6
    have hmode : t.tc.mode = s.tc.modeFor (latenessOf s.cs.clock st) := congrArg TapeController.mode hsame.tc
    have hres : t.tc.reserved = modeBulletin s.tc.mode t.tc.mode (latenessOf s.cs.clock st) := by
      rw [hmode]
      exact congrArg TapeController.reserved hsame.tc
    have hpt : t.pt = if s.tc.mode = t.tc.mode then s.pt else s.pt.markStatusLines := by
      rw [hmode]
      exact hsame.pt
    have hflags : t.cr.flags = if s.tc.mode = t.tc.mode then s.cr.flags else s.cr.flags ||| 0x0010 := by
      rw [hmode]
      exact (congrArg CommandReport.flags hsame.cr :)
    have hne : t.tc.mode ≠ s.tc.mode → 6 ∈ t.cr.dirty := fun h => h6 (by rw [← hsame.tc]; exact h)
    have hframe : SameButMarks { s with
        tc := { s.tc with
          queue := q, mode := t.tc.mode, reserved := t.tc.reserved, lateness := latenessOf s.cs.clock st
          memos := vset s.tc.memos n (some (p.toNat / (s.slot n).base.ticks))
          charOut := (tradeText t.tc.mode s.tc.threshold (vget s.tc.memos n) (s.slot n) p z om).head?
          current := (tradeText t.tc.mode s.tc.threshold (vget s.tc.memos n) (s.slot n) p z om).tail }
        pt := t.pt
        cr := { s.cr with flags := t.cr.flags } } t := by
      rw [hres, hpt, hflags, hmode]
      exact hsame
    rw [hl] at hmode hres hframe
    refine ⟨t, hx, fun h => hmode.trans (modeFor_full _ h), fun h => hmode.trans (modeFor_compact _ h),
      fun h => hmode.trans (modeFor_short _ h), fun h => ⟨?_, ?_, ?_⟩, fun h => ⟨?_, ?_, hne h⟩, fun h => ?_, fun ho hw => ?_,
      fun ho hw => ?_, hframe⟩
    · exact hres.trans ((congrArg (modeBulletin s.tc.mode · _) h).trans (modeBulletin_same _ _))
    · exact hflags.trans (if_pos h.symm)
    · exact hpt.trans (if_pos h.symm)
    · exact hflags.trans (if_neg (Ne.symm h))
    · exact hpt.trans (if_neg (Ne.symm h))
    · exact hres.trans (modeBulletin_rises (rises_code h) _)
    · rw [hres, ho, hw]
      rfl
    · rw [hres, ho, hw]
      rfl

end Sys2Proof.Machine
end

