-- ==== Sys2Proof/Proofs/TakeWork.lean ====
section
/-!
PROOFS. The piece that a link with no work in hand takes, and the placements of a SYMBOL row (chapters 4 and 5).
-/

namespace Sys2Proof.Machine

-- Elaborated one after the other, the proofs hold less memory at once.
set_option Elab.async false

/-! ### The placements of a SYMBOL row (R67) -/

/-- The placements of a row with their places, by ascending index. -/
def BoardController.rowIndexed (b : BoardController) (l : LinkId) (r : Nat) : List (Placement × Nat) :=
  b.placements.zipIdx.filter (fun q => decide (q.1.link = l) && decide (q.1.row = r))

/-- The placements of a row with their places, by ascending column. -/
def BoardController.rowOrdered (b : BoardController) (l : LinkId) (r : Nat) : List (Placement × Nat) :=
  (b.rowIndexed l r).foldl (fun acc q => insertAfter (fun x : Placement × Nat => x.1.column) q acc) []

theorem BoardController.rowPlacements_eq (b : BoardController) (l : LinkId) (r : Nat) :
    b.rowPlacements l r = (b.rowOrdered l r).map (·.2) := rfl

theorem BoardController.rowOrdered_perm (b : BoardController) (l : LinkId) (r : Nat) :
    (b.rowOrdered l r).Perm (b.rowIndexed l r) := by
  have h := foldl_insertAfter_perm (fun x : Placement × Nat => x.1.column) (b.rowIndexed l r) []
  rwa [List.append_nil] at h

theorem BoardController.mem_rowOrdered (b : BoardController) (l : LinkId) (r : Nat) (x : Placement × Nat) :
    x ∈ b.rowOrdered l r ↔ b.placements[x.2]? = some x.1 ∧ x.1.link = l ∧ x.1.row = r := by
  rw [(b.rowOrdered_perm l r).mem_iff, rowIndexed, List.mem_filter, List.mem_zipIdx_iff_getElem?]
  simp

theorem BoardController.mem_rowPlacements (b : BoardController) (l : LinkId) (r p : Nat) :
    p ∈ b.rowPlacements l r ↔ ∃ q, b.placements[p]? = some q ∧ q.link = l ∧ q.row = r := by
  rw [rowPlacements_eq, List.mem_map]
  constructor
  · rintro ⟨⟨q, i⟩, hx, rfl⟩
    exact ⟨q, (b.mem_rowOrdered l r (q, i)).1 hx⟩
  · rintro ⟨q, hq⟩
    exact ⟨(q, p), (b.mem_rowOrdered l r (q, p)).2 hq, rfl⟩

theorem BoardController.rowPlacements_nodup (b : BoardController) (l : LinkId) (r : Nat) : (b.rowPlacements l r).Nodup := by
  rw [rowPlacements_eq, ((b.rowOrdered_perm l r).map _).nodup_iff]
  exact (zipIdx_filter_sorted _ b.placements).imp Nat.ne_of_lt

theorem BoardController.rowPlacements_sorted (b : BoardController) (l : LinkId) (r : Nat) :
    (b.rowPlacements l r).Pairwise (fun p p' => ∀ q q', b.placements[p]? = some q → b.placements[p']? = some q' →
      q.column ≤ q'.column) := by
  rw [rowPlacements_eq, List.pairwise_map]
  refine (foldl_insertAfter_sorted (fun x : Placement × Nat => x.1.column) (b.rowIndexed l r) [] .nil).imp_of_mem ?_
  intro x y hx hy h q q' hq hq'
  obtain ⟨hx, -⟩ := (b.mem_rowOrdered l r x).1 hx
  obtain ⟨hy, -⟩ := (b.mem_rowOrdered l r y).1 hy
  obtain rfl := Option.some.inj (hx.symm.trans hq)
  obtain rfl := Option.some.inj (hy.symm.trans hq')
  exact h

/-! ### What a link takes (R85, R92 to R94) -/

theorem nextWork_cell {s : State} {l : LinkId} {p : Nat} {q : List RefreshEntry} {pl : Placement} (ho : (s.link l).state = .online)
    (hq : (s.link l).queue = .cell p :: q) (hpl : s.bc.placements[p]? = some pl) :
    nextWork s l (s.link l) = { s.link l with
      queue := q
      work := some ⟨.cell p, .sending, false, false⟩
      frameOut := boardFrame .none pl.row pl.column ((s.link l).blinks p) (cellColour (s.slot pl.slot) pl.kind)
        (cellText (s.slot pl.slot) pl.kind pl.width) } := by
  simp only [nextWork, ho, hq, cellFrame_eq hpl, Link.begin]

/-- The row that a link takes next: from the queue, from the stale set, or at the sweep pointer; `k` is the link without the entry. -/
def Link.TakesRow (x : Link) (r : Nat) (k : Link) (fromPass : Bool) : Prop :=
  (∃ q, x.queue = .row r :: q ∧ k = { x with queue := q } ∧ fromPass = false) ∨
    (∃ rs, x.queue = [] ∧ x.stale = r :: rs ∧ k = x ∧ fromPass = false) ∨
    (x.queue = [] ∧ x.stale = [] ∧ x.pass = some r ∧ k = x ∧ fromPass = true)

theorem nextWork_row {s : State} {l : LinkId} {x : Link} {r : Nat} {k : Link} {fromPass : Bool} (ho : x.state = .online)
    (h : x.TakesRow r k fromPass) : nextWork s l x = startRow s l k r fromPass := by
  obtain ⟨q, hq, rfl, rfl⟩ | ⟨rs, hq, hs, rfl, rfl⟩ | ⟨hq, hs, hp, rfl, rfl⟩ := h
  · simp only [nextWork, ho, hq]
  · simp only [nextWork, ho, hq, hs]
  · simp only [nextWork, ho, hq, hs, hp]

theorem Link.TakesRow.rowMap {x : Link} {r : Nat} {k : Link} {fromPass : Bool} (h : x.TakesRow r k fromPass) : k.rowMap = x.rowMap := by
  obtain ⟨q, -, rfl, -⟩ | ⟨rs, -, -, rfl, -⟩ | ⟨-, -, -, rfl, -⟩ := h
  all_goals rfl

theorem startRow_symbol (s : State) (l : LinkId) {k : Link} {r : Nat} (fromPass : Bool) (h : k.rowMap[r]? = some .symbol) :
    startRow s l k r fromPass = { k with
      stale := k.stale.filter (fun x => x ≠ r)
      work := some ⟨.symbolRow r (s.bc.rowPlacements l r), .sending, fromPass, false⟩
      frameOut := boardFrame .row r 0 false .white [] } := by
  simp only [startRow, h]
  rfl

theorem startRow_text {s : State} (l : LinkId) {k : Link} {r n : Nat} {w : Fin 8} {x : Window} (fromPass : Bool)
    (h : k.rowMap[r]? = some (.text w n)) (hx : s.bp.windows.find? (fun v => decide (v.index = w)) = some x) :
    startRow s l k r fromPass = { k with
      stale := k.stale.filter (fun x => x ≠ r)
      work := some ⟨.textRow r, .reading ⟨x.base + 24 * n, (k.cols + 1) / 2, []⟩, fromPass, false⟩ } := by
  simp only [startRow, h, lineAddress, hx]
  rfl

/-- A link with nothing owed takes nothing. -/
theorem nextWork_none (s : State) (l : LinkId) {k : Link}
    (h : k.state = .unused ∨ k.state = .dark ∨ (k.state = .offline ∧ k.probeDue = false) ∨
      (k.state = .online ∧ k.queue = [] ∧ k.stale = [] ∧ k.pass = none)) : nextWork s l k = k := by
  obtain h | h | ⟨h, hd⟩ | ⟨h, hq, hs, hp⟩ := h
  · simp only [nextWork, h]
  · simp only [nextWork, h]
  · simp only [nextWork, h, hd, Bool.false_eq_true, if_false]
  · simp only [nextWork, h, hq, hs, hp]

theorem exec_takeWork_busy {s : State} {l : LinkId} {w : Work} (hp : s.resetPin = false) (h : (s.link l).work = some w) :
    ∃ t, exec (.takeWork l) s = .next t ∧ SameButMarks s t := by
  have hx : exec (.takeWork l) s = .next (s.finish (s.takeWork l)) := partEvent_next _ s hp
  have hs : s.takeWork l = s := by simp only [State.takeWork, h]
  rw [hs] at hx
  exact ⟨_, hx, State.finish_same s s⟩

/-- Settles O48: the piece is that of `nextWork`, its texts and frames those of the lemmas on `cellText` and `boardFrame`. -/
theorem takeWorkChoosesNext : Obligations.TakeWorkChoosesNext := by
  refine ⟨fun r k w => ⟨cellText_length r k w, fieldColoured_cellColour r k, fun h => cellText_shows h k w⟩,
    fun e row column blink c chars => boardFrameIs_boardFrame, fun k => onLineIs_onLine _, Link.blinks_iff,
    fun b l r => ⟨b.mem_rowPlacements l r, b.rowPlacements_nodup l r, b.rowPlacements_sorted l r⟩,
    fun s l p q pl hp hw ho hq hpl => exec_takeWork hp hw (nextWork_cell ho hq hpl), fun s l r k fromPass hp hw ho h => ?_,
    fun s l hp hw hs hd => exec_takeWork hp hw (nextWork_probe hs hd), fun s l hp hw h => ?_,
    fun s l w hp hw => exec_takeWork_busy hp hw⟩
  · have hrow : (s.link l).TakesRow r k fromPass := h
    have hnext := nextWork_row (s := s) (l := l) ho hrow
    refine ⟨fun hm => exec_takeWork hp hw (hnext.trans (startRow_symbol s l fromPass (hrow.rowMap ▸ hm))),
      fun w n x hm hx => exec_takeWork hp hw (hnext.trans (startRow_text l fromPass (hrow.rowMap ▸ hm) hx))⟩
  · have ht := exec_takeWork hp hw (nextWork_none s l h)
    have hsame : vset s.bc.links l (s.link l) = s.bc.links := vset_vget _ _
    rwa [hsame] at ht

end Sys2Proof.Machine
end

