-- ==== Sys2Proof/Proofs/Lines.lean ====
section
/-!
PROOFS. The lines of a terminal's screen are those of Tables 8-2 to 8-4 and R158 (8.4).
-/

namespace Sys2Proof.Machine

-- Elaborated one after the other, the proofs hold less memory at once.
set_option Elab.async false

/-! ### Lines as parts -/

/-- The columns of a part of a line whose parts have known lengths are the part. -/
theorem columns_part {ps : List Text} {ws : List Nat} (h : ps.map List.length = ws) {i : Nat} {p : Text} (hp : ps[i]? = some p)
    {n w : Nat} (hn : (ws.take i).sum = n) (hw : ws[i]? = some w) : columns ps.flatten n w = p := by
  subst h
  obtain ⟨hi, rfl⟩ := List.getElem?_eq_some_iff.1 hp
  have hlen : (ps.take i).flatten.length = n := by
    rw [List.length_flatten, ← hn, List.map_take]
  have hwidth : (ps[i]).length = w := by
    rw [List.getElem?_map, hp] at hw
    exact Option.some.inj hw
  have hsplit : ps.flatten = (ps.take i).flatten ++ (ps[i] ++ (ps.drop (i + 1)).flatten) := by
    rw [← List.flatten_cons, ← List.drop_eq_getElem_cons hi, ← List.flatten_append, List.take_append_drop]
  rw [columns, hsplit, List.drop_left' hlen, List.take_left' hwidth]

theorem flatten_length_of {ps : List Text} {ws : List Nat} (h : ps.map List.length = ws) {n : Nat} (hn : ws.sum = n) :
    ps.flatten.length = n := by
  rw [List.length_flatten, h, hn]

/-! ### Watch lines and the QUOTE line (R156, R158) -/

/-- The parts of the columns 0 to 24 of a watch line and a QUOTE line. -/
def leadParts (r : SlotRec) : List Text :=
  [fitName 4 r.name, [0x20], fit 9 (lastField r), fit 1 (.plain (tickText r.direction)), [0x20],
    fit 8 (changeField r.base.ticks r.change), [0x20]]

theorem leadParts_length (r : SlotRec) : (leadParts r).map List.length = [4, 1, 9, 1, 1, 8, 1] := by
  have hname : (fitName 4 r.name).length = 4 := cellText_length r .name 4
  simp only [leadParts, List.map_cons, List.map_nil, hname, fit_length, List.length_cons, List.length_nil]

/-- A line of a record begins with its name, last, tick and change. -/
theorem recordLineBegins {r : SlotRec} (h : Priced r) {rest : List Text} {ws : List Nat} (hr : rest.map List.length = ws)
    (hs : ws.sum = 15) : RecordLineBegins r (leadParts r ++ rest).flatten := by
  have hw : (leadParts r ++ rest).map List.length = [4, 1, 9, 1, 1, 8, 1] ++ ws := by
    rw [List.map_append, leadParts_length, hr]
  have hlen : (leadParts r ++ rest).flatten.length = 40 := flatten_length_of hw (by rw [List.sum_append, hs]; rfl)
  refine ⟨hlen, ?_, columns_part hw (i := 1) rfl rfl rfl, ?_, ?_, columns_part hw (i := 4) rfl rfl rfl, ?_,
    columns_part hw (i := 6) rfl rfl rfl⟩
  · rw [columns_part hw (i := 0) (n := 0) rfl rfl rfl]
    exact cellText_shows h .name 4
  · rw [columns_part hw (i := 2) (n := 5) rfl rfl rfl]
    exact cellText_shows h .last 9
  · rw [columns_part hw (i := 3) (n := 14) rfl rfl rfl]
    exact cellText_shows h .tick 1
  · rw [columns_part hw (i := 5) (n := 16) rfl rfl rfl]
    exact cellText_shows h .change 8

theorem watchLineIs_watchLine {r : SlotRec} (h : Priced r) : WatchLineIs r (watchLine r) := by
  have he : watchLine r = (leadParts r ++
      [fit 7 (optPriceField r.base.ticks r.high), [0x20], fit 7 (optPriceField r.base.ticks r.low)]).flatten := by
    simp [watchLine, quoteLead, leadParts, spaces, chSpace]
  have hrest : [fit 7 (optPriceField r.base.ticks r.high), [0x20], fit 7 (optPriceField r.base.ticks r.low)].map List.length =
      [7, 1, 7] := by
    simp only [List.map_cons, List.map_nil, fit_length, List.length_cons, List.length_nil]
  have hw := List.map_append (f := List.length) (l₁ := leadParts r)
    (l₂ := [fit 7 (optPriceField r.base.ticks r.high), [0x20], fit 7 (optPriceField r.base.ticks r.low)])
  rw [leadParts_length, hrest] at hw
  rw [he]
  refine ⟨recordLineBegins h hrest rfl, ?_, columns_part hw (i := 8) rfl rfl rfl, ?_⟩
  · rw [columns_part hw (i := 7) (n := 25) rfl rfl rfl]
    exact cellText_shows h .high 7
  · rw [columns_part hw (i := 9) (n := 33) rfl rfl rfl]
    exact cellText_shows h .low 7

theorem quoteLineIs_quoteLine {r : SlotRec} (h : Priced r) : QuoteLineIs r (quoteLine r) := by
  have he : quoteLine r = (leadParts r ++ [[0x56, 0x20], fitVolume 10 r.volume.toNat, List.replicate 3 0x20]).flatten := by
    simp [quoteLine, quoteLead, leadParts, spaces, chSpace, ascii]
  have hrest : [[0x56, 0x20], fitVolume 10 r.volume.toNat, List.replicate 3 0x20].map List.length = [2, 10, 3] := by
    simp only [List.map_cons, List.map_nil, fitVolume_length, List.length_cons, List.length_nil, List.length_replicate]
  have hw := List.map_append (f := List.length) (l₁ := leadParts r)
    (l₂ := [[0x56, 0x20], fitVolume 10 r.volume.toNat, List.replicate 3 0x20])
  rw [leadParts_length, hrest] at hw
  rw [he]
  refine ⟨recordLineBegins h hrest rfl, columns_part hw (i := 7) rfl rfl rfl, ?_, columns_part hw (i := 9) rfl rfl rfl⟩
  rw [columns_part hw (i := 8) (n := 27) rfl rfl rfl]
  exact cellText_shows h .volume 10

/-! ### The status line (R154) -/

theorem sessionName_mem (x : Session) :
    (x, padRight 8 x.nameText) ∈ [(Session.closed, codesOf "CLOSED  "), (.preOpen, codesOf "PRE-OPEN"),
      (.opened, codesOf "OPEN    "), (.dimming, codesOf "DIMMING "), (.dark, codesOf "DARK    ")] := by
  cases x <;> decide

theorem sessionName_length (x : Session) : (padRight 8 x.nameText).length = 8 := by
  cases x <;> rfl

theorem clockText_length (c : ClockSession) : (clockText c).length = 5 := by
  unfold clockText
  split <;> rfl

theorem lateText_length (c : ClockSession) (t : TapeController) : (lateText c t).length = 10 := by
  unfold lateText
  split
  · rfl
  split <;> rfl

theorem twoDigits_eq {n : Nat} (h : n < 100) : twoDigits n = [BitVec.ofNat 8 (0x30 + n / 10), BitVec.ofNat 8 (0x30 + n % 10)] := by
  rw [twoDigits, digitChar, digitChar, Nat.mod_eq_of_lt (by omega : n / 10 < 10)]

/-- The parts of the status line. -/
def statusParts (s : State) (r : Terminal) : List Text :=
  [padRight 8 s.cs.session.nameText, [0x20], clockText s.cs, [0x20], lateText s.cs s.tc, List.replicate 7 0x20, r.statusText]

theorem statusLineIs_statusLine {s : State} {r : Terminal} (hc : ClockInRange s) (hr : r.statusText.length = 8) :
    StatusLineIs s r (statusLine s r) := by
  have he : statusLine s r = (statusParts s r).flatten := by
    simp [statusLine, statusParts, spaces, chSpace]
  have hw : (statusParts s r).map List.length = [8, 1, 5, 1, 10, 7, 8] := by
    simp only [statusParts, List.map_cons, List.map_nil, sessionName_length, clockText_length, lateText_length, hr,
      List.length_cons, List.length_nil, List.length_replicate]
  have hclock : columns (statusParts s r).flatten 9 5 = clockText s.cs := columns_part hw (i := 2) rfl rfl rfl
  have hlate : columns (statusParts s r).flatten 15 10 = lateText s.cs s.tc := columns_part hw (i := 4) rfl rfl rfl
  rw [he]
  refine ⟨flatten_length_of hw rfl, ?_, columns_part hw (i := 1) rfl rfl rfl, fun h => ?_, fun h => ?_,
    columns_part hw (i := 3) rfl rfl rfl, fun h => ?_, fun h hm => ?_, fun h hm => ?_, columns_part hw (i := 5) rfl rfl rfl,
    columns_part hw (i := 6) rfl rfl rfl⟩
  · rw [columns_part hw (i := 0) (n := 0) rfl rfl rfl]
    exact sessionName_mem _
  · rw [hclock, clockText, if_pos h]
    rfl
  · have hclk : s.cs.clock < 864000 := hc.1
    rw [hclock, clockText, if_neg (by rw [h]; decide), twoDigits_eq (by omega), twoDigits_eq (by omega)]
    rfl
  · rw [hlate, lateText, if_pos h]
    rfl
  · rw [hlate, lateText, if_neg (by rw [h]; decide), if_pos hm]
    rfl
  · rw [hlate, lateText, if_neg (by rw [h]; decide), if_neg (not_not.2 hm)]
    rfl

/-! ### The response line (R158) -/

theorem messageIs_messageText (s : State) (m : Message) : MessageIs s m (messageText s m) := by
  cases m with
  | watching n => exact .inr ⟨n, rfl, rfl⟩
  | noSymbol => exact .inl (List.mem_of_getElem? (i := 0) rfl)
  | onList => exact .inl (List.mem_of_getElem? (i := 1) rfl)
  | listFull => exact .inl (List.mem_of_getElem? (i := 2) rfl)
  | notOnList => exact .inl (List.mem_of_getElem? (i := 3) rfl)
  | pinned => exact .inl (List.mem_of_getElem? (i := 4) rfl)
  | wait => exact .inl (List.mem_of_getElem? (i := 5) rfl)
  | noEntry => exact .inl (List.mem_of_getElem? (i := 6) rfl)
  | noRecall => exact .inl (List.mem_of_getElem? (i := 7) rfl)
  | sent => exact .inl (List.mem_of_getElem? (i := 8) rfl)

/-- The fixed texts of the messages are short. -/
theorem messages_length : ∀ x ∈ [(Message.noSymbol, codesOf "NO SYMBOL"), (.onList, codesOf "ON LIST"),
    (.listFull, codesOf "LIST FULL"), (.notOnList, codesOf "NOT ON LIST"), (.pinned, codesOf "PINNED"), (.wait, codesOf "WAIT"),
    (.noEntry, codesOf "NO ENTRY"), (.noRecall, codesOf "NO RECALL"), (.sent, codesOf "SENT")], x.2.length ≤ 40 := by
  decide

theorem messageText_length {s : State} {m : Message} (h : ∀ n, m = .watching n → (s.slot n).name.length ≤ 4) :
    (messageText s m).length ≤ 40 := by
  obtain hm | ⟨n, hn, hm⟩ := messageIs_messageText s m
  · exact messages_length _ hm
  · have hname := h n hn
    rw [hm, List.length_append, show (codesOf "WATCHING ").length = 9 from rfl]
    omega

theorem padRight_length {w : Nat} {t : Text} (h : t.length ≤ w) : (padRight w t).length = w := by
  rw [padRight, spaces, List.length_append, List.length_replicate]
  omega

theorem responseLineIs_responseLine {s : State} {r : Terminal} (h : ∀ n, r.response = .quote n → Priced (s.slot n)) :
    ResponseLineIs s r (responseLine s r) := by
  refine ⟨fun hr => ?_, fun hr => ?_, fun n hr => ?_, fun m hr => ?_⟩
  · rw [responseLine, hr]
    rfl
  · have hlen : 40 - (ascii ['>'] ++ r.entry).length = 39 - r.entry.length := by
      rw [List.length_append, show (ascii ['>']).length = 1 from rfl]
      omega
    rw [responseLine, hr, padRight, hlen]
    rfl
  · rw [responseLine, hr]
    exact quoteLineIs_quoteLine (h n hr)
  · rw [responseLine, hr]
    exact ⟨_, messageIs_messageText s m, rfl⟩

theorem responseLine_length {s : State} {r : Terminal} (he : r.entry.length ≤ 8) (hq : ∀ n, r.response = .quote n → Priced (s.slot n))
    (hm : ∀ n, r.response = .message (.watching n) → (s.slot n).name.length ≤ 4) : (responseLine s r).length = 40 := by
  cases hr : r.response with
  | empty =>
    rw [responseLine, hr]
    exact List.length_replicate
  | entry =>
    rw [responseLine, hr]
    refine padRight_length ?_
    rw [List.length_append, show (ascii ['>']).length = 1 from rfl]
    omega
  | quote n =>
    rw [responseLine, hr]
    exact (quoteLineIs_quoteLine (hq n hr)).1.1
  | message m =>
    rw [responseLine, hr]
    exact padRight_length (messageText_length fun n e => hm n (by rw [hr, e]))

/-! ### The lines of the screen (Table 8-2) -/

theorem placeOfLine_succ : ∀ i : Fin 12, placeOfLine (i.val + 1) = i := by decide

theorem lineText_watch (s : State) (r : Terminal) (i : Fin 12) :
    lineText s r (i.val + 1) = (vget r.watch i).elim (spaces 40) fun e => watchLine (s.slot e.slot) := by
  have hi := i.isLt
  rw [lineText, if_neg (by omega), if_neg (by omega), placeOfLine_succ]
  cases vget r.watch i <;> rfl

theorem lineReversed_watch (r : Terminal) (i : Fin 12) :
    lineReversed r (i.val + 1) = (vget r.watch i).elim false (·.alerted) := by
  have hi := i.isLt
  rw [lineReversed, if_neg (by omega), placeOfLine_succ]
  cases vget r.watch i <;> rfl

/-- A line of the screen is the status line, the response line or a watch line. -/
theorem line_cases {line : Nat} (h : line < 14) : line = 0 ∨ line = 13 ∨ ∃ i : Fin 12, line = i.val + 1 := by
  by_cases h0 : line = 0
  · exact .inl h0
  by_cases h13 : line = 13
  · exact .inr (.inl h13)
  exact .inr (.inr ⟨⟨line - 1, by omega⟩, (Nat.sub_add_cancel (by omega)).symm⟩)

theorem lineText_length {s : State} {r : Terminal} {line : Nat} (hl : line < 14) (hc : ClockInRange s) (hb : r.Bounded)
    (h : ∀ n, ShownSlot r line n → Priced (s.slot n) ∧ (s.slot n).name.length ≤ 4) : (lineText s r line).length = 40 := by
  obtain ⟨hentry, -, -, hstatus, -⟩ := hb
  obtain rfl | rfl | ⟨i, rfl⟩ := line_cases hl
  · exact (statusLineIs_statusLine hc hstatus).1
  · exact responseLine_length hentry (fun n hn => (h n (.inr ⟨rfl, .inl hn⟩)).1) fun n hn => (h n (.inr ⟨rfl, .inr hn⟩)).2
  · rw [lineText_watch]
    cases hw : vget r.watch i with
    | none => exact List.length_replicate
    | some e => exact (watchLineIs_watchLine (h e.slot (.inl ⟨i, e, rfl, hw, rfl⟩)).1).1.1

theorem lineIs_lineText {s : State} {r : Terminal} {line : Nat} (hc : ClockInRange s) (hb : r.Bounded)
    (h : ∀ n, ShownSlot r line n → Priced (s.slot n) ∧ (s.slot n).name.length ≤ 4) : LineIs s r line (lineText s r line) := by
  obtain ⟨-, -, -, hstatus, -⟩ := hb
  refine ⟨?_, ?_, ?_, ?_⟩
  · rintro rfl
    exact statusLineIs_statusLine hc hstatus
  · rintro i rfl hw
    rw [lineText_watch, hw]
    rfl
  · rintro i e rfl hw
    rw [lineText_watch, hw]
    exact watchLineIs_watchLine (h e.slot (.inl ⟨i, e, rfl, hw, rfl⟩)).1
  · rintro rfl
    exact responseLineIs_responseLine fun n hn => (h n (.inr ⟨rfl, .inl hn⟩)).1

theorem lineReversed_iff (r : Terminal) {line : Nat} (h : line < 14) :
    lineReversed r line = true ↔ ∃ (i : Fin 12) (e : WatchEntry), line = i.val + 1 ∧ vget r.watch i = some e ∧ e.alerted = true := by
  obtain rfl | rfl | ⟨i, rfl⟩ := line_cases h
  · exact ⟨(by rintro ⟨⟩), fun ⟨i, e, hi, _⟩ => absurd hi (by omega)⟩
  · exact ⟨(by rintro ⟨⟩), fun ⟨i, e, hi, _⟩ => absurd hi (by omega)⟩
  · rw [lineReversed_watch]
    constructor
    · intro ha
      cases hw : vget r.watch i with
      | none =>
        rw [hw] at ha
        cases ha
      | some e =>
        rw [hw] at ha
        exact ⟨i, e, rfl, hw, ha⟩
    · rintro ⟨j, e, hj, hw, ha⟩
      obtain rfl : i = j := Fin.ext (by omega)
      rw [hw]
      exact ha

end Sys2Proof.Machine
end

