-- ==== Sys2Proof/Proofs/TurnsBegin.lean ====
section
/-!
PROOFS. The loop begins a turn: the next place that names a terminal, and what its turn sends (R148, R159, R160).
-/

namespace Sys2Proof.Machine

-- Elaborated one after the other, the proofs hold less memory at once.
set_option Elab.async false

/-! ### The next place (R148) -/

theorem validPlace_eq (poll : List Nat) (i : Nat) :
    validPlace poll i = ((List.range poll.length).find? fun k => decide (poll.getD ((i + k) % poll.length) 255 ≤ 15)).map
      fun k => (i + k) % poll.length := List.find?_map

theorem validPlace_of_nextPlace {poll : List Nat} {start i : Nat} (h : NextPlace poll start i) : validPlace poll start = some i := by
  obtain ⟨d, hd, rfl, hle, hlt⟩ := h
  have hf : (List.range poll.length).find? (fun k => decide (poll.getD ((start + k) % poll.length) 255 ≤ 15)) = some d := by
    rw [List.find?_range_eq_some]
    refine ⟨decide_eq_true hle, List.mem_range.2 hd, fun j hj => ?_⟩
    have := hlt j hj
    rw [Bool.not_eq_true', decide_eq_false_iff_not]
    omega
  rw [validPlace_eq, hf]
  rfl

theorem validPlace_none {poll : List Nat} (h : ∀ e ∈ poll, 15 < e) (start : Nat) : validPlace poll start = none := by
  rw [validPlace_eq, Option.map_eq_none_iff, List.find?_eq_none]
  intro k hk
  have hpos : (start + k) % poll.length < poll.length := Nat.mod_lt _ (Nat.lt_of_le_of_lt (Nat.zero_le k) (List.mem_range.1 hk))
  have hm := h _ (List.getElem_mem hpos)
  rw [decide_eq_true_iff, List.getD_eq_getElem _ _ hpos]
  omega

/-- The terminal that a place of the list names. -/
theorem named_terminal {poll : List Nat} {i : Nat} {v : TermId} (h : poll.getD i 255 = v.val) : Fin.ofNat 16 (poll.getD i 0) = v := by
  have hv := v.isLt
  have hi : i < poll.length := by
    by_contra hn
    rw [List.getD_eq_default _ _ (Nat.le_of_not_lt hn)] at h
    omega
  rw [List.getD_eq_getElem _ _ hi] at h
  rw [List.getD_eq_getElem _ _ hi, h]
  exact Fin.ext (Nat.mod_eq_of_lt hv)

/-! ### What a turn sends (R159) -/

theorem chooseOutput_none {r : Terminal} (h : r.online = false ∨ (r.alerts = [] ∧ r.dirty = [])) : chooseOutput r = none := by
  unfold chooseOutput
  obtain h | ⟨ha, hd⟩ := h
  · rw [h]
    rfl
  · rw [ha, hd]
    split <;> rfl

theorem chooseOutput_alert {r : Terminal} {line : Nat} {rest : List Nat} (ho : r.online = true) (h : r.alerts = line :: rest) :
    chooseOutput r = some (line, true) := by
  simp only [chooseOutput, ho, h, if_true]

theorem chooseOutput_line {r : Terminal} {line : Nat} (ho : r.online = true) (ha : r.alerts = [])
    (h : (line = 13 ∧ 13 ∈ r.dirty) ∨ (line = 0 ∧ 13 ∉ r.dirty ∧ 0 ∈ r.dirty) ∨
      (13 ∉ r.dirty ∧ 0 ∉ r.dirty ∧ ∃ rest, r.dirty = line :: rest ∧ line ≤ 12)) : chooseOutput r = some (line, false) := by
  simp only [chooseOutput, ho, ha, if_true]
  obtain ⟨rfl, h13⟩ | ⟨rfl, h13, h0⟩ | ⟨h13, h0, rest, hd, hl⟩ := h
  · rw [if_pos h13]
  · rw [if_neg h13, if_pos h0]
  · rw [if_neg h13, if_neg h0, hd]
    have hpos : line ≠ 0 := by
      rintro rfl
      exact h0 (hd ▸ List.mem_cons_self ..)
    rw [List.find?_cons_of_pos (by rw [decide_eq_true_iff]; omega)]
    rfl

/-! ### The turn begins (R148, R159, R160) -/

/-- The part after the start of a turn whose output is chosen. -/
def State.turnBegun (s : State) (i : Nat) (v : TermId) : Option (Nat × Bool) → State
  | none => s.setPt { s.pt with pointer := i, turn := some ⟨v, none, false, false, false⟩, frameOut := pollFrame v }
  | some (line, bell) =>
    let r := s.term v
    s.setPt { s.pt with
      terminals := vset s.pt.terminals v { r with
        dirty := r.dirty.filter (fun x => x ≠ line), alerts := if bell then r.alerts.tail else r.alerts }
      pointer := i
      turn := some ⟨v, some line, r.clearPending, false, false⟩
      frameOut := terminalFrame v line (lineText s r line) (lineReversed r line) bell r.clearPending }

theorem exec_turnStart {s : State} {i : Nat} {v : TermId} (hp : s.resetPin = false) (hr : s.isReady = true) (ht : s.pt.turn = none)
    (hi : NextPlace s.pt.poll s.pt.pointer i) (hv : s.pt.poll.getD i 255 = v.val) {o : Option (Nat × Bool)}
    (ho : chooseOutput (s.term v) = o) :
    ∃ t, exec .turnStart s = .next t ∧ SameButMarks (s.turnBegun i v o) t := by
  have hx : exec .turnStart s = .next (s.finish s.turnStart) := partEvent_next _ s hp
  have hstart : s.turnStart = (s.setPt { s.pt with pointer := i }).startTurn v := by
    refine (if_pos ⟨hr, ht⟩).trans ?_
    simp only [validPlace_of_nextPlace hi, named_terminal hv]
  have hturn : (s.setPt { s.pt with pointer := i }).startTurn v = s.turnBegun i v o := by
    have ho' : chooseOutput ((s.setPt { s.pt with pointer := i }).term v) = o := ho
    unfold State.startTurn
    cases o with
    | none =>
      simp only [ho']
      rfl
    | some x =>
      obtain ⟨line, bell⟩ := x
      simp only [ho']
      rfl
  rw [hstart, hturn] at hx
  exact ⟨_, hx, State.finish_same s _⟩

/-- No turn begins. -/
theorem State.turnStart_none {s : State} (h : s.isReady = false ∨ s.pt.turn ≠ none ∨ ∀ e ∈ s.pt.poll, 15 < e) : s.turnStart = s := by
  unfold State.turnStart
  split
  · rename_i hc
    obtain h | h | h := h
    · rw [hc.1] at h
      cases h
    · exact absurd hc.2 h
    · rw [validPlace_none h]
  · rfl

/-- Settles O57: the lines are those of `lineIs_lineText`, the turn that of `State.turnBegun`. -/
theorem turnsBegin : Obligations.TurnsBegin := by
  refine ⟨fun s r line hl hc hb h => ⟨lineText_length hl hc hb h, lineIs_lineText hc hb h, lineReversed_iff r hl⟩,
    fun u line chars reversed bell clear h => terminalFrameIs_terminalFrame h chars reversed bell clear, terminalFrameIs_pollFrame,
    fun p => onLineIs_onLine _, fun s i v hp hr ht hi hv => ?_, fun s hp h => ?_, fun s u hp hu => ?_⟩
  · refine ⟨fun h => exec_turnStart hp hr ht hi hv (chooseOutput_none h), fun line rest ho ha => ?_,
      fun line ho ha h => exec_turnStart hp hr ht hi hv (chooseOutput_line ho ha h)⟩
    obtain ⟨t, hx, hs⟩ := exec_turnStart hp hr ht hi hv (chooseOutput_alert ho ha)
    have htail : rest = (s.term v).alerts.tail := by
      rw [ha]
      rfl
    refine ⟨t, hx, ?_⟩
    rw [htail]
    exact hs
  · have hx : exec .turnStart s = .next (s.finish s.turnStart) := partEvent_next _ s hp
    rw [State.turnStart_none h] at hx
    exact ⟨_, hx, State.finish_same s s⟩
  · have hx : exec .terminalFrameSent s = .next (s.finish (s.setPt s.pt.frameSent)) := partEvent_next _ s hp
    have hsent : s.pt.frameSent = { s.pt with turn := some { u with waiting := true } } := by
      simp only [TerminalController.frameSent, hu]
    rw [hsent] at hx
    exact ⟨_, hx, State.finish_same s _⟩

end Sys2Proof.Machine
end

