-- ==== Sys2Proof/Proofs/TurnsEnd.lean ====
section
/-!
PROOFS. The loop ends a turn: a miss, a good answer and the key it carries, and the turn that a LOAD overtook (R149 to R152, R161).
-/

namespace Sys2Proof.Machine

-- Elaborated one after the other, the proofs hold less memory at once.
set_option Elab.async false

/-! ### A key does not rest on the marks -/

theorem SameButMarks.symm {s t : State} (h : SameButMarks s t) : SameButMarks t s := by
  unfold SameButMarks at h ⊢
  rw [h]

theorem SameButMarks.exists_marks {s t : State} (h : SameButMarks s t) :
    ∃ d q p, t = { s with cr := { s.cr with dirty := d }, bp := { s.bp with queue := q, port := p } } :=
  ⟨_, _, _, h⟩

theorem SameButMarks.setPt {s t : State} (h : SameButMarks s t) (p : TerminalController) : SameButMarks (s.setPt p) (t.setPt p) := by
  obtain ⟨d, q, o, rfl⟩ := h.exists_marks
  rfl

theorem SameButMarks.mailboxMoveIn {s t : State} (h : SameButMarks s t) : SameButMarks s.mailboxMoveIn t.mailboxMoveIn := by
  have hmail : t.cr.mailbox = s.cr.mailbox := (congrArg CommandReport.mailbox h.cr :)
  have hpt := h.pt
  have stays : s.cr.mailbox ≠ none ∨ s.pt.keyQueue = [] → SameButMarks s.mailboxMoveIn t.mailboxMoveIn := fun hn => by
    rw [s.mailboxMoveIn_none hn, t.mailboxMoveIn_none (by rwa [hmail, hpt])]
    exact h
  cases hm : s.cr.mailbox with
  | some r => exact stays (.inl (by rw [hm]; rintro ⟨⟩))
  | none =>
    cases hq : s.pt.keyQueue with
    | nil => exact stays (.inr hq)
    | cons r q =>
      have ht := State.mailboxMoveIn_same (s := t) (hmail.trans hm) (hpt ▸ hq)
      refine (State.mailboxMoveIn_same hm hq).symm.trans (SameButMarks.trans ?_ ht)
      obtain ⟨d, q, o, rfl⟩ := h.exists_marks
      rfl

theorem SameButMarks.sendKey {s t : State} (h : SameButMarks s t) (u : TermId) : SameButMarks (s.sendKey u) (t.sendKey u) := by
  have hpt := h.pt
  have hterm : t.term u = s.term u := by rw [State.term, hpt]; rfl
  unfold State.sendKey State.setTerm
  simp only [hterm, hpt]
  split
  · exact h.setPt _
  split
  · exact h.setPt _
  · refine SameButMarks.mailboxMoveIn ((State.markDirty_same _ _).symm.trans (SameButMarks.trans ?_ (State.markDirty_same _ _)))
    exact (h.setPt _).setPt _

/-- What a key does rests on the part but for its marks. -/
theorem SameButMarks.takeKey {s t : State} (h : SameButMarks s t) (u : TermId) (k : Key) :
    SameButMarks (s.takeKey u k) (t.takeKey u k) := by
  have hpt := h.pt
  have hterm : t.term u = s.term u := by rw [State.term, hpt]; rfl
  have hslot : ∀ n, t.slot n = s.slot n := fun n => by rw [State.slot, h.qe]; rfl
  have hfind : ∀ text, findSymbol t text = findSymbol s text := fun text => by simp only [findSymbol, hslot]
  have hset : ∀ r, SameButMarks (s.setTerm u r) (t.setTerm u r) := fun r => by
    rw [State.setTerm, State.setTerm, hpt]
    exact h.setPt _
  have hown : ∀ f : Terminal → Terminal, SameButMarks (s.setTerm u (f (s.term u))) (t.setTerm u (f (t.term u))) := fun f => by
    rw [hterm]
    exact hset _
  cases k with
  | send => exact h.sendKey u
  | quote =>
    show SameButMarks (s.setTerm u _) (t.setTerm u _)
    rw [hterm, quoteKeyOn, quoteKeyOn]
    simp only [hfind]
    exact hset _
  | watch =>
    show SameButMarks (s.watchKey u) (t.watchKey u)
    unfold State.watchKey
    simp only [hterm, hfind, hslot, hpt]
    split
    · exact hset _
    split
    · exact hset _
    split
    · exact hset _
    split
    · exact hset _
    · exact h.setPt _
  | drop =>
    show SameButMarks (s.dropKey u) (t.dropKey u)
    unfold State.dropKey
    simp only [hterm, hfind, hpt]
    split
    · exact hset _
    split
    · exact hset _
    split
    · exact hset _
    split
    · exact hset _
    · exact h.setPt _
  | entry code => exact hown fun r => r.entryKey code
  | clear => exact hown Terminal.clearKey
  | ack => exact hown Terminal.acknowledge
  | _ => exact hown Terminal.recallKey

/-! ### The codes of an answer (R161, R204, Table 11-13) -/

theorem goodAnswer_good {code check : Byte} (h : code + check + 0x5A = 0) : goodAnswer [code, check] = some code := by
  have hsum : byteSum [code, check] = code + check := by
    show 0 + code + check = _
    exact congrArg (· + check) (BitVec.zero_add code)
  exact if_pos (by rw [hsum, h])

theorem goodAnswer_bad {bytes : Text} (h : ¬ (bytes.length = 2 ∧ CheckGood bytes)) : goodAnswer bytes = none := by
  unfold goodAnswer
  split
  · exact if_neg fun hz => h ⟨rfl, (checkGood_iff _).2 hz⟩
  · rfl

theorem isEntryKeyCode_iff (code : Byte) : isEntryKeyCode code = true ↔
    code = 0x20 ∨ code = 0x2E ∨ code = 0x2F ∨ (0x30 ≤ code ∧ code ≤ 0x39) ∨ (0x41 ≤ code ∧ code ≤ 0x5A) := by
  simp only [isEntryKeyCode, Bool.or_eq_true, beq_iff_eq, Bool.and_eq_true, decide_eq_true_iff, or_assoc]

theorem keyOf_none {code : Byte} (h : isEntryKeyCode code = false) (hn : code ∉ [(0xA1 : Byte), 0xA2, 0xA3, 0xA4, 0xA5, 0xA6, 0xA7]) :
    keyOf code = none := by
  have he : ¬ (code = 0x20 ∨ code = 0x2E ∨ code = 0x2F ∨ (0x30 ≤ code ∧ code ≤ 0x39) ∨ (0x41 ≤ code ∧ code ≤ 0x5A)) := fun e => by
    rw [(isEntryKeyCode_iff code).2 e] at h
    cases h
  simp only [List.mem_cons, List.not_mem_nil, or_false, not_or] at hn
  obtain ⟨h1, h2, h3, h4, h5, h6, h7⟩ := hn
  rw [keyOf, if_neg h1, if_neg h2, if_neg h3, if_neg h4, if_neg h5, if_neg h6, if_neg h7, if_neg he]

theorem keyOf_entry {code : Byte} (h : isEntryKeyCode code = true) : keyOf code = some (.entry code) := by
  have hne : ∀ c : Byte, isEntryKeyCode c = false → ¬ code = c := by
    rintro c hc rfl
    rw [h] at hc
    cases hc
  rw [keyOf, if_neg (hne _ (by decide)), if_neg (hne _ (by decide)), if_neg (hne _ (by decide)), if_neg (hne _ (by decide)),
    if_neg (hne _ (by decide)), if_neg (hne _ (by decide)), if_neg (hne _ (by decide)), if_pos ((isEntryKeyCode_iff code).1 h)]

/-- The row of a key and the code of an answer that carries it name one key. -/
theorem keyOf_row {u : TermId} {code : Byte} {key : Instr}
    (h : (code, key) ∈ [((0xA1 : Byte), Instr.quoteKey u), (0xA2, .recallKey u), (0xA3, .clearKey u), (0xA4, .sendKey u),
        (0xA5, .watchKey u), (0xA6, .dropKey u), (0xA7, .ackKey u)] ∨ (isEntryKeyCode code = true ∧ key = .entryKey u code)) :
    ∃ k, keyOf code = some k ∧ ∀ p, exec key p = partEvent (fun x => x.keyEvent u k) p := by
  obtain h | ⟨h, rfl⟩ := h
  · simp only [List.mem_cons, Prod.mk.injEq, List.not_mem_nil, or_false] at h
    obtain ⟨rfl, rfl⟩ | ⟨rfl, rfl⟩ | ⟨rfl, rfl⟩ | ⟨rfl, rfl⟩ | ⟨rfl, rfl⟩ | ⟨rfl, rfl⟩ | ⟨rfl, rfl⟩ := h
    · exact ⟨.quote, by decide, fun p => rfl⟩
    · exact ⟨.recall, by decide, fun p => rfl⟩
    · exact ⟨.clear, by decide, fun p => rfl⟩
    · exact ⟨.send, by decide, fun p => rfl⟩
    · exact ⟨.watch, by decide, fun p => rfl⟩
    · exact ⟨.drop, by decide, fun p => rfl⟩
    · exact ⟨.ack, by decide, fun p => rfl⟩
  · refine ⟨.entry code, keyOf_entry h, fun p => ?_⟩
    show partEvent (fun x => if isEntryKeyCode code then x.keyEvent u (.entry code) else x) p = _
    simp only [h, if_true]

/-! ### The turn ends (R148, R150, R151) -/

/-- The part after the end of a turn, its terminal's record and the flags given. -/
def State.turnEnded (s : State) (u : Turn) (r : Terminal) (flags : Word) : State :=
  { s with
    pt := { s.pt with
      terminals := vset s.pt.terminals u.terminal r, turn := none, pointer := (validPlace s.pt.poll (s.pt.pointer + 1)).getD 0 }
    cr := { s.cr with flags := flags } }

/-- What the end of a turn leaves to the record of its terminal and to the flags. -/
theorem turnEnded_finish (s : State) (u : Turn) (r : Terminal) (flags : Word) :
    (let t := s.finish (s.turnEnded u r flags)
     t.term u.terminal = r ∧ t.cr.flags = flags ∧ (r.online ≠ (s.term u.terminal).online → 21 ∈ t.cr.dirty) ∧
     t.pt.turn = none ∧ (∀ i, NextPlace s.pt.poll (s.pt.pointer + 1) i → t.pt.pointer = i) ∧
     (∀ v, v ≠ u.terminal → t.term v = s.term v) ∧
     SameButMarks { s with
       pt := { s.pt with terminals := t.pt.terminals, turn := none, pointer := t.pt.pointer }
       cr := { s.cr with flags := t.cr.flags } } t) := by
  have hs := State.finish_same s (s.turnEnded u r flags)
  have h21 : r.online ≠ (s.term u.terminal).online → 21 ∈ (s.finish (s.turnEnded u r flags)).cr.dirty := fun h => by
    refine State.mem_finish_of_ne (by decide) fun e => h ?_
    have e' : terminalsWord s.pt = terminalsWord (s.turnEnded u r flags).pt := e
    have h1 := terminalsWord_getLsbD s.pt u.terminal
    rw [e', terminalsWord_getLsbD] at h1
    rw [← vget_vset_self s.pt.terminals u.terminal r]
    exact h1
  generalize s.finish (s.turnEnded u r flags) = t at *
  have hpt := hs.pt
  have hflags : t.cr.flags = flags := (congrArg CommandReport.flags hs.cr :)
  refine ⟨?_, hflags, h21, ?_, fun i hi => ?_, fun v hv => ?_, ?_⟩
  · rw [State.term, hpt]
    exact vget_vset_self _ _ _
  · rw [hpt]
    rfl
  · rw [hpt, State.turnEnded, validPlace_of_nextPlace hi]
    rfl
  · rw [State.term, hpt]
    exact vget_vset_ne _ _ _ _ hv.symm
  · rw [hflags, hpt]
    exact hs

/-- The line that a turn carried is dirty again. -/
def Terminal.redirtied (r : Terminal) : Option Nat → Terminal
  | some line => r.mark line
  | none => r

theorem Terminal.redirtied_eq (r : Terminal) (o : Option Nat) : r.redirtied o = { r with dirty := (r.redirtied o).dirty } := by
  cases o <;> rfl

theorem Terminal.mem_redirtied (r : Terminal) (o : Option Nat) (line : Nat) :
    line ∈ (r.redirtied o).dirty ↔ line ∈ r.dirty ∨ o = some line := by
  cases o with
  | none => simp [Terminal.redirtied]
  | some l =>
    rw [Terminal.redirtied, Terminal.mem_mark_dirty, Option.some.injEq]
    exact or_congr_right eq_comm

section
variable (s : State) (u : Turn)

theorem State.turnMissed_eq :
    s.turnMissed u =
      (let r := (s.term u.terminal).redirtied u.line
       if r.online then
         if r.misses + 1 < 3 then s.turnEnded u { r with misses := r.misses + 1 } s.cr.flags
         else s.turnEnded u { r with online := false, misses := 0 } (s.cr.flags ||| 0x0008)
       else s.turnEnded u { r with misses := 0 } s.cr.flags) := by
  unfold State.turnMissed
  cases u.line <;> rfl

/-- What a miss leaves to the record of its terminal and to the flags. -/
theorem State.turnMissed_ended :
    ∃ r flags, s.turnMissed u = s.turnEnded u r flags ∧
      (∀ line, line ∈ r.dirty ↔ line ∈ (s.term u.terminal).dirty ∨ u.line = some line) ∧
      ((s.term u.terminal).online = true → (s.term u.terminal).misses < 2 →
        r = { s.term u.terminal with dirty := r.dirty, misses := (s.term u.terminal).misses + 1 } ∧ flags = s.cr.flags) ∧
      ((s.term u.terminal).online = true → (s.term u.terminal).misses = 2 →
        r = { s.term u.terminal with dirty := r.dirty, online := false, misses := 0 } ∧ flags = s.cr.flags ||| 0x0008) ∧
      ((s.term u.terminal).online = false →
        r = { s.term u.terminal with dirty := r.dirty, misses := 0 } ∧ flags = s.cr.flags) := by
  have hmem := (s.term u.terminal).mem_redirtied u.line
  have he := s.turnMissed_eq u
  rw [Terminal.redirtied_eq] at he
  generalize ((s.term u.terminal).redirtied u.line).dirty = d at *
  cases ho : (s.term u.terminal).online with
  | false =>
    simp only [ho, Bool.false_eq_true, if_false] at he
    exact ⟨_, _, he, hmem, (by rintro ⟨⟩), (by rintro ⟨⟩), fun _ => ⟨by rw [← ho], rfl⟩⟩
  | true =>
    simp only [ho, if_true] at he
    by_cases hm : (s.term u.terminal).misses + 1 < 3
    · rw [if_pos hm] at he
      exact ⟨_, _, he, hmem, fun _ _ => ⟨by rw [← ho], rfl⟩, fun _ _ => by omega, (by rintro ⟨⟩)⟩
    · rw [if_neg hm] at he
      exact ⟨_, _, he, hmem, fun _ _ => by omega, fun _ _ => ⟨rfl, rfl⟩, (by rintro ⟨⟩)⟩

theorem mem_allLines (line : Nat) : line ∈ allLines ↔ line < 14 := List.mem_range (n := 14)

/-- What a good answer leaves to the record of its terminal and to the flags, before its key is taken. -/
theorem State.turnAnswered_ended :
    ∃ r flags, s.turnAnswered u = s.turnEnded u r flags ∧
      ((s.term u.terminal).online = true → u.clear = false → r = { s.term u.terminal with misses := 0 } ∧ flags = s.cr.flags) ∧
      ((s.term u.terminal).online = true → u.clear = true →
        r = { s.term u.terminal with misses := 0, clearPending := false } ∧ flags = s.cr.flags) ∧
      ((s.term u.terminal).online = false →
        r = { s.term u.terminal with online := true, misses := 0, dirty := allLines, clearPending := true } ∧
          flags = s.cr.flags ||| 0x0008) := by
  have he : s.turnAnswered u =
      if (s.term u.terminal).online then
        s.turnEnded u
          { s.term u.terminal with misses := 0, clearPending := if u.clear then false else (s.term u.terminal).clearPending }
          s.cr.flags
      else s.turnEnded u
        { s.term u.terminal with online := true, misses := 0, dirty := allLines, clearPending := true }
        (s.cr.flags ||| 0x0008) := rfl
  cases ho : (s.term u.terminal).online with
  | false =>
    rw [ho] at he
    exact ⟨_, _, he, (by rintro ⟨⟩), (by rintro ⟨⟩), fun _ => ⟨rfl, rfl⟩⟩
  | true =>
    rw [ho] at he
    exact ⟨_, _, he, fun _ hc => ⟨by rw [hc]; rfl, rfl⟩, fun _ hc => ⟨by rw [hc]; rfl, rfl⟩, (by rintro ⟨⟩)⟩

end

/-! ### The events of the answer wait -/

section
variable {s : State} (hp : s.resetPin = false)
include hp

theorem exec_turnMiss : exec .turnMiss s = .next (s.finish s.turnMiss) := partEvent_next _ s hp

theorem exec_terminalAnswer (bytes : Text) : exec (.terminalAnswer bytes) s = .next (s.finish (s.terminalAnswer bytes)) :=
  partEvent_next _ s hp

end

section
variable {s : State} {u : Turn} (hu : s.pt.turn = some u) (hw : u.waiting = true) (hd : u.discard = false)
include hu hw hd

theorem State.turnMiss_missed : s.turnMiss = s.turnMissed u := by
  simp only [State.turnMiss, hu, hw, hd, if_true, Bool.false_eq_true, if_false]

theorem State.terminalAnswer_bad {bytes : Text} (h : goodAnswer bytes = none) : s.terminalAnswer bytes = s.turnMissed u := by
  simp only [State.terminalAnswer, hu, hw, hd, h, if_true, Bool.false_eq_true, if_false]

theorem State.terminalAnswer_plain {bytes : Text} {code : Byte} (h : goodAnswer bytes = some code) (hk : keyOf code = none) :
    s.terminalAnswer bytes = s.turnAnswered u := by
  simp only [State.terminalAnswer, hu, hw, hd, h, hk, if_true, Bool.false_eq_true, if_false]

theorem State.terminalAnswer_key {bytes : Text} {code : Byte} {k : Key} (h : goodAnswer bytes = some code) (hk : keyOf code = some k) :
    s.terminalAnswer bytes = (s.turnAnswered u).takeKey u.terminal k := by
  simp only [State.terminalAnswer, hu, hw, hd, h, hk, if_true, Bool.false_eq_true, if_false]

end

theorem State.turn_idle {s : State} (h : ∀ u, s.pt.turn = some u → u.waiting = false) (bytes : Text) :
    s.terminalAnswer bytes = s ∧ s.turnMiss = s := by
  unfold State.terminalAnswer State.turnMiss
  cases hu : s.pt.turn with
  | none => exact ⟨rfl, rfl⟩
  | some u => simp only [h u hu, Bool.false_eq_true, if_false, and_self]

theorem State.turn_overtaken {s : State} {u : Turn} (hu : s.pt.turn = some u) (hw : u.waiting = true) (hd : u.discard = true)
    (bytes : Text) : s.terminalAnswer bytes = s.turnDiscarded ∧ s.turnMiss = s.turnDiscarded := by
  simp only [State.terminalAnswer, State.turnMiss, hu, hw, hd, if_true, and_self]

/-- Settles O58: a miss is `State.turnMissed`, a good answer `State.turnAnswered`, and its key that of the key's own row. -/
theorem turnsEnd : Obligations.TurnsEnd := by
  refine ⟨fun s u hp hu hw hd => ?_, fun s bytes hp h => ?_, fun s u bytes hp hu hw hd => ?_⟩
  · have hplain : s.terminalAnswer [0x00, 0xA6] = s.turnAnswered u :=
      State.terminalAnswer_plain hu hw hd (goodAnswer_good (by decide)) (by decide)
    have hmiss := State.turnMiss_missed hu hw hd
    refine ⟨?_, ?_, fun code check key hr hc hk => ?_, fun code check hc he hn => ?_, fun bytes hb => ?_⟩
    · obtain ⟨r, flags, he, hdirty, hagain, hthird, hoff⟩ := s.turnMissed_ended u
      have hx := exec_turnMiss hp
      rw [hmiss, he] at hx
      obtain ⟨hterm, hflags, h21, hframe⟩ := turnEnded_finish s u r flags
      generalize s.finish _ = t at *
      subst hterm hflags
      refine ⟨t, hx, hframe, hdirty, hagain, fun ho hm => ?_, hoff⟩
      obtain ⟨hr, hf⟩ := hthird ho hm
      exact ⟨hr, hf, h21 (by rw [hr, ho]; rintro ⟨⟩)⟩
    · obtain ⟨r, flags, he, hkeep, hclear, hoff⟩ := s.turnAnswered_ended u
      have hx := exec_terminalAnswer hp [0x00, 0xA6]
      rw [hplain, he] at hx
      obtain ⟨hterm, hflags, h21, hframe⟩ := turnEnded_finish s u r flags
      generalize s.finish _ = t at *
      subst hterm hflags
      refine ⟨t, hx, hframe, hkeep, hclear, fun ho => ?_⟩
      obtain ⟨hr, hf⟩ := hoff ho
      have hd : (t.term u.terminal).dirty = allLines := by rw [hr]
      refine ⟨?_, fun line => ?_, hf, h21 (by rw [hr, ho]; rintro ⟨⟩)⟩
      · rw [hd]
        exact hr
      · rw [hd]
        exact mem_allLines line
    · obtain ⟨k, hkey, hrow⟩ := keyOf_row hk
      have hx := exec_terminalAnswer hp [0x00, 0xA6]
      have hx' := exec_terminalAnswer hp [code, check]
      rw [hplain] at hx
      rw [State.terminalAnswer_key hu hw hd (goodAnswer_good hc) hkey] at hx'
      have hs := State.finish_same s (s.turnAnswered u)
      have hr' : (s.finish (s.turnAnswered u)).isReady = true := by
        obtain ⟨r, flags, he, -⟩ := s.turnAnswered_ended u
        rw [he] at hs ⊢
        rw [State.isReady, hs.cr]
        exact hr
      have hp' : (s.finish (s.turnAnswered u)).resetPin = false := by
        obtain ⟨r, flags, he, -⟩ := s.turnAnswered_ended u
        rw [he] at hs ⊢
        exact hs.resetPin.trans hp
      refine ⟨_, _, _, hx, (hrow _).trans (exec_key hp' hr' u.terminal k), hx', ?_⟩
      exact (State.finish_same _ _).symm.trans ((hs.takeKey u.terminal k).symm.trans (State.finish_same s _))
    · rw [exec_terminalAnswer hp, exec_terminalAnswer hp, hplain,
        State.terminalAnswer_plain hu hw hd (goodAnswer_good hc) (keyOf_none he hn)]
    · rw [exec_terminalAnswer hp, exec_turnMiss hp, hmiss, State.terminalAnswer_bad hu hw hd (goodAnswer_bad hb)]
  · obtain ⟨ha, hm⟩ := State.turn_idle h bytes
    have hx := exec_terminalAnswer hp bytes
    have hx' := exec_turnMiss hp
    rw [ha] at hx
    rw [hm] at hx'
    exact ⟨_, hx, hx', State.finish_same s s⟩
  · obtain ⟨ha, hm⟩ := State.turn_overtaken hu hw hd bytes
    have hx := exec_terminalAnswer hp bytes
    have hx' := exec_turnMiss hp
    rw [ha] at hx
    rw [hm] at hx'
    exact ⟨_, hx', hx, State.finish_same s _⟩

end Sys2Proof.Machine
end

