-- ==== Sys2Proof/Proofs/Dark.lean ====
section
/-!
PROOFS. The session goes to DIMMING and from there to DARK: at the DARK command, at its own row, and in the event that drains the floor
(R104, R105, R139, R140).
-/

namespace Sys2Proof.Machine

-- Elaborated one after the other, the proofs hold less memory at once.
set_option Elab.async false

/-! ### Links that go dark (R105) -/

theorem Link.goDark_online {k : Link} (h : k.state = .online) :
    k.goDark = { k with
      state := .dark, queue := [], stale := [], blink := [], pass := none, failures := 0, probeDue := false, probeTimer := false
      work := some ⟨.blankAll, .sending, false, true⟩, frameOut := boardFrame .all 0 0 false .white [] } := by
  simp only [Link.goDark, h]
  rfl

theorem Link.goDark_offline {k : Link} (h : k.state = .offline) :
    k.goDark = { k with
      state := .dark, queue := [], stale := [], blink := [], pass := none, failures := 0, probeDue := false, probeTimer := false
      work := k.work.map fun w => { w with discard := true } } := by
  simp only [Link.goDark, h]

theorem Link.goDark_rest {k : Link} (h : k.state = .unused ∨ k.state = .dark) : k.goDark = k := by
  obtain h | h := h <;> simp only [Link.goDark, h]

theorem Link.goDark_state {k : Link} (h : k.state ≠ .unused) : k.goDark.state = .dark := by
  cases hs : k.state with
  | unused => exact absurd hs h
  | online => rw [Link.goDark_online hs]
  | offline => rw [Link.goDark_offline hs]
  | dark => rw [Link.goDark_rest (.inr hs), hs]

/-! ### The floor goes dark (R140) -/

/-- The part gone dark, but for the marks that its change of session and of COMMAND STATUS sets. -/
def State.wentDark (u : State) : State :=
  answered { u with
    bc := { u.bc with links := vmap Link.goDark u.bc.links }
    cs := { u.cs with session := .dark }
    pt := u.pt.markStatusLines
    cr := { u.cr with running := none } } 0x05 .done .none

/-- With nothing left to send a DIMMING session goes to DARK. -/
theorem State.sessionDark_dark {u : State} (hr : u.isReady = true) (hs : u.cs.session = .dimming) (hd : u.bc.drained = true)
    (ht : u.tc.isEmpty = true) : SameButMarks u.wentDark u.sessionDark ∧ 8 ∈ u.sessionDark.cr.dirty := by
  have he : u.sessionDark = ((((u.setBc { u.bc with links := vmap Link.goDark u.bc.links }).setCr
      { u.cr with running := none }).setSession .dark).cmdDone 0x05) := if_pos ⟨hr, hs, hd, ht⟩
  rw [he]
  exact ⟨State.setStatus_same _ _ _ _, State.setStatus_dirty _ _ _ _⟩

/-- What a floor gone dark leaves, at the end of an event that began before the session was DARK. -/
theorem wentDark_finish {s u v : State} (hs : s.cs.session ≠ .dark) (hv : SameButMarks u.wentDark v) (h8 : 8 ∈ v.cr.dirty) :
    (let t := s.finish v
     SameButMarks u.wentDark t ∧ AllDirty [6, 8] t ∧ (∀ w, 0 ∈ (t.term w).dirty) ∧ ∀ l, t.link l = (u.link l).goDark) := by
  have ht := State.finish_sameAs s hv
  have h8t : 8 ∈ (s.finish v).cr.dirty := State.mem_finish_of_mem h8
  have h6t : 6 ∈ (s.finish v).cr.dirty := by
    refine State.mem_finish_of_ne (by decide) (partStatus_ne_of_session ?_)
    rw [hv.cs]
    exact hs
  generalize s.finish v = t at *
  refine ⟨ht, fun o ho => ?_, fun w => statusLine_dirty ht.pt w, fun l => ?_⟩
  · simp only [List.mem_cons, List.not_mem_nil, or_false] at ho
    obtain rfl | rfl := ho
    · exact h6t
    · exact h8t
  · rw [State.link, ht.bc]
    exact vget_vmap _ _ _

/-- The floor is dark, CMD set, and each link is the drained one gone dark. -/
theorem goneDark_finish {s u v : State} (hs : s.cs.session ≠ .dark) (hv : SameButMarks u.wentDark v) (h8 : 8 ∈ v.cr.dirty)
    (hl : ∀ m, (s.link m).state ≠ .unused → (u.link m).state ≠ .unused) :
    (let t := s.finish v
     GoneDark s t ∧ t.cr.flags = u.cr.flags ||| 0x0002 ∧ t.tc = u.tc ∧ ∀ l, t.link l = (u.link l).goDark) := by
  obtain ⟨ht, hdirty, hlines, hlink⟩ := wentDark_finish hs hv h8
  generalize s.finish v = t at *
  have hcs := ht.cs
  refine ⟨⟨?_, (congrArg CommandReport.running ht.cr :), (congrArg CommandReport.status ht.cr :), hdirty, hlines, fun m hm => ?_⟩,
    (congrArg CommandReport.flags ht.cr :), ht.tc, hlink⟩
  · rw [hcs]
    rfl
  · rw [hlink]
    exact Link.goDark_state (hl m hm)

/-! ### DARK is accepted (R102, R139) -/

theorem State.dimmed_link (s : State) (l : LinkId) : s.dimmed.link l = { s.link l with pass := none } := vget_vmap _ _ _

theorem State.dimmed_drained (s : State) : s.dimmed.bc.drained = s.bc.drained := by
  have h : ∀ l, (vget s.dimmed.bc.links l).drained = (vget s.bc.links l).drained := fun l =>
    (congrArg Link.drained (s.dimmed_link l)).trans rfl
  rw [Bool.eq_iff_iff, BoardController.drained_iff, BoardController.drained_iff]
  simp only [h]

/-- The session in DIMMING, the marks apart. -/
theorem State.dimmed_same (s : State) :
    SameButMarks (answered { s with
      bc := { s.bc with links := s.dimmed.bc.links }
      cs := { s.cs with session := .dimming }
      pt := s.pt.markStatusLines
      cr := { s.cr with running := some .dark } } 0x05 .running .none) s.dimmed ∧ 8 ∈ s.dimmed.cr.dirty :=
  ⟨rfl, State.setStatus_dirty s 0x05 .running .none⟩

theorem cmdDark_lit {s : State} (x : Byte) (h : TakesCommands s) (hs : s.cs.session = .closed)
    (hl : s.bc.drained = false ∨ s.tc.isEmpty = false) :
    ∃ t, exec (.dark x) s = .next t ∧ AllDirty [6, 8] t ∧ (∀ u, 0 ∈ (t.term u).dirty) ∧
      (∀ l, t.link l = { s.link l with pass := none }) ∧
      (let b := withCommandWord s 0x05 x
       SameButMarks (answered { b with
         bc := { b.bc with links := t.bc.links }
         cs := { b.cs with session := .dimming }
         pt := b.pt.markStatusLines
         cr := { b.cr with running := some .dark } } 0x05 .running .none) t) := by
  let b := withCommandWord s 0x05 x
  have hown : b.cmdDark = b.dimmed := by
    refine (if_pos hs).trans (State.sessionDark_lit _ (.inr (.inr ?_)))
    rw [State.dimmed_drained]
    exact hl
  obtain ⟨hsame, h8⟩ := b.dimmed_same
  have hx : exec (.dark x) s = .next (s.finish b.dimmed.freePort) := congrArg Host.Outcome.next (exec_owner h rfl hown)
  have h6 : 6 ∈ (s.finish b.dimmed.freePort).cr.dirty := by
    refine State.mem_finish_of_ne (by decide) (partStatus_ne_of_session ?_)
    rw [hs]
    rintro ⟨⟩
  have h8t : 8 ∈ (s.finish b.dimmed.freePort).cr.dirty := State.mem_finish_of_mem h8
  have ht := State.finish_freePort_sameAs s hsame
  have hlinks : (s.finish b.dimmed.freePort).bc.links = b.dimmed.bc.links := congrArg BoardController.links (State.finish_bc s _)
  refine ⟨_, hx, fun o ho => ?_, fun u => statusLine_dirty ht.pt u, fun l => ?_, ?_⟩
  · simp only [List.mem_cons, List.not_mem_nil, or_false] at ho
    obtain rfl | rfl := ho
    · exact h6
    · exact h8t
  · rw [State.link, hlinks]
    exact b.dimmed_link l
  · rw [hlinks]
    exact ht

theorem cmdDark_dark {s : State} (x : Byte) (h : TakesCommands s) (hs : s.cs.session = .closed) (hd : s.bc.drained = true)
    (ht : s.tc.isEmpty = true) :
    ∃ t, exec (.dark x) s = .next t ∧ GoneDark s t ∧ t.cr.flags = s.cr.flags ||| 0x0002 := by
  let b := withCommandWord s 0x05 x
  have hown : b.cmdDark = b.dimmed.sessionDark := if_pos hs
  have hr : b.dimmed.isReady = true := h.2.1
  obtain ⟨hsame, h8⟩ := State.sessionDark_dark hr rfl (b.dimmed_drained.trans hd) ht
  have hx : exec (.dark x) s = .next (s.finish b.dimmed.sessionDark.freePort) := congrArg Host.Outcome.next (exec_owner h rfl hown)
  obtain ⟨hgone, hflags, -⟩ := goneDark_finish (s := s) (u := b.dimmed) (v := b.dimmed.sessionDark.freePort) (by rw [hs]; rintro ⟨⟩)
    (hsame.trans (State.freePort_same _)) h8 fun m hm => by
      rw [State.dimmed_link]
      exact hm
  exact ⟨_, hx, hgone, hflags⟩

/-! ### The event that drains the floor (R104, R140) -/

/-- A link changed to a drained one, the others drained: the floor is drained. -/
theorem drained_setLink {s : State} {l : LinkId} {k : Link} (h : ∀ m, m ≠ l → (s.link m).drained = true) (hk : k.drained = true) :
    (s.setLink l k).bc.drained = true := by
  rw [BoardController.drained_iff]
  intro m
  have hm : vget (s.setLink l k).bc.links m = if l = m then k else s.link m := vget_vset _ _ _ _
  rw [hm]
  split
  · exact hk
  · rename_i hne
    exact h m (Ne.symm hne)

/-- The third miss takes the link OFFLINE whatever row its frame was of. -/
theorem State.boardMissed_offline {s : State} {l : LinkId} {k : Link} (ho : k.state = .online) (hf : k.failures = 2) (w : Work)
    (r : Option Nat) : s.boardMissed l k w r = (s.setLink l { k with
      state := .offline, work := none, queue := [], blink := [], stale := List.range k.rows, pass := none, failures := 0
      probeDue := true, probeTimer := false }).raise flagBoard := by
  cases r with
  | some r => exact State.boardMissed_third ho hf w r
  | none =>
    unfold State.boardMissed
    simp only [Link.endPiece_eq]
    exact (if_neg (not_not.2 ho)).trans (if_neg (by omega))

/-- An event that leaves its used link drained, as the last one, takes the floor to DARK. -/
theorem lastLink_dark {s u : State} {l : LinkId} {k : Link} {flags : Word} (hs : s.cs.session = .dimming)
    (hd : ∀ m, m ≠ l → (s.link m).drained = true) (hu : u = { s.setLink l k with cr := { s.cr with flags := flags } })
    (hr : s.isReady = true) (ht : s.tc.isEmpty = true) (hk : k.drained = true) (hstate : k.state ≠ .unused) :
    (let t := s.finish u.sessionDark
     GoneDark s t ∧ t.cr.flags = flags ||| 0x0002 ∧ t.link l = k.goDark) := by
  subst hu
  obtain ⟨hsame, h8⟩ := State.sessionDark_dark (u := { s.setLink l k with cr := { s.cr with flags := flags } }) hr hs
    (drained_setLink hd hk) ht
  have hlink : ∀ m, (s.setLink l k).link m = if l = m then k else s.link m := fun m => vget_vset _ _ _ _
  obtain ⟨hgone, hflags, -, hlinks⟩ := goneDark_finish (s := s) (by rw [hs]; rintro ⟨⟩) hsame h8 fun m hm => by
    show ((s.setLink l k).link m).state ≠ .unused
    rw [hlink]
    split
    · exact hstate
    · exact hm
  refine ⟨hgone, hflags, (hlinks l).trans (congrArg Link.goDark ?_)⟩
  exact (hlink l).trans (if_pos rfl)

/-- Settles O36: DIMMING is `State.dimmed`, and each event that leaves the floor drained goes on to `State.sessionDark`. -/
theorem darkBeginsAndIsReached : Obligations.DarkBeginsAndIsReached := by
  refine ⟨fun s x h hs hl => cmdDark_lit x h hs hl, fun s x h hs hd ht => cmdDark_dark x h hs hd ht, fun s hp hr hs hd ht => ?_,
    fun s hp h => ?_, fun s l w hp hr hs ht hd ho h hw hdis => ⟨fun hq hst hpc => ?_, fun hf hpc => ?_⟩,
    fun s c hp hr hs hd htr hc hq hres => ?_⟩
  · have hx : exec .sessionDark s = .next (s.finish s.sessionDark) := partEvent_next _ s hp
    obtain ⟨hsame, h8⟩ := State.sessionDark_dark hr hs hd ht
    obtain ⟨hall, hdirty, hlines, hlink⟩ := wentDark_finish (s := s) (by rw [hs]; rintro ⟨⟩) hsame h8
    generalize s.finish _ = t at *
    refine ⟨t, hx, hdirty, hlines, fun l hl => ?_, fun l hl => ?_, fun l hl => ?_, fun l hl => ?_, ?_⟩
    · obtain hl | hl := hl
      · rw [hlink, Link.goDark_online hl]
        exact ⟨rfl, rfl, rfl, rfl, rfl, rfl, rfl, rfl⟩
      · rw [hlink, Link.goDark_offline hl]
        exact ⟨rfl, rfl, rfl, rfl, rfl, rfl, rfl, rfl⟩
    · rw [hlink, Link.goDark_online hl]
      exact ⟨rfl, rfl⟩
    · rw [hlink, Link.goDark_offline hl]
      exact ⟨rfl, rfl⟩
    · rw [hlink, Link.goDark_rest hl]
    · rw [hall.bc]
      exact hall
  · have hx : exec .sessionDark s = .next (s.finish s.sessionDark) := partEvent_next _ s hp
    rw [State.sessionDark_lit s h] at hx
    exact ⟨_, hx, State.finish_same s s⟩
  · have he : s.boardAcked l = s.setLink l { (s.link l).endPiece w with failures := 0 } := by
      obtain ⟨p, hpc⟩ | ⟨r, hpc⟩ | ⟨r, hpc⟩ := hpc
      · exact State.boardAcked_ends h hw hdis (.inr (.inr hpc))
      · exact State.boardAcked_ends h hw hdis (.inl hpc)
      · exact State.boardAcked_ends h hw hdis (.inr (.inl hpc))
    have hstate : ({ (s.link l).endPiece w with failures := 0 } : Link).state = .online := ho
    have hk : ({ (s.link l).endPiece w with failures := 0 } : Link).drained = true := by
      simp only [Link.drained, Link.endPiece, ho, hq, hst, List.isEmpty_nil, Option.isNone_none, Bool.and_self]
    obtain ⟨hgone, hflags, hlink⟩ := lastLink_dark (flags := s.cr.flags) hs hd he hr ht hk (by rw [hstate]; rintro ⟨⟩)
    refine ⟨_, exec_boardAck hp l, hgone, hflags, ?_⟩
    rw [hlink, Link.goDark_online hstate]
  · have he : s.answerWaitEnds l = (s.setLink l { s.link l with
        state := .offline, work := none, queue := [], blink := [], stale := List.range (s.link l).rows, pass := none, failures := 0
        probeDue := true, probeTimer := false }).raise flagBoard := by
      obtain ⟨p, hpc⟩ | ⟨r, hpc⟩ | ⟨r, rest, hpc⟩ := hpc
      all_goals
        simp only [State.answerWaitEnds, h, hw, hdis, hpc, ne_eq, not_true_eq_false, if_false, Bool.false_eq_true]
        exact State.boardMissed_offline ho hf w _
    obtain ⟨hgone, hflags, hlink⟩ := lastLink_dark (flags := s.cr.flags ||| 0x0004) hs hd he hr ht rfl (by rintro ⟨⟩)
    rw [Link.goDark_offline rfl] at hlink
    exact ⟨_, exec_answerWaitExpiry hp l, hgone, hflags, by rw [hlink]; rfl, by rw [hlink]⟩
  · have hx : exec .tapePaceExpiry s = .next (s.finish s.tapePace.sessionDark) := partEvent_next _ s hp
    rw [State.tapePace_goes htr hc] at hx
    have hempty : ({ s.tc with charOut := some c, current := [] } : TapeController).isEmpty = true := by
      simp only [TapeController.isEmpty, hq, hres, List.isEmpty_nil, Option.isNone_none, Bool.and_self]
    obtain ⟨hsame, h8⟩ := State.sessionDark_dark (u := s.setTc { s.tc with charOut := some c, current := [] }) hr hs hd hempty
    obtain ⟨hgone, hflags, htc, -⟩ := goneDark_finish (s := s) (by rw [hs]; rintro ⟨⟩) hsame h8 fun m hm => hm
    exact ⟨_, hx, hgone, hflags, by rw [htc]; rfl⟩

end Sys2Proof.Machine
end

