-- ==== Sys2Proof/Proofs/LoadBegins.lean ====
section
/-!
PROOFS. A LOAD is accepted: what every block keeps and what its links have in hand (R72, R99, R102, R106, R192).
-/

namespace Sys2Proof.Machine

-- Elaborated one after the other, the proofs hold less memory at once.
set_option Elab.async false

/-- LOAD given to a free port outside READY or in CLOSED is accepted. -/
theorem giveCommand_load {s : State} (x : Byte) (hp : PortFree s) (hn : s.cr.running = none)
    (h : s.cr.part = .unconfigured ∨ (s.cr.part = .ready ∧ s.cs.session = .closed)) :
    s.giveCommand 0x01 x = s.finish (withCommandWord s 0x01 x).loadAccepted.freePort := by
  have hready : s.cr.part = .unconfigured ∨ (s.isReady = true ∧ s.cs.session = .closed) :=
    h.imp_right fun ⟨hr, hs⟩ => ⟨by rw [State.isReady, hr]; rfl, hs⟩
  have hload : (withCommandWord s 0x01 x).cmdLoad = (withCommandWord s 0x01 x).loadAccepted := if_pos hready
  have hcr : (withCommandWord s 0x01 x).cr = s.cr := rfl
  have hop : hiByte (wordOf 0x01 x) = 0x01 := hiByte_wordOf _ _
  have hk : isKnownOpcode 0x01 = true := rfl
  rw [State.giveCommand_free s _ _ hp, ← hload]
  simp only [State.commandWrite, hcr, hn, hop, hk, Option.isSome_none, Bool.false_eq_true, Bool.not_true, if_false, ne_eq,
    not_true_eq_false, and_false]
  rfl

/-! ### What a link keeps in hand -/

/-- A frame going out or waiting is completed; its answer is discarded and no frame of its piece follows. -/
theorem Work.loadAccepted_frame {w : Work} (h : w.phase = .sending ∨ w.phase = .waiting) : w.loadAccepted = some w.closed := by
  obtain h | h := h <;> simp only [Work.loadAccepted, h]

theorem Work.closed_eq (w : Work) :
    ∃ piece, w.closed = ⟨piece, w.phase, false, true⟩ ∧ (∀ r rest, w.piece = .symbolRow r rest → piece = .symbolRow r []) ∧
      ((∀ r rest, w.piece ≠ .symbolRow r rest) → piece = w.piece) := by
  refine ⟨w.closed.piece, rfl, fun r rest h => ?_, fun h => ?_⟩
  · simp only [Work.closed, h]
  · unfold Work.closed
    cases hp : w.piece with
    | symbolRow r rest => exact absurd hp (h r rest)
    | cell p => rfl
    | textRow r => rfl
    | blankAll => rfl
    | probe => rfl

theorem Link.loadAccepted_reads {k : Link} (h : k.Reads) : k.loadAccepted.work = none := by
  obtain ⟨w, line, hw, hp⟩ := h
  have hnone : w.loadAccepted = none := by simp only [Work.loadAccepted, hp]
  show k.work.bind Work.loadAccepted = none
  rw [hw]
  exact hnone

/-! ### The marks after the event -/

/-- With no write-back mark and no write-back entry left, none comes at the end of the event. -/
theorem writeBack_not_mem_finish {s u : State} (hd : u.qe.due = []) {m : DueMark} (hq : SideWord.writeBack m ∉ u.bp.queue) :
    SideWord.writeBack m ∉ (s.finish u).bp.queue := by
  intro hm
  have hm' : SideWord.writeBack m ∈ (s.event fun _ => u).bp.queue := hm
  rw [State.event_queue_eq] at hm'
  obtain h | h := mem_of_foldl_enterMark _ _ _ hm'
  · exact hq h
  · have hqe : (s.markChanged u).qe = u.qe := by
      rw [State.markChanged, State.markAllDirty_eq]
      rfl
    have hmark : decide (m ∈ (s.markChanged u).qe.due) = true := (mem_markOrder _ _).1 h
    rw [hqe, hd] at hmark
    cases hmark

/-- MAILBOX TAG changes when a FULL mailbox is emptied. -/
theorem mailboxTag_ne {s u : State} (h : s.cr.mailbox.isSome = true) (hu : u.cr.mailbox = none) : reportValue s 9 ≠ reportValue u 9 := by
  intro e
  have e' : mailboxTagWord s.cr = mailboxTagWord u.cr := e
  have hempty := (mailboxTagWord_empty hu).1
  obtain ⟨r, hr⟩ := Option.isSome_iff_exists.1 h
  have hfull := (mailboxTagWord_full hr).2.1
  rw [← e', hfull] at hempty
  cases hempty

/-- With no set flag enabled ATTN is deasserted (R199). -/
theorem State.attn_of_masked {s : State} (h : s.cr.flags &&& s.cr.mask = 0) : s.attn = false := by
  simp [State.attn, h]

/-- Settles O42: the owner is `State.loadAccepted`. -/
theorem loadBegins : Obligations.LoadBegins := by
  intro s x hp hn h
  let b := withCommandWord s 0x01 x
  have hx : exec (.load x) s = .next (s.finish b.loadAccepted.freePort) :=
    congrArg Host.Outcome.next (giveCommand_load x hp hn h)
  have hu := b.loadAccepted_eq
  have hq : b.loadAccepted.freePort.bp.queue = reportEntries s.bp.queue := by rw [hu]; rfl
  have h8 : 8 ∈ (s.finish b.loadAccepted.freePort).cr.dirty := State.mem_finish_of_mem (State.setStatus_dirty _ _ _ _)
  have h9 : s.cr.mailbox.isSome = true → 9 ∈ (s.finish b.loadAccepted.freePort).cr.dirty := fun hm =>
    State.mem_finish_of_ne (by decide) (mailboxTag_ne hm (by rw [State.freePort_cr, hu]))
  have hpre := State.finish_queue_prefix s b.loadAccepted.freePort
  have hwb : ∀ m, SideWord.writeBack m ∉ (s.finish b.loadAccepted.freePort).bp.queue := fun m =>
    writeBack_not_mem_finish (by rw [hu]; rfl) fun hm => by
      rw [hq] at hm
      obtain ⟨-, o, ho⟩ := mem_reportEntries hm
      cases ho
  have hs := State.finish_freePort_sameAs s (SameButMarks.refl b.loadAccepted)
  rw [hq] at hpre
  generalize s.finish _ = t at *
  rw [hu] at hs
  have hlink : ∀ l, t.link l = (s.link l).loadAccepted := fun l => by
    rw [State.link, hs.bc]
    exact vget_vmap _ _ _
  have hcr := hs.cr
  refine ⟨t, hx, h8, h9, ?_, hpre, hwb, fun l => ?_, ?_⟩
  · have hflags : t.cr.flags = 0 := (congrArg CommandReport.flags hcr :)
    exact State.attn_of_masked (by rw [hflags]; exact BitVec.zero_and)
  · rw [hlink]
    refine ⟨rfl, fun hw => ?_, Link.loadAccepted_reads, fun w hw hph => ?_⟩
    · show (s.link l).work.bind Work.loadAccepted = none
      rw [hw]
      rfl
    · obtain ⟨piece, hc, h1, h2⟩ := w.closed_eq
      refine ⟨piece, ?_, h1, h2⟩
      show (s.link l).work.bind Work.loadAccepted = _
      rw [hw, ← hc]
      exact Work.loadAccepted_frame hph
  · have htag : t.cr.tagIdle = _ := (congrArg CommandReport.tagIdle hcr :)
    have hbc := hs.bc
    rw [htag, hs.freeDraws, hbc]
    exact hs

end Sys2Proof.Machine
end

