-- ==== Sys2Proof/Proofs/LoadEnds.lean ====
section
/-!
PROOFS. A LOAD ends: the blocks take the new configuration when the last check has passed (R196), and their reset values when one has
failed (R197).
-/

namespace Sys2Proof.Machine

-- Elaborated one after the other, the proofs hold less memory at once.
set_option Elab.async false

/-! ### The write-back words that are due (R43) -/

theorem mem_allWbFields (f : WbField) : f ∈ allWbFields := by
  cases f <;> decide

theorem mem_allDue (s : State) (m : DueMark) :
    m ∈ allDue s ↔ (s.slot m.slot).state ≠ .unused ∧ (writeBackAddr s m).isSome = true := by
  unfold allDue
  simp only [List.mem_flatMap, List.mem_filter, List.mem_map, decide_eq_true_iff]
  constructor
  · rintro ⟨n, ⟨-, hn⟩, ⟨f, -, rfl⟩, ha⟩
    exact ⟨hn, ha⟩
  · rintro ⟨hn, ha⟩
    exact ⟨m.slot, ⟨List.mem_finRange _, hn⟩, ⟨m.field, mem_allWbFields _, rfl⟩, ha⟩

/-! ### Countdowns (R39) -/

theorem forall_eight {P : Fin 8 → Prop} (h : P 0 ∧ P 1 ∧ P 2 ∧ P 3 ∧ P 4 ∧ P 5 ∧ P 6 ∧ P 7) (i : Fin 8) : P i := by
  obtain ⟨h0, h1, h2, h3, h4, h5, h6, h7⟩ := h
  exact Fin.forall_fin_succ.2 ⟨h0, Fin.forall_fin_succ.2 ⟨h1, Fin.forall_fin_succ.2 ⟨h2, Fin.forall_fin_succ.2 ⟨h3,
    Fin.forall_fin_succ.2 ⟨h4, Fin.forall_fin_succ.2 ⟨h5, Fin.forall_fin_succ.2 ⟨h6, Fin.forall_fin_one.2 h7⟩⟩⟩⟩⟩⟩⟩ i

theorem vget_eight {α : Type} (f : Fin 8 → α) (i : Fin 8) : vget #v[f 0, f 1, f 2, f 3, f 4, f 5, f 6, f 7] i = f i :=
  forall_eight (P := fun i => vget _ i = f i) ⟨rfl, rfl, rfl, rfl, rfl, rfl, rfl, rfl⟩ i

theorem configuredCountdown_quote {ws : List Window} {w : Window} (hw : w ∈ ws) (hk : w.kind = .quote)
    (hu : ∀ v ∈ ws, v.index = w.index → v = w) : configuredCountdown ws w.index = ⟨w.notify, w.notify⟩ := by
  have hf : ws.find? (fun v => decide (v.index = w.index ∧ v.kind = .quote)) = some w := by
    cases hf : ws.find? (fun v => decide (v.index = w.index ∧ v.kind = .quote)) with
    | none => exact absurd (decide_eq_true (And.intro rfl hk)) (List.find?_eq_none.1 hf w hw)
    | some v =>
      have hv := List.find?_some hf
      rw [decide_eq_true_iff] at hv
      exact congrArg some (hu v (List.mem_of_find?_eq_some hf) hv.1)
  rw [configuredCountdown, hf]

theorem configuredCountdown_other {ws : List Window} {i : Fin 8} (h : ∀ w ∈ ws, w.index = i → w.kind ≠ .quote) :
    configuredCountdown ws i = ⟨0, 0⟩ := by
  have hf : ws.find? (fun v => decide (v.index = i ∧ v.kind = .quote)) = none :=
    List.find?_eq_none.2 fun w hw hc => h w hw (of_decide_eq_true hc).1 (of_decide_eq_true hc).2
  rw [configuredCountdown, hf]

/-! ### A LOAD completes (R196) -/

theorem configuredLink_used {u : Setup} {l : LinkId} {k : Link} (kinds : List RowKind) (h : k.Idle) (hr : vget u.rows l ≠ 0) :
    configuredLink u kinds l k =
      { state := .offline
        rows := vget u.rows l
        cols := vget u.cols l
        rowMap := (List.range (vget u.rows l)).map (fun r => kinds.getD (32 * l.val + r) .symbol)
        queue := []
        stale := List.range (vget u.rows l)
        blink := []
        work := k.work
        failures := 0
        pass := none
        probeDue := true
        probeTimer := false
        frameOut := k.frameOut } := by
  refine (if_neg hr).trans ?_
  rw [k.loadAccepted_of_idle h]
  rfl

/-- The part that a completed LOAD leaves, COMMAND STATUS apart. -/
def State.readied (s : State) (run : LoadRun) (u : Setup) : State :=
  (s.configure run u).setCr { (s.configure run u).cr with part := .ready, running := none, mask := u.mask }

theorem State.loadComplete_eq {s : State} {run : LoadRun} {u : Setup} (hp : s.cr.part = .loading run) (hf : run.finished = some u) :
    s.loadComplete = (s.readied run u).cmdDone 0x01 := by
  simp only [State.loadComplete, hp, hf]
  rfl

theorem LoadRun.finished_eq {run : LoadRun} {u : Setup} (hp : run.phase = .placements) (hf : run.failed = none)
    (hs : run.setup = some u) (hn : u.placementCount ≤ run.entry) : run.finished = some u := by
  simp only [LoadRun.finished, hp, hf, hs, if_pos hn]

/-- PART STATUS shows the part state. -/
theorem partStatus_ne_of_part {s t : State} (h : s.cr.part.code ≠ t.cr.part.code) : reportValue s 6 ≠ reportValue t 6 := by
  intro e
  have hs := (partStatusWord_fields s).1
  have ht := (partStatusWord_fields t).1
  have e' : partStatusWord s = partStatusWord t := e
  rw [e', ht] at hs
  exact h hs.symm

/-- What a completed LOAD leaves at the end of its event. -/
theorem readied_finish {s s0 v : State} {run run0 : LoadRun} {u : Setup} (hp : s0.cr.part = .loading run0)
    (hv : SameButMarks (answered (s.readied run u) 0x01 .done .none) v) (h8 : 8 ∈ v.cr.dirty) :
    (let t := s0.finish v
     AllDirty [6, 8] t ∧ SameButMarks (answered (s.readied run u) 0x01 .done .none) t) := by
  have h8t : 8 ∈ (s0.finish v).cr.dirty := State.mem_finish_of_mem h8
  have h6t : 6 ∈ (s0.finish v).cr.dirty := by
    refine State.mem_finish_of_ne (by decide) (partStatus_ne_of_part ?_)
    rw [hp, hv.cr]
    exact (by decide : (1 : Nat) ≠ 2)
  refine ⟨fun o ho => ?_, State.finish_sameAs s0 hv⟩
  simp only [List.mem_cons, List.not_mem_nil, or_false] at ho
  obtain rfl | rfl := ho
  · exact h6t
  · exact h8t

/-- Settles O44: the LOAD completes as `State.readied`. -/
theorem loadCompletes : Obligations.LoadCompletes := by
  intro s run u hpin hidle hp hph hf hs hn
  have hready : s.isReady = false := by rw [State.isReady, hp]; rfl
  obtain ⟨-, -, hlinks, -, -, -⟩ := hidle hready
  have hx : exec .loadComplete s = .next (s.finish s.loadComplete) := partEvent_next _ s hpin
  rw [State.loadComplete_eq hp (LoadRun.finished_eq hph hf hs hn)] at hx
  obtain ⟨hdirty, hsame⟩ := readied_finish (v := (s.readied run u).cmdDone 0x01) hp (State.setStatus_same _ _ _ _)
    (State.setStatus_dirty _ _ _ _)
  generalize s.finish _ = t at *
  have hcount : ∀ i, vget t.qe.countdowns i = configuredCountdown u.windows i := fun i => by
    rw [hsame.qe]
    exact vget_eight (configuredCountdown u.windows) i
  have hlink : ∀ l, t.link l = configuredLink u run.rowKinds l (s.link l) := fun l => by
    rw [State.link, hsame.bc]
    exact s.configure_link run u l
  refine ⟨t, hx, hdirty, fun m => ?_, fun w hw hk hu => ?_, fun i hi => ?_, fun l hr => ?_, fun l hr => ?_, ?_⟩
  · have haddr : writeBackAddr t m = writeBackAddr (s.setBp { s.bp with windows := u.windows }) m := by
      have hwin : t.bp.windows = u.windows := (congrArg BusPath.windows hsame.bp :)
      simp only [writeBackAddr, coveringWindow, hwin]
      rfl
    rw [hsame.qe, haddr]
    exact mem_allDue _ m
  · rw [hcount, configuredCountdown_quote hw hk hu]
  · rw [hcount, configuredCountdown_other hi]
  · rw [hlink, configuredLink_unused u run.rowKinds l _ (hlinks l) hr]
  · rw [hlink, configuredLink_used run.rowKinds (hlinks l) hr]
  · rw [hsame.qe, hsame.bc]
    exact hsame

/-! ### A LOAD is refused (R197) -/

/-- The part that a failed check leaves, COMMAND STATUS apart. -/
def State.unloaded (s : State) (reason index : Nat) : State :=
  { s with
    bp := { s.bp with windows := [] }
    qe := .reset
    bc := s.bc.loadAccepted
    tc := s.tc.loadAccepted
    pt := s.pt.loadAccepted
    cs := { s.cs with
      session := .closed, rollNext := none, lineFunctions := Vector.replicate 4 .none, feedStale := false
      feedTimeout := 0, feedCount := 0 }
    cr := { CommandReport.reset with shadows := s.cr.shadows, dirty := reportOffsets, diagReason := reason, diagIndex := index } }

/-- CMD is then the one flag set. -/
theorem State.unloaded_answered (s : State) (reason index : Nat) :
    answered (s.unloaded reason index) 0x01 .refused .setup = { s.unloaded reason index with
      cr := { (s.unloaded reason index).cr with status := ⟨0x01, .refused, .setup⟩, flags := 0x0002 } } := by
  have hf : (0 : Word) ||| 0x0002 = 0x0002 := by decide
  exact congrArg (fun f => ({ s.unloaded reason index with
    cr := { (s.unloaded reason index).cr with status := ⟨0x01, .refused, .setup⟩, flags := f } } : State)) hf

theorem State.loadRefused_eq {s : State} {run : LoadRun} {reason index : Nat} (hp : s.cr.part = .loading run)
    (hf : run.failed = some (reason, index)) : s.loadRefused = (s.unloaded reason index).cmdRefused 0x01 .setup := by
  simp only [State.loadRefused, hp, hf]
  rfl

/-- What a refused LOAD leaves at the end of its event: every report word is dirty. -/
theorem unloaded_finish {s s0 v : State} {reason index : Nat}
    (hv : SameButMarks (answered (s.unloaded reason index) 0x01 .refused .setup) v) (hd : AllDirty reportOffsets v) :
    (let t := s0.finish v
     LoadEndsRefused reason index t ∧ SameButMarks (answered (s.unloaded reason index) 0x01 .refused .setup) t) := by
  have ht := State.finish_sameAs s0 hv
  have hdt : AllDirty reportOffsets (s0.finish v) := allDirty_finish hd
  generalize s0.finish v = t at *
  have hcr := ht.cr
  rw [State.unloaded_answered] at hcr
  exact ⟨⟨(congrArg CommandReport.part hcr :), (congrArg CommandReport.running hcr :), (congrArg CommandReport.diagReason hcr :),
    (congrArg CommandReport.diagIndex hcr :), (congrArg CommandReport.status hcr :), (congrArg CommandReport.flags hcr :), hdt⟩, ht⟩

theorem unloaded_dirty (s : State) (reason index : Nat) :
    AllDirty reportOffsets ((s.unloaded reason index).cmdRefused 0x01 .setup) :=
  fun _ ho => State.setStatus_keeps_dirty ho _ _ _

/-- The blocks of a part that is idle outside READY, but for what is going out, are as an accepted LOAD leaves them. -/
theorem loadAccepted_of_idle {s : State} (h : IdleOutsideReady s) (hr : s.isReady = false) :
    s.bc.loadAccepted = s.bc ∧ s.tc.loadAccepted = s.tc ∧ s.pt.loadAccepted = s.pt := by
  obtain ⟨-, hbc, hlinks, htc, hpt, hturn⟩ := h hr
  refine ⟨?_, htc.symm, ?_⟩
  · have hl : vmap Link.loadAccepted s.bc.links = s.bc.links := vget_ext fun l =>
      (vget_vmap _ _ _).trans ((s.link l).loadAccepted_of_idle (hlinks l))
    rw [BoardController.loadAccepted, hl]
    exact hbc.symm
  · have ht : s.pt.turn.map (fun u => { u with discard := true }) = s.pt.turn := by
      cases hu : s.pt.turn with
      | none => rfl
      | some u =>
        have hd := hturn u hu
        cases u
        subst hd
        rfl
    rw [TerminalController.loadAccepted, ht]
    exact hpt.symm

/-- LOAD_REFUSED leaves the part UNCONFIGURED with its blocks reset. -/
theorem exec_loadRefused {s : State} {run : LoadRun} {reason index : Nat} (hpin : s.resetPin = false) (hidle : IdleOutsideReady s)
    (hp : s.cr.part = .loading run) (hf : run.failed = some (reason, index)) :
    ∃ t, exec .loadRefused s = .next t ∧ AllDirty reportOffsets t ∧ t.attn = false ∧ s.bp.queue <+: t.bp.queue ∧
      SameButMarks { s with
        bp := { s.bp with windows := [] }
        qe := .reset
        cs := { s.cs with
          session := .closed, rollNext := none, lineFunctions := Vector.replicate 4 .none, feedStale := false
          feedTimeout := 0, feedCount := 0 }
        cr := { CommandReport.reset with
          shadows := s.cr.shadows, status := ⟨0x01, .refused, .setup⟩, flags := 0x0002
          diagReason := reason, diagIndex := index } } t := by
  have hready : s.isReady = false := by rw [State.isReady, hp]; rfl
  obtain ⟨hbc, htc, hpt⟩ := loadAccepted_of_idle hidle hready
  have hx : exec .loadRefused s = .next (s.finish s.loadRefused) := partEvent_next _ s hpin
  rw [State.loadRefused_eq hp hf] at hx
  obtain ⟨⟨-, -, -, -, -, hflags, hdirty⟩, hsame⟩ :=
    unloaded_finish (s0 := s) (v := (s.unloaded reason index).cmdRefused 0x01 .setup) (State.setStatus_same _ _ _ _)
      (unloaded_dirty s reason index)
  have hbp : ((s.unloaded reason index).cmdRefused 0x01 .setup).bp = { s.bp with windows := [] } :=
    (State.setStatus_frame (s.unloaded reason index) 0x01 .refused .setup).2.1
  have hq := State.finish_queue_prefix s ((s.unloaded reason index).cmdRefused 0x01 .setup)
  rw [hbp] at hq
  generalize s.finish _ = t at *
  rw [State.unloaded_answered, State.unloaded, hbc, htc, hpt] at hsame
  have hmask : t.cr.mask = 0 := (congrArg CommandReport.mask hsame.cr :)
  exact ⟨t, hx, hdirty, State.attn_of_masked (by rw [hflags, hmask]; rfl), hq, hsame⟩

end Sys2Proof.Machine
end

