-- ==== Sys2Proof/Proofs/LoadReads.lean ====
section
/-!
PROOFS. The answer of a LOAD read: the LOAD goes on, fails a check or passes the last one (R193, R195, R196); the words of the DIRECTORY,
ROW MAP and PLACEMENTS phases (R4, R65 to R68).
-/

namespace Sys2Proof.Machine

-- Elaborated one after the other, the proofs hold less memory at once.
set_option Elab.async false

/-! ### What the answer of a read leads to -/

section
variable {s : State} {run : LoadRun} (h : LoadReads s run) (hn : run.finished = none) {a : Nat} (ha : loadAddress s run = a)
include h hn ha

theorem exec_loadRead {u : State} (ht : (s.takeLoadWord run (s.mem.readWord a)).loadRefused.loadComplete = u)
    (hu : u.bp.held = none) : exec .loadReadAnswer s = .next (s.finish u.freePort) := by
  obtain ⟨hp, -, hport, hpart, hf⟩ := h
  have hload : s.isLoading = true := by simp only [State.isLoading, hpart, hf, hn, Option.isNone_none, Bool.and_self]
  have hread : s.loadReadAnswered = u := by
    simp only [State.loadReadAnswered, hpart, hload, if_true, ha]
    exact ht
  rw [exec_loadReadAnswer hp hport, hread, State.afterRead_none _ ((State.finish_held _ _).trans ((State.freePort_held _).trans hu))]

/-- The word is taken and no check fails. -/
theorem loadRead_goesOn {v : State} {run' : LoadRun} (ht : s.takeLoadWord run (s.mem.readWord a) = v.setRun run') (hv : v.bp = s.bp)
    (hf' : run'.failed = none) (hn' : run'.finished = none) : ∃ t, exec .loadReadAnswer s = .next t ∧ LoadGoesOn v run' t := by
  have hheld : v.bp.held = none := by
    rw [hv]
    exact h.2.1
  have hrefused : (v.setRun run').loadRefused = v.setRun run' := by
    simp only [State.loadRefused, State.setRun, State.setCr_cr, hf']
  have hcomplete : (v.setRun run').loadComplete = v.setRun run' := by
    simp only [State.loadComplete, State.setRun, State.setCr_cr, hn']
  have hx := exec_loadRead h hn ha (u := v.setRun run') (by rw [ht, hrefused, hcomplete]) hheld
  exact ⟨_, hx, State.finish_freePort_sameAs s (SameButMarks.refl (v.setRun run'))⟩

/-- The word fails a check and the LOAD ends refused. -/
theorem loadRead_fails {reason index : Nat} (ht : s.takeLoadWord run (s.mem.readWord a) = s.setRun (run.fail reason index)) :
    ∃ t, exec .loadReadAnswer s = .next t ∧ LoadEndsRefused reason index t := by
  let v := s.setRun (run.fail reason index)
  let u := (v.unloaded reason index).cmdRefused 0x01 .setup
  have hsame : SameButMarks (answered (v.unloaded reason index) 0x01 .refused .setup) u := State.setStatus_same _ _ _ _
  have hrefused : v.loadRefused = u := State.loadRefused_eq (run := run.fail reason index) rfl rfl
  have hpart : u.cr.part = .unconfigured := (congrArg CommandReport.part hsame.cr :)
  have hcomplete : u.loadComplete = u := by simp only [State.loadComplete, hpart]
  have hheld : u.bp.held = none := (congrArg BusPath.held hsame.bp :).trans h.2.1
  have hx := exec_loadRead h hn ha (u := u) (by rw [ht, hrefused, hcomplete]) hheld
  exact ⟨_, hx, (unloaded_finish (hsame.trans (State.freePort_same u)) (unloaded_dirty v reason index)).1⟩

/-- The word passes the last check and the LOAD ends DONE. -/
theorem loadRead_completes {run' : LoadRun} {u : Setup} (ht : s.takeLoadWord run (s.mem.readWord a) = s.setRun run')
    (hf' : run'.failed = none) (hn' : run'.finished = some u) :
    ∃ t, exec .loadReadAnswer s = .next t ∧ LoadEndsDone s u run'.placements t := by
  let v := s.setRun run'
  have hrefused : v.loadRefused = v := by
    simp only [v, State.loadRefused, State.setRun, State.setCr_cr, hf']
  have hcomplete : v.loadComplete = (v.readied run' u).cmdDone 0x01 := State.loadComplete_eq (run := run') rfl hn'
  have hsame : SameButMarks (answered (v.readied run' u) 0x01 .done .none) ((v.readied run' u).cmdDone 0x01) :=
    State.setStatus_same _ _ _ _
  have hheld : ((v.readied run' u).cmdDone 0x01).bp.held = none := (congrArg BusPath.held hsame.bp :).trans h.2.1
  have hx := exec_loadRead h hn ha (u := (v.readied run' u).cmdDone 0x01) (by rw [ht, hrefused, hcomplete]) hheld
  obtain ⟨hdirty, ht'⟩ := readied_finish (s0 := s) h.2.2.2.1 (hsame.trans (State.freePort_same _)) (State.setStatus_dirty _ _ _ _)
  generalize s.finish _ = t at *
  have hcr := ht'.cr
  exact ⟨t, hx, (congrArg CommandReport.part hcr :), (congrArg CommandReport.running hcr :), (congrArg CommandReport.status hcr :),
    (congrArg CommandReport.flags hcr :), (congrArg BusPath.windows ht'.bp :), (congrArg BoardController.placements ht'.bc :), hdirty⟩

end

/-- Before the last placement no LOAD is finished. -/
theorem LoadRun.finished_none {run : LoadRun}
    (h : run.phase ≠ .placements ∨ ∃ u, run.setup = some u ∧ run.entry < u.placementCount) : run.finished = none := by
  unfold LoadRun.finished
  obtain h | ⟨u, hu, hlt⟩ := h
  · split
    · rename_i hp _ _
      exact absurd hp h
    · rfl
  · split
    · rename_i v _ _ hv
      obtain rfl := Option.some.inj (hu.symm.trans hv)
      exact if_neg (Nat.not_le.2 hlt)
    · rfl

/-! ### The DIRECTORY phase (R4, Table 11-3) -/

theorem isLetter_iff (c : Byte) : isLetter c = true ↔ 0x41 ≤ c ∧ c ≤ 0x5A := by
  simp only [isLetter, Bool.and_eq_true, decide_eq_true_iff]

/-- The name of an entry is the text of 1 to 4 letters that its two words hold. -/
theorem nameOf_eq_some (w0 w1 : Word) (name : Text) : nameOf w0 w1 = some name ↔ NameIs w0 w1 name := by
  have hlen : [hiByte w0, loByte w0, hiByte w1, loByte w1].length = 4 := rfl
  unfold nameOf NameIs
  generalize [hiByte w0, loByte w0, hiByte w1, loByte w1] = cs at hlen
  constructor
  · intro h
    simp only [Option.ite_none_right_eq_some, Option.some.injEq] at h
    obtain ⟨⟨hne, hsp⟩, rfl⟩ := h
    have hsplit := List.takeWhile_append_dropWhile (p := isLetter) (l := cs)
    have hadd : (cs.takeWhile isLetter).length + (cs.dropWhile isLetter).length = 4 := by
      rw [← List.length_append, hsplit, hlen]
    have hdrop : cs.dropWhile isLetter = List.replicate (4 - (cs.takeWhile isLetter).length) 0x20 := by
      refine List.eq_replicate_iff.2 ⟨by omega, fun c hc => ?_⟩
      exact eq_of_beq (List.all_eq_true.1 hsp c hc)
    refine ⟨List.length_pos_of_ne_nil hne, by omega, fun c hc => (isLetter_iff c).1 (List.mem_takeWhile_imp hc), ?_⟩
    rw [← hdrop, hsplit]
  · rintro ⟨h1, -, hletters, rfl⟩
    have hl : ∀ c ∈ name, isLetter c = true := fun c hc => (isLetter_iff c).2 (hletters c hc)
    have htake : (name ++ List.replicate (4 - name.length) 0x20).takeWhile isLetter = name := by
      rw [List.takeWhile_append_of_pos hl]
      cases 4 - name.length with
      | zero => exact List.append_nil _
      | succ k => exact List.append_nil _
    have hdrop : (name ++ List.replicate (4 - name.length) 0x20).dropWhile isLetter = List.replicate (4 - name.length) 0x20 := by
      rw [List.dropWhile_append_of_pos hl]
      cases 4 - name.length with
      | zero => rfl
      | succ k => rfl
    simp only [htake, hdrop]
    have hne : name ≠ [] := List.ne_nil_of_length_pos h1
    have hall : (List.replicate (4 - name.length) 0x20).all (· == chSpace) = true :=
      List.all_eq_true.2 fun c hc => beq_iff_eq.2 (List.eq_of_mem_replicate hc)
    exact if_pos ⟨hne, hall⟩

theorem nameTaken_iff (s : State) (n : Slot) (name : Text) :
    nameTaken s n name = true ↔ ∃ m, m < n ∧ (s.slot m).state ≠ .unused ∧ (s.slot m).name = name := by
  simp only [nameTaken, List.any_eq_true, decide_eq_true_iff]
  exact ⟨fun ⟨m, _, h⟩ => ⟨m, h⟩, fun ⟨m, h⟩ => ⟨m, List.mem_finRange m, h⟩⟩

section
variable {s : State} {n : Slot} {w0 w1 w2 w3 : Word}

theorem directoryEntry_unused (h : w3.getLsbD 15 = false) : directoryEntry s n w0 w1 w2 w3 = .ok SlotRec.reset :=
  if_neg (by rw [bit, h]; decide)

theorem field_code (w : Word) : field w 7 0 = w.toNat % 256 := field_low w 7

theorem directoryEntry_badBase (h : w3.getLsbD 15 = true) (hb : baseOf (w3.toNat % 256) = none) :
    directoryEntry s n w0 w1 w2 w3 = .error 5 := by
  simp only [directoryEntry, bit, h, if_true, field_code, hb]

theorem directoryEntry_badName {base : PriceBase} (h : w3.getLsbD 15 = true) (hb : baseOf (w3.toNat % 256) = some base)
    (hn : nameOf w0 w1 = none) : directoryEntry s n w0 w1 w2 w3 = .error 7 := by
  simp only [directoryEntry, bit, h, if_true, field_code, hb, hn]

theorem directoryEntry_twice {base : PriceBase} {name : Text} (h : w3.getLsbD 15 = true) (hb : baseOf (w3.toNat % 256) = some base)
    (hn : nameOf w0 w1 = some name) (ht : nameTaken s n name = true) : directoryEntry s n w0 w1 w2 w3 = .error 6 := by
  simp only [directoryEntry, bit, h, if_true, field_code, hb, hn, ht]

theorem directoryEntry_listed {base : PriceBase} {name : Text} (h : w3.getLsbD 15 = true) (hb : baseOf (w3.toNat % 256) = some base)
    (hn : nameOf w0 w1 = some name) (ht : nameTaken s n name = false) :
    directoryEntry s n w0 w1 w2 w3 = .ok { SlotRec.reset with
      state := if w3.getLsbD 14 then .halted else .listed, name := name, base := base, close := w2 } := by
  simp only [directoryEntry, bit, h, if_true, field_code, hb, hn, ht, Bool.false_eq_true, if_false]
  rfl

end

theorem baseOf_eq_some {code : Nat} {base : PriceBase}
    (h : (code = 8 ∧ base = .eighths) ∨ (code = 16 ∧ base = .sixteenths) ∨ (code = 32 ∧ base = .thirtySeconds)) :
    baseOf code = some base := by
  obtain ⟨rfl, rfl⟩ | ⟨rfl, rfl⟩ | ⟨rfl, rfl⟩ := h <;> rfl

theorem baseOf_isSome {code : Nat} (h : code = 8 ∨ code = 16 ∨ code = 32) : ∃ base, baseOf code = some base := by
  obtain rfl | rfl | rfl := h
  · exact ⟨_, rfl⟩
  · exact ⟨_, rfl⟩
  · exact ⟨_, rfl⟩

theorem baseOf_none {code : Nat} (h8 : code ≠ 8) (h16 : code ≠ 16) (h32 : code ≠ 32) : baseOf code = none := by
  rw [baseOf, if_neg h8, if_neg h16, if_neg h32]

theorem directory_address {s : State} {run : LoadRun} {u : Setup} (hu : run.setup = some u) (hp : run.phase = .directory) :
    loadAddress s run = u.directory + 4 * run.entry + run.words.length := by
  simp only [loadAddress, hp, hu]

theorem directory_unfinished {run : LoadRun} (hp : run.phase = .directory) : run.finished = none :=
  LoadRun.finished_none (.inl (by rw [hp]; rintro ⟨⟩))

section
variable {s : State} {run : LoadRun} {w0 w1 w2 w3 : Word} {n : Slot} (hp : run.phase = .directory) (hw : run.words = [w0, w1, w2])
  (he : run.entry = n.val)
include hp hw he

theorem takeDirectoryWord_error {reason : Nat} (hd : directoryEntry s n w0 w1 w2 w3 = .error reason) :
    s.takeLoadWord run w3 = s.setRun (run.fail reason n.val) := by
  have hn : (Fin.ofNat 256 n.val : Slot) = n := Fin.ext (Nat.mod_eq_of_lt n.isLt)
  simp only [State.takeLoadWord, hp, State.takeDirectoryWord, hw, he, hn, hd]

theorem takeDirectoryWord_ok {r : SlotRec} (hd : directoryEntry s n w0 w1 w2 w3 = .ok r) :
    s.takeLoadWord run w3 = (s.setSlot n r).setRun
      (if n.val + 1 < 256 then { run with words := [], entry := n.val + 1 } else run.enter .rowMap) := by
  have hn : (Fin.ofNat 256 n.val : Slot) = n := Fin.ext (Nat.mod_eq_of_lt n.isLt)
  simp only [State.takeLoadWord, hp, State.takeDirectoryWord, hw, he, hn, hd]

end

theorem directory_address_last {s : State} {run : LoadRun} {u : Setup} {w0 w1 w2 : Word} {n : Slot} (hu : run.setup = some u)
    (hp : run.phase = .directory) (hw : run.words = [w0, w1, w2]) (he : run.entry = n.val) :
    loadAddress s run = u.directory + 4 * n.val + 3 := by
  rw [directory_address hu hp, hw, he]
  rfl

section
variable {s : State} {run : LoadRun} {u : Setup} (h : LoadReads s run) (hu : run.setup = some u) (hp : run.phase = .directory)
include h hu hp

/-- A word of an entry before its last is kept. -/
theorem directory_keeps (hl : run.words.length < 3) :
    ∃ t, exec .loadReadAnswer s = .next t ∧ LoadGoesOn s { run with
      words := run.words ++ [s.mem.readWord (u.directory + 4 * run.entry + run.words.length)] } t := by
  refine loadRead_goesOn h (directory_unfinished hp) (directory_address hu hp) ?_ rfl h.2.2.2.2
    (LoadRun.finished_none (.inl (by show run.phase ≠ _; rw [hp]; rintro ⟨⟩)))
  simp only [State.takeLoadWord, hp, State.takeDirectoryWord]
  split
  · rename_i w0 w1 w2 hw
    rw [hw] at hl
    exact absurd hl (Nat.lt_irrefl 3)
  · rfl

section
variable {w0 w1 w2 : Word} {n : Slot} (hw : run.words = [w0, w1, w2]) (he : run.entry = n.val)
include hw he

/-- The last word of an entry gives its slot its record. -/
theorem directory_takes {r : SlotRec}
    (hr : directoryEntry s n w0 w1 w2 (s.mem.readWord (u.directory + 4 * n.val + 3)) = .ok r) :
    ∃ t, exec .loadReadAnswer s = .next t ∧ LoadGoesOn { s with qe := { s.qe with slots := vset s.qe.slots n r } }
      (if n = 255 then { run with phase := .rowMap, words := [], entry := 0 } else { run with words := [], entry := n.val + 1 }) t := by
  have hnext : (if n.val + 1 < 256 then { run with words := [], entry := n.val + 1 } else run.enter .rowMap) =
      if n = 255 then { run with phase := .rowMap, words := [], entry := 0 } else { run with words := [], entry := n.val + 1 } := by
    have hn := n.isLt
    by_cases h255 : n = 255
    · rw [if_pos h255, if_neg (by rw [h255]; decide)]
      rfl
    · have : n.val ≠ 255 := fun e => h255 (Fin.ext e)
      rw [if_neg h255, if_pos (by omega)]
  refine loadRead_goesOn h (directory_unfinished hp) (directory_address_last hu hp hw he) (v := s.setSlot n r) ?_ rfl ?_
    (LoadRun.finished_none (.inl ?_))
  · rw [takeDirectoryWord_ok hp hw he hr, hnext]
  · split <;> exact h.2.2.2.2
  · split
    · rintro ⟨⟩
    · show run.phase ≠ _
      rw [hp]
      rintro ⟨⟩

/-- The last word of an entry fails its check. -/
theorem directory_fails {reason : Nat}
    (hr : directoryEntry s n w0 w1 w2 (s.mem.readWord (u.directory + 4 * n.val + 3)) = .error reason) :
    ∃ t, exec .loadReadAnswer s = .next t ∧ LoadEndsRefused reason n.val t :=
  loadRead_fails h (directory_unfinished hp) (directory_address_last hu hp hw he)
    (takeDirectoryWord_error hp hw he hr)

end

end

/-! ### The ROW MAP phase (R65, R66, Table 11-5) -/

theorem usedRow_iff (u : Setup) (l : LinkId) {row : Nat} (h : row < 32) :
    usedRow u (32 * l.val + row) = true ↔ row < vget u.rows l := by
  have hmod : (32 * l.val + row) % 32 = row := by omega
  have hdiv : (Fin.ofNat 4 ((32 * l.val + row) / 32) : LinkId) = l := by
    have : (32 * l.val + row) / 32 = l.val := by omega
    rw [this]
    exact Fin.ext (Nat.mod_eq_of_lt l.isLt)
  rw [usedRow, hmod, hdiv, decide_eq_true_iff]

theorem rowCode (w : Word) : field w 15 14 = w.toNat / 16384 := by
  have := w.isLt
  show w.toNat / 16384 % 4 = _
  omega

theorem rowLine (w : Word) : field w 4 0 = w.toNat % 32 := field_low w 4

/-- The row kind of a used row. -/
theorem rowKindOf_of_used {u : Setup} {k : Nat} {w : Word} {kind : RowKind} (hk : usedRow u k = true) (h : RowKindIs u w kind)
    (hu : ∀ v ∈ u.windows, ∀ v' ∈ u.windows, v.index = v'.index → v = v') : rowKindOf u k w = some kind := by
  unfold rowKindOf
  rw [if_pos hk, rowCode]
  cases kind with
  | symbol =>
    have h1 : w.toNat / 16384 = 1 := h
    simp only [h1]
  | text i line =>
    obtain ⟨h2, hi, hl, x, hx, hxi, hxk, hlt⟩ := h
    have hw : (Fin.ofNat 8 (field w 10 8) : Fin 8) = i := Fin.ext ((Nat.mod_mod _ 8).trans hi.symm)
    simp only [h2, hw, rowLine, ← hl]
    cases hf : u.windows.find? (fun x => decide (x.index = i ∧ x.kind = .text)) with
    | none => exact absurd (decide_eq_true (And.intro hxi hxk)) (List.find?_eq_none.1 hf x hx)
    | some y =>
      have hy := List.find?_some hf
      rw [decide_eq_true_iff] at hy
      obtain rfl := hu y (List.mem_of_find?_eq_some hf) x hx (hy.1.trans hxi.symm)
      exact if_pos hlt

/-- A used row's word that gives no kind fails. -/
theorem rowKindOf_none {u : Setup} {k : Nat} {w : Word} (hk : usedRow u k = true) (h : ∀ kind, ¬ RowKindIs u w kind) :
    rowKindOf u k w = none := by
  unfold rowKindOf
  rw [if_pos hk, rowCode]
  split
  · rename_i h1
    exact absurd h1 (h .symbol)
  · rename_i h2
    dsimp only
    split
    · rename_i x hf
      have hx := List.find?_some hf
      rw [decide_eq_true_iff] at hx
      refine if_neg fun hlt => h (.text (Fin.ofNat 8 (field w 10 8)) (field w 4 0)) ⟨h2, Nat.mod_mod _ 8, rowLine w, x,
        List.mem_of_find?_eq_some hf, hx.1, hx.2, hlt⟩
    · rfl
  · rfl

theorem rowKindOf_unused {u : Setup} {k : Nat} (w : Word) (hk : usedRow u k = false) : rowKindOf u k w = some .symbol :=
  if_neg (by rw [hk]; decide)

/-- The kind that a row map word gives its row, used or not. -/
theorem rowKindOf_eq {u : Setup} {l : LinkId} {row : Nat} {w : Word} {kind : RowKind} (hr : row < 32)
    (h : row < vget u.rows l → RowKindIs u w kind) (hs : vget u.rows l ≤ row → kind = .symbol)
    (hu : ∀ v ∈ u.windows, ∀ v' ∈ u.windows, v.index = v'.index → v = v') : rowKindOf u (32 * l.val + row) w = some kind := by
  by_cases hlt : row < vget u.rows l
  · exact rowKindOf_of_used ((usedRow_iff u l hr).2 hlt) (h hlt) hu
  · rw [hs (Nat.le_of_not_lt hlt)]
    exact rowKindOf_unused w (Bool.eq_false_iff.2 fun he => hlt ((usedRow_iff u l hr).1 he))

theorem rowMap_address {s : State} {run : LoadRun} {u : Setup} (hu : run.setup = some u) (hp : run.phase = .rowMap) :
    loadAddress s run = u.rowMap + run.entry := by
  simp only [loadAddress, hp, hu]

theorem takeRowMapWord_some {s : State} {run : LoadRun} {u : Setup} {w : Word} {kind : RowKind} (hu : run.setup = some u)
    (hp : run.phase = .rowMap) (hk : rowKindOf u run.entry w = some kind) :
    s.takeLoadWord run w = s.setRun (if run.entry + 1 < 128 then
        { run with rowKinds := run.rowKinds ++ [kind], entry := run.entry + 1 }
      else { run with phase := .placements, words := [], entry := 0, rowKinds := run.rowKinds ++ [kind] }) := by
  simp only [State.takeLoadWord, hp, hu, State.takeRowMapWord, hk]
  rfl

theorem takeRowMapWord_none {s : State} {run : LoadRun} {u : Setup} {w : Word} (hu : run.setup = some u)
    (hp : run.phase = .rowMap) (hk : rowKindOf u run.entry w = none) :
    s.takeLoadWord run w = s.setRun (run.fail 12 run.entry) := by
  simp only [State.takeLoadWord, hp, hu, State.takeRowMapWord, hk]

section
variable {s : State} {run : LoadRun} {u : Setup} (h : LoadReads s run) (hu : run.setup = some u) (hp : run.phase = .rowMap)
include h hu hp

/-- A row's word gives it its kind; after the last row the PLACEMENTS phase begins, and without placements the LOAD ends DONE. -/
theorem rowMap_takes {kind : RowKind} (hk : rowKindOf u run.entry (s.mem.readWord (u.rowMap + run.entry)) = some kind) :
    (let kinds := run.rowKinds ++ [kind]
     (run.entry < 127 →
       ∃ t, exec .loadReadAnswer s = .next t ∧ LoadGoesOn s { run with rowKinds := kinds, entry := run.entry + 1 } t) ∧
     (run.entry = 127 → u.placementCount ≠ 0 →
       ∃ t, exec .loadReadAnswer s = .next t ∧
         LoadGoesOn s { run with phase := .placements, words := [], entry := 0, rowKinds := kinds } t) ∧
     (run.entry = 127 → u.placementCount = 0 →
       ∃ t, exec .loadReadAnswer s = .next t ∧ LoadEndsDone s u run.placements t)) := by
  have hn : run.finished = none := LoadRun.finished_none (.inl (by rw [hp]; rintro ⟨⟩))
  have ha := rowMap_address (s := s) hu hp
  have ht := takeRowMapWord_some (s := s) hu hp hk
  refine ⟨fun he => ?_, fun he hc => ?_, fun he hc => ?_⟩
  · rw [if_pos (by omega)] at ht
    exact loadRead_goesOn h hn ha ht rfl h.2.2.2.2 (LoadRun.finished_none (.inl (by show run.phase ≠ _; rw [hp]; rintro ⟨⟩)))
  · rw [if_neg (by omega)] at ht
    exact loadRead_goesOn h hn ha ht rfl h.2.2.2.2 (LoadRun.finished_none (.inr ⟨u, hu, Nat.pos_of_ne_zero hc⟩))
  · rw [if_neg (by omega)] at ht
    exact loadRead_completes h hn ha
      (run' := { run with phase := .placements, words := [], entry := 0, rowKinds := run.rowKinds ++ [kind] }) ht h.2.2.2.2
      (LoadRun.finished_eq rfl h.2.2.2.2 hu (Nat.le_of_eq hc))

theorem rowMap_fails (hk : rowKindOf u run.entry (s.mem.readWord (u.rowMap + run.entry)) = none) :
    ∃ t, exec .loadReadAnswer s = .next t ∧ LoadEndsRefused 12 run.entry t :=
  loadRead_fails h (LoadRun.finished_none (.inl (by rw [hp]; rintro ⟨⟩))) (rowMap_address hu hp) (takeRowMapWord_none hu hp hk)

end

/-! ### The PLACEMENTS phase (R67, R68, Table 11-4) -/

/-- The field kind of its code. -/
theorem fieldKindOf_eq {n : Nat} {kind : FieldKind}
    (h : (n, kind) ∈ [(1, FieldKind.name), (2, .last), (3, .change), (4, .high), (5, .low), (6, .volume), (7, .tick)]) :
    fieldKindOf n = some kind := by
  simp only [List.mem_cons, Prod.mk.injEq, List.not_mem_nil, or_false] at h
  obtain ⟨rfl, rfl⟩ | ⟨rfl, rfl⟩ | ⟨rfl, rfl⟩ | ⟨rfl, rfl⟩ | ⟨rfl, rfl⟩ | ⟨rfl, rfl⟩ | ⟨rfl, rfl⟩ := h <;> rfl

theorem fieldKindOf_isSome : ∀ n < 8, n ≠ 0 → (fieldKindOf n).isSome = true := by decide

theorem Placement.meets_iff (p q : Placement) :
    p.meets q = true ↔ p.link = q.link ∧ p.row = q.row ∧ p.column < q.column + q.width ∧ q.column < p.column + p.width := by
  simp only [Placement.meets, rangesMeet, Bool.and_eq_true, decide_eq_true_iff, and_assoc]

/-- Whether an entry's placement fails, in the order of its checks. -/
theorem placementEntry_eq (s : State) (u : Setup) (kinds : List RowKind) (earlier : List Placement) (w0 w1 : Word) :
    placementEntry s u kinds earlier w0 w1 =
      (let p := placementOf w0 w1
       if (s.slot (p .name).slot).state = .unused then .error 8
       else if vget u.rows (p .name).link ≤ (p .name).row ∨ kinds.getD (32 * (p .name).link.val + (p .name).row) .symbol ≠ .symbol then
         .error 9
       else match fieldKindOf (w0.toNat % 8) with
         | none => .error 9
         | some kind =>
           if (p kind).width = 0 ∨ 12 < (p kind).width ∨ vget u.cols (p kind).link < (p kind).column + (p kind).width then .error 9
           else if earlier.any (p kind).meets then .error 10
           else if 4 ≤ (earlier.filter (fun q => decide (q.slot = (p kind).slot))).length then .error 11
           else .ok (p kind)) := by
  have h0 := w0.isLt
  have h1 := w1.isLt
  have hslot : (Fin.ofNat 256 (field w0 15 8) : Slot) = Fin.ofNat 256 (w0.toNat / 256) := Fin.ext (Nat.mod_mod _ 256)
  have hlink : (Fin.ofNat 4 (field w0 7 6) : LinkId) = Fin.ofNat 4 (w0.toNat / 64) := Fin.ext (Nat.mod_mod _ 4)
  have hrow : field w1 15 11 = w1.toNat / 2048 := by
    show w1.toNat / 2048 % 32 = _
    omega
  have hkind : field w0 2 0 = w0.toNat % 8 := field_low w0 2
  have hwidth : field w1 3 0 = w1.toNat % 16 := field_low w1 3
  unfold placementEntry
  rw [hslot, hlink, hrow, hkind, hwidth]
  rfl

theorem Placement.any_meets_iff (earlier : List Placement) (p : Placement) : earlier.any p.meets = true ↔ p.CellBad earlier := by
  simp only [List.any_eq_true, Placement.meets_iff]
  rfl

section
variable {s : State} {u : Setup} {kinds : List RowKind} {earlier : List Placement} {w0 w1 : Word} {kind : FieldKind}

theorem placementEntry_unused (h : (s.slot (placementOf w0 w1 kind).slot).state = .unused) :
    placementEntry s u kinds earlier w0 w1 = .error 8 := by
  rw [placementEntry_eq]
  exact if_pos h

section
variable (h : (s.slot (placementOf w0 w1 kind).slot).state ≠ .unused)
include h

theorem placementEntry_badPlace (hb : w0.toNat % 8 = 0 ∨ (placementOf w0 w1 kind).PlaceBad u kinds) :
    placementEntry s u kinds earlier w0 w1 = .error 9 := by
  rw [placementEntry_eq]
  refine (if_neg h).trans ?_
  split
  · rfl
  · rename_i hrow
    cases hk : fieldKindOf (w0.toNat % 8) with
    | none => rfl
    | some k =>
      refine if_pos ?_
      obtain h0 | h1 | h1 | h1 := hb
      · rw [h0] at hk
        cases hk
      · exact absurd (.inl h1) hrow
      · exact absurd (.inr h1) hrow
      · exact h1

section
variable (hp : ¬ (placementOf w0 w1 kind).PlaceBad u kinds)
include hp

/-- A placement with a field kind and a good place goes on to the checks against the earlier ones. -/
theorem placementEntry_placed {k : FieldKind} (hk : fieldKindOf (w0.toNat % 8) = some k) :
    placementEntry s u kinds earlier w0 w1 =
      if earlier.any (placementOf w0 w1 k).meets then .error 10
      else if 4 ≤ (earlier.filter (fun q => decide (q.slot = (placementOf w0 w1 k).slot))).length then .error 11
      else .ok (placementOf w0 w1 k) := by
  rw [placementEntry_eq, hk]
  refine (if_neg h).trans ((if_neg fun hb => hp ?_).trans (if_neg fun hb => hp (.inr (.inr hb))))
  exact hb.imp_right .inl

theorem placementEntry_badCell (h0 : w0.toNat % 8 ≠ 0) (hc : (placementOf w0 w1 kind).CellBad earlier) :
    placementEntry s u kinds earlier w0 w1 = .error 10 := by
  obtain ⟨k, hk⟩ := Option.isSome_iff_exists.1 (fieldKindOf_isSome _ (Nat.mod_lt _ (by decide)) h0)
  rw [placementEntry_placed h hp hk]
  exact if_pos ((Placement.any_meets_iff _ _).2 hc)

theorem placementEntry_badCount (h0 : w0.toNat % 8 ≠ 0) (hc : ¬ (placementOf w0 w1 kind).CellBad earlier)
    (hn : (placementOf w0 w1 kind).CountBad earlier) : placementEntry s u kinds earlier w0 w1 = .error 11 := by
  obtain ⟨k, hk⟩ := Option.isSome_iff_exists.1 (fieldKindOf_isSome _ (Nat.mod_lt _ (by decide)) h0)
  rw [placementEntry_placed h hp hk]
  exact (if_neg fun ha => hc ((Placement.any_meets_iff _ _).1 ha)).trans (if_pos hn)

theorem placementEntry_good (hk : fieldKindOf (w0.toNat % 8) = some kind) (hc : ¬ (placementOf w0 w1 kind).CellBad earlier)
    (hn : ¬ (placementOf w0 w1 kind).CountBad earlier) :
    placementEntry s u kinds earlier w0 w1 = .ok (placementOf w0 w1 kind) := by
  rw [placementEntry_placed h hp hk]
  exact (if_neg fun ha => hc ((Placement.any_meets_iff _ _).1 ha)).trans (if_neg hn)

end

end

end

theorem placements_address {s : State} {run : LoadRun} {u : Setup} (hu : run.setup = some u) (hp : run.phase = .placements) :
    loadAddress s run = u.placementList + 2 * run.entry + run.words.length := by
  simp only [loadAddress, hp, hu]

section
variable {s : State} {run : LoadRun} {u : Setup} (h : LoadReads s run) (hu : run.setup = some u) (hp : run.phase = .placements)
  (he : run.entry < u.placementCount)
include h hu hp he

/-- The first word of an entry is kept. -/
theorem placements_keeps (hw : run.words = []) :
    ∃ t, exec .loadReadAnswer s = .next t ∧
      LoadGoesOn s { run with words := [s.mem.readWord (u.placementList + 2 * run.entry)] } t := by
  have ha : loadAddress s run = u.placementList + 2 * run.entry := by
    rw [placements_address hu hp, hw]
    rfl
  refine loadRead_goesOn h (LoadRun.finished_none (.inr ⟨u, hu, he⟩)) ha ?_ rfl h.2.2.2.2 (LoadRun.finished_none (.inr ⟨u, hu, he⟩))
  simp only [State.takeLoadWord, hp, hu, State.takePlacementWord, hw, List.nil_append]

section
variable {w0 : Word} (hw : run.words = [w0])
include hw

/-- The last word of an entry fails its check. -/
theorem placements_fails {reason : Nat} (hr : placementEntry s u run.rowKinds run.placements w0
      (s.mem.readWord (u.placementList + 2 * run.entry + 1)) = .error reason) :
    ∃ t, exec .loadReadAnswer s = .next t ∧ LoadEndsRefused reason run.entry t := by
  have ha : loadAddress s run = u.placementList + 2 * run.entry + 1 := by
    rw [placements_address hu hp, hw]
    rfl
  refine loadRead_fails h (LoadRun.finished_none (.inr ⟨u, hu, he⟩)) ha ?_
  simp only [State.takeLoadWord, hp, hu, State.takePlacementWord, hw, hr]

/-- The last word of an entry gives its placement; after the last entry the LOAD ends DONE. -/
theorem placements_takes {p : Placement} (hr : placementEntry s u run.rowKinds run.placements w0
      (s.mem.readWord (u.placementList + 2 * run.entry + 1)) = .ok p) :
    (run.entry + 1 < u.placementCount →
      ∃ t, exec .loadReadAnswer s = .next t ∧ LoadGoesOn s { run with
        words := [], entry := run.entry + 1, placements := run.placements ++ [p] } t) ∧
    (run.entry + 1 = u.placementCount →
      ∃ t, exec .loadReadAnswer s = .next t ∧ LoadEndsDone s u (run.placements ++ [p]) t) := by
  have hn : run.finished = none := LoadRun.finished_none (.inr ⟨u, hu, he⟩)
  have ha : loadAddress s run = u.placementList + 2 * run.entry + 1 := by
    rw [placements_address hu hp, hw]
    rfl
  have ht : s.takeLoadWord run (s.mem.readWord (u.placementList + 2 * run.entry + 1)) = s.setRun { run with
      words := [], entry := run.entry + 1, placements := run.placements ++ [p] } := by
    simp only [State.takeLoadWord, hp, hu, State.takePlacementWord, hw, hr]
  refine ⟨fun hlt => loadRead_goesOn h hn ha ht rfl h.2.2.2.2 (LoadRun.finished_none (.inr ⟨u, hu, hlt⟩)), fun heq => ?_⟩
  exact loadRead_completes h hn ha
    (run' := { run with words := [], entry := run.entry + 1, placements := run.placements ++ [p] }) ht h.2.2.2.2
    (LoadRun.finished_eq hp h.2.2.2.2 hu (Nat.le_of_eq heq.symm))

end

end

end Sys2Proof.Machine
end

