-- ==== Sys2Proof/Proofs/LoadConfig.lean ====
section
/-!
PROOFS. The end of the CONFIGURATION phase of a LOAD: pointers, window descriptors and the clamped values of the setup (R27, R29, R193 to
R195, Tables 2-2, 10-4, 11-1 and 11-2).
-/

namespace Sys2Proof.Machine

-- Elaborated one after the other, the proofs hold less memory at once.
set_option Elab.async false

/-! ### Pointers (R195, R203) -/

theorem badPointer_iff (ws : List Word) (i n : Nat) :
    badPointer (cfgWord ws i) (cfgWord ws (i + 1)) n = true ↔ PointerBad ws i n := by
  have hh := (cfgWord ws i).isLt
  have htop : field (cfgWord ws i) 15 2 = (cfgWord ws i).toNat / 4 := by
    exact Nat.mod_eq_of_lt (Nat.div_lt_of_lt_mul hh)
  have haddr : addressOf (cfgWord ws i) (cfgWord ws (i + 1)) =
      (cfgWord ws i).toNat % 4 * 65536 + (cfgWord ws (i + 1)).toNat := by
    rw [addressOf, field_low]
    rfl
  rw [badPointer, Bool.or_eq_true, decide_eq_true_iff, decide_eq_true_iff, htop, haddr, PointerBad]
  omega

theorem pointerFailure_none {ws : List Word} (h : PointersGood ws) : pointerFailure ws = none := by
  obtain ⟨h1, h2, h3⟩ := h
  exact (if_neg fun e => h1 ((badPointer_iff ws 26 _).1 e)).trans
    ((if_neg fun e => h2 ((badPointer_iff ws 28 _).1 e)).trans (if_neg fun e => h3 ((badPointer_iff ws 31 _).1 e)))

theorem pointerFailure_directory {ws : List Word} (h : PointerBad ws 26 1024) : pointerFailure ws = some 0 :=
  if_pos ((badPointer_iff ws 26 _).2 h)

theorem pointerFailure_placements {ws : List Word} (h1 : ¬ PointerBad ws 26 1024)
    (h : PointerBad ws 28 (2 * min 1024 (cfgWord ws 30).toNat)) : pointerFailure ws = some 1 :=
  (if_neg fun e => h1 ((badPointer_iff ws 26 _).1 e)).trans (if_pos ((badPointer_iff ws 28 _).2 h))

theorem pointerFailure_rowMap {ws : List Word} (h1 : ¬ PointerBad ws 26 1024)
    (h2 : ¬ PointerBad ws 28 (2 * min 1024 (cfgWord ws 30).toNat)) (h : PointerBad ws 31 128) : pointerFailure ws = some 2 :=
  (if_neg fun e => h1 ((badPointer_iff ws 26 _).1 e)).trans
    ((if_neg fun e => h2 ((badPointer_iff ws 28 _).1 e)).trans (if_pos ((badPointer_iff ws 31 _).2 h)))

/-- A good pointer is the number its two words hold. -/
theorem addressOf_good {ws : List Word} {i n : Nat} (h : ¬ PointerBad ws i n) :
    addressOf (cfgWord ws i) (cfgWord ws (i + 1)) = (cfgWord ws i).toNat * 65536 + (cfgWord ws (i + 1)).toNat := by
  rw [PointerBad] at h
  rw [addressOf, field_low]
  omega

/-! ### Window descriptors (R27, Table 11-2) -/

theorem windowKindOf_eq_some {c : Nat} (hc : c < 4) (k : WindowKind) :
    windowKindOf c = some k ↔ (c, k) ∈ [(1, WindowKind.quote), (2, .text), (3, .bulletin)] := by
  cases k <;> interval_cases c <;> decide

theorem strideOf_eq {c : Nat} (hc : c < 4) (stride : Nat) :
    stride = strideOf c ↔ (c, stride) ∈ [(0, 0), (1, 4), (2, 8), (3, 16)] := by
  interval_cases c <;> simp [strideOf]

theorem presentOffset_eq (w : Word) (i v : Nat) :
    presentOffset (bit w i) v = if w.toNat / 2 ^ i % 2 = 1 then some v else none := by
  simp only [presentOffset, bit, getLsbD_eq_decide, decide_eq_true_iff]

theorem offsetsOf_eq (w5 w6 w7 : Word) :
    offsetsOf w5 w6 w7 =
      (let offset (bit v : Nat) : Option Nat := if w7.toNat / 2 ^ bit % 2 = 1 then some v else none
       { last := offset 0 (w5.toNat / 4096), size := offset 1 (w5.toNat / 256 % 16), close := offset 2 (w5.toNat / 16 % 16)
         chg := offset 3 (w5.toNat % 16), high := offset 4 (w6.toNat / 4096), low := offset 5 (w6.toNat / 256 % 16)
         flags := offset 6 (w6.toNat / 16 % 16), vol := offset 7 (w6.toNat % 16) }) := by
  have htop : ∀ w : Word, field w 15 12 = w.toNat / 4096 := fun w => by
    have := w.isLt
    show w.toNat / 4096 % 16 = _
    omega
  simp only [offsetsOf, presentOffset_eq, htop, field_low]
  rfl

/-- The window that a descriptor gives for a kind. -/
def describedWindow (ws : List Word) (n : Fin 8) (kind : WindowKind) : Window :=
  let w (i : Nat) : Word := cfgWord ws (60 + 8 * n.val + i)
  let quote := decide (kind = .quote)
  { index := n
    kind := kind
    base := addressOf (w 1) (w 2)
    length := (w 3).toNat
    stride := if quote then strideOf (field (w 1) 5 4) else 0
    firstSlot := if quote then field (w 4) 7 0 else 0
    offsets := if quote then offsetsOf (w 5) (w 6) (w 7) else noOffsets
    notify := if quote then field (w 0) 7 0 else 0 }

theorem windowOf_eq (ws : List Word) (n : Fin 8) :
    windowOf ws n = (windowKindOf (field (cfgWord ws (60 + 8 * n.val)) 9 8)).map (describedWindow ws n) := rfl

theorem windowOf_eq_some (ws : List Word) (n : Fin 8) (w : Window) : windowOf ws n = some w ↔ DescriptorIs ws n w := by
  rw [windowOf_eq, Option.map_eq_some_iff]
  show (∃ k, windowKindOf (field (cfgWord ws (60 + 8 * n.val + 0)) 9 8) = some k ∧ _) ↔ _
  unfold describedWindow DescriptorIs
  dsimp only
  rw [← offsetsOf_eq]
  generalize cfgWord ws (60 + 8 * n.val + 0) = w0, cfgWord ws (60 + 8 * n.val + 1) = w1, cfgWord ws (60 + 8 * n.val + 2) = w2,
    (cfgWord ws (60 + 8 * n.val + 3)).toNat = length, cfgWord ws (60 + 8 * n.val + 4) = w4, offsetsOf _ _ _ = offsets
  have hkind : ∀ k, windowKindOf (field w0 9 8) = some k ↔
      (w0.toNat / 256 % 4, k) ∈ [(1, WindowKind.quote), (2, .text), (3, .bulletin)] :=
    windowKindOf_eq_some (Nat.mod_lt _ (by decide))
  have hstride : w.stride = strideOf (field w1 5 4) ↔ (w1.toNat / 16 % 4, w.stride) ∈ [(0, 0), (1, 4), (2, 8), (3, 16)] :=
    strideOf_eq (Nat.mod_lt _ (by decide)) _
  have hbase : addressOf w1 w2 = w1.toNat % 4 * 65536 + w2.toNat := by
    rw [addressOf, field_low]
    rfl
  have hnotify : field w0 7 0 = w0.toNat % 256 := field_low _ 7
  have hfirst : field w4 7 0 = w4.toNat % 256 := field_low _ 7
  rw [← hkind, ← hstride, ← hbase, ← hnotify, ← hfirst]
  generalize strideOf (field w1 5 4) = stride, addressOf w1 w2 = base, field w0 7 0 = notify, field w4 7 0 = firstSlot
  clear hkind hstride hbase hnotify hfirst
  constructor
  · rintro ⟨k, hk, rfl⟩
    refine ⟨rfl, hk, rfl, rfl, fun hq => ?_, fun hq => ?_⟩
    · obtain rfl : k = .quote := hq
      exact ⟨rfl, rfl, rfl, rfl⟩
    · have hne : ¬ decide (k = .quote) = true := fun h => hq (of_decide_eq_true h)
      exact ⟨if_neg hne, if_neg hne, if_neg hne, if_neg hne⟩
  · rintro ⟨rfl, hk, rfl, rfl, hquote, hother⟩
    refine ⟨w.kind, hk, ?_⟩
    by_cases hq : w.kind = .quote
    · obtain ⟨rfl, rfl, rfl, rfl⟩ := hquote hq
      rw [hq]
      obtain ⟨index, kind, base, length, stride, firstSlot, offsets, notify⟩ := w
      obtain rfl : kind = .quote := hq
      rfl
    · obtain ⟨index, kind, base, length, _, _, _, _⟩ := w
      obtain ⟨rfl, rfl, rfl, rfl⟩ := hother hq
      have hne : ¬ decide (kind = .quote) = true := fun h => hq (of_decide_eq_true h)
      rw [if_neg hne, if_neg hne, if_neg hne, if_neg hne]
      rfl

/-! ### Window checks (R29, Table 2-2) -/

theorem Window.badGeometry_iff (w : Window) : w.badGeometry = true ↔ w.GeometryBad := by
  have hlines : (w.length % 24 ≠ 0 ∨ w.length < 24 ∨ 24 * 32 < w.length) ↔
      ∀ lines, 1 ≤ lines → lines ≤ 32 → w.length ≠ 24 * lines := by
    constructor
    · intro h lines h1 h2 e
      omega
    · intro h
      by_contra hn
      exact h (w.length / 24) (by omega) (by omega) (by omega)
  rw [Window.badGeometry, Window.GeometryBad, ← hlines, Bool.or_eq_true, decide_eq_true_iff]
  refine or_congr_right ?_
  cases w.kind <;> simp [or_assoc]

theorem rangesMeet_iff (b1 n1 b2 n2 : Nat) : rangesMeet b1 n1 b2 n2 = true ↔ b1 < b2 + n2 ∧ b2 < b1 + n1 := by
  rw [rangesMeet, Bool.and_eq_true, decide_eq_true_iff, decide_eq_true_iff]

theorem Window.overlaps_iff (anchor : Nat) (earlier : List Window) (w : Window) :
    w.overlaps anchor earlier = true ↔ w.OverlapBad anchor earlier := by
  simp only [Window.overlaps, Window.OverlapBad, Window.slotsMeet, Bool.or_eq_true, Bool.and_eq_true, decide_eq_true_iff,
    List.any_eq_true, rangesMeet_iff, and_assoc]

theorem allDistinct_iff (ns : List Nat) : allDistinct ns = true ↔ ns.Nodup := by
  induction ns with
  | nil => simp [allDistinct]
  | cons n ns ih => rw [allDistinct, Bool.and_eq_true, ih, List.nodup_cons, Bool.not_eq_true', List.contains_eq_mem, decide_eq_false_iff_not]

theorem Window.badOffsets_iff (w : Window) : w.badOffsets = true ↔ w.OffsetsBad := by
  rw [Window.badOffsets, Window.OffsetsBad, Bool.and_eq_true, decide_eq_true_iff, Bool.or_eq_true, Bool.or_eq_true,
    Option.isNone_iff_eq_none, List.any_eq_true, Bool.not_eq_true', ← Bool.not_eq_true, allDistinct_iff, or_assoc]
  simp only [decide_eq_true_iff]

theorem Window.limitBad_iff (earlier : List Window) (w : Window) :
    w.kind.limit ≤ (earlier.filter (fun v => decide (v.kind = w.kind))).length ↔ w.LimitBad earlier := by
  unfold Window.LimitBad
  cases w.kind <;> rfl

section
variable {anchor : Nat} {earlier : List Window} {w : Window}

theorem windowFailure_limit (h : w.LimitBad earlier) : windowFailure anchor earlier (some w) = some 1 :=
  if_pos ((w.limitBad_iff earlier).2 h)

section
variable (h1 : ¬ w.LimitBad earlier)
include h1

theorem windowFailure_geometry (h : w.GeometryBad) : windowFailure anchor earlier (some w) = some 2 :=
  (if_neg fun e => h1 ((w.limitBad_iff earlier).1 e)).trans (if_pos (w.badGeometry_iff.2 h))

variable (h2 : ¬ w.GeometryBad)
include h2

theorem windowFailure_overlap (h : w.OverlapBad anchor earlier) : windowFailure anchor earlier (some w) = some 3 :=
  (if_neg fun e => h1 ((w.limitBad_iff earlier).1 e)).trans
    ((if_neg fun e => h2 (w.badGeometry_iff.1 e)).trans (if_pos ((w.overlaps_iff anchor earlier).2 h)))

variable (h3 : ¬ w.OverlapBad anchor earlier)
include h3

theorem windowFailure_offsets (h : w.OffsetsBad) : windowFailure anchor earlier (some w) = some 4 :=
  (if_neg fun e => h1 ((w.limitBad_iff earlier).1 e)).trans
    ((if_neg fun e => h2 (w.badGeometry_iff.1 e)).trans
      ((if_neg fun e => h3 ((w.overlaps_iff anchor earlier).1 e)).trans (if_pos (w.badOffsets_iff.2 h))))

theorem windowFailure_none (h : ¬ w.OffsetsBad) : windowFailure anchor earlier (some w) = none :=
  (if_neg fun e => h1 ((w.limitBad_iff earlier).1 e)).trans
    ((if_neg fun e => h2 (w.badGeometry_iff.1 e)).trans
      ((if_neg fun e => h3 ((w.overlaps_iff anchor earlier).1 e)).trans (if_neg fun e => h (w.badOffsets_iff.1 e))))

end

end

/-! ### The descriptors in order -/

theorem allDescriptors_drop : ∀ n : Fin 8, allDescriptors.drop n.val = n :: allDescriptors.drop (n.val + 1) := by decide

theorem allDescriptors_take : ∀ n : Fin 8, allDescriptors.take (n.val + 1) = allDescriptors.take n.val ++ [n] := by decide

theorem enabledWindows_snoc (ws : List Word) (ns : List (Fin 8)) (n : Fin 8) {o : Option Window}
    (h : (if (cfgWord ws (60 + 8 * n.val)).getLsbD 15 then windowOf ws n else none) = o) :
    enabledWindows ws (ns ++ [n]) = enabledWindows ws ns ++ o.toList := by
  rw [enabledWindows, List.filterMap_append, ← enabledWindows]
  congr 1
  rw [List.filterMap_cons, h]
  cases o <;> rfl

section
variable {anchor : Nat} {ws : List Word}

/-- A descriptor that passes adds its window, when it is enabled. -/
theorem takeWindows_passes {n : Fin 8} (h : DescriptorPasses anchor ws n) :
    takeWindows anchor ws (allDescriptors.drop n.val) (enabledWindows ws (allDescriptors.take n.val)) =
      takeWindows anchor ws (allDescriptors.drop (n.val + 1)) (enabledWindows ws (allDescriptors.take (n.val + 1))) := by
  rw [allDescriptors_drop, allDescriptors_take, takeWindows]
  cases he : (cfgWord ws (60 + 8 * n.val)).getLsbD 15 with
  | false =>
    have hd : descriptorEnabled ws n = false := he
    rw [enabledWindows_snoc ws _ n (if_neg (by rw [he]; decide)), Option.toList_none, List.append_nil]
    simp only [hd, Bool.false_eq_true, if_false]
  | true =>
    have hd : descriptorEnabled ws n = true := he
    obtain ⟨w, hw, h1, h2, h3, h4⟩ := h he
    have hf := windowFailure_none (anchor := anchor) h1 h2 h3 h4
    rw [enabledWindows_snoc ws _ n ((if_pos he).trans hw), Option.toList_some]
    simp only [hd, if_true, hw, hf]

/-- The descriptors below a number that pass leave their windows to the checks of the rest. -/
theorem takeWindows_below (k : Nat) (hk : k ≤ 8) (h : ∀ m : Fin 8, m.val < k → DescriptorPasses anchor ws m) :
    takeWindows anchor ws allDescriptors [] =
      takeWindows anchor ws (allDescriptors.drop k) (enabledWindows ws (allDescriptors.take k)) := by
  induction k with
  | zero => rfl
  | succ k ih =>
    rw [ih (by omega) fun m hm => h m (by omega)]
    exact takeWindows_passes (n := ⟨k, by omega⟩) (h ⟨k, by omega⟩ (Nat.lt_succ_self k))

theorem takeWindows_good (h : ∀ n, DescriptorPasses anchor ws n) :
    takeWindows anchor ws allDescriptors [] = .ok (enabledWindows ws allDescriptors) :=
  takeWindows_below 8 (Nat.le_refl 8) fun m _ => h m

/-- The first descriptor that fails. -/
theorem takeWindows_fails {n : Fin 8} {reason : Nat} (h : ∀ m, m < n → DescriptorPasses anchor ws m)
    (he : (cfgWord ws (60 + 8 * n.val)).getLsbD 15 = true)
    (hf : windowFailure anchor (enabledWindows ws (allDescriptors.take n.val)) (windowOf ws n) = some reason) :
    takeWindows anchor ws allDescriptors [] = .error (reason, n.val) := by
  have hd : descriptorEnabled ws n = true := he
  rw [takeWindows_below n.val (Nat.le_of_lt n.isLt) fun m hm => h m hm, allDescriptors_drop, takeWindows]
  simp only [hd, if_true, hf]

end

theorem windowOf_none {ws : List Word} {n : Fin 8} (h : (cfgWord ws (60 + 8 * n.val)).toNat / 256 % 4 = 0) :
    windowOf ws n = none := by
  have hf : field (cfgWord ws (60 + 8 * n.val)) 9 8 = 0 := h
  rw [windowOf_eq, hf]
  rfl

end Sys2Proof.Machine
end

