-- ==== Sys2Proof/Proofs/LoadPhases.lean ====
section
/-!
PROOFS. The setup that a LOAD takes, the answer of its reads in every phase, and the refusal in the event of the word that fails a check
(R4, R27, R29, R65 to R68, R193 to R197).
-/

namespace Sys2Proof.Machine

-- Elaborated one after the other, the proofs hold less memory at once.
set_option Elab.async false

/-! ### The poll order list (R148) -/

theorem hiByte_toNat (w : Word) : (hiByte w).toNat = w.toNat / 256 := by
  have := w.isLt
  rw [hiByte, BitVec.extractLsb'_toNat, Nat.shiftRight_eq_div_pow]
  omega

theorem loByte_toNat (w : Word) : (loByte w).toNat = w.toNat % 256 := by
  rw [loByte, BitVec.extractLsb'_toNat, Nat.shiftRight_zero]

/-- The bytes of words, the high one first. -/
def bytesOf (ws : List Word) : List Nat := ws.flatMap (fun w => [(hiByte w).toNat, (loByte w).toNat])

theorem bytesOf_length (ws : List Word) : (bytesOf ws).length = 2 * ws.length := by
  induction ws with
  | nil => rfl
  | cons w ws ih =>
    rw [bytesOf, List.flatMap_cons, ← bytesOf, List.length_append, ih]
    simp only [List.length_cons, List.length_nil]
    omega

theorem bytesOf_getD (ws : List Word) : ∀ i, i < 2 * ws.length →
    (bytesOf ws).getD i 255 = if i % 2 = 0 then (ws.getD (i / 2) 0).toNat / 256 else (ws.getD (i / 2) 0).toNat % 256 := by
  induction ws with
  | nil => exact fun i hi => absurd hi (Nat.not_lt_zero i)
  | cons w ws ih =>
    intro i hi
    rw [bytesOf, List.flatMap_cons, ← bytesOf, hiByte_toNat, loByte_toNat]
    match i with
    | 0 => rfl
    | 1 => rfl
    | i + 2 =>
      rw [Nat.add_div_right i (by decide), Nat.add_mod_right, List.getD_cons_succ]
      exact ih i (Nat.lt_of_add_lt_add_right (hi : i + 2 < 2 * ws.length + 2))

theorem pollOf_eq (ws : List Word) : pollOf ws = (bytesOf ((ws.drop 20).take 16)).take (min 32 (cfgWord ws 43).toNat) := rfl

theorem pollOf_length {ws : List Word} (h : ws.length = 100) : (pollOf ws).length = min 32 (cfgWord ws 43).toNat := by
  rw [pollOf_eq, List.length_take, bytesOf_length, List.length_take, List.length_drop, h]
  exact Nat.min_eq_left (Nat.min_le_left _ _)

theorem pollOf_getD {ws : List Word} (h : ws.length = 100) {i : Nat} (hi : i < (pollOf ws).length) :
    (pollOf ws).getD i 255 =
      if i % 2 = 0 then (cfgWord ws (44 + i / 2)).toNat / 256 else (cfgWord ws (44 + i / 2)).toNat % 256 := by
  rw [pollOf_length h] at hi
  have hi32 : i < 2 * 16 := hi.trans_le (Nat.min_le_left _ _)
  have hlen : ((ws.drop 20).take 16).length = 16 := by
    rw [List.length_take, List.length_drop, h]
    rfl
  have hword : ((ws.drop 20).take 16).getD (i / 2) 0 = cfgWord ws (44 + i / 2) := by
    rw [List.getD_eq_getElem?_getD, List.getElem?_take_of_lt (Nat.div_lt_of_lt_mul hi32), List.getElem?_drop, cfgWord,
      List.getD_eq_getElem?_getD]
    rw [show 44 + i / 2 = 24 + (20 + i / 2) from Nat.add_assoc 24 20 _, Nat.add_sub_cancel_left]
  have htake : (pollOf ws).getD i 255 = (bytesOf ((ws.drop 20).take 16)).getD i 255 := by
    rw [pollOf_eq, List.getD_eq_getElem?_getD, List.getElem?_take_of_lt hi, List.getD_eq_getElem?_getD]
  rw [htake, bytesOf_getD _ i (by rw [hlen]; exact hi32), hword]

/-! ### The setup (R194, Tables 10-4 and 11-1) -/

theorem lineFunctionOf_mem {c : Nat} (h : c < 4) :
    (lineFunctionOf c, c) ∈ [(LineFunction.none, 0), (.openBell, 1), (.closeBell, 2), (.tapeHold, 3)] := by
  interval_cases c <;> decide

theorem setupOf_functions (ws : List Word) (windows : List Window) (l : LineId) :
    (vget (setupOf ws windows).functions l, (cfgWord ws 25).toNat / 256 / 4 ^ l.val % 4) ∈
      [(LineFunction.none, 0), (.openBell, 1), (.closeBell, 2), (.tapeHold, 3)] := by
  have hv : vget (setupOf ws windows).functions l = lineFunctionOf ((cfgWord ws 25).toNat / 256 / 4 ^ l.val % 4) := by
    have hdiv : (cfgWord ws 25).toNat / 256 / 4 ^ l.val % 4 = (cfgWord ws 25).toNat / (256 * 4 ^ l.val) % 4 := by
      rw [Nat.div_div_eq_div_mul]
    rw [hdiv]
    exact vget_four (fun l => lineFunctionOf ((cfgWord ws 25).toNat / (256 * 4 ^ l.val) % 4)) l
  rw [hv]
  exact lineFunctionOf_mem (Nat.mod_lt _ (by decide))

theorem field_high (w : Word) : field w 15 8 = w.toNat / 256 := by
  have := w.isLt
  show w.toNat / 256 % 256 = _
  omega

theorem setupOf_rows (ws : List Word) (windows : List Window) (l : LinkId) :
    vget (setupOf ws windows).rows l = min 32 ((cfgWord ws (38 + l.val)).toNat / 256) ∧
      (vget (setupOf ws windows).rows l ≠ 0 →
        vget (setupOf ws windows).cols l = max 8 (min 48 ((cfgWord ws (38 + l.val)).toNat % 256))) := by
  have hrows : vget (setupOf ws windows).rows l = rowsOf ws l := vget_four (rowsOf ws) l
  have hcols : vget (setupOf ws windows).cols l = colsOf ws l := vget_four (colsOf ws) l
  rw [hrows, hcols]
  refine ⟨congrArg (min 32) (field_high _), fun h => ?_⟩
  rw [colsOf, if_neg h, field_low]
  rfl

/-- The values of the setup, clamped. -/
theorem setupOf_values {ws : List Word} (hl : ws.length = 100) (h : PointersGood ws) (windows : List Window) :
    (let u := setupOf ws windows
     u.windows = windows ∧ u.mask = cfgWord ws 24 ∧
     u.feedTimeout = (cfgWord ws 25).toNat % 256 ∧
     (∀ l : LineId, (vget u.functions l, (cfgWord ws 25).toNat / 256 / 4 ^ l.val % 4) ∈
       [(LineFunction.none, 0), (.openBell, 1), (.closeBell, 2), (.tapeHold, 3)]) ∧
     u.directory = (cfgWord ws 26).toNat * 65536 + (cfgWord ws 27).toNat ∧
     u.placementList = (cfgWord ws 28).toNat * 65536 + (cfgWord ws 29).toNat ∧
     u.placementCount = min 1024 (cfgWord ws 30).toNat ∧
     u.rowMap = (cfgWord ws 31).toNat * 65536 + (cfgWord ws 32).toNat ∧
     u.pace = max 4 (min 30 (cfgWord ws 33).toNat) ∧
     u.threshold = (if cfgWord ws 34 = 0 then 100 else (cfgWord ws 34).toNat) ∧
     u.back = min 65533 (cfgWord ws 37).toNat ∧
     u.late1 = max (u.back + 1) (min 65534 (cfgWord ws 35).toNat) ∧
     u.late2 = max (u.late1 + 1) (cfgWord ws 36).toNat ∧
     (∀ l : LinkId, vget u.rows l = min 32 ((cfgWord ws (38 + l.val)).toNat / 256) ∧
       (vget u.rows l ≠ 0 → vget u.cols l = max 8 (min 48 ((cfgWord ws (38 + l.val)).toNat % 256)))) ∧
     u.blinkTenths = (cfgWord ws 42).toNat % 256 ∧ u.sweepSeconds = (cfgWord ws 42).toNat / 256 ∧
     u.poll.length = min 32 (cfgWord ws 43).toNat ∧
     ∀ i, i < u.poll.length → u.poll.getD i 255 =
       if i % 2 = 0 then (cfgWord ws (44 + i / 2)).toNat / 256 else (cfgWord ws (44 + i / 2)).toNat % 256) :=
  ⟨rfl, rfl, field_low _ 7, setupOf_functions ws windows, addressOf_good h.1, addressOf_good h.2.1, rfl, addressOf_good h.2.2, rfl,
    rfl, rfl, rfl, rfl, setupOf_rows ws windows, field_low _ 7, field_high _, pollOf_length hl, fun _ => pollOf_getD hl⟩

/-! ### The CONFIGURATION phase (R193) -/

theorem config_last {s : State} {run : LoadRun} (hp : run.phase = .configuration) (hl : run.words.length = 99) :
    (let ws := run.words ++ [s.mem.readWord (s.bp.anchor.toNat + 123)]
     loadAddress s run = s.bp.anchor.toNat + 123 ∧ ws.length = 100 ∧
     (∀ e, configResult s.bp.anchor.toNat ws = .error e →
       s.takeLoadWord run (s.mem.readWord (s.bp.anchor.toNat + 123)) = s.setRun (run.fail e.1 e.2)) ∧
     ∀ u, configResult s.bp.anchor.toNat ws = .ok u →
       s.takeLoadWord run (s.mem.readWord (s.bp.anchor.toNat + 123)) =
         s.setRun { run with phase := .directory, words := [], entry := 0, setup := some u }) := by
  have hlen : ∀ w, (run.words ++ [w]).length = 100 := fun w => by
    rw [List.length_append, List.length_singleton]
    omega
  have hnot : ∀ w, ¬ (run.words ++ [w]).length < 100 := fun w => by
    rw [hlen]
    omega
  refine ⟨?_, hlen _, fun e he => ?_, fun u hu => ?_⟩
  · simp only [loadAddress, hp]
    omega
  · simp only [State.takeLoadWord, hp, State.takeConfigWord, if_neg (hnot _), he]
  · simp only [State.takeLoadWord, hp, State.takeConfigWord, if_neg (hnot _), hu]
    rfl

section
variable {s : State} {run : LoadRun} (h : LoadReads s run) (hp : run.phase = .configuration)
include h hp

/-- A configuration word before the hundredth is kept. -/
theorem config_keeps (hl : run.words.length < 99) :
    ∃ t, exec .loadReadAnswer s = .next t ∧ LoadGoesOn s { run with
      words := run.words ++ [s.mem.readWord (s.bp.anchor.toNat + 24 + run.words.length)] } t := by
  have ha : loadAddress s run = s.bp.anchor.toNat + 24 + run.words.length := by simp only [loadAddress, hp]
  have hlen : ∀ w, (run.words ++ [w]).length < 100 := fun w => by
    rw [List.length_append, List.length_singleton]
    omega
  refine loadRead_goesOn h (LoadRun.finished_none (.inl (by rw [hp]; rintro ⟨⟩))) ha ?_ rfl h.2.2.2.2
    (LoadRun.finished_none (.inl (by show run.phase ≠ _; rw [hp]; rintro ⟨⟩)))
  simp only [State.takeLoadWord, hp, State.takeConfigWord, if_pos (hlen _)]

section
variable (hl : run.words.length = 99)
include hl

/-- The hundredth word fails a check. -/
theorem config_fails {reason index : Nat}
    (he : configResult s.bp.anchor.toNat (run.words ++ [s.mem.readWord (s.bp.anchor.toNat + 123)]) = .error (reason, index)) :
    ∃ t, exec .loadReadAnswer s = .next t ∧ LoadEndsRefused reason index t := by
  obtain ⟨ha, -, herr, -⟩ := config_last hp hl
  exact loadRead_fails h (LoadRun.finished_none (.inl (by rw [hp]; rintro ⟨⟩))) ha (herr _ he)

/-- The hundredth word passes the checks and the DIRECTORY phase begins with the setup. -/
theorem config_ends
    (hg : PointersGood (run.words ++ [s.mem.readWord (s.bp.anchor.toNat + 123)]))
    (hw : ∀ n, DescriptorPasses s.bp.anchor.toNat (run.words ++ [s.mem.readWord (s.bp.anchor.toNat + 123)]) n) :
    (let ws := run.words ++ [s.mem.readWord (s.bp.anchor.toNat + 123)]
     ws.length = 100 ∧ ∃ t, exec .loadReadAnswer s = .next t ∧
       LoadGoesOn s { run with
         phase := .directory, words := [], entry := 0, setup := some (setupOf ws (enabledWindows ws allDescriptors)) } t) := by
  obtain ⟨ha, hlen, -, hok⟩ := config_last hp hl
  refine ⟨hlen, loadRead_goesOn h (LoadRun.finished_none (.inl (by rw [hp]; rintro ⟨⟩))) ha (hok _ ?_) rfl h.2.2.2.2
    (LoadRun.finished_none (.inl (by rintro ⟨⟩)))⟩
  rw [configResult, pointerFailure_none hg, takeWindows_good hw]

end

end

theorem configResult_pointer {anchor : Nat} {ws : List Word} {i : Nat} (h : pointerFailure ws = some i) :
    configResult anchor ws = .error (13, i) := by
  rw [configResult, h]

theorem configResult_window {anchor : Nat} {ws : List Word} {n : Fin 8} {reason : Nat} (hg : PointersGood ws)
    (h : ∀ m, m < n → DescriptorPasses anchor ws m) (he : (cfgWord ws (60 + 8 * n.val)).getLsbD 15 = true)
    (hf : windowFailure anchor (enabledWindows ws (allDescriptors.take n.val)) (windowOf ws n) = some reason) :
    configResult anchor ws = .error (reason, n.val) := by
  rw [configResult, pointerFailure_none hg, takeWindows_fails h he hf]

/-! ### The reads of every phase -/

/-- Settles O43: the reads of the phases, by `State.takeLoadWord`. -/
theorem loadReadTakesWord : Obligations.LoadReadTakesWord := by
  refine ⟨windowOf_eq_some, fun s run h => ⟨config_keeps h, fun hp hl hg hw => ?_, fun u hu hp hl => directory_keeps h hu hp hl,
    fun u w0 w1 w2 n r hu hp hw he => ?_, fun u l row kind hu hp hr he hk hs hw => ?_,
    fun u hu hp hw he => placements_keeps h hu hp he hw, fun u w0 kind hu hp hw he hk hs hplace hcell hcount => ?_⟩⟩
  · obtain ⟨hlen, t, hx, ht⟩ := config_ends h hp hl hg hw
    exact ⟨t, _, hx, ht, setupOf_values hlen hg _⟩
  · intro hr
    refine directory_takes h hu hp hw he ?_
    obtain ⟨h15, rfl⟩ | ⟨name, base, h15, hname, hbase, hnew, rfl⟩ := hr
    · exact directoryEntry_unused h15
    · refine directoryEntry_listed h15 (baseOf_eq_some hbase) ((nameOf_eq_some w0 w1 name).2 hname) (Bool.eq_false_iff.2 fun ht => ?_)
      obtain ⟨m, hm, hu', hn⟩ := (nameTaken_iff s n name).1 ht
      exact hnew m hm hu' hn
  · refine rowMap_takes h hu hp ?_
    rw [he] at hk ⊢
    exact rowKindOf_eq hr hk hs hw
  · exact placements_takes h hu hp he hw (placementEntry_good hs hplace (fieldKindOf_eq hk) hcell hcount)

/-- Settles O45: the refusal is `State.unloaded`, in the event of the word that fails its check. -/
theorem loadIsRefused : Obligations.LoadIsRefused := by
  refine ⟨fun s run reason index hpin hidle hp hf => exec_loadRefused hpin hidle hp hf, fun s run h =>
    ⟨fun hp hl => ⟨fun h1 => ?_, fun h1 h2 => ?_, fun h1 h2 h3 => ?_, fun n hg hm he => ⟨fun h0 => ?_, fun w hw => ⟨fun h1 => ?_,
      fun h1 h2 => ?_, fun h1 h2 h3 => ?_, fun h1 h2 h3 h4 => ?_⟩⟩⟩,
    fun u w0 w1 w2 n hu hp hw he => ?_, fun u l row hu hp hlt hr he hk => ?_, fun u w0 kind hu hp hw he => ?_⟩⟩
  · exact config_fails h hp hl (configResult_pointer (pointerFailure_directory h1))
  · exact config_fails h hp hl (configResult_pointer (pointerFailure_placements h1 h2))
  · exact config_fails h hp hl (configResult_pointer (pointerFailure_rowMap h1 h2 h3))
  · exact config_fails h hp hl (configResult_window hg hm he (by rw [windowOf_none h0]; rfl))
  · exact config_fails h hp hl (configResult_window hg hm he (by rw [hw]; exact windowFailure_limit h1))
  · exact config_fails h hp hl (configResult_window hg hm he (by rw [hw]; exact windowFailure_geometry h1 h2))
  · exact config_fails h hp hl (configResult_window hg hm he (by rw [hw]; exact windowFailure_overlap h1 h2 h3))
  · exact config_fails h hp hl (configResult_window hg hm he (by rw [hw]; exact windowFailure_offsets h1 h2 h3 h4))
  · intro w3 code h15
    refine ⟨fun h8 h16 h32 => ?_, fun hcode hname => ?_, fun name m hcode hname hm hs hn => ?_⟩
    · exact directory_fails h hu hp hw he (directoryEntry_badBase h15 (baseOf_none h8 h16 h32))
    · obtain ⟨base, hb⟩ := baseOf_isSome hcode
      refine directory_fails h hu hp hw he (directoryEntry_badName h15 hb (Option.eq_none_iff_forall_ne_some.2 fun name hn => ?_))
      exact hname name ((nameOf_eq_some w0 w1 name).1 hn)
    · obtain ⟨base, hb⟩ := baseOf_isSome hcode
      exact directory_fails h hu hp hw he (directoryEntry_twice h15 hb ((nameOf_eq_some w0 w1 name).2 hname)
        ((nameTaken_iff s n name).2 ⟨m, hm, hs, hn⟩))
  · refine rowMap_fails h hu hp ?_
    rw [he] at hk ⊢
    exact rowKindOf_none ((usedRow_iff u l hr).2 hlt) hk
  · intro w1 p
    refine ⟨fun hs => ?_, fun hs hb => ?_, fun hs h0 hb hc => ?_, fun hs h0 hb hc hn => ?_⟩
    · exact placements_fails h hu hp he hw (placementEntry_unused hs)
    · exact placements_fails h hu hp he hw (placementEntry_badPlace hs hb)
    · exact placements_fails h hu hp he hw (placementEntry_badCell hs hb h0 hc)
    · exact placements_fails h hu hp he hw (placementEntry_badCount hs hb h0 hc hn)

end Sys2Proof.Machine
end
